-- ==== Sys2Proof/Word.lean ====
section
/-! DEFINITION. The word types of the descriptor ring manager (00_scope R13: every value is unsigned and has a
stated width, bit 0 is the least significant). -/

namespace Sys2Proof

/-- `u8`: one byte of DMA memory, a descriptor's status or command byte (R13, R105). -/
abbrev Byte := BitVec 8

/-- `u16`: a descriptor's length, checksum and special fields (R105, R106). -/
abbrev Half := BitVec 16

/-- `u32`: register values and offsets, ring indices, ring bases (R13, D30). -/
abbrev Word := BitVec 32

/-- `u64`: bus addresses, buffer handles, the dropped-frame counter (R73, D30). -/
abbrev DWord := BitVec 64

/-- `CW`, the 104-bit command word (30_encoding R100). -/
abbrev CmdWord := BitVec 104

end Sys2Proof
end

