-- ==== Sys2Proof/Config.lean ====
section
/-! DEFINITION. What an implementation fixes: the configuration record `Cfg` (00_scope R7 to R12) with its default
values, the register map, and the free values of the model. -/

namespace Sys2Proof

/-- The station address, six bytes, `b0` first on the wire (00_scope R8, 10_state R21). -/
structure Mac where
  b0 : Byte
  b1 : Byte
  b2 : Byte
  b3 : Byte
  b4 : Byte
  b5 : Byte
  deriving DecidableEq, Repr

/-- The named registers of the memory-mapped region (10_state R41 to R60), one name each; the multicast table is one
name per entry. -/
inductive NicReg where
  | ctrl | status | icr | ims | imc | rctl | tctl | tipg
  | rdbal | rdbah | rdlen | rdh | rdt | rdtr | radv
  | tdbal | tdbah | tdlen | tdh | tdt
  | ral0 | rah0 | manc
  /-- Entry `i` of the multicast-table array (R58). -/
  | mta (i : Nat)
  deriving DecidableEq, Repr

/-- Every named register but the multicast table (R9). -/
def NicReg.scalars : List NicReg :=
  [.ctrl, .status, .icr, .ims, .imc, .rctl, .tctl, .tipg,
   .rdbal, .rdbah, .rdlen, .rdh, .rdt, .rdtr, .radv,
   .tdbal, .tdbah, .tdlen, .tdh, .tdt, .ral0, .rah0, .manc]

/-- The configuration record: every quantity the source leaves to the implementation (00_scope R7), fixed before block
reset and never changed. DESIGN CHOICE: State carries it, since `exec` has no other argument for it
(notes/assumptions/1.md). The default values are the ones the spec lists; PRESUMED where the spec marks them as general
knowledge (notes/assumptions/2.md). -/
structure Cfg where
  /-- `N_TX` (R8). DESIGN CHOICE 8, one of the source's two examples (notes/assumptions/1.md). -/
  nTx : Nat := 8
  /-- `N_RX` (R8). DESIGN CHOICE 8 (notes/assumptions/1.md). -/
  nRx : Nat := 8
  /-- `BLOCK_SIZE` (R8). DESIGN CHOICE 2048 (notes/assumptions/1.md). -/
  blockSize : Nat := 2048
  /-- `DESC_SIZE` (R8), bytes per descriptor of either kind. -/
  descSize : Nat := 16
  /-- `RX_BUF_SIZE` (R8). -/
  rxBufSize : Word := 2048
  /-- `ETH_ZLEN` (R8). -/
  ethZlen : Nat := 60
  /-- `MTA_ENTRIES` (R8). -/
  mtaEntries : Nat := 128
  /-- `RX_TAIL_INIT` (R8, R162): `N_RX - 1`, the spec's decision D12. -/
  rxTailInit : Word := BitVec.ofNat 32 (nRx - 1)
  /-- `MAC` (R8). -/
  mac : Mac := ⟨0x52, 0x54, 0x00, 0x12, 0x34, 0x56⟩
  /-- `IRQ_LINE` (R8). DESIGN CHOICE 0 (notes/assumptions/1.md). -/
  irqLine : Word := 0
  /-- `VENDOR_ID` (R8, R2): no rule reads it. -/
  vendorId : Half := 0x8086
  /-- `DEVICE_ID` (R8, R2): no rule reads it. -/
  deviceId : Half := 0x100E
  -- Register offsets (R9).
  regCtrl : Word := 0x00000
  regStatus : Word := 0x00008
  regIcr : Word := 0x000C0
  regIms : Word := 0x000D0
  regImc : Word := 0x000D8
  regRctl : Word := 0x00100
  regTctl : Word := 0x00400
  regTipg : Word := 0x00410
  regRdbal : Word := 0x02800
  regRdbah : Word := 0x02804
  regRdlen : Word := 0x02808
  regRdh : Word := 0x02810
  regRdt : Word := 0x02818
  regRdtr : Word := 0x02820
  regRadv : Word := 0x0282C
  regTdbal : Word := 0x03800
  regTdbah : Word := 0x03804
  regTdlen : Word := 0x03808
  regTdh : Word := 0x03810
  regTdt : Word := 0x03818
  /-- `REG_MTA`: entry `i` is at `REG_MTA + 4*i` (R9). -/
  regMta : Word := 0x05200
  regRal0 : Word := 0x05400
  regRah0 : Word := 0x05404
  regManc : Word := 0x05820
  /-- `MMIO_SIZE`, the size in bytes of the memory-mapped region (R9). -/
  mmioSize : Nat := 0x20000
  /-- `IO_ADDR`, the offset of the index port (R9). -/
  ioAddr : Word := 0x0
  /-- `IO_DATA`, the offset of the data port (R9). -/
  ioData : Word := 0x4
  /-- `IO_SIZE` (R9): no rule reads it. -/
  ioSize : Nat := 0x8
  -- Register field masks and values (R10).
  ctrlRst : Word := 0x04000000
  rctlEn : Word := 0x00000002
  rctlBam : Word := 0x00008000
  rctlSz2048 : Word := 0x00000000
  rctlSecrc : Word := 0x04000000
  tctlEn : Word := 0x00000002
  tctlPsp : Word := 0x00000008
  tctlCtShift : Nat := 4
  tctlColdShift : Nat := 12
  tctlCtValue : Word := 0x10
  tctlColdValue : Word := 0x40
  mancArpEn : Word := 0x00002000
  rahAv : Word := 0x80000000
  icrTxdw : Word := 0x00000001
  icrLsc : Word := 0x00000004
  icrRxseq : Word := 0x00000008
  icrRxdmt0 : Word := 0x00000010
  icrRxt0 : Word := 0x00000080
  tipgValue : Word := 0x00602008
  imcAll : Word := 0xFFFFFFFF
  -- Descriptor field masks (R11).
  txdCmdEop : Byte := 0x01
  txdCmdRs : Byte := 0x08
  txdStatDd : Byte := 0x01
  rxdStatDd : Byte := 0x01
  /-- `DELAY_SETTLE_MS` (R12), a lower bound. -/
  delaySettleMs : Nat := 10
  /-- `DELAY_RELOAD_MS` (R12), a lower bound. -/
  delayReloadMs : Nat := 5
  deriving DecidableEq, Repr

/-- The byte offset of a named register (R9). -/
def Cfg.offset (c : Cfg) : NicReg → Word
  | .ctrl => c.regCtrl
  | .status => c.regStatus
  | .icr => c.regIcr
  | .ims => c.regIms
  | .imc => c.regImc
  | .rctl => c.regRctl
  | .tctl => c.regTctl
  | .tipg => c.regTipg
  | .rdbal => c.regRdbal
  | .rdbah => c.regRdbah
  | .rdlen => c.regRdlen
  | .rdh => c.regRdh
  | .rdt => c.regRdt
  | .rdtr => c.regRdtr
  | .radv => c.regRadv
  | .tdbal => c.regTdbal
  | .tdbah => c.regTdbah
  | .tdlen => c.regTdlen
  | .tdh => c.regTdh
  | .tdt => c.regTdt
  | .ral0 => c.regRal0
  | .rah0 => c.regRah0
  | .manc => c.regManc
  | .mta i => c.regMta + BitVec.ofNat 32 (4 * i)

/-- `off` lies on an entry of the multicast table (R9). -/
def Cfg.inMta (c : Cfg) (off : Word) : Bool :=
  decide (c.regMta.toNat ≤ off.toNat) && decide (off.toNat < c.regMta.toNat + 4 * c.mtaEntries) &&
    decide ((off.toNat - c.regMta.toNat) % 4 = 0)

/-- The named register at an offset, or none where the offset names no register (R9, R71, 93 U3). -/
def Cfg.regAt (c : Cfg) (off : Word) : Option NicReg :=
  match NicReg.scalars.find? (fun r => c.offset r == off) with
  | some r => some r
  | none => if c.inMta off then some (.mta ((off.toNat - c.regMta.toNat) / 4)) else none

namespace Config

/-- FREE VALUE: the 32-bit value the NIC answers where the spec says 'any value' (93 U3, U6; 45_device_agent R241, R245),
and the length and the 16-bit fields of a frame it receives in a settling delay (R243). Nothing constrains it
(notes/assumptions/7.md). -/
opaque freeWord : Nat → Word

/-- FREE VALUE: the other bits of a status byte the NIC writes with Done set, and the bytes and the errors byte of a frame
it receives in a settling delay (45_device_agent R242, R243; notes/assumptions/7.md). -/
opaque freeByte : Nat → Byte

/-- FREE VALUE: a choice left to the NIC: whether a write that reaches it while it resets is applied (93 U6), whether it
sets an optional cause (45_device_agent R242, R243), whether a frame it receives in a settling delay is addressed to the
station address or to broadcast (notes/assumptions/7.md). -/
opaque freeBool : Nat → Bool

/-- FREE VALUE: what a named register holds after the NIC's global reset (45_device_agent R245;
notes/assumptions/7.md). -/
opaque freeReg : Nat → NicReg → Word

end Config

end Sys2Proof
end

