-- ==== Sys2Proof/Syntax.lean ====
section
/-! DEFINITION. The fifteen commands of DRM, one constructor per row of the command table (30_encoding R101), operands
in the order and at the widths of their format (R102). -/

namespace Sys2Proof

/-- The complete command set (30_encoding R101). -/
inductive Instr where
  /-- `READ32 offset` (0x01, format O; 40_register_access R131). -/
  | read32 (offset : Word)
  /-- `WRITE32 value, offset` (0x02, format VO; 40_register_access R132). -/
  | write32 (value offset : Word)
  /-- `WRITE_FLUSH` (0x03, format Z; 40_register_access R133). -/
  | writeFlush
  /-- `WRITE_IO value, offset` (0x04, format VO; 40_register_access R134). -/
  | writeIo (value offset : Word)
  /-- `RING_INIT tx_base, rx_base` (0x10, format AB; 42_ring_manager R181). -/
  | ringInit (txBase rxBase : Word)
  /-- `RESET` (0x11, format Z; 41_reset_configure R151). -/
  | reset
  /-- `CONFIGURE` (0x12, format Z; 41_reset_configure R160). -/
  | configure
  /-- `START` (0x13, format Z; 41_reset_configure R168). -/
  | start
  /-- `STOP` (0x14, format Z; 41_reset_configure R170). -/
  | stop
  /-- `DETACH` (0x15, format Z; 41_reset_configure R172). -/
  | detach
  /-- `SUBMIT len, buf` (0x20, format P; 43_tx_path R201). -/
  | submit (len : Word) (buf : DWord)
  /-- `RECYCLE` (0x21, format Z; 43_tx_path R210). -/
  | recycle
  /-- `IRQ` (0x30, format Z; 44_rx_poll_irq R220). -/
  | irq
  /-- `POLL budget` (0x31, format B; 44_rx_poll_irq R225). -/
  | poll (budget : Word)
  /-- `READ_STATS` (0x32, format Z; 44_rx_poll_irq R230). -/
  | readStats
  deriving DecidableEq, Repr

end Sys2Proof
end

