-- ==== Sys2Proof/WellFormed.lean ====
section
/-! DEFINITION. The checks on syntax and configuration: the must-be-zero bits of a command word (30_encoding R102,
R108), and the constraints on `Cfg` (00_scope R8 to R11). The operands of an `Instr` carry their widths in their types,
so every `Instr` is well formed; what can be ill formed is a command word or a configuration. -/

namespace Sys2Proof

/-- The operand formats of R102. -/
inductive Format where
  | z | o | vo | ab | p | b
  deriving DecidableEq, Repr

/-- The format of an opcode, none for an opcode outside R101. -/
def formatOf (op : Byte) : Option Format :=
  match op.toNat with
  | 0x01 => some .o
  | 0x02 => some .vo
  | 0x03 => some .z
  | 0x04 => some .vo
  | 0x10 => some .ab
  | 0x11 => some .z
  | 0x12 => some .z
  | 0x13 => some .z
  | 0x14 => some .z
  | 0x15 => some .z
  | 0x20 => some .p
  | 0x21 => some .z
  | 0x30 => some .z
  | 0x31 => some .b
  | 0x32 => some .z
  | _ => none

/-- The must-be-zero bits of a format, as a mask over the 96 operand bits `arg0 ++ arg1` (R102). -/
def Format.mustBeZero : Format → BitVec 96
  | .z => 0xFFFFFFFFFFFFFFFFFFFFFFFF#96
  | .o => 0x00000000FFFFFFFFFFFFFFFF#96
  | .vo => 0x00000000FFFFFFFF00000000#96
  | .ab => 0x00000000FFFFFFFF00000000#96
  | .p => 0x000000000000000000000000#96
  | .b => 0x00000000FFFFFFFFFFFFFFFF#96

namespace CmdWord

/-- `op`, bits 103:96 of a command word (R100). -/
def op (w : CmdWord) : Byte := w.extractLsb' 96 8

/-- `arg0`, bits 95:64 (R100). -/
def arg0 (w : CmdWord) : Word := w.extractLsb' 64 32

/-- `arg1`, bits 63:0 (R100). -/
def arg1 (w : CmdWord) : DWord := w.extractLsb' 0 64

/-- `arg1[31:0]`, the second operand of formats VO and AB (R102). -/
def arg1Low (w : CmdWord) : Word := w.extractLsb' 0 32

/-- A word with a known opcode whose must-be-zero bits are 0 (R102, R108). -/
def legal (w : CmdWord) : Bool :=
  match formatOf (op w) with
  | none => false
  | some f => (w.extractLsb' 0 96 &&& f.mustBeZero) == 0

end CmdWord

/-- Well-formedness of a command: no check is left, since each operand's type is its width (R102). -/
def Instr.wf : Instr → Bool
  | .read32 _ => true
  | .write32 _ _ => true
  | .writeFlush => true
  | .writeIo _ _ => true
  | .ringInit _ _ => true
  | .reset => true
  | .configure => true
  | .start => true
  | .stop => true
  | .detach => true
  | .submit _ _ => true
  | .recycle => true
  | .irq => true
  | .poll _ => true
  | .readStats => true

/-- The ring and buffer constraints of R8 (decision D32); a descriptor of either kind is 16 bytes (30_encoding R104). -/
def Cfg.sizesOk (c : Cfg) : Bool :=
  decide (c.descSize = 16) && decide (2 ≤ c.nTx) && decide (2 ≤ c.nRx) && decide (c.nTx * c.descSize < 2 ^ 32) &&
    decide (c.nRx * c.descSize < 2 ^ 32) && decide (c.ethZlen ≤ c.blockSize) && decide (c.blockSize ≤ 65535)

/-- The offsets of the named registers other than the multicast table. -/
def Cfg.scalarOffsets (c : Cfg) : List Word := NicReg.scalars.map c.offset

/-- The register-map constraints of R9: every `REG_*`, `REG_MTA` among them, distinct, a multiple of 4 and inside the
region; the multicast table overlaps no other named register. DESIGN CHOICE: R9 asks of `REG_MTA` only that the offset be
inside the region; here the whole table is, and it ends at 2^32 at the latest. DESIGN CHOICE: the spec gives `MTA_ENTRIES`
no lower bound (R8, 93 S-H); the model gives none either, and a table with no entry keeps the constraints on its offset
(notes/assumptions/27.md). -/
def Cfg.mapOk (c : Cfg) : Bool :=
  decide c.scalarOffsets.Nodup &&
    c.scalarOffsets.all (fun o => decide (o.toNat % 4 = 0) && decide (o.toNat < c.mmioSize)) &&
    decide (c.regMta ∉ c.scalarOffsets) && decide (c.regMta.toNat % 4 = 0) && decide (c.regMta.toNat < c.mmioSize) &&
    decide (c.regMta.toNat + 4 * c.mtaEntries ≤ c.mmioSize) && decide (c.regMta.toNat + 4 * c.mtaEntries ≤ 2 ^ 32) &&
    c.scalarOffsets.all (fun o => !c.inMta o)

/-- The cause masks of R10. -/
def Cfg.causes (c : Cfg) : List Word := [c.icrTxdw, c.icrLsc, c.icrRxseq, c.icrRxdmt0, c.icrRxt0]

/-- The register-field constraints of R10. -/
def Cfg.masksOk (c : Cfg) : Bool :=
  c.causes.all (· != 0) && decide (c.causes.Pairwise (fun a b => a &&& b = 0)) &&
    c.rctlEn != 0 && c.tctlEn != 0 && c.ctrlRst != 0 && c.mancArpEn != 0 && c.rahAv != 0 &&
    (c.rctlSz2048 &&& (c.rctlEn ||| c.rctlBam ||| c.rctlSecrc)) == 0

/-- The descriptor-field constraints of R11. -/
def Cfg.descOk (c : Cfg) : Bool :=
  c.txdCmdEop != 0 && c.txdCmdRs != 0 && c.txdStatDd != 0 && c.rxdStatDd != 0 && (c.txdCmdEop &&& c.txdCmdRs) == 0

/-- Every constraint a model must require of `Cfg` (00_scope R8 to R11). -/
def Cfg.wf (c : Cfg) : Bool := c.sizesOk && c.mapOk && c.masksOk && c.descOk

end Sys2Proof
end

