-- ==== Sys2Proof/Decode.lean ====
section
/-! DEFINITION. Decoding of command words (30_encoding R100 to R102, R108), total on any word and on any bytes, refusing
by name; and the encoder, from the same table. -/

namespace Sys2Proof

/-- Why a command word or a string of bytes is no command. Every reason is answered `ILLEGAL_COMMAND` on the command port
(R108). -/
inductive DecodeError where
  /-- The opcode is not one of R101. -/
  | unknownOpcode (op : Byte)
  /-- A must-be-zero operand bit is 1 (R102). -/
  | nonzeroMustBeZero (op : Byte)
  /-- A command is thirteen bytes, no more and no fewer (R100). -/
  | wrongLength (bytes : Nat)
  deriving DecidableEq, Repr

/-- The command of an opcode, operands taken from the word as its format places them (R101, R102). -/
def commandOf (w : CmdWord) : Option Instr :=
  match (CmdWord.op w).toNat with
  | 0x01 => some (.read32 (CmdWord.arg0 w))
  | 0x02 => some (.write32 (CmdWord.arg0 w) (CmdWord.arg1Low w))
  | 0x03 => some .writeFlush
  | 0x04 => some (.writeIo (CmdWord.arg0 w) (CmdWord.arg1Low w))
  | 0x10 => some (.ringInit (CmdWord.arg0 w) (CmdWord.arg1Low w))
  | 0x11 => some .reset
  | 0x12 => some .configure
  | 0x13 => some .start
  | 0x14 => some .stop
  | 0x15 => some .detach
  | 0x20 => some (.submit (CmdWord.arg0 w) (CmdWord.arg1 w))
  | 0x21 => some .recycle
  | 0x30 => some .irq
  | 0x31 => some (.poll (CmdWord.arg0 w))
  | 0x32 => some .readStats
  | _ => none

/-- Decode a command word: the command from `op` alone, then the must-be-zero bits (R100, R102, R108). -/
def decode (w : CmdWord) : Except DecodeError Instr :=
  match commandOf w with
  | none => .error (.unknownOpcode (CmdWord.op w))
  | some i => if CmdWord.legal w then .ok i else .error (.nonzeroMustBeZero (CmdWord.op w))

/-- The little-endian value of a string of bytes (20_memory R75). -/
def leValue : List Byte → Nat
  | [] => 0
  | b :: bs => b.toNat + 256 * leValue bs

/-- The `n` little-endian bytes of a value, lowest first (20_memory R75). -/
def leBytes : Nat → Nat → List Byte
  | 0, _ => []
  | n + 1, v => BitVec.ofNat 8 v :: leBytes n (v / 256)

/-- Decode the bytes of a command word, lowest address first (20_memory R75: command words are little-endian). -/
def decodeBytes (bs : List Byte) : Except DecodeError Instr :=
  if bs.length = 13 then decode (BitVec.ofNat 104 (leValue bs)) else .error (.wrongLength bs.length)

/-- The instruction the decoder reads from an instruction whose bits are `w`, numbered as the command table numbers them:
one word of 104 bits, every bit above `nbits` 0. -/
def decodeTableWord (nbits w : Nat) : Option Instr :=
  match decodeBytes (leBytes 13 (w % 2 ^ nbits)) with
  | .ok i => some i
  | .error _ => none

/-- `CW = op << 96 | arg0 << 64 | arg1` (R100). -/
def pack (op : Byte) (arg0 : Word) (arg1 : DWord) : CmdWord := (op ++ arg0) ++ arg1

/-- Zero-extended second operand of formats VO and AB: `arg1[63:32]` is 0 (R102). -/
def lowArg (v : Word) : DWord := v.setWidth 64

/-- The command word of a command, unused bits 0 (R101, R102). -/
def encode : Instr → CmdWord
  | .read32 offset => pack 0x01 offset 0
  | .write32 value offset => pack 0x02 value (lowArg offset)
  | .writeFlush => pack 0x03 0 0
  | .writeIo value offset => pack 0x04 value (lowArg offset)
  | .ringInit txBase rxBase => pack 0x10 txBase (lowArg rxBase)
  | .reset => pack 0x11 0 0
  | .configure => pack 0x12 0 0
  | .start => pack 0x13 0 0
  | .stop => pack 0x14 0 0
  | .detach => pack 0x15 0 0
  | .submit len buf => pack 0x20 len buf
  | .recycle => pack 0x21 0 0
  | .irq => pack 0x30 0 0
  | .poll budget => pack 0x31 budget 0
  | .readStats => pack 0x32 0 0

/-- The thirteen bytes of a command, lowest address first (R100, 20_memory R75). -/
def encodeBytes (i : Instr) : List Byte := leBytes 13 (encode i).toNat

end Sys2Proof
end

