-- ==== Sys2Proof/Machine/State.lean ====
section
/-! DEFINITION. The state of the machine as plain data: DRM's registers and tables, the commands in flight, the
posted-write buffer, the NIC's register file, DMA memory, the inputs and outputs, and State.reset. -/

namespace Sys2Proof.Machine

/-- The lifecycle state `fsm` (10_state R24). The codes 5 to 7 are never written (93 U11). -/
inductive Fsm where
  | uninitialized | reset | configured | running | stopped
  deriving DecidableEq, Repr

/-- `poll_state` (10_state R34). -/
inductive PollState where
  | idle | scheduled | active
  deriving DecidableEq, Repr

/-- The direction of a DMA mapping (10_state R30). -/
inductive Dir where
  /-- The device reads from memory: TX. -/
  | toDevice
  /-- The device writes to memory: RX. -/
  | fromDevice
  deriving DecidableEq, Repr

/-- A mapping record as `Host.dma_map` returns it (10_state R30, 45_device_agent R250). -/
structure Mapping where
  addr : DWord
  len : Word
  dir : Dir
  deriving DecidableEq, Repr

/-- An ownership slot: empty, or an active mapping and its buffer handle (10_state R30). -/
inductive Slot where
  | empty
  | full (map : Mapping) (buf : DWord)
  deriving DecidableEq, Repr

/-- The status codes of a response (60_exceptions R260). -/
inductive Status where
  | ok | hwAccessError | busy | rejectTooLong | notMine | illegalState | illegalCommand | noResource
  deriving DecidableEq, Repr

/-- A response: status and data (30_encoding R100, R103). -/
structure Response where
  status : Status
  data : DWord
  deriving DecidableEq, Repr

/-- The two I/O ports (10_state R61). -/
inductive IoPort where
  | addr | data
  deriving DecidableEq, Repr

/-- A call on the host port with the host's answer where it has one; `none` and `false` are `fail`
(45_device_agent R250). -/
inductive HostCall where
  | allocRxBuffer (size : Word) (answer : Option DWord)
  | dmaMap (buf : DWord) (len : Word) (dir : Dir) (answer : Option DWord)
  | dmaUnmap (map : Mapping)
  | freeBuffer (buf : DWord)
  | pad (buf : DWord) (len min : Word) (answer : Bool)
  | txComplete (buf : DWord)
  | rxDeliver (buf : DWord) (len : Half)
  | pollSchedule
  | pollComplete (work : Word)
  deriving DecidableEq, Repr

/-- What DRM does at its ports, as the traces of 95_test_vectors write it. MODEL's own record
(notes/assumptions/18.md). -/
inductive Event where
  /-- `W off <- v`: the pair enters `wbuf`. -/
  | regWrite (off value : Word)
  /-- `R off -> v`. -/
  | regRead (off value : Word)
  /-- `IOW port <- v`. -/
  | ioWrite (port : IoPort) (value : Word)
  /-- `Delay ms`. -/
  | delay (ms : Nat)
  /-- `Host.f(...)`. -/
  | call (c : HostCall)
  /-- The response of the command in context `ctx`. -/
  | response (ctx : Nat) (r : Response)
  deriving DecidableEq, Repr

/-- The TX descriptor fields (30_encoding R105). -/
inductive TxField where
  | addr | length | cso | cmd | status | css | special
  deriving DecidableEq, Repr

/-- The RX descriptor fields (30_encoding R106). -/
inductive RxField where
  | addr | length | checksum | status | errors | special
  deriving DecidableEq, Repr

/-- Where the value of a register write comes from: a constant of the pseudocode, or a working register read when the
write is made (30_encoding R112 for `ral` and `rah`). -/
inductive Source where
  | lit (v : Word)
  | ral | rah | txBase | rxBase | txTail
  deriving DecidableEq, Repr

/-- The primitives of 00_scope R14 whose result a command does not branch on. -/
inductive Prim where
  | regWrite (off : Word) (v : Source)
  /-- A read whose value is discarded. -/
  | regRead (off : Word)
  | ioWrite (port : IoPort) (v : Word)
  /-- `Delay(DELAY_RELOAD_MS)`. -/
  | delayReload
  | setFsm (f : Fsm)
  | setTxBase (v : Word)
  | setRxBase (v : Word)
  | setTxTail (v : Word)
  | setTxNtc (v : Word)
  | setRingsReady (b : Bool)
  | setPollState (p : PollState)
  | setPollMissed (b : Bool)
  /-- `x[rx_dropped] <- x[rx_dropped] + 1`. -/
  | countDropped
  /-- `txd(i).f <- v`. -/
  | txd (i : Word) (f : TxField) (v : DWord)
  /-- `rxd(i).f <- v`. -/
  | rxd (i : Word) (f : RxField) (v : DWord)
  | setTxSlot (i : Word) (v : Slot)
  | setRxSlot (i : Word) (v : Slot)
  /-- `unlock(tx)`. -/
  | unlock
  /-- A call on the host port that returns nothing. -/
  | call (c : HostCall)
  deriving DecidableEq, Repr

/-- Who runs the body of RECYCLE: the command, or step 5 of a POLL that has handed over `work` frames
(43_tx_path R210, R215). -/
inductive Caller where
  | command
  | poll (work : Word)
  deriving DecidableEq, Repr

/-- A NIC move that a settling delay waits for, with the descriptor index it concerns (70_reset_and_hazards R330). -/
inductive Owed where
  | advance (i : Nat)
  | writeback (i : Nat)
  | early (i : Nat)
  | fill (i : Nat)
  | reload
  deriving DecidableEq, Repr

/-- The places of a command where it reads something and branches on it, with the local variables of its pseudocode that
are still needed. One execution of a point is one step of the command (00_scope R14, notes/assumptions/19.md). -/
inductive Point where
  /-- The last line: `respond`. -/
  | respond (r : Response)
  | read32 (off : Word)
  -- RING_INIT (42_ring_manager R181)
  | ringAdmit (txBase rxBase : Word)
  | ringAlloc (i : Nat)
  | ringMap (i : Nat) (b : DWord)
  | ringUndo (j i : Nat)
  -- RESET (41_reset_configure R151)
  | resetAdmit
  | resetSettle
  | resetSettled (owed : List Owed)
  | resetCtrl
  | resetManc
  -- CONFIGURE, START (R160, R168)
  | configureAdmit
  | startAdmit
  -- STOP, DETACH (R170, R172)
  | stopAdmit
  | stopWait
  | stopLock (err : Option Word)
  | stopRings (err : Option Word)
  | stopTx (i : Nat) (err : Option Word)
  | stopRx (i : Nat) (err : Option Word)
  | detachAdmit
  -- SUBMIT (43_tx_path R201)
  | submitAdmit (len : Word) (buf : DWord)
  | submitLock (len : Word) (buf : DWord)
  | submitRecheck (len : Word) (buf : DWord)
  | submitTail (len : Word) (buf : DWord)
  | submitDone (len : Word) (buf : DWord) (t : Word)
  | submitPad (len : Word) (buf : DWord) (t : Word)
  | submitMap (len : Word) (buf : DWord) (t : Word)
  | submitSlot (buf : DWord) (t : Word) (m : Mapping)
  | submitEnd
  -- RECYCLE (R210)
  | recycleAdmit
  | recycleLock (c : Caller)
  | recycleHead (c : Caller)
  | recycleNtc (c : Caller) (h : Word)
  | recycleDone (c : Caller) (h idx : Word)
  | recycleSlot (c : Caller) (h idx : Word)
  -- IRQ (44_rx_poll_irq R220)
  | irqAdmit
  | irqRead
  | irqRequest
  -- POLL (R225)
  | pollAdmit (budget : Word)
  | pollTail (budget : Word)
  | pollDone (budget next work : Word)
  | pollLength (budget next work : Word)
  | pollAlloc (budget next work : Word) (len : Half)
  | pollMap (budget next work : Word) (len : Half) (b2 : DWord)
  | pollTake (budget next work : Word) (len : Half) (m2 : Mapping) (b2 : DWord)
  | pollNext (budget next work : Word)
  | pollEnd (work : Word) (err : Option Word)
  -- READ_STATS (R230)
  | readStats
  deriving DecidableEq, Repr

/-- A command in flight: the primitives that come next, then the point where it goes on (10_state R25). -/
structure Task where
  todo : List Prim
  point : Point
  deriving DecidableEq, Repr

/-- One move of another agent (45_device_agent R240). A move that is not enabled changes nothing. -/
inductive Move where
  /-- The bus delivers the oldest posted write (R247). -/
  | bus
  /-- TX-ADVANCE (R242). -/
  | txAdvance
  /-- TX-WRITEBACK, the status byte having these other bits; `raise`: ICR_TXDW is set (R242). -/
  | txWriteback (status : Byte) (raise : Bool)
  /-- TX-EARLY (R242). -/
  | txEarly (status : Byte) (raise : Bool)
  /-- RX-FILL with a frame and the values the NIC writes beside it (R243). -/
  | rxFill (frame : List Byte) (checksum : Half) (status errors : Byte) (special : Half) (rxt0 rxdmt0 : Bool)
  /-- The NIC sets bits of the cause register (R244). -/
  | cause (bits : Word)
  /-- RELOAD-DONE, the cause register taking this value (R245). -/
  | reloadDone (icr : Word)
  /-- The host changes `mmio_valid` (R249 b). -/
  | setMmioValid (b : Bool)
  /-- The host changes `io_valid` (R249 b). -/
  | setIoValid (b : Bool)
  /-- The host writes bytes of memory it owns (R248, R251). -/
  | hostStore (addr : DWord) (bytes : List Byte)
  /-- The host issues a command word in a free context (R249 a). -/
  | issue (w : CmdWord)
  /-- The command in flight in context `ctx` makes its next primitive (R240). -/
  | advance (ctx : Nat)
  deriving DecidableEq, Repr

/-- The NIC's state as far as the spec uses it (45_device_agent R241). `REG_IMS` and `REG_IMC` have no storage of their
own: they act on `mask` (10_state R44, R45). -/
structure Nic where
  ctrl : Word
  status : Word
  icr : Word
  rctl : Word
  tctl : Word
  tipg : Word
  rdbal : Word
  rdbah : Word
  rdlen : Word
  rdh : Word
  rdt : Word
  rdtr : Word
  radv : Word
  tdbal : Word
  tdbah : Word
  tdlen : Word
  tdh : Word
  tdt : Word
  ral0 : Word
  rah0 : Word
  manc : Word
  /-- The multicast-table array (R58). -/
  mta : List Word
  /-- `nic.mask` (R44, R45). -/
  mask : Word
  /-- `nic.io_index` (R61). -/
  ioIndex : Word
  /-- `nic.tx_lag` (R242). -/
  txLag : Int
  /-- `nic.resetting` (R245). -/
  resetting : Bool
  deriving DecidableEq, Repr

/-- DMA memory: the bytes that differ from 0, by rising address (20_memory R73). What an unlisted address reads as is
`Memory.unlisted`. -/
structure Memory where
  cells : List Host.Cell
  deriving DecidableEq, Repr

/-- What an address that is not listed reads as. DESIGN CHOICE 0: the spec gives DMA memory no contents at reset
(10_state R65; notes/assumptions/4.md). -/
def Memory.unlisted : Byte := 0

/-- The whole machine. -/
structure State where
  /-- `Cfg`, constant (00_scope R7, R19; notes/assumptions/1.md). -/
  cfg : Cfg
  -- DRM's working registers and flags (10_state R21, R24, R33 to R35)
  txBase : Word
  rxBase : Word
  txTail : Word
  txNtc : Word
  rxDropped : DWord
  irqLine : Word
  mac : Mac
  ringsReady : Bool
  fsm : Fsm
  txLock : Bool
  pollState : PollState
  pollMissed : Bool
  /-- `tx_slot[0..N_TX-1]` (R30). -/
  txSlots : List Slot
  /-- `rx_slot[0..N_RX-1]` (R30). -/
  rxSlots : List Slot
  /-- Commands in flight, by context (R25, 00_scope R17; notes/assumptions/16.md). -/
  tasks : List (Nat × Task)
  /-- MODEL's own: the number of the next command context (notes/assumptions/16.md). -/
  nextCtx : Nat
  /-- The posted-write buffer, oldest first (R63). -/
  wbuf : List (Word × Word)
  /-- The NIC (45_device_agent R241). -/
  nic : Nic
  /-- DMA memory (20_memory R73). -/
  mem : Memory
  /-- The input `mmio_valid` (10_state R40; notes/assumptions/8.md). -/
  mmioValid : Bool
  /-- The input `io_valid` (10_state R40; notes/assumptions/8.md). -/
  ioValid : Bool
  /-- The command port: the command word the host presents (30_encoding R100; notes/assumptions/17.md). -/
  port : Option CmdWord
  /-- MODEL's own: the moves of the other agents, one list for each gap between two primitives (45_device_agent R240;
  notes/assumptions/5.md). -/
  sched : List (List Move)
  /-- MODEL's own: the host's coming answers to `alloc_rx_buffer` (45_device_agent R250; notes/assumptions/6.md). -/
  allocs : List (Option DWord)
  /-- MODEL's own: the addresses of the host's coming answers to `dma_map` (notes/assumptions/6.md). -/
  maps : List (Option DWord)
  /-- MODEL's own: the host's coming answers to `pad` (notes/assumptions/6.md). -/
  pads : List Bool
  /-- MODEL's own: what DRM has done at its ports, oldest first (notes/assumptions/18.md). -/
  trace : List Event
  /-- MODEL's own: the frames the NIC has sent, oldest first (45_device_agent R242; notes/assumptions/18.md). -/
  wire : List (List Byte)
  /-- MODEL's own: how many free values have been drawn (notes/assumptions/7.md). -/
  drawn : Nat
  deriving DecidableEq, Repr

/-- Why a step stops with a fault. There is no reason: DRM "never aborts, halts, locks up" (60_exceptions R269); every
failure is a status code or a wait. -/
inductive Fault where
  deriving DecidableEq, Repr

/-- Why an instruction is refused. -/
inductive Refusal where
  /-- `exec` has no meaning for the instruction yet. Raised by an arm of `exec`; safe: the machine does not go on. -/
  | notModelled (mnemonic : String)
  deriving DecidableEq, Repr

/-- The NIC's registers at State.reset. DESIGN CHOICE: all 0; the spec gives no value (10_state section 8, R65;
notes/assumptions/3.md). -/
def Nic.atReset (c : Cfg) : Nic where
  ctrl := 0
  status := 0
  icr := 0
  rctl := 0
  tctl := 0
  tipg := 0
  rdbal := 0
  rdbah := 0
  rdlen := 0
  rdh := 0
  rdt := 0
  rdtr := 0
  radv := 0
  tdbal := 0
  tdbah := 0
  tdlen := 0
  tdh := 0
  tdt := 0
  ral0 := 0
  rah0 := 0
  manc := 0
  mta := List.replicate c.mtaEntries 0
  mask := 0
  ioIndex := 0
  txLag := 0
  resetting := false

/-- The machine right after block reset with configuration `c` (10_state R65, 70_reset_and_hazards R300): DRM as R65
says, nothing posted, nothing in flight. DESIGN CHOICE: the environment has nothing planned: no move in the schedule, no
answer of the host queued (notes/assumptions/5.md, 6.md). -/
def State.resetWith (c : Cfg) : State where
  cfg := c
  txBase := 0
  rxBase := 0
  txTail := 0
  txNtc := 0
  rxDropped := 0
  irqLine := c.irqLine
  mac := c.mac
  ringsReady := false
  fsm := .uninitialized
  txLock := false
  pollState := .idle
  pollMissed := false
  txSlots := List.replicate c.nTx .empty
  rxSlots := List.replicate c.nRx .empty
  tasks := []
  nextCtx := 0
  wbuf := []
  nic := Nic.atReset c
  mem := ⟨[]⟩
  mmioValid := true
  ioValid := true
  port := none
  sched := []
  allocs := []
  maps := []
  pads := []
  trace := []
  wire := []
  drawn := 0

/-- The machine right after block reset, with the default configuration. -/
def State.reset : State := State.resetWith {}

end Sys2Proof.Machine
end

