-- ==== Sys2Proof/Machine/Operands.lean ====
section
/-! DEFINITION. Encodings and values: response words, descriptor fields and their addresses, ring indices, and every
register value DRM assembles (30_encoding R100, R103 to R106, R110 to R119; 42_ring_manager R184, R188). -/

namespace Sys2Proof

/-- `RAL`: address bytes 0 to 3, byte 0 in bits 7:0 (R112). -/
def Mac.ral (m : Mac) : Word :=
  m.b0.setWidth 32 ||| m.b1.setWidth 32 <<< 8 ||| m.b2.setWidth 32 <<< 16 ||| m.b3.setWidth 32 <<< 24

/-- `RAH`: address bytes 4 and 5 and the valid flag (R112). -/
def Mac.rah (c : Cfg) (m : Mac) : Word := m.b4.setWidth 32 ||| m.b5.setWidth 32 <<< 8 ||| c.rahAv

/-- `TCTL_CFG` (R113). -/
def Cfg.tctlCfg (c : Cfg) : Word :=
  c.tctlEn ||| c.tctlPsp ||| c.tctlCtValue <<< c.tctlCtShift ||| c.tctlColdValue <<< c.tctlColdShift

/-- `RCTL_CFG` (R114). -/
def Cfg.rctlCfg (c : Cfg) : Word := c.rctlEn ||| c.rctlBam ||| c.rctlSz2048 ||| c.rctlSecrc

/-- `IMS_CFG` (R115). -/
def Cfg.imsCfg (c : Cfg) : Word := c.icrTxdw ||| c.icrRxt0 ||| c.icrRxdmt0 ||| c.icrRxseq ||| c.icrLsc

/-- The TX command byte SUBMIT writes: report-status and end-of-packet (R118). -/
def Cfg.txCommand (c : Cfg) : Byte := c.txdCmdRs ||| c.txdCmdEop

/-- The offset of a port in the I/O-port region (00_scope R9). -/
def Cfg.port (c : Cfg) : Machine.IoPort → Word
  | .addr => c.ioAddr
  | .data => c.ioData

end Sys2Proof

namespace Sys2Proof.Machine

/-- The code of a status (60_exceptions R260). -/
def Status.code : Status → Byte
  | .ok => 0x00
  | .hwAccessError => 0x01
  | .busy => 0x02
  | .rejectTooLong => 0x03
  | .notMine => 0x04
  | .illegalState => 0x05
  | .illegalCommand => 0x06
  | .noResource => 0x07

/-- `RW`, the 72-bit response word: status 71:64, data 63:0 (30_encoding R100). -/
def Response.word (r : Response) : BitVec 72 := r.status.code ++ r.data

/-- The nine bytes of a response word, lowest address first (20_memory R75: response words are little-endian). -/
def Response.bytes (r : Response) : List Byte := leBytes 9 r.word.toNat

/-- `respond OK(data)`. -/
def Response.ok (data : DWord) : Response := ⟨.ok, data⟩

/-- A response other than OK and HW_ACCESS_ERROR: its data is 0 (30_encoding R103). -/
def Response.refuse (status : Status) : Response := ⟨status, 0⟩

/-- `HW_ACCESS_ERROR(off)`: the data is the zero-extended offset or port of the failing access (30_encoding R103). -/
def Response.hwError (off : Word) : Response := ⟨.hwAccessError, off.setWidth 64⟩

/-- The 3-bit code of `fsm` (10_state R24). -/
def Fsm.code : Fsm → BitVec 3
  | .uninitialized => 0
  | .reset => 1
  | .configured => 2
  | .running => 3
  | .stopped => 4

/-- The byte offset of a TX descriptor field (R105, R184). -/
def TxField.offset : TxField → Nat
  | .addr => 0
  | .length => 8
  | .cso => 10
  | .cmd => 11
  | .status => 12
  | .css => 13
  | .special => 14

/-- The size in bytes of a TX descriptor field (R105). -/
def TxField.size : TxField → Nat
  | .addr => 8
  | .length => 2
  | .cso => 1
  | .cmd => 1
  | .status => 1
  | .css => 1
  | .special => 2

/-- The byte offset of an RX descriptor field (R106, R184). -/
def RxField.offset : RxField → Nat
  | .addr => 0
  | .length => 8
  | .checksum => 10
  | .status => 12
  | .errors => 13
  | .special => 14

/-- The size in bytes of an RX descriptor field (R106). -/
def RxField.size : RxField → Nat
  | .addr => 8
  | .length => 2
  | .checksum => 2
  | .status => 1
  | .errors => 1
  | .special => 2

/-- The bus address of byte `off` of descriptor `i` of a ring at `base`: `base + 16*i + off`, 16 being `DESC_SIZE`
(00_scope R8, R15, R184). -/
def descAddr (c : Cfg) (base : DWord) (i off : Nat) : DWord :=
  base + BitVec.ofNat 64 (c.descSize * i) + BitVec.ofNat 64 off

/-- The effective address of `txd(i).f` (R184). -/
def State.txdAddr (s : State) (i : Word) (f : TxField) : DWord := descAddr s.cfg (s.txBase.setWidth 64) i.toNat f.offset

/-- The effective address of `rxd(i).f` (R184). -/
def State.rxdAddr (s : State) (i : Word) (f : RxField) : DWord := descAddr s.cfg (s.rxBase.setWidth 64) i.toNat f.offset

/-- `(i + 1) mod n` on a 32-bit index, with no wrap at 2^32 (00_scope R15, R188, 44_rx_poll_irq R226). -/
def nextIndex (n : Nat) (i : Word) : Word := BitVec.ofNat 32 ((i.toNat + 1) % n)

/-- A ring index as a register value (R116). -/
def index (i : Nat) : Word := BitVec.ofNat 32 i

/-- The value of the length register of a ring of `n` descriptors: `trunc_32(N * 16)`, 16 being `DESC_SIZE` (R110). -/
def ringBytes (c : Cfg) (n : Nat) : Word := BitVec.ofNat 32 (n * c.descSize)

/-- The value of a register write's source when the write is made (R111, R112, R116). -/
def Source.value (s : State) : Source → Word
  | .lit v => v
  | .ral => Mac.ral s.mac
  | .rah => Mac.rah s.cfg s.mac
  | .txBase => s.txBase
  | .rxBase => s.rxBase
  | .txTail => s.txTail

/-- The 128-bit little-endian value of the TX descriptor SUBMIT writes (R118). -/
def txdImage (c : Cfg) (a : DWord) (len : Half) : BitVec 128 :=
  a.setWidth 128 ||| len.setWidth 128 <<< 64 ||| c.txCommand.setWidth 128 <<< 88

/-- `txd(i).f` for the seven fields of a TX descriptor, in the order of R181 and R201: the primitives that write one. -/
def txdWrites (i : Word) (addr : DWord) (length : Half) (cmd status : Byte) : List Prim :=
  [.txd i .addr addr, .txd i .length (length.setWidth 64), .txd i .cso 0, .txd i .cmd (cmd.setWidth 64),
   .txd i .status (status.setWidth 64), .txd i .css 0, .txd i .special 0]

/-- The primitives with which RING_INIT arms an RX descriptor: the address, every other field 0 (R106, R119, R181).
DEDUCED: 20_memory R79 says that DRM never writes the checksum, errors and special fields; the pseudocode of R181 and the
table of R106 have RING_INIT write them 0, and are followed (notes/assumptions/30.md). -/
def rxdArm (i : Word) (addr : DWord) : List Prim :=
  [.rxd i .addr addr, .rxd i .length 0, .rxd i .checksum 0, .rxd i .status 0, .rxd i .errors 0, .rxd i .special 0]

end Sys2Proof.Machine
end

