-- ==== Sys2Proof/Machine/Ops.lean ====
section
/-! DEFINITION. The named operations over memory, slots, the NIC, the bus and the host port: each primitive of 00_scope
R14 that touches state, once. -/

namespace Sys2Proof.Machine

/-! ### DMA memory (20_memory R73, R76) -/

/-- The byte listed for an address, or the unlisted byte. -/
def lookupCell : List Host.Cell → Nat → Byte
  | [], _ => Memory.unlisted
  | (k, b) :: rest, a => if k = a then b else lookupCell rest a

/-- Put a byte at an address, keeping the canonical form. -/
def insertCell : List Host.Cell → Nat → Byte → List Host.Cell
  | [], a, v => if v = Memory.unlisted then [] else [(a, v)]
  | (k, b) :: rest, a, v =>
    if a < k then (if v = Memory.unlisted then (k, b) :: rest else (a, v) :: (k, b) :: rest)
    else if a = k then (if v = Memory.unlisted then rest else (a, v) :: rest)
    else (k, b) :: insertCell rest a v

/-- The canonical form: addresses strictly rising, below 2^64, no listed byte equal to the unlisted one. -/
def Memory.wf (m : Memory) : Bool :=
  decide (m.cells.Pairwise (fun x y => x.1 < y.1)) &&
    m.cells.all (fun c => decide (c.1 < 2 ^ 64) && decide (c.2 ≠ Memory.unlisted))

/-- The byte at a bus address. -/
def Memory.readByte (m : Memory) (a : DWord) : Byte := lookupCell m.cells a.toNat

/-- Store one byte at a bus address. -/
def Memory.writeByte (m : Memory) (a : DWord) (v : Byte) : Memory := ⟨insertCell m.cells a.toNat v⟩

/-- `MemRead(a, n)`: the unsigned little-endian value of `n` bytes (R76). An address past 2^64 - 1 wraps
(notes/assumptions/14.md). -/
def Memory.read (m : Memory) (a : DWord) : Nat → DWord
  | 0 => 0
  | n + 1 => (m.readByte a).setWidth 64 ||| (Memory.read m (a + 1) n) <<< 8

/-- `MemWrite(a, n, v)`: byte `k` of `v` at `a + k` for `k` below `n` (R76). -/
def Memory.write (m : Memory) (a : DWord) : Nat → DWord → Memory
  | 0, _ => m
  | n + 1, v => Memory.write (m.writeByte a (v.setWidth 8)) (a + 1) n (v >>> 8)

/-- Store a string of bytes from an address up. -/
def Memory.store (m : Memory) (a : DWord) : List Byte → Memory
  | [] => m
  | b :: bs => Memory.store (m.writeByte a b) (a + 1) bs

/-- The `n` bytes from an address up, lowest first. -/
def Memory.load (m : Memory) (a : DWord) : Nat → List Byte
  | 0 => []
  | n + 1 => m.readByte a :: Memory.load m (a + 1) n

/-! ### Descriptor fields and slots (42_ring_manager R184, R185) -/

/-- Read `txd(i).f`. -/
def State.readTxd (s : State) (i : Word) (f : TxField) : DWord := s.mem.read (s.txdAddr i f) f.size

/-- Read `rxd(i).f`. -/
def State.readRxd (s : State) (i : Word) (f : RxField) : DWord := s.mem.read (s.rxdAddr i f) f.size

/-- `txd(i).f <- v`. -/
def State.writeTxd (s : State) (i : Word) (f : TxField) (v : DWord) : State :=
  { s with mem := s.mem.write (s.txdAddr i f) f.size v }

/-- `rxd(i).f <- v`. -/
def State.writeRxd (s : State) (i : Word) (f : RxField) (v : DWord) : State :=
  { s with mem := s.mem.write (s.rxdAddr i f) f.size v }

/-- The slot with an index; an index outside the table names no slot and reads as Empty. -/
def slotAt (l : List Slot) (i : Word) : Slot := l.getD i.toNat .empty

/-- A slot table with one slot replaced (R185). -/
def setSlot (l : List Slot) (i : Word) (v : Slot) : List Slot := l.set i.toNat v

/-! ### Outputs -/

/-- Record what DRM does at a port (notes/assumptions/18.md). -/
def State.emit (s : State) (e : Event) : State := { s with trace := s.trace ++ [e] }

/-- The command in context `ctx` ends with a response (30_encoding R100, 60_exceptions R260). -/
def State.respond (s : State) (ctx : Nat) (r : Response) : State := s.emit (.response ctx r)

/-- A call on the host port that returns nothing (45_device_agent R250). -/
def State.call (s : State) (c : HostCall) : State := s.emit (.call c)

/-! ### Host-port calls that return something (45_device_agent R250)

The host's answers come from the queues of State; a host with no answer queued fails the call
(notes/assumptions/6.md). -/

/-- `Host.alloc_rx_buffer(size)`. -/
def State.allocRxBuffer (s : State) (size : Word) : Option DWord × State :=
  (s.allocs.headD none, { s with allocs := s.allocs.tail }.call (.allocRxBuffer size (s.allocs.headD none)))

/-- `Host.dma_map(buf, len, dir)`: the mapping has the length and direction asked for. -/
def State.dmaMap (s : State) (buf : DWord) (len : Word) (dir : Dir) : Option Mapping × State :=
  ((s.maps.headD none).map (fun a => ⟨a, len, dir⟩),
   { s with maps := s.maps.tail }.call (.dmaMap buf len dir (s.maps.headD none)))

/-- `Host.pad(buf, len, min)`: the host extends the frame with zero bytes. -/
def State.pad (s : State) (buf : DWord) (len min : Word) : Bool × State :=
  (s.pads.headD false, { s with pads := s.pads.tail }.call (.pad buf len min (s.pads.headD false)))

/-! ### The NIC's registers (45_device_agent R241, R245) -/

/-- The stored value of a named register. `REG_IMS` and `REG_IMC` store nothing; `nicRead` never asks for them. -/
def Nic.get (n : Nic) : NicReg → Word
  | .ctrl => n.ctrl
  | .status => n.status
  | .icr => n.icr
  | .ims => 0
  | .imc => 0
  | .rctl => n.rctl
  | .tctl => n.tctl
  | .tipg => n.tipg
  | .rdbal => n.rdbal
  | .rdbah => n.rdbah
  | .rdlen => n.rdlen
  | .rdh => n.rdh
  | .rdt => n.rdt
  | .rdtr => n.rdtr
  | .radv => n.radv
  | .tdbal => n.tdbal
  | .tdbah => n.tdbah
  | .tdlen => n.tdlen
  | .tdh => n.tdh
  | .tdt => n.tdt
  | .ral0 => n.ral0
  | .rah0 => n.rah0
  | .manc => n.manc
  | .mta i => n.mta.getD i 0

/-- `nicGlobalReset` (R245): every named register, the mask and the index port take unspecified values, but that the two
enable bits and the reset bit are 0; `k` says which free values (notes/assumptions/7.md). -/
def Nic.globalReset (c : Cfg) (k : Nat) (n : Nic) : Nic where
  ctrl := Config.freeReg k .ctrl &&& ~~~c.ctrlRst
  status := Config.freeReg k .status
  icr := Config.freeReg k .icr
  rctl := Config.freeReg k .rctl &&& ~~~c.rctlEn
  tctl := Config.freeReg k .tctl &&& ~~~c.tctlEn
  tipg := Config.freeReg k .tipg
  rdbal := Config.freeReg k .rdbal
  rdbah := Config.freeReg k .rdbah
  rdlen := Config.freeReg k .rdlen
  rdh := Config.freeReg k .rdh
  rdt := Config.freeReg k .rdt
  rdtr := Config.freeReg k .rdtr
  radv := Config.freeReg k .radv
  tdbal := Config.freeReg k .tdbal
  tdbah := Config.freeReg k .tdbah
  tdlen := Config.freeReg k .tdlen
  tdh := Config.freeReg k .tdh
  tdt := Config.freeReg k .tdt
  ral0 := Config.freeReg k .ral0
  rah0 := Config.freeReg k .rah0
  manc := Config.freeReg k .manc
  mta := (List.range n.mta.length).map (fun i => Config.freeReg k (.mta i))
  mask := Config.freeReg k .ims
  ioIndex := Config.freeWord k
  txLag := 0
  resetting := true

/-- The effect of a write to a named register at the NIC, but for a write of device control that starts the global reset
(R241, the cases of `NicWrite`). -/
def Nic.write (n : Nic) (r : NicReg) (v : Word) : Nic :=
  match r with
  | .ims => { n with mask := n.mask ||| v }
  | .imc => { n with mask := n.mask &&& ~~~v }
  | .ctrl => { n with ctrl := v }
  | .tdh => { n with tdh := v, txLag := 0 }
  | .icr => n
  | .status => n
  | .rctl => { n with rctl := v }
  | .tctl => { n with tctl := v }
  | .tipg => { n with tipg := v }
  | .rdbal => { n with rdbal := v }
  | .rdbah => { n with rdbah := v }
  | .rdlen => { n with rdlen := v }
  | .rdh => { n with rdh := v }
  | .rdt => { n with rdt := v }
  | .rdtr => { n with rdtr := v }
  | .radv => { n with radv := v }
  | .tdbal => { n with tdbal := v }
  | .tdbah => { n with tdbah := v }
  | .tdlen => { n with tdlen := v }
  | .tdt => { n with tdt := v }
  | .ral0 => { n with ral0 := v }
  | .rah0 => { n with rah0 := v }
  | .manc => { n with manc := v }
  | .mta i => { n with mta := n.mta.set i v }

/-- A register write applied at the NIC (R241): a write of device control with the reset bit starts the global reset
(R245); a write at an offset that names no register has no effect on the named ones (93 U3; notes/assumptions/23.md). -/
def State.nicApply (s : State) (off v : Word) : State :=
  match s.cfg.regAt off with
  | some .ctrl =>
    if v &&& s.cfg.ctrlRst = 0 then { s with nic := s.nic.write .ctrl v }
    else { s with nic := Nic.globalReset s.cfg s.drawn s.nic, drawn := s.drawn + 1 }
  | some r => { s with nic := s.nic.write r v }
  | none => s

/-- `NicWrite(off, v)` (R241): while the NIC resets the write is lost or applied, a free choice for each write
(93 U6). -/
def State.nicWrite (s : State) (off v : Word) : State :=
  if s.nic.resetting then
    if Config.freeBool s.drawn then { s with drawn := s.drawn + 1 }.nicApply off v else { s with drawn := s.drawn + 1 }
  else s.nicApply off v

/-- A free 32-bit value, and the state with one more drawn. -/
def State.anyWord (s : State) : Word × State := (Config.freeWord s.drawn, { s with drawn := s.drawn + 1 })

/-- `NicRead(off)` (R241): any value while the NIC resets, from the mask registers and from an offset that names no
register (93 U3, U6); reading the cause register clears it (20_memory R82). -/
def State.nicRead (s : State) (off : Word) : Word × State :=
  if s.nic.resetting then s.anyWord
  else
    match s.cfg.regAt off with
    | some .icr => (s.nic.icr, { s with nic := { s.nic with icr := 0 } })
    | some .ims => s.anyWord
    | some .imc => s.anyWord
    | some r => (s.nic.get r, s)
    | none => s.anyWord

/-! ### The bus (20_memory R77, R80, R81, R83; 45_device_agent R247) -/

/-- Deliver a list of posted writes in order. -/
def State.deliver (s : State) : List (Word × Word) → State
  | [] => s
  | (off, v) :: rest => State.deliver (s.nicWrite off v) rest

/-- Every entry of `wbuf` is applied to the NIC in queue order and removed (R80 part 2). -/
def State.drain (s : State) : State := { s with wbuf := [] }.deliver s.wbuf

/-- A register access is admitted: aligned, inside the region, the region mapped (R77). -/
def State.admits (s : State) (off : Word) : Bool :=
  decide (off.toNat % 4 = 0) && decide (off.toNat + 4 ≤ s.cfg.mmioSize) && s.mmioValid

/-- `RegRead32(off)`: none is `HwAccessError(off)`, the access not performed; otherwise drain, read and side effect in
one step (R80). -/
def State.regRead32 (s : State) (off : Word) : Option (Word × State) :=
  if s.admits off then
    some ((s.drain.nicRead off).1, (s.drain.nicRead off).2.emit (.regRead off (s.drain.nicRead off).1))
  else none

/-- `RegWrite32(off, v)`: none is `HwAccessError(off)`; otherwise the pair enters `wbuf` (R81). -/
def State.regWrite32 (s : State) (off v : Word) : Option State :=
  if s.admits off then some ({ s with wbuf := s.wbuf ++ [(off, v)] }.emit (.regWrite off v)) else none

/-- `IoWrite32(port, v)`: none is `HwAccessError(port)`; otherwise the NIC receives the write at once, and `wbuf` is not
drained (R83). The index port is written even while the NIC resets (notes/assumptions/24.md). -/
def State.ioWrite32 (s : State) (p : IoPort) (v : Word) : Option State :=
  if s.ioValid then
    match p with
    | .addr => some ({ s with nic := { s.nic with ioIndex := v } }.emit (.ioWrite .addr v))
    | .data => some ((s.nicWrite s.nic.ioIndex v).emit (.ioWrite .data v))
  else none

/-! ### Block reset (10_state R65, 41_reset_configure R172) -/

/-- Every working register, flag and slot of DRM at its block-reset value; `wbuf`, the NIC and DMA memory are not
touched (R172, 90_conflicts C12). -/
def State.blockReset (s : State) : State :=
  { s with
    txBase := 0
    rxBase := 0
    txTail := 0
    txNtc := 0
    rxDropped := 0
    irqLine := s.cfg.irqLine
    mac := s.cfg.mac
    ringsReady := false
    fsm := .uninitialized
    txLock := false
    pollState := .idle
    pollMissed := false
    txSlots := List.replicate s.cfg.nTx .empty
    rxSlots := List.replicate s.cfg.nRx .empty }

/-! ### Going on with a command, and ending it -/

/-- What one primitive of a command in flight does. -/
inductive Progress where
  /-- The primitive is made; the command goes on. -/
  | more (t : Task) (s : State)
  /-- The command ends with a response. -/
  | done (r : Response) (s : State)
  /-- The command has no step now: it waits for the TX lock or for a poll to end (10_state R33, 41_reset_configure
  R170). -/
  | wait
  deriving DecidableEq, Repr

/-- Go on at a point with nothing to do before it. -/
def Task.goto (p : Point) : Task := ⟨[], p⟩

/-- `respond` as a command's only remaining line. -/
def Task.answer (r : Response) : Task := ⟨[], .respond r⟩

/-- `raise HwAccessError(off)` with nothing to clean up (60_exceptions R260, R261). -/
def Task.raise (off : Word) : Task := Task.answer (.hwError off)

/-- `unlock(tx)`, then `respond`: every exit path of a command that holds the lock releases it (R33, R269). -/
def Task.unlockAnswer (r : Response) : Task := ⟨[.unlock], .respond r⟩

end Sys2Proof.Machine
end

