-- ==== Sys2Proof/Machine/Flags.lean ====
section
/-! DEFINITION. The one-bit conditions of the spec: the Done bit of a descriptor (10_state R26), the interrupt line
(45_device_agent R244), the admission of a command by lifecycle state (41_reset_configure R150). -/

namespace Sys2Proof.Machine

/-- A status byte has Done = 1: only the Done bit counts (30_encoding R106). -/
def doneBit (mask status : Byte) : Bool := (status &&& mask) != 0

/-- The status byte of TX descriptor `i`, one MemRead of one byte (10_state R27). -/
def State.txStatus (s : State) (i : Word) : Byte := (s.readTxd i .status).setWidth 8

/-- The status byte of RX descriptor `i` (10_state R27). -/
def State.rxStatus (s : State) (i : Word) : Byte := (s.readRxd i .status).setWidth 8

/-- The Done bit of TX descriptor `i` (10_state R26). -/
def State.txDone (s : State) (i : Word) : Bool := doneBit s.cfg.txdStatDd (s.txStatus i)

/-- The Done bit of RX descriptor `i` (10_state R26). -/
def State.rxDone (s : State) (i : Word) : Bool := doneBit s.cfg.rxdStatDd (s.rxStatus i)

/-- The length the NIC wrote into RX descriptor `i` (44_rx_poll_irq R225 step 4a). -/
def State.rxLength (s : State) (i : Word) : Half := (s.readRxd i .length).setWidth 16

/-- The NIC asserts its line exactly while an enabled cause is pending (45_device_agent R244). -/
def Nic.lineAsserted (n : Nic) : Bool := (n.icr &&& n.mask) != 0

/-- RING_INIT is admitted (41_reset_configure R150). -/
def State.admitsRingInit (s : State) : Bool :=
  (s.fsm == .uninitialized || s.fsm == .reset) && !s.ringsReady

/-- CONFIGURE is admitted (R150). -/
def State.admitsConfigure (s : State) : Bool := s.fsm == .reset && s.ringsReady

/-- POLL is admitted (R150, 44_rx_poll_irq R225 step 1). -/
def State.admitsPoll (s : State) : Bool := s.fsm == .running && s.pollState == .scheduled

/-- RING_INIT's operand check: bases multiples of 16, regions below 2^32, not overlapping (42_ring_manager R181,
20_memory R78). -/
def ringBasesOk (c : Cfg) (txBase rxBase : Word) : Bool :=
  decide (txBase.toNat % 16 = 0) && decide (rxBase.toNat % 16 = 0) &&
    decide (txBase.toNat + c.nTx * c.descSize ≤ 2 ^ 32) && decide (rxBase.toNat + c.nRx * c.descSize ≤ 2 ^ 32) &&
    (decide (txBase.toNat + c.nTx * c.descSize ≤ rxBase.toNat) || decide (rxBase.toNat + c.nRx * c.descSize ≤ txBase.toNat))

/-- A lifecycle admission test: go on, or answer ILLEGAL_STATE with no access and no change (R150, 60_exceptions
R265). -/
def whenAdmitted (ok : Bool) (go : Task) (s : State) : Progress :=
  if ok then .more go s else .more (Task.answer (.refuse .illegalState)) s

end Sys2Proof.Machine
end

