-- ==== Sys2Proof/Machine/Nic.lean ====
section
/-! DEFINITION. The moves of the NIC, the bus and the host between DRM's primitives (45_device_agent R242 to R251), and
what a delay waits for (70_reset_and_hazards R330). A move that is not enabled changes nothing. -/

namespace Sys2Proof.Machine

/-! ### The NIC's view of its rings -/

/-- The capacity of the TX ring as the NIC holds it: `nic[REG_TDLEN] / 16`, 16 being `DESC_SIZE` (R242). -/
def Nic.txCap (n : Nic) (c : Cfg) : Nat := n.tdlen.toNat / c.descSize

/-- The base of the TX ring as the NIC holds it (R242). -/
def Nic.txBase (n : Nic) : DWord := n.tdbah ++ n.tdbal

/-- The capacity of the RX ring as the NIC holds it: `nic[REG_RDLEN] / 16`, 16 being `DESC_SIZE` (R243). -/
def Nic.rxCap (n : Nic) (c : Cfg) : Nat := n.rdlen.toNat / c.descSize

/-- The base of the RX ring as the NIC holds it (R243). -/
def Nic.rxBase (n : Nic) : DWord := n.rdbah ++ n.rdbal

/-- The bus address of byte `off` of TX descriptor `i` as the NIC holds its ring (R242). -/
def State.nicTxd (s : State) (i off : Nat) : DWord := descAddr s.cfg s.nic.txBase i off

/-- The bus address of byte `off` of RX descriptor `i` as the NIC holds its ring (R243). -/
def State.nicRxd (s : State) (i off : Nat) : DWord := descAddr s.cfg s.nic.rxBase i off

/-- The station address, six bytes in wire order: the address programmed into receive-address entry 0 (10_state R59,
30_encoding R112). -/
def Nic.station (n : Nic) : List Byte := leBytes 4 n.ral0.toNat ++ leBytes 2 n.rah0.toNat

/-- The broadcast address. PRESUMED: six bytes of all ones (notes/assumptions/10.md). -/
def broadcast : List Byte := List.replicate 6 0xFF

/-- A frame begins with a destination address; a frame shorter than an address, with that much of it
(notes/assumptions/10.md). -/
def addressedTo (dst frame : List Byte) : Bool := frame.take 6 == dst.take frame.length

/-- A frame is addressed to the station address or to broadcast (R243). -/
def Nic.accepts (n : Nic) (frame : List Byte) : Bool := addressedTo n.station frame || addressedTo broadcast frame

/-- The NIC may start a TX descriptor: enabled, head different from tail, not resetting (R242). A ring of length 0 has
no descriptor to start (notes/assumptions/14.md). -/
def State.txStartable (s : State) : Bool :=
  (s.nic.tctl &&& s.cfg.tctlEn) != 0 && s.nic.tdh != s.nic.tdt && !s.nic.resetting && decide (0 < s.nic.txCap s.cfg)

/-- The NIC may write back a TX descriptor that its head has passed (R242). -/
def State.txOwesDone (s : State) : Bool := decide (1 ≤ s.nic.txLag) && decide (0 < s.nic.txCap s.cfg)

/-- The descriptor a write-back concerns: `(h - tx_lag) mod N` (R242). -/
def Nic.writebackIndex (n : Nic) (c : Cfg) : Nat := (((n.tdh.toNat : Int) - n.txLag) % (n.txCap c : Int)).toNat

/-- The NIC may fill an RX descriptor (R243). -/
def State.rxFillable (s : State) : Bool :=
  (s.nic.rctl &&& s.cfg.rctlEn) != 0 && s.nic.rdh != s.nic.rdt && !s.nic.resetting && decide (0 < s.nic.rxCap s.cfg)

/-- The frame of TX descriptor `i`: `length` bytes at `address` (R242). -/
def State.txFrame (s : State) (i : Nat) : List Byte :=
  s.mem.load (s.mem.read (s.nicTxd i 0) 8) (s.mem.read (s.nicTxd i 8) 2).toNat

/-- The NIC reads descriptor `i` and its frame and puts the frame on the wire (R242). -/
def State.transmit (s : State) (i : Nat) : State := { s with wire := s.wire ++ [s.txFrame i] }

/-- The NIC writes the status byte of TX descriptor `i` with the Done bit set (R242). -/
def State.setTxDone (s : State) (i : Nat) (status : Byte) : State :=
  { s with mem := s.mem.writeByte (s.nicTxd i 12) (status ||| s.cfg.txdStatDd) }

/-- The NIC sets bits of the cause register (R244). -/
def State.raise (s : State) (bits : Word) : State := { s with nic := { s.nic with icr := s.nic.icr ||| bits } }

/-- Set a cause where the NIC chooses to. -/
def State.raiseIf (s : State) (b : Bool) (bits : Word) : State := s.raise (if b then bits else 0)

/-! ### The moves -/

/-- TX-ADVANCE (R242). DEDUCED: `tx_lag` goes up with no bound, as in R242's moves, which have no guard that keeps it in
the range R241 (d) names (notes/assumptions/28.md). -/
def State.txAdvance (s : State) : State :=
  if s.txStartable then
    let s1 := if 0 ≤ s.nic.txLag then s.transmit s.nic.tdh.toNat else s
    { s1 with nic := { s1.nic with tdh := nextIndex (s.nic.txCap s.cfg) s.nic.tdh, txLag := s.nic.txLag + 1 } }
  else s

/-- TX-WRITEBACK (R242). -/
def State.txWriteback (s : State) (status : Byte) (raise : Bool) : State :=
  if s.txOwesDone then
    let s1 := s.setTxDone (s.nic.writebackIndex s.cfg) status
    { s1 with nic := { s1.nic with txLag := s.nic.txLag - 1 } }.raiseIf raise s.cfg.icrTxdw
  else s

/-- TX-EARLY (R242). -/
def State.txEarly (s : State) (status : Byte) (raise : Bool) : State :=
  if s.txStartable && decide (s.nic.txLag = 0) then
    let s1 := (s.transmit s.nic.tdh.toNat).setTxDone s.nic.tdh.toNat status
    { s1 with nic := { s1.nic with txLag := -1 } }.raiseIf raise s.cfg.icrTxdw
  else s

/-- The environment may deliver this frame: 1 to `RX_BUF_SIZE` bytes, addressed to the station address or to broadcast
(R243). -/
def State.takesFrame (s : State) (frame : List Byte) : Bool :=
  decide (1 ≤ frame.length) && decide (frame.length ≤ s.cfg.rxBufSize.toNat) && s.nic.accepts frame

/-- RX-FILL, one step, the status byte last (R243). The frame and the values beside it are the environment's
(notes/assumptions/10.md). -/
def State.rxFill (s : State) (frame : List Byte) (checksum : Half) (status errors : Byte) (special : Half)
    (rxt0 rxdmt0 : Bool) : State :=
  if s.rxFillable && s.takesFrame frame then
    let i := s.nic.rdh.toNat
    let field := s.nicRxd i
    let m1 := s.mem.store (s.mem.read (field 0) 8) frame
    let m2 := m1.write (field 8) 2 (BitVec.ofNat 64 frame.length)
    let m3 := m2.write (field 10) 2 (checksum.setWidth 64)
    let m4 := m3.write (field 13) 1 (errors.setWidth 64)
    let m5 := m4.write (field 14) 2 (special.setWidth 64)
    let m6 := m5.writeByte (field 12) (status ||| s.cfg.rxdStatDd)
    ({ s with mem := m6, nic := { s.nic with rdh := nextIndex (s.nic.rxCap s.cfg) s.nic.rdh } }.raiseIf rxt0 s.cfg.icrRxt0).raiseIf
      rxdmt0 s.cfg.icrRxdmt0
  else s

/-- The NIC sets bits of the cause register at any time it is not resetting (R244). -/
def State.cause (s : State) (bits : Word) : State := if s.nic.resetting then s else s.raise bits

/-- RELOAD-DONE: the reset ends and the cause register holds any value (R245). -/
def State.reloadDone (s : State) (icr : Word) : State :=
  if s.nic.resetting then { s with nic := { s.nic with resetting := false, icr := icr } } else s

/-- The bus move: deliver the oldest posted write (R247). -/
def State.busMove (s : State) : State :=
  match s.wbuf with
  | [] => s
  | (off, v) :: rest => { s with wbuf := rest }.nicWrite off v

/-! ### The descriptor arrays during RING_INIT (42_ring_manager R183) -/

/-- An address lies in `len` bytes from `base`. -/
def inRegion (base len a : Nat) : Bool := decide (base ≤ a) && decide (a < base + len)

/-- An address lies in one of the two descriptor arrays at these bases (42_ring_manager R181). -/
def inArrays (c : Cfg) (bases : Word × Word) (a : Nat) : Bool :=
  inRegion bases.1.toNat (c.descSize * c.nTx) a || inRegion bases.2.toNat (c.descSize * c.nRx) a

/-- The places of an admitted RING_INIT. -/
def Point.buildsRings : Point → Bool
  | .ringAlloc _ | .ringMap _ _ | .ringUndo _ _ => true
  | .respond _ | .read32 _ | .ringAdmit _ _ | .resetAdmit | .resetSettle | .resetSettled _ | .resetCtrl | .resetManc
  | .configureAdmit | .startAdmit | .stopAdmit | .stopWait | .stopLock _ | .stopRings _ | .stopTx _ _ | .stopRx _ _
  | .detachAdmit | .submitAdmit _ _ | .submitLock _ _ | .submitRecheck _ _ | .submitTail _ _ | .submitDone _ _ _
  | .submitPad _ _ _ | .submitMap _ _ _ | .submitSlot _ _ _ | .submitEnd | .recycleAdmit | .recycleLock _
  | .recycleHead _ | .recycleNtc _ _ | .recycleDone _ _ _ | .recycleSlot _ _ _ | .irqAdmit | .irqRead | .irqRequest
  | .pollAdmit _ | .pollTail _ | .pollDone _ _ _ | .pollLength _ _ _ | .pollAlloc _ _ _ _ | .pollMap _ _ _ _ _
  | .pollTake _ _ _ _ _ _ | .pollNext _ _ _ | .pollEnd _ _ | .readStats => false

/-- A command in flight is an admitted RING_INIT that has not yet set `rings_ready`. -/
def Task.buildsRings (t : Task) : Bool := t.point.buildsRings || t.todo.contains (.setRingsReady true)

/-- The TX base a primitive stores. -/
def Prim.newTxBase : Prim → Option Word
  | .setTxBase v => some v
  | _ => none

/-- The RX base a primitive stores. -/
def Prim.newRxBase : Prim → Option Word
  | .setRxBase v => some v
  | _ => none

/-- The bases a RING_INIT in flight builds at: the stored ones, or those it has still to store. -/
def Task.ringBases (s : State) (t : Task) : Word × Word :=
  ((t.todo.findSome? Prim.newTxBase).getD s.txBase, (t.todo.findSome? Prim.newRxBase).getD s.rxBase)

/-- A RING_INIT in flight is building a descriptor array that an address lies in. -/
def State.beingBuilt (s : State) (a : Nat) : Bool :=
  !s.ringsReady && s.tasks.any (fun x => x.2.buildsRings && inArrays s.cfg (x.2.ringBases s) a)

/-- Some byte of a list of regions of memory lies in a descriptor array that is being built. -/
def State.heldBack (s : State) (regions : List (DWord × Nat)) : Bool :=
  regions.any (fun r => (List.range r.2).any (fun k => s.beingBuilt (r.1 + BitVec.ofNat 64 k).toNat))

/-- A move of the NIC that reads or writes these regions of memory: during RING_INIT no other agent reads or writes the
descriptor arrays (42_ring_manager R183), so it does not happen then. DEDUCED: R242 and R243 do not name this condition
(notes/assumptions/31.md). -/
def State.nicMove (s : State) (regions : List (DWord × Nat)) (s' : State) : State :=
  if s.heldBack regions then s else s'

/-- The regions the NIC reads to send the frame of TX descriptor `i` (R242). -/
def State.txReads (s : State) (i : Nat) : List (DWord × Nat) :=
  [(s.nicTxd i 0, 16), (s.mem.read (s.nicTxd i 0) 8, (s.mem.read (s.nicTxd i 8) 2).toNat)]

/-- TX-ADVANCE, outside an array that is being built. A frame that went early is not read again (R242). -/
def State.nicAdvance (s : State) : State :=
  s.nicMove (if 0 ≤ s.nic.txLag then s.txReads s.nic.tdh.toNat else []) s.txAdvance

/-- TX-WRITEBACK, outside an array that is being built. -/
def State.nicWriteback (s : State) (status : Byte) (raise : Bool) : State :=
  s.nicMove [(s.nicTxd (s.nic.writebackIndex s.cfg) 12, 1)] (s.txWriteback status raise)

/-- TX-EARLY, outside an array that is being built. -/
def State.nicEarly (s : State) (status : Byte) (raise : Bool) : State :=
  s.nicMove (s.txReads s.nic.tdh.toNat) (s.txEarly status raise)

/-- RX-FILL, outside an array that is being built. -/
def State.nicFill (s : State) (frame : List Byte) (checksum : Half) (status errors : Byte) (special : Half)
    (rxt0 rxdmt0 : Bool) : State :=
  s.nicMove [(s.nicRxd s.nic.rdh.toNat 0, 16), (s.mem.read (s.nicRxd s.nic.rdh.toNat 0) 8, frame.length)]
    (s.rxFill frame checksum status errors special rxt0 rxdmt0)

/-! ### The host's memory (R251) -/

/-- An address lies in the buffer of a slot. -/
def Slot.covers (a : Nat) : Slot → Bool
  | .empty => false
  | .full m _ => inRegion m.addr.toNat m.len.toNat a

/-- The host may write an address: outside the descriptor arrays once RING_INIT has been admitted, and outside every
buffer in an ownership slot (R251, 42_ring_manager R183). DESIGN CHOICE: the arrays are the host's again when DETACH has
cleared the bases, not yet at STOP's response, which R251 and 41_reset_configure R171 d allow too
(notes/assumptions/20.md). -/
def State.hostOwns (s : State) (a : Nat) : Bool :=
  ((s.txBase == 0 && s.rxBase == 0) || !inArrays s.cfg (s.txBase, s.rxBase) a) && !s.beingBuilt a &&
    s.txSlots.all (fun x => !x.covers a) && s.rxSlots.all (fun x => !x.covers a)

/-- The host writes bytes of memory it owns (R248, R251). -/
def State.hostStore (s : State) (addr : DWord) (bytes : List Byte) : State :=
  if (List.range bytes.length).all (fun k => s.hostOwns (addr + BitVec.ofNat 64 k).toNat) then
    { s with mem := s.mem.store addr bytes }
  else s

/-! ### Delays (70_reset_and_hazards R330; notes/assumptions/9.md) -/

/-- The NIC moves enabled now, each with the descriptor it concerns; RELOAD-DONE concerns none. -/
def State.owed (s : State) : List Owed :=
  (if s.nic.resetting then [.reload] else []) ++ (if s.txOwesDone then [.writeback (s.nic.writebackIndex s.cfg)] else []) ++
    (if s.txStartable then [.advance s.nic.tdh.toNat] else []) ++
    (if s.txStartable && decide (s.nic.txLag = 0) then [.early s.nic.tdh.toNat] else []) ++
    (if s.rxFillable then [.fill s.nic.rdh.toNat] else [])

/-- A frame the environment may deliver, of a free length from 1 to `RX_BUF_SIZE`: addressed to the station address or to
broadcast, its other bytes free (R243; notes/assumptions/7.md). -/
def State.freeFrame (s : State) : List Byte :=
  let n := 1 + (Config.freeWord s.drawn).toNat % s.cfg.rxBufSize.toNat
  let dst := if Config.freeBool s.drawn then s.nic.station else broadcast
  (dst ++ (List.range (n - 6)).map (fun j => Config.freeByte (s.drawn + j))).take n

/-- RX-FILL with a free frame and free values beside it, each drawn with a number of its own. -/
def State.fillFree (s : State) : State :=
  let k := s.drawn + s.freeFrame.length
  { s with drawn := k + 2 }.nicFill s.freeFrame ((Config.freeWord k).setWidth 16) (Config.freeByte k)
    (Config.freeByte (k + 1)) ((Config.freeWord (k + 1)).setWidth 16) (Config.freeBool k) (Config.freeBool (k + 1))

/-- RELOAD-DONE with a free value in the cause register (R245). -/
def State.reloadFree (s : State) : State := { s with drawn := s.drawn + 1 }.reloadDone (Config.freeWord s.drawn)

/-- A NIC move that the end of a delay makes, with free values for what the NIC chooses. -/
def State.makeOwed (s : State) : Owed → State
  | .writeback _ => { s with drawn := s.drawn + 1 }.nicWriteback (Config.freeByte s.drawn) (Config.freeBool s.drawn)
  | .advance _ => s.nicAdvance
  | .early _ => { s with drawn := s.drawn + 1 }.nicEarly (Config.freeByte s.drawn) (Config.freeBool s.drawn)
  | .fill _ => s.fillFree
  | .reload => s.reloadFree

/-- The end of a settling delay: every move that was enabled at its start and is enabled still happens now. -/
def State.settle (s : State) : List Owed → State
  | [] => s
  | o :: rest => State.settle (if s.owed.contains o then s.makeOwed o else s) rest

/-- `Delay(DELAY_RELOAD_MS)`: the NIC's RELOAD-DONE has happened when the delay ends (R245, R330). -/
def State.delayReload (s : State) : State :=
  let s1 := s.emit (.delay s.cfg.delayReloadMs)
  if s1.nic.resetting then s1.reloadFree else s1

end Sys2Proof.Machine
end

