-- ==== Sys2Proof/Machine/Prims.lean ====
section
/-! DEFINITION. The primitives of 00_scope R14 as a command in flight makes them, and the clean-up a failing access
asks for at each place of a command. -/

namespace Sys2Proof.Machine

/-- An access that may fail, as the result of a primitive: the error is the offset or port. -/
def orError (off : Word) : Option State → Except Word State
  | some s => .ok s
  | none => .error off

/-- One primitive (R14). The error is that of `HwAccessError`; the failing access is not performed
(60_exceptions R261). -/
def Prim.apply (s : State) : Prim → Except Word State
  | .regWrite off v => orError off (s.regWrite32 off (v.value s))
  | .regRead off => orError off ((s.regRead32 off).map Prod.snd)
  | .ioWrite p v => orError (s.cfg.port p) (s.ioWrite32 p v)
  | .delayReload => .ok s.delayReload
  | .setFsm f => .ok { s with fsm := f }
  | .setTxBase v => .ok { s with txBase := v }
  | .setRxBase v => .ok { s with rxBase := v }
  | .setTxTail v => .ok { s with txTail := v }
  | .setTxNtc v => .ok { s with txNtc := v }
  | .setRingsReady b => .ok { s with ringsReady := b }
  | .setPollState p => .ok { s with pollState := p }
  | .setPollMissed b => .ok { s with pollMissed := b }
  | .countDropped => .ok { s with rxDropped := s.rxDropped + 1 }
  | .txd i f v => .ok (s.writeTxd i f v)
  | .rxd i f v => .ok (s.writeRxd i f v)
  | .setTxSlot i v => .ok { s with txSlots := setSlot s.txSlots i v }
  | .setRxSlot i v => .ok { s with rxSlots := setSlot s.rxSlots i v }
  | .unlock => .ok { s with txLock := false }
  | .call c => .ok (s.call c)

/-- A register read on whose value the command goes on; `failed` is where it goes when the access is not admitted. -/
def readThen (off : Word) (failed : Task) (go : Word → Task) (s : State) : Progress :=
  match s.regRead32 off with
  | some r => .more (go r.1) r.2
  | none => .more failed s

/-- `lock(tx)`: enabled only while the lock is free, and sets it in the same step (10_state R33). -/
def lockThen (go : Task) (s : State) : Progress :=
  if s.txLock then .wait else .more go { s with txLock := true }

/-- Where a command goes when a primitive made on the way to a point raises `HwAccessError`: STOP leaves its try block
(41_reset_configure R170), SUBMIT unlocks and raises (43_tx_path R201 step 10), POLL goes to its step 6
(44_rx_poll_irq R225); every other command ends at once (R158, 40_register_access R135). -/
def Point.onError (off : Word) : Point → Task
  | .stopLock _ => Task.goto (.stopLock (some off))
  | .submitEnd => Task.unlockAnswer (.hwError off)
  | .pollNext _ _ work => Task.goto (.pollEnd work (some off))
  | .respond _ | .read32 _ | .ringAdmit _ _ | .ringAlloc _ | .ringMap _ _ | .ringUndo _ _ | .resetAdmit
  | .resetSettle | .resetSettled _ | .resetCtrl | .resetManc | .configureAdmit | .startAdmit | .stopAdmit
  | .stopWait | .stopRings _ | .stopTx _ _ | .stopRx _ _ | .detachAdmit | .submitAdmit _ _ | .submitLock _ _
  | .submitRecheck _ _ | .submitTail _ _ | .submitDone _ _ _ | .submitPad _ _ _ | .submitMap _ _ _
  | .submitSlot _ _ _ | .recycleAdmit | .recycleLock _ | .recycleHead _ | .recycleNtc _ _ | .recycleDone _ _ _
  | .recycleSlot _ _ _ | .irqAdmit | .irqRead | .irqRequest | .pollAdmit _ | .pollTail _ | .pollDone _ _ _
  | .pollLength _ _ _ | .pollAlloc _ _ _ _ | .pollMap _ _ _ _ _ | .pollTake _ _ _ _ _ _ | .pollEnd _ _
  | .readStats => Task.raise off

end Sys2Proof.Machine
end

