-- ==== Sys2Proof/Machine/RegisterSteps.lean ====
section
/-! DEFINITION. The register access layer commands as sequences of primitives (40_register_access R131 to R134). -/

namespace Sys2Proof.Machine

/-- READ32 (R131). -/
def read32Task (off : Word) : Task := Task.goto (.read32 off)

/-- READ32's one access and its answer (R131). -/
def stepRead32 (off : Word) : State → Progress :=
  readThen off (Task.raise off) (fun v => Task.answer (.ok (v.setWidth 64)))

/-- WRITE32 (R132). -/
def write32Task (value off : Word) : Task := ⟨[.regWrite off (.lit value)], .respond (.ok 0)⟩

/-- `write_flush()`: a read of the status register, value discarded (R133, R135). -/
def flush (c : Cfg) : Prim := .regRead c.regStatus

/-- WRITE_FLUSH (R133). -/
def writeFlushTask (c : Cfg) : Task := ⟨[flush c], .respond (.ok 0)⟩

/-- `write_via_io_port(v, off)`: the index port, then the data port (30_encoding R117, R134, R135). -/
def writeViaIoPort (value off : Word) : List Prim := [.ioWrite .addr off, .ioWrite .data value]

/-- WRITE_IO (R134). -/
def writeIoTask (value off : Word) : Task := ⟨writeViaIoPort value off, .respond (.ok 0)⟩

end Sys2Proof.Machine
end

