-- ==== Sys2Proof/Machine/LifecycleSteps.lean ====
section
/-! DEFINITION. RESET, CONFIGURE, START, STOP and DETACH as sequences of primitives (41_reset_configure R151, R160, R168,
R170, R172). -/

namespace Sys2Proof.Machine

/-- Mask all interrupts, stop RX, stop TX: RESET steps 1 and 2, and STOP's quiesce (R151, R170). -/
def quiesce (c : Cfg) : List Prim :=
  [.regWrite c.regImc (.lit c.imcAll), .regWrite c.regRctl (.lit 0), .regWrite c.regTctl (.lit c.tctlPsp)]

/-! ### RESET (R151) -/

/-- RESET. -/
def resetTask : Task := Task.goto .resetAdmit

/-- Admission, then steps 1, 2 and the flush of step 3. -/
def stepResetAdmit (s : State) : Progress :=
  whenAdmitted (s.fsm == .uninitialized) ⟨quiesce s.cfg ++ [flush s.cfg], .resetSettle⟩ s

/-- Step 3: `Delay(DELAY_SETTLE_MS)` begins. -/
def stepResetSettle (s : State) : Progress :=
  .more (Task.goto (.resetSettled s.owed)) (s.emit (.delay s.cfg.delaySettleMs))

/-- Step 3: the delay ends. -/
def stepResetSettled (owed : List Owed) (s : State) : Progress := .more (Task.goto .resetCtrl) (s.settle owed)

/-- Step 4: read device control, set the global-reset bit, write it back through the ports; then step 5's delay. -/
def stepResetCtrl (s : State) : Progress :=
  readThen s.cfg.regCtrl (Task.raise s.cfg.regCtrl)
    (fun ctrl => ⟨writeViaIoPort (ctrl ||| s.cfg.ctrlRst) s.cfg.regCtrl ++ [.delayReload], .resetManc⟩) s

/-- Step 6: clear the ARP-filtering bit; step 7: mask again, read and discard the cause register; then `Reset`. -/
def stepResetManc (s : State) : Progress :=
  readThen s.cfg.regManc (Task.raise s.cfg.regManc)
    (fun manc => ⟨[.regWrite s.cfg.regManc (.lit (manc &&& ~~~s.cfg.mancArpEn)),
      .regWrite s.cfg.regImc (.lit s.cfg.imcAll), .regRead s.cfg.regIcr, .setFsm .reset], .respond (.ok 0)⟩) s

/-! ### CONFIGURE (R160) -/

/-- The RX part: station address, multicast table, RX ring, RX control, timers (R160, R161). -/
def configureRx (c : Cfg) : List Prim :=
  [.regWrite c.regRal0 .ral, .regWrite c.regRah0 .rah] ++
    (List.range c.mtaEntries).map (fun i => .regWrite (c.offset (.mta i)) (.lit 0)) ++
    [.regWrite c.regRdh (.lit 0), .regWrite c.regRdt (.lit c.rxTailInit),
     .regWrite c.regRdlen (.lit (ringBytes c c.nRx)), .regWrite c.regRdbal .rxBase, .regWrite c.regRdbah (.lit 0),
     .regWrite c.regRctl (.lit c.rctlCfg), .regWrite c.regRdtr (.lit 0), .regWrite c.regRadv (.lit 0)]

/-- The TX part: TX ring, TX control, inter-packet gap (R160, R163). -/
def configureTx (c : Cfg) : List Prim :=
  [.regWrite c.regTdh (.lit 0), .regWrite c.regTdt (.lit 0), .regWrite c.regTdlen (.lit (ringBytes c c.nTx)),
   .regWrite c.regTdbal .txBase, .regWrite c.regTdbah (.lit 0), .regWrite c.regTctl (.lit c.tctlCfg),
   .regWrite c.regTipg (.lit c.tipgValue)]

/-- CONFIGURE. -/
def configureTask : Task := Task.goto .configureAdmit

/-- Admission, then the whole list: RX part, TX part, the two indices, the interrupt enable, `Configured`
(R160, R166). -/
def stepConfigureAdmit (s : State) : Progress :=
  whenAdmitted s.admitsConfigure
    ⟨configureRx s.cfg ++ configureTx s.cfg ++
      [.setTxTail 0, .setTxNtc 0, .regWrite s.cfg.regIms (.lit s.cfg.imsCfg), .setFsm .configured], .respond (.ok 0)⟩ s

/-! ### START (R168) -/

/-- START. -/
def startTask : Task := Task.goto .startAdmit

/-- Admission, then `Running`. -/
def stepStartAdmit (s : State) : Progress := whenAdmitted (s.fsm == .configured) ⟨[.setFsm .running], .respond (.ok 0)⟩ s

/-! ### STOP (R170) -/

/-- STOP. -/
def stopTask : Task := Task.goto .stopAdmit

/-- Admission, then `Stopped`. -/
def stepStopAdmit (s : State) : Progress := whenAdmitted (s.fsm != .stopped) ⟨[.setFsm .stopped], .stopWait⟩ s

/-- Wait for a poll in flight to end; then no poll, and quiesce the NIC with a flush. -/
def stepStopWait (s : State) : Progress :=
  if s.pollState == .active then .wait
  else .more ⟨[.setPollState .idle, .setPollMissed false] ++ quiesce s.cfg ++ [flush s.cfg], .stopLock none⟩ s

/-- Where a SUBMIT or a RECYCLE, of its own or in a POLL, that was let in waits for the TX lock (43_tx_path R201, R210). -/
def Point.awaitsLock : Point → Bool
  | .submitLock _ _ | .recycleLock _ => true
  | .respond _ | .read32 _ | .ringAdmit _ _ | .ringAlloc _ | .ringMap _ _ | .ringUndo _ _ | .resetAdmit
  | .resetSettle | .resetSettled _ | .resetCtrl | .resetManc | .configureAdmit | .startAdmit | .stopAdmit
  | .stopWait | .stopLock _ | .stopRings _ | .stopTx _ _ | .stopRx _ _ | .detachAdmit | .submitAdmit _ _
  | .submitRecheck _ _ | .submitTail _ _ | .submitDone _ _ _ | .submitPad _ _ _ | .submitMap _ _ _
  | .submitSlot _ _ _ | .submitEnd | .recycleAdmit | .recycleHead _ | .recycleNtc _ _ | .recycleDone _ _ _
  | .recycleSlot _ _ _ | .irqAdmit | .irqRead | .irqRequest | .pollAdmit _ | .pollTail _ | .pollDone _ _ _
  | .pollLength _ _ _ | .pollAlloc _ _ _ _ | .pollMap _ _ _ _ _ | .pollTake _ _ _ _ _ _ | .pollNext _ _ _
  | .pollEnd _ _ | .readStats => false

/-- Another command in flight waits for the TX lock. -/
def State.lockAwaited (s : State) : Bool := s.tasks.any (fun x => x.2.point.awaitsLock)

/-- Take the TX lock, whether or not the quiesce failed. DEDUCED: STOP takes it after every SUBMIT and RECYCLE that waits
for it, as R170 says: "a SUBMIT or RECYCLE in flight finishes first" (notes/assumptions/29.md). -/
def stepStopLock (err : Option Word) (s : State) : Progress :=
  if s.lockAwaited then .wait else lockThen (Task.goto (.stopRings err)) s

/-- STOP's answer: OK, or the failure of the quiesce. -/
def stopAnswer : Option Word → Response
  | none => .ok 0
  | some off => .hwError off

/-- Only built rings have slots to release. -/
def stepStopRings (err : Option Word) (s : State) : Progress :=
  if s.ringsReady then .more (Task.goto (.stopTx 0 err)) s else .more (Task.unlockAnswer (stopAnswer err)) s

/-- Release TX slot `i`: unmap and free, no completion report (R170, R171 c). -/
def stepStopTx (i : Nat) (err : Option Word) (s : State) : Progress :=
  if i < s.cfg.nTx then
    match slotAt s.txSlots (index i) with
    | .full m b => .more ⟨[.call (.dmaUnmap m), .call (.freeBuffer b), .setTxSlot (index i) .empty], .stopTx (i + 1) err⟩ s
    | .empty => .more (Task.goto (.stopTx (i + 1) err)) s
  else .more (Task.goto (.stopRx 0 err)) s

/-- Release RX slot `i`; at the end the rings are gone and the lock is free. -/
def stepStopRx (i : Nat) (err : Option Word) (s : State) : Progress :=
  if i < s.cfg.nRx then
    match slotAt s.rxSlots (index i) with
    | .full m b => .more ⟨[.call (.dmaUnmap m), .call (.freeBuffer b), .setRxSlot (index i) .empty], .stopRx (i + 1) err⟩ s
    | .empty => .more (Task.goto (.stopRx (i + 1) err)) s
  else .more ⟨[.setRingsReady false, .unlock], .respond (stopAnswer err)⟩ s

/-! ### DETACH (R172) -/

/-- DETACH. -/
def detachTask : Task := Task.goto .detachAdmit

/-- In `Stopped`: block reset in one step (R150, R172). DEDUCED: that no other command is in flight is the host's duty,
which DRM does not check (45_device_agent R252 b; notes/assumptions/11.md). DESIGN CHOICE: the test and every write are one
step, as block reset is one transition (10_state R65; notes/assumptions/19.md). -/
def stepDetachAdmit (s : State) : Progress :=
  if s.fsm == .stopped then .more (Task.answer (.ok 0)) s.blockReset
  else .more (Task.answer (.refuse .illegalState)) s

end Sys2Proof.Machine
end

