-- ==== Sys2Proof/Machine/RingSteps.lean ====
section
/-! DEFINITION. RING_INIT as a sequence of primitives (42_ring_manager R181). -/

namespace Sys2Proof.Machine

/-- RING_INIT (R181). -/
def ringInitTask (txBase rxBase : Word) : Task := Task.goto (.ringAdmit txBase rxBase)

/-- The primitives that make TX descriptor `i` free: every field 0 but Done = 1, the slot Empty (R181). -/
def freeTxDescriptor (c : Cfg) (i : Word) : List Prim := txdWrites i 0 0 0 c.txdStatDd ++ [.setTxSlot i .empty]

/-- RING_INIT's first part: the bases, the TX ring, the two indices (R181). The descriptors are written before
`rings_ready` is set, as the pseudocode of R181, decisions D10 and D11 and 95_test_vectors VG7 state it; on 20_memory R76,
which says that DRM accesses them only while `rings_ready = 1`, see notes/assumptions/29.md. -/
def ringInitTx (c : Cfg) (txBase rxBase : Word) : List Prim :=
  [.setTxBase txBase, .setRxBase rxBase] ++ (List.range c.nTx).flatMap (fun i => freeTxDescriptor c (index i)) ++
    [.setTxTail 0, .setTxNtc 0]

/-- Admission: the lifecycle state first, then the operands (R181, 60_exceptions R271). -/
def stepRingAdmit (txBase rxBase : Word) (s : State) : Progress :=
  if s.admitsRingInit then
    if ringBasesOk s.cfg txBase rxBase then .more ⟨ringInitTx s.cfg txBase rxBase, .ringAlloc 0⟩ s
    else .more (Task.answer (.refuse .illegalCommand)) s
  else .more (Task.answer (.refuse .illegalState)) s

/-- RX descriptor `i`: a fresh buffer, or the end of the loop, or the undo (R181). -/
def stepRingAlloc (i : Nat) (s : State) : Progress :=
  if i < s.cfg.nRx then
    match s.allocRxBuffer s.cfg.rxBufSize with
    | (some b, s1) => .more (Task.goto (.ringMap i b)) s1
    | (none, s1) => .more (Task.goto (.ringUndo 0 i)) s1
  else .more ⟨[.setRingsReady true], .respond (.ok 0)⟩ s

/-- RX descriptor `i`: map the buffer and arm the descriptor (R181). -/
def stepRingMap (i : Nat) (b : DWord) (s : State) : Progress :=
  match s.dmaMap b s.cfg.rxBufSize .fromDevice with
  | (some m, s1) => .more ⟨rxdArm (index i) m.addr ++ [.setRxSlot (index i) (.full m b)], .ringAlloc (i + 1)⟩ s1
  | (none, s1) => .more ⟨[.call (.freeBuffer b)], .ringUndo 0 i⟩ s1

/-- The undo: give back slot `j` of the `i` filled ones (R181). An Empty slot is passed over
(notes/assumptions/13.md). -/
def stepRingUndo (j i : Nat) (s : State) : Progress :=
  if j < i then
    match slotAt s.rxSlots (index j) with
    | .full m b => .more ⟨[.call (.dmaUnmap m), .call (.freeBuffer b), .setRxSlot (index j) .empty], .ringUndo (j + 1) i⟩ s
    | .empty => .more (Task.goto (.ringUndo (j + 1) i)) s
  else .more (Task.answer (.refuse .noResource)) s

end Sys2Proof.Machine
end

