-- ==== Sys2Proof/Machine/TxSteps.lean ====
section
/-! DEFINITION. SUBMIT and RECYCLE as sequences of primitives (43_tx_path R201, R210). -/

namespace Sys2Proof.Machine

/-! ### SUBMIT (R201) -/

/-- SUBMIT. -/
def submitTask (len : Word) (buf : DWord) : Task := Task.goto (.submitAdmit len buf)

/-- Steps 1 and 2: the state, then the unpadded length, before the lock is taken (R202). -/
def stepSubmitAdmit (len : Word) (buf : DWord) (s : State) : Progress :=
  if s.fsm == .running then
    if s.cfg.blockSize < len.toNat then .more (Task.answer (.refuse .rejectTooLong)) s
    else .more (Task.goto (.submitLock len buf)) s
  else .more (Task.answer (.refuse .illegalState)) s

/-- Step 3: take the lock. -/
def stepSubmitLock (len : Word) (buf : DWord) : State → Progress := lockThen (Task.goto (.submitRecheck len buf))

/-- Step 3: STOP may have begun while SUBMIT waited. -/
def stepSubmitRecheck (len : Word) (buf : DWord) (s : State) : Progress :=
  if s.fsm == .running then .more (Task.goto (.submitTail len buf)) s
  else .more (Task.unlockAnswer (.refuse .illegalState)) s

/-- Step 4: read the software tail. -/
def stepSubmitTail (len : Word) (buf : DWord) (s : State) : Progress :=
  .more (Task.goto (.submitDone len buf s.txTail)) s

/-- Step 5: ring full when the descriptor at the tail is not Done; else step 6 or 7. -/
def stepSubmitDone (len : Word) (buf : DWord) (t : Word) (s : State) : Progress :=
  if s.txDone t then
    if len.toNat < s.cfg.ethZlen then .more (Task.goto (.submitPad len buf t)) s
    else .more (Task.goto (.submitMap len buf t)) s
  else .more (Task.unlockAnswer (.refuse .busy)) s

/-- Step 6: the host pads the packet to the Ethernet minimum (R203). -/
def stepSubmitPad (len : Word) (buf : DWord) (t : Word) (s : State) : Progress :=
  match s.pad buf len (index s.cfg.ethZlen) with
  | (true, s1) => .more (Task.goto (.submitMap (index s.cfg.ethZlen) buf t)) s1
  | (false, s1) => .more (Task.unlockAnswer (.refuse .busy)) s1

/-- Step 7: map the buffer, the device reading from memory. -/
def stepSubmitMap (len : Word) (buf : DWord) (t : Word) (s : State) : Progress :=
  match s.dmaMap buf len .toDevice with
  | (some m, s1) => .more (Task.goto (.submitSlot buf t m)) s1
  | (none, s1) => .more (Task.unlockAnswer (.refuse .busy)) s1

/-- Reclaim in place: what is released before a Done descriptor with a Full slot is used again (R204). -/
def reclaimInPlace (t : Word) : Slot → List Prim
  | .empty => []
  | .full m b => [.call (.dmaUnmap m), .call (.txComplete b), .setTxSlot t .empty]

/-- Steps 8 to 10: the descriptor, the slot, the software tail, the doorbell; then the lock is released. -/
def stepSubmitSlot (buf : DWord) (t : Word) (m : Mapping) (s : State) : Progress :=
  .more ⟨reclaimInPlace t (slotAt s.txSlots t) ++
      txdWrites t m.addr (m.len.setWidth 16) s.cfg.txCommand 0 ++
      [.setTxSlot t (.full m buf), .setTxTail (nextIndex s.cfg.nTx t), .regWrite s.cfg.regTdt .txTail], .submitEnd⟩ s

/-- Step 11. -/
def stepSubmitEnd (s : State) : Progress := .more (Task.unlockAnswer (.ok 0)) s

/-! ### RECYCLE (R210) -/

/-- RECYCLE. -/
def recycleTask : Task := Task.goto .recycleAdmit

/-- The body of RECYCLE, from `lock(tx)` to `unlock(tx)` (R210, R215). -/
def recycleBody (c : Caller) : Task := Task.goto (.recycleLock c)

/-- Admission, the command form only. -/
def stepRecycleAdmit (s : State) : Progress := whenAdmitted (s.fsm == .running) (recycleBody .command) s

/-- Take the lock. -/
def stepRecycleLock (c : Caller) : State → Progress := lockThen (Task.goto (.recycleHead c))

/-- What follows a body that has released the lock: the command's answer, or POLL's step 6. -/
def recycleThen (pre : List Prim) (err : Option Word) : Caller → Task
  | .command => ⟨pre ++ [.unlock], .respond (match err with | none => .ok 0 | some off => .hwError off)⟩
  | .poll work => ⟨pre ++ [.unlock], .pollEnd work err⟩

/-- The head snapshot, read once; a head outside the ring is a failed access (R211, R213). -/
def stepRecycleHead (c : Caller) (s : State) : Progress :=
  readThen s.cfg.regTdh (recycleThen [] (some s.cfg.regTdh) c)
    (fun h => if h.toNat < s.cfg.nTx then Task.goto (.recycleNtc c h) else recycleThen [] (some s.cfg.regTdh) c) s

/-- Start at next-to-clean. -/
def stepRecycleNtc (c : Caller) (h : Word) (s : State) : Progress := .more (Task.goto (.recycleDone c h s.txNtc)) s

/-- The loop goes on while the descriptor is Done and is not the snapshot head; then next-to-clean is set (R210). The rings
are there: STOP clears `rings_ready` only after a RECYCLE in flight has finished (41_reset_configure R170, `stepStopLock`). -/
def stepRecycleDone (c : Caller) (h idx : Word) (s : State) : Progress :=
  if s.txDone idx && idx != h then .more (Task.goto (.recycleSlot c h idx)) s
  else .more (recycleThen [.setTxNtc idx] none c) s

/-- Reclaim a Full slot, pass over an Empty one, advance (R210, R214). -/
def stepRecycleSlot (c : Caller) (h idx : Word) (s : State) : Progress :=
  match slotAt s.txSlots idx with
  | .full m b =>
    .more ⟨[.call (.dmaUnmap m), .call (.txComplete b), .setTxSlot idx .empty], .recycleDone c h (nextIndex s.cfg.nTx idx)⟩ s
  | .empty => .more (Task.goto (.recycleDone c h (nextIndex s.cfg.nTx idx))) s

end Sys2Proof.Machine
end

