-- ==== Sys2Proof/Machine/RxSteps.lean ====
section
/-! DEFINITION. IRQ, POLL and READ_STATS as sequences of primitives (44_rx_poll_irq R220, R225, R230). -/

namespace Sys2Proof.Machine

/-! ### IRQ (R220) -/

/-- IRQ. -/
def irqTask : Task := Task.goto .irqAdmit

/-- Admission. -/
def stepIrqAdmit (s : State) : Progress := whenAdmitted (s.fsm == .running) (Task.goto .irqRead) s

/-- Read and clear the cause register; 0 is "not mine". -/
def stepIrqRead (s : State) : Progress :=
  readThen s.cfg.regIcr (Task.raise s.cfg.regIcr)
    (fun c => if c = 0 then Task.answer (.refuse .notMine) else Task.goto .irqRequest) s

/-- The atomic step that requests a poll: single flight (R220, R223, 10_state R34). -/
def requestPoll (s : State) : State :=
  if s.fsm == .running then
    match s.pollState with
    | .idle => { s with pollState := .scheduled }.call .pollSchedule
    | .scheduled => s
    | .active => { s with pollMissed := true }
  else s

/-- Request a poll; "handled". -/
def stepIrqRequest (s : State) : Progress := .more (Task.answer (.ok 0)) (requestPoll s)

/-! ### POLL (R225) -/

/-- POLL. -/
def pollTask (budget : Word) : Task := Task.goto (.pollAdmit budget)

/-- Step 1, one atomic step: admission and single flight. -/
def stepPollAdmit (budget : Word) (s : State) : Progress :=
  if s.admitsPoll then .more (Task.goto (.pollTail budget)) { s with pollState := .active }
  else .more (Task.answer (.refuse .illegalState)) s

/-- Step 2: the next index after the RX tail register (R226). -/
def stepPollTail (budget : Word) (s : State) : Progress :=
  readThen s.cfg.regRdt (Task.goto (.pollEnd 0 (some s.cfg.regRdt)))
    (fun t => Task.goto (.pollDone budget (nextIndex s.cfg.nRx t) 0)) s

/-- Step 3: budget, then the Done bit; otherwise step 5. -/
def stepPollDone (budget next work : Word) (s : State) : Progress :=
  if work.toNat < budget.toNat && s.rxDone next then .more (Task.goto (.pollLength budget next work)) s
  else .more (recycleBody (.poll work)) s

/-- Step 4a: the length the NIC wrote, unchecked (R228). -/
def stepPollLength (budget next work : Word) (s : State) : Progress :=
  .more (Task.goto (.pollAlloc budget next work (s.rxLength next))) s

/-- Step 4b: the replacement buffer first; on failure count and leave the loop (R227). -/
def stepPollAlloc (budget next work : Word) (len : Half) (s : State) : Progress :=
  match s.allocRxBuffer s.cfg.rxBufSize with
  | (some b2, s1) => .more (Task.goto (.pollMap budget next work len b2)) s1
  | (none, s1) => .more ⟨[.countDropped], .recycleLock (.poll work)⟩ s1

/-- Step 4b: its mapping; on failure free it, count and leave the loop (R227). -/
def stepPollMap (budget next work : Word) (len : Half) (b2 : DWord) (s : State) : Progress :=
  match s.dmaMap b2 s.cfg.rxBufSize .fromDevice with
  | (some m2, s1) => .more (Task.goto (.pollTake budget next work len m2 b2)) s1
  | (none, s1) => .more ⟨[.call (.freeBuffer b2), .countDropped], .recycleLock (.poll work)⟩ s1

/-- Steps 4c and 4d: the filled buffer leaves its slot, its mapping is released, the frame is handed to the host. An
Empty slot hands over nothing (notes/assumptions/12.md). -/
def handOver (next : Word) (len : Half) : Slot → List Prim
  | .empty => []
  | .full m b => [.setRxSlot next .empty, .call (.dmaUnmap m), .call (.rxDeliver b len)]

/-- Steps 4c to 4g: hand over, re-arm the descriptor, fill the slot, write the tail register (R225, R119). -/
def stepPollTake (budget next work : Word) (len : Half) (m2 : Mapping) (b2 : DWord) (s : State) : Progress :=
  .more ⟨handOver next len (slotAt s.rxSlots next) ++
      [.rxd next .addr m2.addr, .rxd next .status 0, .setRxSlot next (.full m2 b2),
       .regWrite s.cfg.regRdt (.lit next)], .pollNext budget next work⟩ s

/-- Step 4h. -/
def stepPollNext (budget next work : Word) (s : State) : Progress :=
  .more (Task.goto (.pollDone budget (nextIndex s.cfg.nRx next) (work + 1))) s

/-- POLL's answer (R225 step 6). -/
def pollAnswer (work : Word) : Option Word → Response
  | none => .ok (work.setWidth 64)
  | some off => .hwError off

/-- Step 6: the end of the poll, its state part in one step; a missed interrupt schedules the next (10_state R34). -/
def stepPollEnd (work : Word) (err : Option Word) (s : State) : Progress :=
  if s.pollMissed then
    .more ⟨[.call (.pollComplete work), .call .pollSchedule], .respond (pollAnswer work err)⟩
      { s with pollMissed := false, pollState := .scheduled }
  else .more ⟨[.call (.pollComplete work)], .respond (pollAnswer work err)⟩ { s with pollState := .idle }

/-! ### READ_STATS (R230) -/

/-- READ_STATS. -/
def readStatsTask : Task := Task.goto .readStats

/-- The dropped-frame counter, read in one step. -/
def stepReadStats (s : State) : Progress := .more (Task.answer (.ok s.rxDropped)) s

end Sys2Proof.Machine
end

