-- ==== Sys2Proof/Machine/Run.lean ====
section
/-! DEFINITION. Running commands: one primitive of a command in flight, the moves of the other agents, and a command of
the command port from its first primitive to its response, with the moves the schedule places between its primitives
(45_device_agent R240; notes/assumptions/5.md, 15.md, 16.md). -/

namespace Sys2Proof.Machine

/-- One point of a command (00_scope R14). -/
def Point.step (s : State) : Point → Progress
  | .respond r => .done r s
  | .read32 off => stepRead32 off s
  | .ringAdmit txBase rxBase => stepRingAdmit txBase rxBase s
  | .ringAlloc i => stepRingAlloc i s
  | .ringMap i b => stepRingMap i b s
  | .ringUndo j i => stepRingUndo j i s
  | .resetAdmit => stepResetAdmit s
  | .resetSettle => stepResetSettle s
  | .resetSettled owed => stepResetSettled owed s
  | .resetCtrl => stepResetCtrl s
  | .resetManc => stepResetManc s
  | .configureAdmit => stepConfigureAdmit s
  | .startAdmit => stepStartAdmit s
  | .stopAdmit => stepStopAdmit s
  | .stopWait => stepStopWait s
  | .stopLock err => stepStopLock err s
  | .stopRings err => stepStopRings err s
  | .stopTx i err => stepStopTx i err s
  | .stopRx i err => stepStopRx i err s
  | .detachAdmit => stepDetachAdmit s
  | .submitAdmit len buf => stepSubmitAdmit len buf s
  | .submitLock len buf => stepSubmitLock len buf s
  | .submitRecheck len buf => stepSubmitRecheck len buf s
  | .submitTail len buf => stepSubmitTail len buf s
  | .submitDone len buf t => stepSubmitDone len buf t s
  | .submitPad len buf t => stepSubmitPad len buf t s
  | .submitMap len buf t => stepSubmitMap len buf t s
  | .submitSlot buf t m => stepSubmitSlot buf t m s
  | .submitEnd => stepSubmitEnd s
  | .recycleAdmit => stepRecycleAdmit s
  | .recycleLock c => stepRecycleLock c s
  | .recycleHead c => stepRecycleHead c s
  | .recycleNtc c h => stepRecycleNtc c h s
  | .recycleDone c h idx => stepRecycleDone c h idx s
  | .recycleSlot c h idx => stepRecycleSlot c h idx s
  | .irqAdmit => stepIrqAdmit s
  | .irqRead => stepIrqRead s
  | .irqRequest => stepIrqRequest s
  | .pollAdmit budget => stepPollAdmit budget s
  | .pollTail budget => stepPollTail budget s
  | .pollDone budget next work => stepPollDone budget next work s
  | .pollLength budget next work => stepPollLength budget next work s
  | .pollAlloc budget next work len => stepPollAlloc budget next work len s
  | .pollMap budget next work len b2 => stepPollMap budget next work len b2 s
  | .pollTake budget next work len m2 b2 => stepPollTake budget next work len m2 b2 s
  | .pollNext budget next work => stepPollNext budget next work s
  | .pollEnd work err => stepPollEnd work err s
  | .readStats => stepReadStats s

/-- One primitive of a command in flight: the next straight-line one, or the point it has come to. -/
def Task.step (s : State) (t : Task) : Progress :=
  match t.todo with
  | [] => t.point.step s
  | p :: rest =>
    match p.apply s with
    | .ok s' => .more ⟨rest, t.point⟩ s'
    | .error off => .more (t.point.onError off) s

/-- A command as it stands before its first primitive. -/
def taskOf (c : Cfg) : Instr → Task
  | .read32 offset => read32Task offset
  | .write32 value offset => write32Task value offset
  | .writeFlush => writeFlushTask c
  | .writeIo value offset => writeIoTask value offset
  | .ringInit txBase rxBase => ringInitTask txBase rxBase
  | .reset => resetTask
  | .configure => configureTask
  | .start => startTask
  | .stop => stopTask
  | .detach => detachTask
  | .submit len buf => submitTask len buf
  | .recycle => recycleTask
  | .irq => irqTask
  | .poll budget => pollTask budget
  | .readStats => readStatsTask

/-! ### Commands in flight in other contexts -/

/-- A new context: its number, and the state in which it is taken. -/
def State.takeCtx (s : State) : State := { s with nextCtx := s.nextCtx + 1 }

/-- The command of context `ctx` is in flight and stands at `t` (10_state R25). -/
def State.park (s : State) (ctx : Nat) (t : Task) : State := { s with tasks := (ctx, t) :: s.tasks }

/-- An illegal command word: ILLEGAL_COMMAND, no access, no state change (30_encoding R108). -/
def State.rejectWord (s : State) : State := s.takeCtx.respond s.nextCtx (.refuse .illegalCommand)

/-- The host issues a command word in a free context (45_device_agent R249 a). -/
def State.issue (s : State) (w : CmdWord) : State :=
  match decode w with
  | .ok i => s.takeCtx.park s.nextCtx (taskOf s.cfg i)
  | .error _ => s.rejectWord

/-- The task of a context. -/
def taskAt : List (Nat × Task) → Nat → Option Task
  | [], _ => none
  | (k, t) :: rest, ctx => if k = ctx then some t else taskAt rest ctx

/-- The tasks of the other contexts. -/
def otherTasks (l : List (Nat × Task)) (ctx : Nat) : List (Nat × Task) := l.eraseP (fun x => x.1 == ctx)

/-- The state without the command of context `ctx`. -/
def State.without (s : State) (ctx : Nat) : State := { s with tasks := otherTasks s.tasks ctx }

/-- The command in flight in context `ctx` makes its next primitive; a waiting command has no step (10_state R33). -/
def State.advance (s : State) (ctx : Nat) : State :=
  match taskAt s.tasks ctx with
  | none => s
  | some t =>
    match t.step (s.without ctx) with
    | .more t' s' => s'.park ctx t'
    | .done r s' => s'.respond ctx r
    | .wait => s

/-! ### The schedule -/

/-- One move of another agent (45_device_agent R240). -/
def Move.apply (s : State) : Move → State
  | .bus => s.busMove
  | .txAdvance => s.nicAdvance
  | .txWriteback status raise => s.nicWriteback status raise
  | .txEarly status raise => s.nicEarly status raise
  | .rxFill frame checksum status errors special rxt0 rxdmt0 => s.nicFill frame checksum status errors special rxt0 rxdmt0
  | .cause bits => s.cause bits
  | .reloadDone icr => s.reloadDone icr
  | .setMmioValid b => { s with mmioValid := b }
  | .setIoValid b => { s with ioValid := b }
  | .hostStore addr bytes => s.hostStore addr bytes
  | .issue w => s.issue w
  | .advance ctx => s.advance ctx

/-- Several moves, in order. -/
def State.moves (s : State) : List Move → State
  | [] => s
  | m :: rest => State.moves (m.apply s) rest

/-- The gap before a primitive: the moves the schedule places there. An exhausted schedule places none. -/
def State.gap (s : State) : State :=
  match s.sched with
  | [] => s
  | ms :: rest => { s with sched := rest }.moves ms

/-! ### The command of the command port -/

/-- Drive the command of context `ctx` to its response, a gap of the schedule before each primitive. A command that waits
when no gap is left stays in flight; so does one that has made `fuel` primitives (notes/assumptions/15.md). -/
def drive : Nat → Nat → State → State
  | 0, _, s => s
  | n + 1, ctx, s =>
    match taskAt s.gap.tasks ctx with
    | none => s.gap
    | some t =>
      match t.step (s.gap.without ctx) with
      | .more t' s' => drive n ctx (s'.park ctx t')
      | .done r s' => s'.respond ctx r
      | .wait => if s.gap.sched.isEmpty then s.gap else drive n ctx s.gap

/-- More primitives than any command makes: `turns` bounds the RX frames of a POLL. -/
def State.fuel (s : State) (turns : Nat) : Nat :=
  s.sched.length + 16 * (turns + s.cfg.nTx + s.cfg.nRx + s.cfg.mtaEntries) + 256

/-- A command on the command port, in a context of its own, from its first primitive to its response. -/
def runCommand (t : Task) (turns : Nat) (s : State) : State :=
  drive (s.fuel turns) s.nextCtx (s.takeCtx.park s.nextCtx t)

end Sys2Proof.Machine
end

