-- ==== Sys2Proof/Machine/Lifecycle.lean ====
section
/-! DEFINITION. The meanings of RESET, CONFIGURE, START, STOP and DETACH (41_reset_configure R150 to R172). -/

namespace Sys2Proof.Machine

/-- RESET (R151): the thirteen steps in their order, then `Reset`. -/
def execReset (s : State) : Host.Outcome State Fault Refusal := .next (runCommand resetTask 0 s)

/-- CONFIGURE (R160): the 146 register writes in their order, then `Configured`. -/
def execConfigure (s : State) : Host.Outcome State Fault Refusal := .next (runCommand configureTask 0 s)

/-- START (R168): `Running`. -/
def execStart (s : State) : Host.Outcome State Fault Refusal := .next (runCommand startTask 0 s)

/-- STOP (R170): `Stopped`, quiesce the NIC, release every slot. -/
def execStop (s : State) : Host.Outcome State Fault Refusal := .next (runCommand stopTask 0 s)

/-- DETACH (R172): block reset of DRM. -/
def execDetach (s : State) : Host.Outcome State Fault Refusal := .next (runCommand detachTask 0 s)

end Sys2Proof.Machine
end

