-- ==== Sys2Proof/Machine/RegisterAccess.lean ====
section
/-! DEFINITION. The meanings of READ32, WRITE32, WRITE_FLUSH and WRITE_IO (40_register_access R130 to R135). -/

namespace Sys2Proof.Machine

/-- READ32 (R131): drain the posted writes, read, answer the value. -/
def execRead32 (offset : Word) (s : State) : Host.Outcome State Fault Refusal :=
  .next (runCommand (read32Task offset) 0 s)

/-- WRITE32 (R132): post the write. -/
def execWrite32 (value offset : Word) (s : State) : Host.Outcome State Fault Refusal :=
  .next (runCommand (write32Task value offset) 0 s)

/-- WRITE_FLUSH (R133): a read of the status register, value discarded. -/
def execWriteFlush (s : State) : Host.Outcome State Fault Refusal :=
  .next (runCommand (writeFlushTask s.cfg) 0 s)

/-- WRITE_IO (R134): the index port, then the data port. -/
def execWriteIo (value offset : Word) (s : State) : Host.Outcome State Fault Refusal :=
  .next (runCommand (writeIoTask value offset) 0 s)

end Sys2Proof.Machine
end

