-- ==== Sys2Proof/Machine/RingManager.lean ====
section
/-! DEFINITION. The meaning of RING_INIT (42_ring_manager R181). -/

namespace Sys2Proof.Machine

/-- RING_INIT (R181): build both rings, or give everything back. -/
def execRingInit (txBase rxBase : Word) (s : State) : Host.Outcome State Fault Refusal :=
  .next (runCommand (ringInitTask txBase rxBase) 0 s)

end Sys2Proof.Machine
end

