-- ==== Sys2Proof/Machine/RxPoll.lean ====
section
/-! DEFINITION. The meanings of IRQ, POLL and READ_STATS (44_rx_poll_irq R220 to R230). -/

namespace Sys2Proof.Machine

/-- IRQ (R220): read and clear the cause register, request a poll. -/
def execIrq (s : State) : Host.Outcome State Fault Refusal := .next (runCommand irqTask 0 s)

/-- POLL (R225): drain the RX ring within the budget, then reclaim the TX ring. -/
def execPoll (budget : Word) (s : State) : Host.Outcome State Fault Refusal :=
  .next (runCommand (pollTask budget) budget.toNat s)

/-- READ_STATS (R230): the dropped-frame counter. -/
def execReadStats (s : State) : Host.Outcome State Fault Refusal := .next (runCommand readStatsTask 0 s)

end Sys2Proof.Machine
end

