-- ==== Sys2Proof/Machine/TxPath.lean ====
section
/-! DEFINITION. The meanings of SUBMIT and RECYCLE (43_tx_path R200 to R215). -/

namespace Sys2Proof.Machine

/-- SUBMIT (R201): fill the descriptor at the tail and ring the doorbell. -/
def execSubmit (len : Word) (buf : DWord) (s : State) : Host.Outcome State Fault Refusal :=
  .next (runCommand (submitTask len buf) 0 s)

/-- RECYCLE (R210): reclaim completed descriptors up to the head snapshot. -/
def execRecycle (s : State) : Host.Outcome State Fault Refusal := .next (runCommand recycleTask 0 s)

end Sys2Proof.Machine
end

