-- ==== Sys2Proof/Machine/Dispatch.lean ====
section
/-! DEFINITION. The meaning of every command, one arm each (30_encoding R101). -/

namespace Sys2Proof.Machine

def exec (i : Instr) (s : State) : Host.Outcome State Fault Refusal :=
  match i with
  | .read32 offset => Sys2Proof.Machine.execRead32 offset s
  | .write32 value offset => Sys2Proof.Machine.execWrite32 value offset s
  | .writeFlush => Sys2Proof.Machine.execWriteFlush s
  | .writeIo value offset => Sys2Proof.Machine.execWriteIo value offset s
  | .ringInit txBase rxBase => Sys2Proof.Machine.execRingInit txBase rxBase s
  | .reset => Sys2Proof.Machine.execReset s
  | .configure => Sys2Proof.Machine.execConfigure s
  | .start => Sys2Proof.Machine.execStart s
  | .stop => Sys2Proof.Machine.execStop s
  | .detach => Sys2Proof.Machine.execDetach s
  | .submit len buf => Sys2Proof.Machine.execSubmit len buf s
  | .recycle => Sys2Proof.Machine.execRecycle s
  | .irq => Sys2Proof.Machine.execIrq s
  | .poll budget => Sys2Proof.Machine.execPoll budget s
  | .readStats => Sys2Proof.Machine.execReadStats s

end Sys2Proof.Machine
end

