-- ==== Sys2Proof/Machine/Port.lean ====
section
/-! DEFINITION. The command port between the host and DRM: taking a command word, and what happens while no command is
presented (20_memory R91, 45_device_agent R240, R247; notes/assumptions/17.md). -/

namespace Sys2Proof.Machine

/-- The command word is taken from the port. -/
def State.takePort (s : State) : State := { s with port := none }

/-- DRM answers a command word: a command runs, anything else is ILLEGAL_COMMAND (30_encoding R100, R108). -/
def serve (w : CmdWord) (s : State) : Host.Outcome State Fault Refusal :=
  match decode w with
  | .ok i => exec i s
  | .error _ => .next s.rejectWord

/-- No command is presented: the next moves of the schedule; when the schedule is exhausted the bus goes on delivering
posted writes (R247). -/
def State.idle (s : State) : State := if s.sched.isEmpty then s.busMove else s.gap

/-- The state with a command word presented, its bits numbered as the command table numbers them. -/
def State.presenting (s : State) (nbits w : Nat) : State := { s with port := some (BitVec.ofNat 104 (w % 2 ^ nbits)) }

end Sys2Proof.Machine
end

