-- ==== Sys2Proof/Machine/Step.lean ====
section
/-! DEFINITION. One step of the machine: serve the command port, or let the other agents move. -/

namespace Sys2Proof.Machine

/-- One step: the command presented on the command port, from its first primitive to its response; with none presented,
the other agents move (45_device_agent R240). -/
def step (s : State) : Host.Outcome State Fault Refusal :=
  match s.port with
  | some w => serve w s.takePort
  | none => .next s.idle

/-- The state with a command word on the command port, so that the next step runs it. -/
def State.withFetchWord (s : State) (nbits w : Nat) : State := s.presenting nbits w

end Sys2Proof.Machine
end

