-- ==== Sys2Proof/Safety.lean ====
section
/-! DEFINITION. What counts as a safe run: how a command ends, which commands a state admits, what each command may write,
the states of a descriptor, the ownership invariants of the two rings, who holds the TX lock, and the shape of the
machine's tables (41_reset_configure R150, 42_ring_manager R186 to R193, 10_state R21, R33). Claims about the machine are
stated in these terms. -/

namespace Sys2Proof.Machine

/-! ### How a command ends -/

/-- The state after a command that was given the next context, did `es` at DRM's ports and answered `r` (30_encoding
R100). -/
def State.ends (s : State) (es : List Event) (r : Response) : State :=
  { s with nextCtx := s.nextCtx + 1, trace := s.trace ++ es ++ [.response s.nextCtx r] }

/-- An event that is no response. -/
def Event.quiet : Event → Bool
  | .response _ _ => false
  | _ => true

/-- A received frame is handed to the host (45_device_agent R250). -/
def Event.delivers : Event → Bool
  | .call (.rxDeliver _ _) => true
  | _ => false

/-! ### Admission (41_reset_configure R150) -/

/-- The admission table: which command the lifecycle state admits (R150, R172, 44_rx_poll_irq R225). -/
def State.admitted (s : State) : Instr → Bool
  | .read32 _ => true
  | .write32 _ _ => true
  | .writeFlush => true
  | .writeIo _ _ => true
  | .readStats => true
  | .ringInit _ _ =>
    match s.fsm with
    | .uninitialized => !s.ringsReady
    | .reset => !s.ringsReady
    | .configured => false
    | .running => false
    | .stopped => false
  | .reset => decide (s.fsm = .uninitialized)
  | .configure => decide (s.fsm = .reset ∧ s.ringsReady = true)
  | .start => decide (s.fsm = .configured)
  | .stop => decide (s.fsm ≠ .stopped)
  | .detach => decide (s.fsm = .stopped)
  | .submit _ _ => decide (s.fsm = .running)
  | .recycle => decide (s.fsm = .running)
  | .irq => decide (s.fsm = .running)
  | .poll _ => decide (s.fsm = .running ∧ s.pollState = .scheduled)

/-- The lifecycle transitions of R150: the command, the state before, the state after. -/
def transition : Instr → Fsm → Option Fsm
  | .reset, .uninitialized => some .reset
  | .configure, .reset => some .configured
  | .start, .configured => some .running
  | .stop, .uninitialized => some .stopped
  | .stop, .reset => some .stopped
  | .stop, .configured => some .stopped
  | .stop, .running => some .stopped
  | .detach, .stopped => some .uninitialized
  | _, _ => none

/-! ### What a command may write (10_state R21, R24, R30, R33 to R35; 60_exceptions R280) -/

/-- The pieces of DRM's own state. -/
inductive Piece where
  | txBase | rxBase | txTail | txNtc | rxDropped | irqLine | mac | ringsReady | fsm | txLock | pollState | pollMissed
  | txSlots | rxSlots
  deriving DecidableEq, Repr

/-- Two states agree on a piece. -/
def Piece.same (p : Piece) (s s' : State) : Prop :=
  match p with
  | .txBase => s'.txBase = s.txBase
  | .rxBase => s'.rxBase = s.rxBase
  | .txTail => s'.txTail = s.txTail
  | .txNtc => s'.txNtc = s.txNtc
  | .rxDropped => s'.rxDropped = s.rxDropped
  | .irqLine => s'.irqLine = s.irqLine
  | .mac => s'.mac = s.mac
  | .ringsReady => s'.ringsReady = s.ringsReady
  | .fsm => s'.fsm = s.fsm
  | .txLock => s'.txLock = s.txLock
  | .pollState => s'.pollState = s.pollState
  | .pollMissed => s'.pollMissed = s.pollMissed
  | .txSlots => s'.txSlots = s.txSlots
  | .rxSlots => s'.rxSlots = s.rxSlots

/-- The pieces each command writes, by the pseudocode of its rule. -/
def writesOf : Instr → List Piece
  | .read32 _ => []
  | .write32 _ _ => []
  | .writeFlush => []
  | .writeIo _ _ => []
  | .readStats => []
  | .ringInit _ _ => [.txBase, .rxBase, .txTail, .txNtc, .ringsReady, .txSlots, .rxSlots]
  | .reset => [.fsm]
  | .configure => [.txTail, .txNtc, .fsm]
  | .start => [.fsm]
  | .stop => [.fsm, .pollState, .pollMissed, .txLock, .txSlots, .rxSlots, .ringsReady]
  | .detach => [.txBase, .rxBase, .txTail, .txNtc, .rxDropped, .irqLine, .mac, .ringsReady, .fsm, .txLock, .pollState,
                .pollMissed, .txSlots, .rxSlots]
  | .submit _ _ => [.txLock, .txTail, .txSlots]
  | .recycle => [.txLock, .txNtc, .txSlots]
  | .irq => [.pollState, .pollMissed]
  | .poll _ => [.pollState, .pollMissed, .rxDropped, .rxSlots, .txLock, .txNtc, .txSlots]

/-- A command during which DMA memory may change: it writes descriptors, or, RESET, it waits for the NIC
(20_memory R76, 70_reset_and_hazards R330). -/
def touchesMemory : Instr → Bool
  | .ringInit _ _ => true
  | .submit _ _ => true
  | .poll _ => true
  | .reset => true
  | _ => false

/-- In some interleaving with whatever other agents do, the command `i` stands at `t` (00_scope R14, 45_device_agent
R240): the state before each of its primitives is any state with the configuration `c`. -/
inductive Reaches (c : Cfg) (i : Instr) : Task → Prop where
  | start : Reaches c i (taskOf c i)
  | next {t t' : Task} {s s' : State} : Reaches c i t → s.cfg = c → t.step s = .more t' s' → Reaches c i t'

/-! ### The sequences of RESET, CONFIGURE and STOP (41_reset_configure R151, R160, R170) -/

/-- The accesses and the two delays of RESET in their order, with the values read (R151). -/
def resetEvents (c : Cfg) (status ctrl manc icr : Word) : List Event :=
  [.regWrite c.regImc c.imcAll, .regWrite c.regRctl 0, .regWrite c.regTctl c.tctlPsp, .regRead c.regStatus status,
   .delay c.delaySettleMs, .regRead c.regCtrl ctrl, .ioWrite .addr c.regCtrl, .ioWrite .data (ctrl ||| c.ctrlRst),
   .delay c.delayReloadMs, .regRead c.regManc manc, .regWrite c.regManc (manc &&& ~~~c.mancArpEn),
   .regWrite c.regImc c.imcAll, .regRead c.regIcr icr]

/-- The register writes of CONFIGURE in their order (R160). -/
def State.configureWrites (s : State) : List (Word × Word) :=
  [(s.cfg.regRal0, s.mac.ral), (s.cfg.regRah0, s.mac.rah s.cfg)] ++
  (List.range s.cfg.mtaEntries).map (fun i => (s.cfg.regMta + BitVec.ofNat 32 (4 * i), 0)) ++
  [(s.cfg.regRdh, 0), (s.cfg.regRdt, s.cfg.rxTailInit), (s.cfg.regRdlen, BitVec.ofNat 32 (s.cfg.nRx * s.cfg.descSize)),
   (s.cfg.regRdbal, s.rxBase), (s.cfg.regRdbah, 0),
   (s.cfg.regRctl, s.cfg.rctlEn ||| s.cfg.rctlBam ||| s.cfg.rctlSz2048 ||| s.cfg.rctlSecrc),
   (s.cfg.regRdtr, 0), (s.cfg.regRadv, 0),
   (s.cfg.regTdh, 0), (s.cfg.regTdt, 0), (s.cfg.regTdlen, BitVec.ofNat 32 (s.cfg.nTx * s.cfg.descSize)),
   (s.cfg.regTdbal, s.txBase), (s.cfg.regTdbah, 0),
   (s.cfg.regTctl, s.cfg.tctlEn ||| s.cfg.tctlPsp ||| s.cfg.tctlCtValue <<< s.cfg.tctlCtShift |||
      s.cfg.tctlColdValue <<< s.cfg.tctlColdShift),
   (s.cfg.regTipg, s.cfg.tipgValue),
   (s.cfg.regIms, s.cfg.icrTxdw ||| s.cfg.icrRxt0 ||| s.cfg.icrRxdmt0 ||| s.cfg.icrRxseq ||| s.cfg.icrLsc)]

/-- The three writes with which RESET and STOP quiesce the NIC (R151, R170). -/
def quiesceWrites (c : Cfg) : List (Word × Word) := [(c.regImc, c.imcAll), (c.regRctl, 0), (c.regTctl, c.tctlPsp)]

/-- Posted writes as events. -/
def writeEvents (l : List (Word × Word)) : List Event := l.map (fun w => .regWrite w.1 w.2)

/-! ### Descriptors and slots -/

/-- The bytes of TX descriptor `i`, lowest address first (20_memory R75). -/
def State.txdBytes (s : State) (i : Word) : List Byte := s.mem.load (s.txdAddr i .addr) 16

/-- The bytes of RX descriptor `i`, lowest address first. -/
def State.rxdBytes (s : State) (i : Word) : List Byte := s.mem.load (s.rxdAddr i .addr) 16

/-- An address is one of the `n` bytes from `base` up. -/
def within (base : DWord) (n : Nat) (a : DWord) : Prop := ∃ k, k < n ∧ a = base + BitVec.ofNat 64 k

/-- What RECYCLE and SUBMIT's reclaim in place do with a slot's contents (43_tx_path R204, R210). -/
def reclaimCalls : Slot → List Event
  | .empty => []
  | .full m b => [.call (.dmaUnmap m), .call (.txComplete b)]

/-- What STOP and RING_INIT's undo do with a slot's contents (41_reset_configure R170, 42_ring_manager R181). -/
def releaseCalls : Slot → List Event
  | .empty => []
  | .full m b => [.call (.dmaUnmap m), .call (.freeBuffer b)]

/-- What releasing the slots of both rings calls, in STOP's order: TX ascending, then RX ascending (R171 f). -/
def State.stopCalls (s : State) : List Event :=
  (List.range s.cfg.nTx).flatMap (fun i => releaseCalls (slotAt s.txSlots (index i))) ++
    (List.range s.cfg.nRx).flatMap (fun i => releaseCalls (slotAt s.rxSlots (index i)))

/-- A slot table with the slots of a list of indices emptied. -/
def emptySlots (l : List Slot) (is : List Nat) : List Slot := is.foldl (fun l i => setSlot l (index i) .empty) l

/-- What POLL calls to hand over the frame of RX descriptor `next` with buffer `buf` and put the buffer `buf2`, mapped at
`a2`, in its place (44_rx_poll_irq R225 steps 4b to 4d). -/
def State.takeCalls (s : State) (next : Word) (m : Mapping) (buf buf2 a2 : DWord) : List Event :=
  [.call (.allocRxBuffer s.cfg.rxBufSize (some buf2)), .call (.dmaMap buf2 s.cfg.rxBufSize .fromDevice (some a2)),
   .call (.dmaUnmap m), .call (.rxDeliver buf (s.rxLength next))]

/-- The state after a POLL that did `es`, handed over `work` frames and answered `r`: the poll has ended, and a missed
interrupt has scheduled the next (44_rx_poll_irq R225 step 6). -/
def State.pollEnds (s : State) (es : List Event) (work : Word) (r : Response) : State :=
  { s with pollState := if s.pollMissed then .scheduled else .idle, pollMissed := false }.ends
    (es ++ [Event.call (.pollComplete work)] ++ if s.pollMissed then [Event.call .pollSchedule] else []) r

/-- The index `j` places after `i` in a ring of `n` (R188). -/
def ringIndex (n : Nat) (i : Word) (j : Nat) : Word := index ((i.toNat + j) % n)

/-- TX descriptor `i` is Free: Done and nothing outstanding (R186). -/
def State.TxFree (s : State) (i : Nat) : Prop :=
  s.txDone (index i) = true ∧ slotAt s.txSlots (index i) = .empty

/-- TX descriptor `i` carries the packet of its slot: the mapping's address and length, report-status and end-of-packet
(R190). -/
def State.TxCarries (s : State) (i : Nat) : Prop :=
  ∃ m b, slotAt s.txSlots (index i) = .full m b ∧ m.dir = .toDevice ∧
    s.readTxd (index i) .addr = m.addr ∧
    s.readTxd (index i) .length = m.len.setWidth 64 ∧
    s.readTxd (index i) .cmd = s.cfg.txCommand.setWidth 64

/-- Every TX descriptor is Free, InFlight or Done (R186, R190): one that is not Free carries the packet of its slot. -/
def State.TxOwned (s : State) : Prop := ∀ i, i < s.cfg.nTx → s.TxFree i ∨ s.TxCarries i

/-- Every RX slot is Full, with an RX mapping of a whole buffer whose address is in the descriptor (R187, R192). -/
def State.RxOwned (s : State) : Prop :=
  ∀ i, i < s.cfg.nRx → ∃ m b, slotAt s.rxSlots (index i) = .full m b ∧ m.dir = .fromDevice ∧
    m.len = s.cfg.rxBufSize ∧ s.readRxd (index i) .addr = m.addr

/-! ### The shape of the tables -/

/-- The tables have the capacities of the configuration (10_state R30, R58). -/
def State.shaped (s : State) : Bool :=
  decide (s.txSlots.length = s.cfg.nTx) && decide (s.rxSlots.length = s.cfg.nRx) &&
    decide (s.nic.mta.length = s.cfg.mtaEntries)

/-! ### The TX lock (10_state R33) -/

/-- A primitive that may raise `HwAccessError`. -/
def Prim.mayFail : Prim → Bool
  | .regWrite _ _ => true
  | .regRead _ => true
  | .ioWrite _ _ => true
  | _ => false

/-- The places of SUBMIT, RECYCLE and STOP between `lock(tx)` and `unlock(tx)`. -/
def Point.locked : Point → Bool
  | .stopRings _ | .stopTx _ _ | .stopRx _ _ | .submitRecheck _ _ | .submitTail _ _ | .submitDone _ _ _
  | .submitPad _ _ _ | .submitMap _ _ _ | .submitSlot _ _ _ | .submitEnd | .recycleHead _ | .recycleNtc _ _
  | .recycleDone _ _ _ | .recycleSlot _ _ _ => true
  | .respond _ | .read32 _ | .ringAdmit _ _ | .ringAlloc _ | .ringMap _ _ | .ringUndo _ _ | .resetAdmit
  | .resetSettle | .resetSettled _ | .resetCtrl | .resetManc | .configureAdmit | .startAdmit | .stopAdmit
  | .stopWait | .stopLock _ | .detachAdmit | .submitAdmit _ _ | .submitLock _ _ | .recycleAdmit
  | .recycleLock _ | .irqAdmit | .irqRead | .irqRequest | .pollAdmit _ | .pollTail _ | .pollDone _ _ _
  | .pollLength _ _ _ | .pollAlloc _ _ _ _ | .pollMap _ _ _ _ _ | .pollTake _ _ _ _ _ _ | .pollNext _ _ _
  | .pollEnd _ _ | .readStats => false

/-- A command in flight holds the TX lock: it has still to make `unlock(tx)`, now or after its point. -/
def Task.holdsLock (t : Task) : Bool := t.todo.contains .unlock || t.point.locked

/-- The places a command in flight can be in, as far as the lock goes: one `unlock` at most, none before a locked point,
and no access that may fail before an `unlock` or a locked point, but for SUBMIT's doorbell, whose failure unlocks. -/
def Task.lockShape (t : Task) : Bool :=
  decide (t.todo.count .unlock ≤ 1) && !(t.todo.contains .unlock && t.point.locked) &&
    (!t.holdsLock || t.point == .submitEnd || t.todo.all (fun p => !p.mayFail))

/-- The lock is held by exactly one command in flight when it is held, and by none when it is free (10_state R33). -/
def State.lockOwned (s : State) : Bool :=
  s.tasks.all (fun x => x.2.lockShape) &&
    decide ((s.tasks.filter (fun x => x.2.holdsLock)).length = if s.txLock then 1 else 0)

/-! ### The host's duty about DETACH (45_device_agent R252 b) -/

/-- A move that issues no command. -/
def Move.noIssue : Move → Bool
  | .issue _ => false
  | .bus | .txAdvance | .txWriteback _ _ | .txEarly _ _ | .rxFill _ _ _ _ _ _ _ | .cause _ | .reloadDone _
  | .setMmioValid _ | .setIoValid _ | .hostStore _ _ | .advance _ => true

/-- A move that issues no DETACH. -/
def Move.noDetach : Move → Bool
  | .issue w =>
    match decode w with
    | .ok i => i != .detach
    | .error _ => true
  | .bus | .txAdvance | .txWriteback _ _ | .txEarly _ _ | .rxFill _ _ _ _ _ _ _ | .cause _ | .reloadDone _
  | .setMmioValid _ | .setIoValid _ | .hostStore _ _ | .advance _ => true

/-- The coming step keeps the host's duty to issue DETACH only while no other command is in flight: a DETACH comes by the
command port, with no command in flight and none issued beside it. -/
def State.detachAlone (s : State) : Bool :=
  s.tasks.all (fun x => x.2.point != .detachAdmit) && s.sched.all (fun ms => ms.all Move.noDetach) &&
    match s.port with
    | none => true
    | some w =>
      match decode w with
      | .ok .detach => s.tasks.isEmpty && s.sched.all (fun ms => ms.all Move.noIssue)
      | _ => true

/-! ### Indices (10_state R21) -/

/-- A primitive that writes an index register writes one below the capacity. -/
def Prim.indexOk (n : Nat) : Prim → Bool
  | .setTxTail v => decide (v.toNat < n)
  | .setTxNtc v => decide (v.toNat < n)
  | _ => true

/-- A running index of RECYCLE is below the capacity. -/
def Point.indexOk (n : Nat) : Point → Bool
  | .recycleDone _ _ idx => decide (idx.toNat < n)
  | .recycleSlot _ _ idx => decide (idx.toNat < n)
  | .respond _ | .read32 _ | .ringAdmit _ _ | .ringAlloc _ | .ringMap _ _ | .ringUndo _ _ | .resetAdmit
  | .resetSettle | .resetSettled _ | .resetCtrl | .resetManc | .configureAdmit | .startAdmit | .stopAdmit
  | .stopWait | .stopLock _ | .stopRings _ | .stopTx _ _ | .stopRx _ _ | .detachAdmit | .submitAdmit _ _
  | .submitLock _ _ | .submitRecheck _ _ | .submitTail _ _ | .submitDone _ _ _ | .submitPad _ _ _
  | .submitMap _ _ _ | .submitSlot _ _ _ | .submitEnd | .recycleAdmit | .recycleLock _ | .recycleHead _
  | .recycleNtc _ _ | .irqAdmit | .irqRead | .irqRequest | .pollAdmit _ | .pollTail _ | .pollDone _ _ _
  | .pollLength _ _ _ | .pollAlloc _ _ _ _ | .pollMap _ _ _ _ _ | .pollTake _ _ _ _ _ _ | .pollNext _ _ _
  | .pollEnd _ _ | .readStats => true

/-- The two TX index registers, and every index a command in flight has still to write to them, are below `N_TX`. -/
def State.indicesOk (s : State) : Bool :=
  decide (s.txTail.toNat < s.cfg.nTx) && decide (s.txNtc.toNat < s.cfg.nTx) &&
    s.tasks.all (fun x => x.2.todo.all (Prim.indexOk s.cfg.nTx) && x.2.point.indexOk s.cfg.nTx)

end Sys2Proof.Machine
end

