-- ==== Sys2Proof/Certificates/Slice0/Obligations.lean ====
section
/-! DEFINITION. The statements about the machine, one `Prop` each. Unless a statement says otherwise its commands run while
no other agent moves (`s.sched = []`), so that a record equation is also the frame: every field it does not name is
unchanged. Statements about every schedule are at the end. -/

open Sys2Proof Sys2Proof.Machine

/-! ### Command words (30_encoding) -/

/-- Decoding the word, or the thirteen bytes, of any command gives the command back (R100 to R102, 20_memory R75). -/
def Obligations.DecodeOfEncode : Prop :=
  ∀ i : Instr, decode (encode i) = .ok i ∧ decodeBytes (encodeBytes i) = .ok i

/-- A word that decodes is the word of the command it decodes to: no bit of a legal word is ignored (R100, R102). -/
def Obligations.EncodeOfDecode : Prop :=
  ∀ (w : CmdWord) (i : Instr), decode w = .ok i → encode i = w

/-- A few words of 95_test_vectors section 2.1, and two illegal ones. -/
def Obligations.DecodedWords : Prop :=
  decode 0x01000000080000000000000000#104 = .ok (.read32 0x8) ∧
  decode 0x02FFFFFFFF00000000000000D8#104 = .ok (.write32 0xFFFFFFFF 0xD8) ∧
  decode 0x04041402400000000000000000#104 = .ok (.writeIo 0x04140240 0x0) ∧
  decode 0x10001000000000000000101000#104 = .ok (.ringInit 0x00100000 0x00101000) ∧
  decode 0x200000004000000000000000B0#104 = .ok (.submit 64 0xB0) ∧
  decode 0x31000000100000000000000000#104 = .ok (.poll 16) ∧
  decode 0x33000000000000000000000000#104 = .error (.unknownOpcode 0x33) ∧
  decode 0x11000000000000000000000001#104 = .error (.nonzeroMustBeZero 0x11)

/-- With a legal word on the command port, one step takes the word and runs `exec` of the command it decodes to (R100:
commands enter as words; 45_device_agent R240). That ONE step is the whole command, where R240 makes a step one
primitive, is the model's choice (notes/assumptions/17.md). -/
def Obligations.StepRunsCommand : Prop :=
  ∀ (s : State) (w : CmdWord) (i : Instr), s.port = some w → decode w = .ok i →
    step s = exec i { s with port := none }

/-- An `op` outside R101, or a non-zero must-be-zero bit, is answered ILLEGAL_COMMAND with no other effect (R108). -/
def Obligations.IllegalWord : Prop :=
  ∀ (s : State) (w : CmdWord), s.port = some w →
    (CmdWord.op w ∉ [0x01, 0x02, 0x03, 0x04, 0x10, 0x11, 0x12, 0x13, 0x14, 0x15, 0x20, 0x21, 0x30, 0x31, 0x32] ∨
      ∃ f, formatOf (CmdWord.op w) = some f ∧ (w.extractLsb' 0 96 &&& f.mustBeZero) ≠ 0) →
    step s = .next ({ s with port := none }.ends [] (.refuse .illegalCommand))

/-- A command outside its lifecycle states is answered ILLEGAL_STATE with no access and no other change; and
there is one length of command (R109, 41_reset_configure R150). -/
def Obligations.NotAdmitted : Prop :=
  (∀ (s : State) (i : Instr), s.sched = [] → s.admitted i = false →
    exec i s = .next (s.ends [] (.refuse .illegalState))) ∧
  ∀ bs : List Byte, bs.length ≠ 13 → decodeBytes bs = .error (.wrongLength bs.length)

/-! ### Assembled values (30_encoding) -/

/-- The station address registers hold the six bytes in little-endian lanes under the valid flag, the default
configuration gives the values of R112 to R115, and a response is the nine little-endian bytes of its status over its
data (R100, 20_memory R75). -/
def Obligations.AssembledValues : Prop :=
  (∀ m : Mac, m.ral.toNat = m.b0.toNat + 2 ^ 8 * m.b1.toNat + 2 ^ 16 * m.b2.toNat + 2 ^ 24 * m.b3.toNat) ∧
  (∀ (c : Cfg) (m : Mac), c.rahAv &&& 0xFFFF = 0 →
    (Mac.rah c m).toNat = m.b4.toNat + 2 ^ 8 * m.b5.toNat + c.rahAv.toNat) ∧
  Mac.ral ({} : Cfg).mac = 0x12005452 ∧ Mac.rah {} ({} : Cfg).mac = 0x80005634 ∧
  Cfg.tctlCfg {} = 0x0004010A ∧ Cfg.rctlCfg {} = 0x04008002 ∧ Cfg.imsCfg {} = 0x0000009D ∧
  ∀ r : Response, r.bytes.length = 9 ∧ leValue r.bytes = r.status.code.toNat * 2 ^ 64 + r.data.toNat

/-! ### The register access layer (40_register_access) -/

/-- READ32 of a stored register: the posted writes are delivered, the register is answered, nothing else changes
(R131, 20_memory R80, R82). -/
def Obligations.Read32Stored : Prop :=
  ∀ (s : State) (off : Word) (r : NicReg), s.sched = [] → s.admits off = true → s.drain.nic.resetting = false →
    s.cfg.regAt off = some r → r ≠ .icr → r ≠ .ims → r ≠ .imc →
    exec (.read32 off) s =
      .next (s.drain.ends [Event.regRead off (s.drain.nic.get r)] (.ok ((s.drain.nic.get r).setWidth 64))) ∧
    s.drain.wbuf = []

/-- READ32 of the cause register answers its value and clears it, so that a second READ32 answers 0 (20_memory R82). -/
def Obligations.Read32Cause : Prop :=
  ∀ s : State, s.sched = [] → s.cfg.mapOk = true → s.admits s.cfg.regIcr = true → s.drain.nic.resetting = false →
    ∃ t, exec (.read32 s.cfg.regIcr) s = .next t ∧
      t = { s.drain with nic := { s.drain.nic with icr := 0 } }.ends [Event.regRead s.cfg.regIcr s.drain.nic.icr]
        (.ok (s.drain.nic.icr.setWidth 64)) ∧
      exec (.read32 s.cfg.regIcr) t = .next (t.ends [Event.regRead s.cfg.regIcr 0] (.ok 0))

/-- READ32 where the spec gives no value (an offset that names no register, the mask registers, a NIC that resets): the
command answers some value, and nothing of DRM changes (R131, 93 U3, U6). -/
def Obligations.Read32Unspecified : Prop :=
  ∀ (s : State) (off : Word), s.sched = [] → s.admits off = true →
    (s.drain.nic.resetting = true ∨ s.cfg.regAt off = none ∨ s.cfg.regAt off = some .ims ∨
      s.cfg.regAt off = some .imc) →
    ∃ v : Word, exec (.read32 off) s =
      .next ({ s.drain with drawn := s.drain.drawn + 1 }.ends [Event.regRead off v] (.ok (v.setWidth 64)))

/-- A register access that is misaligned, out of range or unmapped is not performed: READ32 and WRITE32 answer
HW_ACCESS_ERROR with the offset, `wbuf` is not drained and nothing enters it (20_memory R77, R131, R132). -/
def Obligations.RegisterAccessRefused : Prop :=
  ∀ (s : State) (off value : Word), s.sched = [] →
    (off.toNat % 4 ≠ 0 ∨ s.cfg.mmioSize < off.toNat + 4 ∨ s.mmioValid = false) →
    exec (.read32 off) s = .next (s.ends [] ⟨.hwAccessError, off.setWidth 64⟩) ∧
    exec (.write32 value off) s = .next (s.ends [] ⟨.hwAccessError, off.setWidth 64⟩) ∧
    (off = s.cfg.regStatus → exec .writeFlush s = .next (s.ends [] ⟨.hwAccessError, off.setWidth 64⟩))

/-- WRITE32 posts the pair and answers OK(0); the NIC is not touched (R132, 20_memory R81). -/
def Obligations.Write32Posts : Prop :=
  ∀ (s : State) (off value : Word), s.sched = [] → off.toNat % 4 = 0 → off.toNat + 4 ≤ s.cfg.mmioSize →
    s.mmioValid = true →
    exec (.write32 value off) s =
      .next ({ s with wbuf := s.wbuf ++ [(off, value)] }.ends [Event.regWrite off value] (.ok 0))

/-- WRITE_FLUSH reads the status register and discards the value: afterwards `wbuf` is empty and its entries have
reached the NIC in order (R133, 20_memory R80, R89). -/
def Obligations.WriteFlushDrains : Prop :=
  ∀ s : State, s.sched = [] → s.cfg.mapOk = true → s.admits s.cfg.regStatus = true →
    ∃ v d, exec .writeFlush s = .next ({ s.drain with drawn := d }.ends [Event.regRead s.cfg.regStatus v] (.ok 0)) ∧
      s.drain = State.deliver { s with wbuf := [] } s.wbuf ∧ s.drain.wbuf = [] ∧
      (s.drain.nic.resetting = false → v = s.drain.nic.status ∧ d = s.drain.drawn)

/-- Writes reach the NIC in the order they were issued: a READ32 after any number of posted writes answers the value of
the last WRITE32 to its register (20_memory R81, R86). -/
def Obligations.ReadAfterWrite : Prop :=
  ∀ (s : State) (off value : Word) (r : NicReg), s.sched = [] → s.admits off = true → s.shaped = true →
    s.drain.nic.resetting = false → s.cfg.mapOk = true → s.cfg.regAt off = some r →
    r ∉ [.icr, .ims, .imc, .status, .ctrl] →
    ∃ t u, exec (.write32 value off) s = .next t ∧ exec (.read32 off) t = .next u ∧
      u.trace = s.trace ++ [Event.regWrite off value, Event.response s.nextCtx (.ok 0), Event.regRead off value,
        Event.response (s.nextCtx + 1) (.ok (value.setWidth 64))] ∧
      u.wbuf = [] ∧ u.nic = s.drain.nic.write r value

/-- WRITE_IO writes the index port, then the data port; both reach the NIC at once and `wbuf` is not drained: a write
that starts no global reset has the effect of a write to its register, and none on the named registers where the offset
names none (R134, 20_memory R71, R83). That such a write has no effect at all is the model's choice
(notes/assumptions/23.md). -/
def Obligations.WriteIoPorts : Prop :=
  ∀ (s : State) (off value : Word), s.sched = [] → s.ioValid = true →
    ∃ n d, exec (.writeIo value off) s =
        .next ({ s with nic := n, drawn := d }.ends [Event.ioWrite .addr off, Event.ioWrite .data value] (.ok 0)) ∧
      (s.nic.resetting = false →
        (∀ r, s.cfg.regAt off = some r → (r = .ctrl → value &&& s.cfg.ctrlRst = 0) →
          n = { s.nic with ioIndex := off }.write r value ∧ d = s.drawn) ∧
        (s.cfg.regAt off = none → n = { s.nic with ioIndex := off } ∧ d = s.drawn))

/-- WRITE_IO fails at the port whose write is not admitted: at the index port with no effect, at the data port with the
index already written (R134, 60_exceptions R266). -/
def Obligations.WriteIoRefused : Prop :=
  (∀ (s : State) (off value : Word), s.sched = [] → s.ioValid = false →
    exec (.writeIo value off) s = .next (s.ends [] ⟨.hwAccessError, s.cfg.ioAddr.setWidth 64⟩)) ∧
  ∀ (s : State) (off value : Word), s.sched = [[], [.setIoValid false]] → s.ioValid = true →
    exec (.writeIo value off) s =
      .next ({ s with sched := [], ioValid := false, nic := { s.nic with ioIndex := off } }.ends [Event.ioWrite .addr off]
        ⟨.hwAccessError, s.cfg.ioData.setWidth 64⟩)

/-! ### The NIC (45_device_agent) -/

/-- A register written at the NIC reads back, and no other register, the mask or the index changes; the head write makes
`tx_lag` 0. A write of the mask-set register enables its bits, a write of the mask-clear register disables them, and both
change nothing but the mask (R241, 10_state R44, R45). -/
def Obligations.NicRegisters : Prop :=
  (∀ (n : Nic) (r r' : NicReg) (v : Word), r ∉ [.icr, .ims, .imc, .status] →
    (∀ i, r = .mta i → i < n.mta.length) →
    (n.write r v).get r = v ∧ (r' ≠ r → (n.write r v).get r' = n.get r') ∧ (n.write r v).mask = n.mask ∧
      (n.write r v).ioIndex = n.ioIndex ∧ (n.write r v).txLag = (if r = .tdh then 0 else n.txLag) ∧
      (n.write r v).resetting = n.resetting) ∧
  ∀ (s : State) (v : Word) (k : Nat), s.cfg.mapOk = true → s.nic.resetting = false →
    (s.nicWrite s.cfg.regIms v).nic.mask.getLsbD k = (s.nic.mask.getLsbD k || v.getLsbD k) ∧
    (s.nicWrite s.cfg.regImc v).nic.mask.getLsbD k = (s.nic.mask.getLsbD k && !v.getLsbD k) ∧
    ∀ off, off = s.cfg.regIms ∨ off = s.cfg.regImc →
      s.nicWrite off v = { s with nic := { s.nic with mask := (s.nicWrite off v).nic.mask } }

/-- Writing device control with the reset bit through the ports starts the NIC's global reset: both directions are
disabled, no register of DRM and no byte of memory changes, and the reload ends it (R245, 40_register_access R134). What
the other registers hold is free (notes/assumptions/7.md). -/
def Obligations.GlobalReset : Prop :=
  ∀ (s : State) (v : Word), s.sched = [] → s.ioValid = true → s.cfg.mapOk = true → s.nic.resetting = false →
    v &&& s.cfg.ctrlRst ≠ 0 →
    ∃ n, exec (.writeIo v s.cfg.regCtrl) s =
        .next ({ s with nic := n, drawn := s.drawn + 1 }.ends [Event.ioWrite .addr s.cfg.regCtrl, Event.ioWrite .data v] (.ok 0)) ∧
      n.resetting = true ∧ n.ctrl &&& s.cfg.ctrlRst = 0 ∧ n.rctl &&& s.cfg.rctlEn = 0 ∧ n.tctl &&& s.cfg.tctlEn = 0 ∧
      n.txLag = 0 ∧
      ∀ icr, ({ s with nic := n }.reloadDone icr).nic = { n with resetting := false, icr := icr }

/-- The two orders in which the NIC may finish a TX descriptor come to the same: the frame is sent once, Done is set once,
the head advances once (R242). -/
def Obligations.TxOrders : Prop :=
  ∀ (s : State) (status : Byte) (raise : Bool), s.txStartable = true → s.nic.txLag = 0 →
    s.nic.tdh.toNat < s.nic.txCap s.cfg → s.mem.wf = true →
    (s.txAdvance.txWriteback status raise) = ((s.txEarly status raise).txAdvance) ∧
    (s.txAdvance.txWriteback status raise).wire = s.wire ++ [s.txFrame s.nic.tdh.toNat] ∧
    (s.txAdvance.txWriteback status raise).nic.tdh = nextIndex (s.nic.txCap s.cfg) s.nic.tdh ∧
    (s.txAdvance.txWriteback status raise).nic.txLag = 0 ∧
    ∀ a, (s.txAdvance.txWriteback status raise).mem.readByte a =
      if a = s.nicTxd s.nic.tdh.toNat 12 then status ||| s.cfg.txdStatDd else s.mem.readByte a

/-- RX-FILL of a frame addressed to the station address or to broadcast stores the frame in the descriptor's buffer, its
length and a status byte with Done set in the descriptor, and moves the head; outside the frame's bytes in the buffer and
bytes 8 to 15 of the descriptor, which also hold the checksum, errors and special values, no byte changes. A frame
addressed elsewhere, or one that comes while no descriptor is the NIC's, changes nothing (R243). What the destination of a
frame shorter than an address is, and that broadcast is all ones, are the model's choice (notes/assumptions/10.md). -/
def Obligations.RxFillStores : Prop :=
  ∀ (s : State) (frame : List Byte) (checksum : Half) (status errors : Byte) (special : Half) (rxt0 rxdmt0 : Bool)
    (t : State), t = s.rxFill frame checksum status errors special rxt0 rxdmt0 →
    ((s.rxFillable = false ∨ s.nic.accepts frame = false) → t = s) ∧
    (s.rxFillable = true → 1 ≤ frame.length → frame.length ≤ s.cfg.rxBufSize.toNat → s.nic.accepts frame = true →
      frame.length < 2 ^ 16 → s.mem.wf = true →
      (∀ k, k < frame.length →
        ¬ within (s.nicRxd s.nic.rdh.toNat 0) 16 (s.mem.read (s.nicRxd s.nic.rdh.toNat 0) 8 + BitVec.ofNat 64 k)) →
      t.mem.load (s.mem.read (s.nicRxd s.nic.rdh.toNat 0) 8) frame.length = frame ∧
      t.mem.read (s.nicRxd s.nic.rdh.toNat 8) 2 = BitVec.ofNat 64 frame.length ∧
      t.mem.readByte (s.nicRxd s.nic.rdh.toNat 12) = status ||| s.cfg.rxdStatDd ∧
      t.nic.rdh = nextIndex (s.nic.rxCap s.cfg) s.nic.rdh ∧
      ∀ a, ¬ within (s.nicRxd s.nic.rdh.toNat 8) 8 a →
        ¬ within (s.mem.read (s.nicRxd s.nic.rdh.toNat 0) 8) frame.length a →
        t.mem.readByte a = s.mem.readByte a)

/-- What the NIC never does: no move of it writes a tail register, a register, flag or slot of DRM, or posts a write. Of
memory, TX-WRITEBACK and TX-EARLY write the status byte of the descriptor they complete and nothing else; TX-ADVANCE, a
cause and RELOAD-DONE write nothing; and no move writes a byte of a descriptor array that RING_INIT is building (R246, R242,
R244, R245, 42_ring_manager R183; notes/assumptions/31.md). -/
def Obligations.NicNeverWrites : Prop :=
  ∀ (s : State) (m : Move), s.mem.wf = true →
    (m = .txAdvance ∨ (∃ b r, m = .txWriteback b r) ∨ (∃ b r, m = .txEarly b r) ∨
      (∃ f c st e sp r1 r2, m = .rxFill f c st e sp r1 r2) ∨ (∃ b, m = .cause b) ∨ (∃ v, m = .reloadDone v)) →
    (m.apply s).nic.tdt = s.nic.tdt ∧ (m.apply s).nic.rdt = s.nic.rdt ∧ (m.apply s).wbuf = s.wbuf ∧
    (∀ p : Piece, p.same s (m.apply s)) ∧ (m.apply s).tasks = s.tasks ∧ (m.apply s).trace = s.trace ∧
    (∀ b r, m = .txWriteback b r → ∀ a, a ≠ s.nicTxd (s.nic.writebackIndex s.cfg) 12 →
      (m.apply s).mem.readByte a = s.mem.readByte a) ∧
    (∀ b r, m = .txEarly b r → ∀ a, a ≠ s.nicTxd s.nic.tdh.toNat 12 →
      (m.apply s).mem.readByte a = s.mem.readByte a) ∧
    ((m = .txAdvance ∨ (∃ b, m = .cause b) ∨ (∃ v, m = .reloadDone v)) → (m.apply s).mem = s.mem) ∧
    ∀ a, s.beingBuilt a.toNat = true → (m.apply s).mem.readByte a = s.mem.readByte a

/-! ### The lifecycle (41_reset_configure) -/

/-- The lifecycle state changes only as the transition table says: a command that changes it makes its own transition
(R150). -/
def Obligations.FsmTransitions : Prop :=
  ∀ (s t : State) (i : Instr), s.sched = [] → exec i s = .next t →
    t.fsm = s.fsm ∨ transition i s.fsm = some t.fsm

/-- RESET completes with its thirteen steps in their order, also where the NIC is still in an earlier global reset, which
the settling delay lets end; it leaves the NIC masked, disabled, its causes read and ARP filtering off, and changes no
register, flag or slot of DRM but `fsm` (R151 to R157, 70_reset_and_hazards R330). -/
def Obligations.ResetCompletes : Prop :=
  ∀ s : State, s.sched = [] → s.fsm = .uninitialized → s.cfg.mapOk = true → s.ioValid = true →
    (∀ o ∈ [s.cfg.regImc, s.cfg.regRctl, s.cfg.regTctl, s.cfg.regStatus, s.cfg.regCtrl, s.cfg.regManc, s.cfg.regIcr],
      s.admits o = true) →
    s.cfg.imcAll = 0xFFFFFFFF → s.cfg.ctrlRst ≠ 0 →
    ∃ (t : State) (status manc icr : Word), exec .reset s = .next t ∧
      t.trace = s.trace ++ resetEvents s.cfg status s.drain.nic.ctrl manc icr ++
        [Event.response s.nextCtx (.ok 0)] ∧ (s.drain.nic.resetting = false → status = s.drain.nic.status) ∧
      t.fsm = .reset ∧ (∀ p : Piece, p ≠ .fsm → p.same s t) ∧ t.wbuf = [] ∧ t.tasks = s.tasks ∧
      t.nic.resetting = false ∧ t.nic.mask = 0 ∧ t.nic.icr = 0 ∧ t.nic.rctl &&& s.cfg.rctlEn = 0 ∧
      t.nic.tctl &&& s.cfg.tctlEn = 0 ∧ t.nic.manc = manc &&& ~~~s.cfg.mancArpEn

/-- RESET ends at the first access that fails, leaves `fsm` as it was and makes none of its later steps: at the first
access with the register region unmapped, at the index port with the ports unmapped (R158). -/
def Obligations.ResetFails : Prop :=
  (∀ s : State, s.sched = [] → s.fsm = .uninitialized → s.mmioValid = false →
    exec .reset s = .next (s.ends [] ⟨.hwAccessError, s.cfg.regImc.setWidth 64⟩)) ∧
  ∀ s : State, s.sched = [] → s.fsm = .uninitialized → s.cfg.mapOk = true → s.ioValid = false →
    (∀ o ∈ [s.cfg.regImc, s.cfg.regRctl, s.cfg.regTctl, s.cfg.regStatus, s.cfg.regCtrl], s.admits o = true) →
    s.drain.nic.resetting = false →
    ∃ t : State, exec .reset s = .next t ∧
      t.trace = s.trace ++ (resetEvents s.cfg s.drain.nic.status s.drain.nic.ctrl 0 0).take 6 ++
        [Event.response s.nextCtx ⟨.hwAccessError, s.cfg.ioAddr.setWidth 64⟩] ∧
      (∀ p : Piece, p.same s t) ∧ t.nic.resetting = false ∧ t.nic.rctl = 0 ∧ t.nic.tctl = s.cfg.tctlPsp

/-- CONFIGURE posts its writes in its order, sets the two TX indices to 0 and moves to Configured; it reads nothing and
the NIC is not touched (R160, R166, R167). -/
def Obligations.ConfigureCompletes : Prop :=
  ∀ s : State, s.sched = [] → s.fsm = .reset → s.ringsReady = true →
    (∀ w ∈ s.configureWrites, s.admits w.1 = true) →
    exec .configure s =
      .next ({ s with wbuf := s.wbuf ++ s.configureWrites, txTail := 0, txNtc := 0, fsm := .configured }.ends
        (writeEvents s.configureWrites) (.ok 0)) ∧
    s.configureWrites.length = s.cfg.mtaEntries + 18

/-- CONFIGURE whose register region is unmapped before its write `k` ends there: the `k` writes made stay posted, `fsm`
and the indices are as they were (R158). -/
def Obligations.ConfigureFails : Prop :=
  ∀ (s : State) (k : Nat) (w : Word × Word), s.sched = List.replicate (k + 1) [] ++ [[.setMmioValid false]] →
    s.fsm = .reset → s.ringsReady = true → (∀ x ∈ s.configureWrites, s.admits x.1 = true) →
    s.configureWrites[k]? = some w → k + 1 < s.configureWrites.length →
    exec .configure s =
      .next ({ s with sched := [], mmioValid := false, wbuf := s.wbuf ++ s.configureWrites.take k }.ends
        (writeEvents (s.configureWrites.take k)) ⟨.hwAccessError, w.1.setWidth 64⟩)

/-- START, `op = 0x13` and nothing else in its word, moves from Configured to Running with no access of any kind; in every
other lifecycle state it is answered ILLEGAL_STATE with no change (R168). -/
def Obligations.StartCompletes : Prop :=
  decode 0x13000000000000000000000000#104 = .ok .start ∧
  ∀ s : State, s.sched = [] →
    (s.fsm = .configured → exec .start s = .next ({ s with fsm := .running }.ends [] (.ok 0))) ∧
    (s.fsm ≠ .configured → exec .start s = .next (s.ends [] ⟨.illegalState, 0⟩))

/-- STOP quiesces the NIC with three writes and a flush, empties every slot through the host, TX before RX, and leaves
the rings gone, no poll requested and the lock free (R170, R171). -/
def Obligations.StopCompletes : Prop :=
  ∀ s : State, s.sched = [] → s.fsm ≠ .stopped → s.pollState ≠ .active → s.txLock = false → s.lockAwaited = false →
    s.cfg.mapOk = true → s.cfg.sizesOk = true →
    (∀ o ∈ [s.cfg.regImc, s.cfg.regRctl, s.cfg.regTctl, s.cfg.regStatus], s.admits o = true) →
    ∃ (n : Nic) (d : Nat) (v : Word), exec .stop s =
        .next ({ s with
            fsm := .stopped, pollState := .idle, pollMissed := false, ringsReady := false, wbuf := [], nic := n,
            drawn := d,
            txSlots := if s.ringsReady then emptySlots s.txSlots (List.range s.cfg.nTx) else s.txSlots,
            rxSlots := if s.ringsReady then emptySlots s.rxSlots (List.range s.cfg.nRx) else s.rxSlots }.ends
          (writeEvents (quiesceWrites s.cfg) ++ [Event.regRead s.cfg.regStatus v] ++
            if s.ringsReady then s.stopCalls else []) (.ok 0)) ∧
      (s.drain.nic.resetting = false →
        n = { s.drain.nic with mask := s.drain.nic.mask &&& ~~~s.cfg.imcAll, rctl := 0, tctl := s.cfg.tctlPsp } ∧
          v = s.drain.nic.status)

/-- After STOP of built rings every slot is Empty (42_ring_manager R193). -/
def Obligations.StopEmptiesSlots : Prop :=
  ∀ s t : State, s.sched = [] → s.admitted .stop = true → s.pollState ≠ .active → s.txLock = false →
    s.lockAwaited = false → s.ringsReady = true → s.shaped = true → s.cfg.sizesOk = true → exec .stop s = .next t →
    t.fsm = .stopped ∧ t.txSlots = List.replicate s.cfg.nTx .empty ∧ t.rxSlots = List.replicate s.cfg.nRx .empty

/-- A quiesce that fails, at its first access or later, skips what is left of it and does not keep STOP from releasing
every slot; the writes made stay posted and the failure is reported (R170). -/
def Obligations.StopQuiesceFails : Prop :=
  (∀ s : State, s.sched = [] → s.fsm ≠ .stopped → s.pollState ≠ .active → s.txLock = false → s.lockAwaited = false →
    s.ringsReady = true → s.cfg.sizesOk = true → s.mmioValid = false →
    exec .stop s =
      .next ({ s with
          fsm := .stopped, pollState := .idle, pollMissed := false, ringsReady := false,
          txSlots := emptySlots s.txSlots (List.range s.cfg.nTx),
          rxSlots := emptySlots s.rxSlots (List.range s.cfg.nRx) }.ends s.stopCalls
        ⟨.hwAccessError, s.cfg.regImc.setWidth 64⟩)) ∧
  ∀ (s : State) (k : Nat) (off : Word), s.sched = List.replicate (5 + k) [] ++ [[.setMmioValid false]] →
    s.fsm ≠ .stopped → s.pollState ≠ .active → s.txLock = false → s.lockAwaited = false → s.ringsReady = true →
    s.cfg.sizesOk = true →
    [s.cfg.regImc, s.cfg.regRctl, s.cfg.regTctl, s.cfg.regStatus][k]? = some off →
    (∀ w ∈ (quiesceWrites s.cfg).take k, s.admits w.1 = true) →
    exec .stop s =
      .next ({ s with
          sched := [], mmioValid := false, fsm := .stopped, pollState := .idle, pollMissed := false,
          ringsReady := false, wbuf := s.wbuf ++ (quiesceWrites s.cfg).take k,
          txSlots := emptySlots s.txSlots (List.range s.cfg.nTx),
          rxSlots := emptySlots s.rxSlots (List.range s.cfg.nRx) }.ends
        (writeEvents ((quiesceWrites s.cfg).take k) ++ s.stopCalls) ⟨.hwAccessError, off.setWidth 64⟩)

/-- A command that wants the TX lock while it is held, STOP while a poll is active, and STOP while a SUBMIT or RECYCLE in
flight waits for the lock, wait: they stay in flight and give no response (10_state R33, R170; for the last,
notes/assumptions/29.md). That they stay in flight when no gap is left is the model's choice
(notes/assumptions/15.md). -/
def Obligations.Waiting : Prop :=
  (∀ (s : State) (len : Word) (buf : DWord), s.sched = [] → s.fsm = .running → len.toNat ≤ s.cfg.blockSize →
    s.txLock = true →
    exec (.submit len buf) s =
      .next { s with nextCtx := s.nextCtx + 1, tasks := (s.nextCtx, ⟨[], .submitLock len buf⟩) :: s.tasks }) ∧
  (∀ s : State, s.sched = [] → s.fsm = .running → s.txLock = true →
    exec .recycle s =
      .next { s with nextCtx := s.nextCtx + 1, tasks := (s.nextCtx, ⟨[], .recycleLock .command⟩) :: s.tasks }) ∧
  (∀ (s b1 : State) (budget t : Word), s.sched = [] → s.fsm = .running → s.pollState = .scheduled → s.txLock = true →
    s.admits s.cfg.regRdt = true → s.drain.nicRead s.cfg.regRdt = (t, b1) →
    (budget = 0 ∨ s.rxDone (nextIndex s.cfg.nRx t) = false) →
    exec (.poll budget) s =
      .next { b1 with
        pollState := .active, nextCtx := s.nextCtx + 1, trace := s.trace ++ [Event.regRead s.cfg.regRdt t],
        tasks := (s.nextCtx, ⟨[], .recycleLock (.poll 0)⟩) :: s.tasks }) ∧
  (∀ s : State, s.sched = [] → s.fsm ≠ .stopped → s.pollState ≠ .active → (s.txLock = true ∨ s.lockAwaited = true) →
    s.mmioValid = false →
    exec .stop s =
      .next { s with
        fsm := .stopped, pollState := .idle, pollMissed := false, nextCtx := s.nextCtx + 1,
        tasks := (s.nextCtx, ⟨[], .stopLock (some s.cfg.regImc)⟩) :: s.tasks }) ∧
  ∀ s : State, s.sched = [] → s.fsm ≠ .stopped → s.pollState = .active →
    exec .stop s =
      .next { s with fsm := .stopped, nextCtx := s.nextCtx + 1, tasks := (s.nextCtx, ⟨[], .stopWait⟩) :: s.tasks }

/-- DETACH in Stopped is a block reset of DRM: every working register, flag and slot at its block-reset value, the bus, the
NIC and memory as they were; in every other lifecycle state it is answered ILLEGAL_STATE (R172, 41_reset_configure R150,
10_state R65). That DRM does not check for another command in flight, which is then left in flight, is the model's reading
of R172 and 45_device_agent R252 (notes/assumptions/11.md). -/
def Obligations.DetachResets : Prop :=
  (∀ s : State, s.sched = [] → s.fsm = .stopped →
    exec .detach s =
      .next ({ s with
          fsm := .uninitialized, ringsReady := false, txBase := 0, rxBase := 0, txTail := 0, txNtc := 0,
          txLock := false, pollState := .idle, pollMissed := false, rxDropped := 0,
          txSlots := List.replicate s.cfg.nTx .empty, rxSlots := List.replicate s.cfg.nRx .empty,
          irqLine := s.cfg.irqLine, mac := s.cfg.mac }.ends [] (.ok 0))) ∧
  ∀ s : State, s.sched = [] → s.fsm ≠ .stopped →
    exec .detach s = .next (s.ends [] ⟨.illegalState, 0⟩)

/-- Block reset with any configuration (10_state R65): what the state holds of DRM's own registers, flags and slots and
of the bus. -/
def Obligations.BlockReset : Prop :=
  ∀ (c : Cfg) (s : State), s = State.resetWith c →
    s.fsm = .uninitialized ∧ s.ringsReady = false ∧ s.txBase = 0 ∧ s.rxBase = 0 ∧ s.txTail = 0 ∧ s.txNtc = 0 ∧
    s.txLock = false ∧ s.pollState = .idle ∧ s.pollMissed = false ∧ s.rxDropped = 0 ∧
    (∀ x ∈ s.txSlots, x = .empty) ∧ (∀ x ∈ s.rxSlots, x = .empty) ∧ s.txSlots.length = c.nTx ∧
    s.rxSlots.length = c.nRx ∧ s.irqLine = c.irqLine ∧ s.mac = c.mac ∧ s.wbuf = [] ∧ s.tasks = [] ∧
    State.reset = State.resetWith {}

/-! ### The ring manager (42_ring_manager) -/

/-- RING_INIT with every buffer and mapping supplied: each TX descriptor is all zero but Done, each TX slot Empty, each RX
descriptor armed with its buffer, each RX slot Full, no other byte of memory changed (R181, R301). -/
def Obligations.RingInitBuilds : Prop :=
  ∀ (s : State) (txBase rxBase : Word) (bs as : List DWord) (moreAllocs moreMaps : List (Option DWord)),
    s.sched = [] → s.admitted (.ringInit txBase rxBase) = true → ringBasesOk s.cfg txBase rxBase = true →
    s.cfg.sizesOk = true → s.shaped = true → s.mem.wf = true → bs.length = s.cfg.nRx → as.length = s.cfg.nRx →
    s.allocs = bs.map some ++ moreAllocs → s.maps = as.map some ++ moreMaps →
    ∃ (m : Memory) (t : State), exec (.ringInit txBase rxBase) s = .next t ∧
      t = { s with
          txBase := txBase, rxBase := rxBase, txTail := 0, txNtc := 0, ringsReady := true, mem := m,
          txSlots := List.replicate s.cfg.nTx .empty,
          rxSlots := List.zipWith (fun b a => .full ⟨a, s.cfg.rxBufSize, .fromDevice⟩ b) bs as,
          allocs := moreAllocs, maps := moreMaps }.ends
        ((List.zipWith (fun b a => [Event.call (.allocRxBuffer s.cfg.rxBufSize (some b)),
          Event.call (.dmaMap b s.cfg.rxBufSize .fromDevice (some a))]) bs as).flatten) (.ok 0) ∧
      (∀ i, i < s.cfg.nTx → t.txdBytes (index i) =
        List.replicate 12 0 ++ [s.cfg.txdStatDd] ++ List.replicate 3 0) ∧
      (∀ (i : Nat) (a : DWord), as[i]? = some a → t.rxdBytes (index i) = leBytes 8 a.toNat ++ List.replicate 8 0) ∧
      ∀ x, ¬ within (txBase.setWidth 64) (s.cfg.descSize * s.cfg.nTx) x → ¬ within (rxBase.setWidth 64) (s.cfg.descSize * s.cfg.nRx) x →
        m.readByte x = s.mem.readByte x

/-- RING_INIT whose host runs out of buffers or of mappings at index `i` gives back what it obtained, in order, and
answers NO_RESOURCE with `rings_ready` still 0 (R181, 60_exceptions R267). -/
def Obligations.RingInitGivesBack : Prop :=
  ∀ (s : State) (txBase rxBase : Word) (bs as : List DWord) (last : Option DWord)
    (moreAllocs moreMaps : List (Option DWord)),
    s.sched = [] → s.admitted (.ringInit txBase rxBase) = true → ringBasesOk s.cfg txBase rxBase = true →
    s.cfg.sizesOk = true → s.shaped = true → bs.length < s.cfg.nRx → as.length = bs.length →
    s.allocs = bs.map some ++ last :: moreAllocs →
    s.maps = as.map some ++ (if last = none then moreMaps else none :: moreMaps) →
    ∃ (t : State), exec (.ringInit txBase rxBase) s = .next t ∧
      t.trace = s.trace ++
        (List.zipWith (fun b a => [Event.call (.allocRxBuffer s.cfg.rxBufSize (some b)),
          Event.call (.dmaMap b s.cfg.rxBufSize .fromDevice (some a))]) bs as).flatten ++
        (Event.call (.allocRxBuffer s.cfg.rxBufSize last) ::
          (match last with
            | none => []
            | some b => [Event.call (.dmaMap b s.cfg.rxBufSize .fromDevice none), Event.call (.freeBuffer b)])) ++
        (List.zipWith (fun b a => [Event.call (.dmaUnmap ⟨a, s.cfg.rxBufSize, .fromDevice⟩), Event.call (.freeBuffer b)])
          bs as).flatten ++
        [Event.response s.nextCtx ⟨.noResource, 0⟩] ∧
      t.ringsReady = false ∧ t.fsm = s.fsm ∧ t.txSlots = List.replicate s.cfg.nTx .empty ∧
      t.rxSlots = emptySlots s.rxSlots (List.range bs.length) ∧ t.txBase = txBase ∧ t.rxBase = rxBase ∧
      t.wbuf = s.wbuf ∧ t.nic = s.nic ∧ t.tasks = s.tasks

/-- RING_INIT whose operands are misaligned, past 2^32 or overlapping is answered ILLEGAL_COMMAND with no state change,
after the state check (R181, 20_memory R78, 60_exceptions R271). -/
def Obligations.RingInitOperands : Prop :=
  ∀ (s : State) (txBase rxBase : Word), s.sched = [] → s.admitted (.ringInit txBase rxBase) = true →
    (txBase.toNat % 16 ≠ 0 ∨ rxBase.toNat % 16 ≠ 0 ∨ 2 ^ 32 < txBase.toNat + s.cfg.nTx * s.cfg.descSize ∨
      2 ^ 32 < rxBase.toNat + s.cfg.nRx * s.cfg.descSize ∨
      (rxBase.toNat < txBase.toNat + s.cfg.nTx * s.cfg.descSize ∧ txBase.toNat < rxBase.toNat + s.cfg.nRx * s.cfg.descSize)) →
    exec (.ringInit txBase rxBase) s = .next (s.ends [] ⟨.illegalCommand, 0⟩)

/-! ### The TX path (43_tx_path) -/

/-- SUBMIT accepted: padded to the Ethernet minimum if short, mapped, a completed packet in the slot reclaimed in place,
the descriptor written, the slot filled, the tail advanced, the doorbell posted; no other byte of memory changed
(R201, R203 to R206, 30_encoding R118). -/
def Obligations.SubmitAccepted : Prop :=
  ∀ (s : State) (len : Word) (buf a : DWord) (L : Word), s.sched = [] → s.fsm = .running → s.txLock = false →
    s.cfg.sizesOk = true → s.mem.wf = true → len.toNat ≤ s.cfg.blockSize → s.txDone s.txTail = true →
    s.admits s.cfg.regTdt = true → s.maps.head? = some (some a) →
    (len.toNat < s.cfg.ethZlen → s.pads.head? = some true) →
    L = (if len.toNat < s.cfg.ethZlen then BitVec.ofNat 32 s.cfg.ethZlen else len) →
    ∃ (m : Memory) (t : State), exec (.submit len buf) s = .next t ∧
      t = { s with
          mem := m, txSlots := setSlot s.txSlots s.txTail (.full ⟨a, L, .toDevice⟩ buf),
          txTail := nextIndex s.cfg.nTx s.txTail,
          wbuf := s.wbuf ++ [(s.cfg.regTdt, nextIndex s.cfg.nTx s.txTail)], maps := s.maps.tail,
          pads := if len.toNat < s.cfg.ethZlen then s.pads.tail else s.pads }.ends
        ((if len.toNat < s.cfg.ethZlen then [Event.call (.pad buf len (BitVec.ofNat 32 s.cfg.ethZlen) true)] else []) ++
          [Event.call (.dmaMap buf L .toDevice (some a))] ++ reclaimCalls (slotAt s.txSlots s.txTail) ++
          [Event.regWrite s.cfg.regTdt (nextIndex s.cfg.nTx s.txTail)]) (.ok 0) ∧
      t.txdBytes s.txTail = leBytes 16 (txdImage s.cfg a (L.setWidth 16)).toNat ∧
      ∀ x, ¬ within (s.txdAddr s.txTail .addr) 16 x → m.readByte x = s.mem.readByte x

/-- SUBMIT hands the packet back with the state unchanged: too long before the lock is taken, busy when the descriptor at
the tail is not Done, when padding fails, when mapping fails, in this order (R202, 60_exceptions R262, R263). -/
def Obligations.SubmitRefused : Prop :=
  ∀ (s : State) (len : Word) (buf : DWord), s.sched = [] → s.fsm = .running →
    (s.cfg.blockSize < len.toNat → exec (.submit len buf) s = .next (s.ends [] ⟨.rejectTooLong, 0⟩)) ∧
    (len.toNat ≤ s.cfg.blockSize → s.txLock = false →
      (s.txDone s.txTail = false → exec (.submit len buf) s = .next (s.ends [] ⟨.busy, 0⟩)) ∧
      (s.txDone s.txTail = true → len.toNat < s.cfg.ethZlen → s.pads.headD false = false →
        exec (.submit len buf) s = .next ({ s with pads := s.pads.tail }.ends
          [Event.call (.pad buf len (BitVec.ofNat 32 s.cfg.ethZlen) false)] ⟨.busy, 0⟩)) ∧
      (s.txDone s.txTail = true → s.cfg.ethZlen ≤ len.toNat → s.maps.headD none = none →
        exec (.submit len buf) s = .next ({ s with maps := s.maps.tail }.ends
          [Event.call (.dmaMap buf len .toDevice none)] ⟨.busy, 0⟩)) ∧
      (s.txDone s.txTail = true → len.toNat < s.cfg.ethZlen → s.pads.headD false = true → s.maps.headD none = none →
        exec (.submit len buf) s = .next ({ s with pads := s.pads.tail, maps := s.maps.tail }.ends
          [Event.call (.pad buf len (BitVec.ofNat 32 s.cfg.ethZlen) true),
           Event.call (.dmaMap buf (BitVec.ofNat 32 s.cfg.ethZlen) .toDevice none)] ⟨.busy, 0⟩)))

/-- SUBMIT whose doorbell write fails, padded or not: the packet is consumed, the descriptor, the slot and the tail stay
written and no other byte of memory, the NIC is not told, the lock is free (R207). -/
def Obligations.SubmitDoorbellFails : Prop :=
  ∀ (s : State) (len : Word) (buf a : DWord) (L : Word), s.sched = [] → s.fsm = .running → s.txLock = false →
    s.cfg.sizesOk = true → s.mem.wf = true → len.toNat ≤ s.cfg.blockSize →
    s.txDone s.txTail = true → s.admits s.cfg.regTdt = false → s.maps.head? = some (some a) →
    (len.toNat < s.cfg.ethZlen → s.pads.head? = some true) →
    L = (if len.toNat < s.cfg.ethZlen then BitVec.ofNat 32 s.cfg.ethZlen else len) →
    ∃ (m : Memory) (t : State), exec (.submit len buf) s = .next t ∧
      t = { s with
          mem := m, txSlots := setSlot s.txSlots s.txTail (.full ⟨a, L, .toDevice⟩ buf),
          txTail := nextIndex s.cfg.nTx s.txTail, maps := s.maps.tail,
          pads := if len.toNat < s.cfg.ethZlen then s.pads.tail else s.pads }.ends
        ((if len.toNat < s.cfg.ethZlen then [Event.call (.pad buf len (BitVec.ofNat 32 s.cfg.ethZlen) true)] else []) ++
          [Event.call (.dmaMap buf L .toDevice (some a))] ++ reclaimCalls (slotAt s.txSlots s.txTail))
        ⟨.hwAccessError, s.cfg.regTdt.setWidth 64⟩ ∧
      t.txdBytes s.txTail = leBytes 16 (txdImage s.cfg a (L.setWidth 16)).toNat ∧
      ∀ x, ¬ within (s.txdAddr s.txTail .addr) 16 x → m.readByte x = s.mem.readByte x

/-- RECYCLE reclaims, in ring order from next-to-clean, each Done descriptor before the head it read once, and stops at
the first that is not Done or at that head; it writes no byte of memory (R210 to R212, R214). -/
def Obligations.RecycleReclaims : Prop :=
  ∀ (s base : State) (h : Word), s.sched = [] → s.fsm = .running → s.txLock = false → s.cfg.sizesOk = true →
    s.txNtc.toNat < s.cfg.nTx → s.admits s.cfg.regTdh = true → s.drain.nicRead s.cfg.regTdh = (h, base) →
    h.toNat < s.cfg.nTx →
    ∃ n, n < s.cfg.nTx ∧
      (∀ j, j < n → s.txDone (ringIndex s.cfg.nTx s.txNtc j) = true ∧ ringIndex s.cfg.nTx s.txNtc j ≠ h) ∧
      (s.txDone (ringIndex s.cfg.nTx s.txNtc n) = false ∨ ringIndex s.cfg.nTx s.txNtc n = h) ∧
      exec .recycle s =
        .next ({ base with
            txNtc := ringIndex s.cfg.nTx s.txNtc n,
            txSlots := emptySlots s.txSlots ((List.range n).map (fun j => (s.txNtc.toNat + j) % s.cfg.nTx)) }.ends
          (Event.regRead s.cfg.regTdh h ::
            (List.range n).flatMap (fun j => reclaimCalls (slotAt s.txSlots (ringIndex s.cfg.nTx s.txNtc j)))) (.ok 0)) ∧
      base.mem = s.mem ∧ (s.drain.nic.resetting = false → s.cfg.mapOk = true → h = s.drain.nic.tdh ∧ base = s.drain)

/-- RECYCLE whose head read is not admitted, or answers an index outside the ring, reclaims nothing, leaves next-to-clean
and releases the lock (R210, R213). -/
def Obligations.RecycleBadHead : Prop :=
  (∀ s : State, s.sched = [] → s.fsm = .running → s.txLock = false → s.admits s.cfg.regTdh = false →
    exec .recycle s = .next (s.ends [] ⟨.hwAccessError, s.cfg.regTdh.setWidth 64⟩)) ∧
  ∀ (s base : State) (h : Word), s.sched = [] → s.fsm = .running → s.txLock = false → s.admits s.cfg.regTdh = true →
    s.drain.nicRead s.cfg.regTdh = (h, base) → s.cfg.nTx ≤ h.toNat →
    exec .recycle s =
      .next (base.ends [Event.regRead s.cfg.regTdh h] ⟨.hwAccessError, s.cfg.regTdh.setWidth 64⟩)

/-- The source's round trip: on an idle ring a packet, padded or not, is submitted, the doorbell is delivered, the NIC sends
the bytes of its buffer, moves its head and writes Done; one RECYCLE then gives back exactly that buffer with exactly one completion
(43_tx_path R214; 95_test_vectors S4). -/
def Obligations.RoundTrip : Prop :=
  ∀ (s : State) (len L : Word) (buf a : DWord) (status : Byte) (raise : Bool), s.sched = [] → s.fsm = .running →
    s.txLock = false → s.cfg.wf = true → s.mem.wf = true → s.shaped = true →
    s.wbuf = [] → s.admits s.cfg.regTdt = true → s.admits s.cfg.regTdh = true →
    s.nic.resetting = false → s.nic.txLag = 0 → s.nic.tctl &&& s.cfg.tctlEn ≠ 0 →
    s.nic.tdbal = s.txBase → s.nic.tdbah = 0 → s.nic.tdlen = BitVec.ofNat 32 (s.cfg.nTx * s.cfg.descSize) →
    s.txTail.toNat < s.cfg.nTx → s.txNtc = s.txTail → s.nic.tdh = s.txTail → s.nic.tdt = s.txTail →
    (∀ i, i < s.cfg.nTx → s.TxFree i) →
    len.toNat ≤ s.cfg.blockSize → s.maps.head? = some (some a) →
    (len.toNat < s.cfg.ethZlen → s.pads.head? = some true) →
    L = (if len.toNat < s.cfg.ethZlen then BitVec.ofNat 32 s.cfg.ethZlen else len) →
    ∃ t u v : State, exec (.submit len buf) s = .next t ∧
      u = t.moves [.bus, .txAdvance, .txWriteback status raise] ∧ exec .recycle u = .next v ∧
      slotAt u.txSlots s.txTail = .full ⟨a, L, .toDevice⟩ buf ∧ u.txDone s.txTail = true ∧
      u.wire = s.wire ++ [t.mem.load a L.toNat] ∧
      v.trace = u.trace ++ [Event.regRead s.cfg.regTdh (nextIndex s.cfg.nTx s.txTail),
        Event.call (.dmaUnmap ⟨a, L, .toDevice⟩), Event.call (.txComplete buf), Event.response u.nextCtx (.ok 0)] ∧
      slotAt v.txSlots s.txTail = .empty ∧ v.txNtc = nextIndex s.cfg.nTx s.txTail ∧ v.txNtc = v.txTail ∧
      ∀ i, i < s.cfg.nTx → v.TxFree i

/-- SUBMIT and RECYCLE keep every TX descriptor Free, InFlight or Done with the packet of its slot (42_ring_manager R190). -/
def Obligations.TxOwnedKept : Prop :=
  ∀ (s t : State) (i : Instr), (i = .recycle ∨ ∃ len buf, i = .submit len buf) → s.sched = [] → s.txLock = false →
    s.cfg.sizesOk = true → s.mem.wf = true → s.shaped = true → s.txTail.toNat < s.cfg.nTx →
    s.txNtc.toNat < s.cfg.nTx → s.TxOwned → exec i s = .next t → t.TxOwned

/-! ### Interrupts, polls, statistics (44_rx_poll_irq) -/

/-- IRQ with cause 0 is "not mine" and requests nothing; IRQ whose read is not admitted changes nothing and schedules
nothing (R220, R222, 60_exceptions R264, R273). -/
def Obligations.IrqRequestsNothing : Prop :=
  (∀ s base : State, s.sched = [] → s.fsm = .running → s.admits s.cfg.regIcr = true →
    s.drain.nicRead s.cfg.regIcr = (0, base) →
    exec .irq s = .next (base.ends [Event.regRead s.cfg.regIcr 0] ⟨.notMine, 0⟩) ∧ ∀ p : Piece, p.same s base) ∧
  ∀ s : State, s.sched = [] → s.fsm = .running → s.admits s.cfg.regIcr = false →
    exec .irq s = .next (s.ends [] ⟨.hwAccessError, s.cfg.regIcr.setWidth 64⟩)

/-- IRQ with any non-zero cause is handled: an idle poll is scheduled and the host told, a scheduled one is left, an active
one is marked as missed; the cause register is cleared; nothing else changes (R220 to R223, 10_state R34). -/
def Obligations.IrqRequestsPoll : Prop :=
  ∀ (s base : State) (c : Word), s.sched = [] → s.fsm = .running → s.admits s.cfg.regIcr = true →
    s.drain.nicRead s.cfg.regIcr = (c, base) → c ≠ 0 →
    (s.pollState = .idle → exec .irq s = .next ({ base with pollState := .scheduled }.ends
      [Event.regRead s.cfg.regIcr c, Event.call .pollSchedule] (.ok 0))) ∧
    (s.pollState = .scheduled → exec .irq s = .next (base.ends [Event.regRead s.cfg.regIcr c] (.ok 0))) ∧
    (s.pollState = .active → exec .irq s = .next ({ base with pollMissed := true }.ends
      [Event.regRead s.cfg.regIcr c] (.ok 0))) ∧
    (s.drain.nic.resetting = false → s.cfg.mapOk = true →
      c = s.drain.nic.icr ∧ base = { s.drain with nic := { s.drain.nic with icr := 0 } })

/-- POLL that finds no frame, or has budget 0: it looks at the descriptor after the tail register, delivers nothing,
reclaims the TX ring as RECYCLE does, ends the poll, and schedules the next one for a missed interrupt (R225, R226,
R229). -/
def Obligations.PollNoFrame : Prop :=
  ∀ (s b1 b2 : State) (budget t h : Word), s.sched = [] → s.fsm = .running → s.pollState = .scheduled →
    s.txLock = false → s.cfg.sizesOk = true → s.txNtc.toNat < s.cfg.nTx →
    s.admits s.cfg.regRdt = true → s.admits s.cfg.regTdh = true → s.drain.nicRead s.cfg.regRdt = (t, b1) →
    (budget = 0 ∨ s.rxDone (nextIndex s.cfg.nRx t) = false) →
    b1.drain.nicRead s.cfg.regTdh = (h, b2) → h.toNat < s.cfg.nTx →
    ∃ n, n < s.cfg.nTx ∧
      (∀ j, j < n → s.txDone (ringIndex s.cfg.nTx s.txNtc j) = true ∧ ringIndex s.cfg.nTx s.txNtc j ≠ h) ∧
      (s.txDone (ringIndex s.cfg.nTx s.txNtc n) = false ∨ ringIndex s.cfg.nTx s.txNtc n = h) ∧
      exec (.poll budget) s =
        .next ({ b2 with
            txNtc := ringIndex s.cfg.nTx s.txNtc n,
            txSlots := emptySlots s.txSlots ((List.range n).map (fun j => (s.txNtc.toNat + j) % s.cfg.nTx)),
            pollState := if s.pollMissed then .scheduled else .idle, pollMissed := false }.ends
          ([Event.regRead s.cfg.regRdt t, Event.regRead s.cfg.regTdh h] ++
            (List.range n).flatMap (fun j => reclaimCalls (slotAt s.txSlots (ringIndex s.cfg.nTx s.txNtc j))) ++
            [Event.call (.pollComplete 0)] ++ if s.pollMissed then [Event.call .pollSchedule] else []) (.ok 0)) ∧
      b2.mem = s.mem

/-- POLL of one received frame, the source's RX scenario: the old buffer and the length the NIC wrote go to the host, the
descriptor gets the new address and Done cleared and keeps its other bytes, the slot holds the new mapping, the RX tail
register is written with the index (R225, R228; 95_test_vectors S7). -/
def Obligations.PollOneFrame : Prop :=
  ∀ (s b1 b2 : State) (budget t next h : Word) (m : Mapping) (buf buf2 a2 : DWord), s.sched = [] →
    s.fsm = .running → s.pollState = .scheduled → s.pollMissed = false → s.txLock = false → s.cfg.sizesOk = true →
    s.mem.wf = true → s.shaped = true → s.admits s.cfg.regRdt = true → s.admits s.cfg.regTdh = true →
    s.drain.nicRead s.cfg.regRdt = (t, b1) → next = nextIndex s.cfg.nRx t → budget ≠ 0 → s.rxDone next = true →
    (budget = 1 ∨ s.rxDone (nextIndex s.cfg.nRx next) = false) →
    slotAt s.rxSlots next = .full m buf → s.allocs.head? = some (some buf2) → s.maps.head? = some (some a2) →
    { b1 with wbuf := [(s.cfg.regRdt, next)] }.drain.nicRead s.cfg.regTdh = (h, b2) → h.toNat < s.cfg.nTx →
    s.txNtc = h →
    ∃ (mem : Memory) (u : State), exec (.poll budget) s = .next u ∧
      u = { b2 with
          mem := mem, rxSlots := setSlot s.rxSlots next (.full ⟨a2, s.cfg.rxBufSize, .fromDevice⟩ buf2),
          allocs := s.allocs.tail, maps := s.maps.tail, pollState := .idle }.ends
        [Event.regRead s.cfg.regRdt t, Event.call (.allocRxBuffer s.cfg.rxBufSize (some buf2)),
          Event.call (.dmaMap buf2 s.cfg.rxBufSize .fromDevice (some a2)), Event.call (.dmaUnmap m),
          Event.call (.rxDeliver buf (s.rxLength next)), Event.regWrite s.cfg.regRdt next, Event.regRead s.cfg.regTdh h,
          Event.call (.pollComplete 1)] (.ok 1) ∧
      u.readRxd next .addr = a2 ∧ u.rxDone next = false ∧
      ∀ x, ¬ within (s.rxdAddr next .addr) 8 x → x ≠ s.rxdAddr next .status →
        mem.readByte x = s.mem.readByte x

/-- POLL whose host has no buffer for the replacement, or no mapping for it: the frame is not handed over, the descriptor,
the slot and the tail register stay, the counter goes up by one, and TX reclaim still runs (R227, 10_state R35). -/
def Obligations.PollNoReplacement : Prop :=
  ∀ (s b1 b2 : State) (budget t next h : Word) (got : Option DWord), s.sched = [] → s.fsm = .running →
    s.pollState = .scheduled → s.pollMissed = false → s.txLock = false → s.cfg.sizesOk = true →
    s.admits s.cfg.regRdt = true → s.admits s.cfg.regTdh = true → s.drain.nicRead s.cfg.regRdt = (t, b1) →
    next = nextIndex s.cfg.nRx t → budget ≠ 0 → s.rxDone next = true → s.allocs.headD none = got →
    (got ≠ none → s.maps.headD none = none) →
    b1.drain.nicRead s.cfg.regTdh = (h, b2) → h.toNat < s.cfg.nTx → s.txNtc = h →
    exec (.poll budget) s =
      .next ({ b2 with
          rxDropped := s.rxDropped + 1, allocs := s.allocs.tail,
          maps := if got = none then s.maps else s.maps.tail, pollState := .idle }.ends
        ([Event.regRead s.cfg.regRdt t, Event.call (.allocRxBuffer s.cfg.rxBufSize got)] ++
          (match got with
            | none => []
            | some b => [Event.call (.dmaMap b s.cfg.rxBufSize .fromDevice none), Event.call (.freeBuffer b)]) ++
          [Event.regRead s.cfg.regTdh h, Event.call (.pollComplete 0)]) (.ok 0)) ∧
    b2.mem = s.mem ∧ b2.rxSlots = s.rxSlots

/-- A POLL that fails ends the poll, tells the host how many frames it handed over, and answers the failing register.
Where the tail read is not admitted, or the head read is not, it changes nothing else; where the head it reads lies
outside the ring it reclaims nothing; where the tail write is not admitted the frame is handed over and the descriptor
re-armed but not counted, the NIC is not told and RECYCLE is skipped (R225, 43_tx_path R213, 60_exceptions R268). -/
def Obligations.PollFails : Prop :=
  (∀ (s : State) (budget : Word), s.sched = [] → s.fsm = .running → s.pollState = .scheduled →
    s.admits s.cfg.regRdt = false →
    exec (.poll budget) s = .next (s.pollEnds [] 0 ⟨.hwAccessError, s.cfg.regRdt.setWidth 64⟩)) ∧
  (∀ (s b1 : State) (budget t : Word), s.sched = List.replicate 4 [] ++ [[.setMmioValid false]] → s.fsm = .running →
    s.pollState = .scheduled → s.txLock = false → s.admits s.cfg.regRdt = true →
    s.drain.nicRead s.cfg.regRdt = (t, b1) → (budget = 0 ∨ s.rxDone (nextIndex s.cfg.nRx t) = false) →
    exec (.poll budget) s =
      .next ({ b1 with sched := [], mmioValid := false }.pollEnds [Event.regRead s.cfg.regRdt t] 0
        ⟨.hwAccessError, s.cfg.regTdh.setWidth 64⟩)) ∧
  (∀ (s b1 b2 : State) (budget t h : Word), s.sched = [] → s.fsm = .running → s.pollState = .scheduled →
    s.txLock = false → s.admits s.cfg.regRdt = true → s.admits s.cfg.regTdh = true →
    s.drain.nicRead s.cfg.regRdt = (t, b1) → (budget = 0 ∨ s.rxDone (nextIndex s.cfg.nRx t) = false) →
    b1.drain.nicRead s.cfg.regTdh = (h, b2) → s.cfg.nTx ≤ h.toNat →
    exec (.poll budget) s =
      .next (b2.pollEnds [Event.regRead s.cfg.regRdt t, Event.regRead s.cfg.regTdh h] 0
        ⟨.hwAccessError, s.cfg.regTdh.setWidth 64⟩)) ∧
  ∀ (s b1 : State) (budget t next : Word) (m : Mapping) (buf buf2 a2 : DWord), s.fsm = .running →
    s.pollState = .scheduled → s.txLock = false → s.cfg.sizesOk = true → s.mem.wf = true → s.shaped = true →
    s.admits s.cfg.regRdt = true → s.drain.nicRead s.cfg.regRdt = (t, b1) → next = nextIndex s.cfg.nRx t →
    budget ≠ 0 → s.rxDone next = true → slotAt s.rxSlots next = .full m buf → s.allocs.head? = some (some buf2) →
    s.maps.head? = some (some a2) →
    ∃ (mem : Memory) (taken : State), taken = { b1 with
        mem := mem, rxSlots := setSlot s.rxSlots next (.full ⟨a2, s.cfg.rxBufSize, .fromDevice⟩ buf2),
        allocs := s.allocs.tail, maps := s.maps.tail } ∧
      taken.readRxd next .addr = a2 ∧ taken.rxDone next = false ∧
      (∀ x, ¬ within (s.rxdAddr next .addr) 8 x → x ≠ s.rxdAddr next .status → mem.readByte x = s.mem.readByte x) ∧
      (s.sched = List.replicate 13 [] ++ [[.setMmioValid false]] →
        exec (.poll budget) s =
          .next ({ taken with sched := [], mmioValid := false }.pollEnds
            (Event.regRead s.cfg.regRdt t :: s.takeCalls next m buf buf2 a2) 0
            ⟨.hwAccessError, s.cfg.regRdt.setWidth 64⟩)) ∧
      (∀ (b2 : State) (h : Word), s.sched = [] → s.admits s.cfg.regTdh = true →
        (budget = 1 ∨ s.rxDone (nextIndex s.cfg.nRx next) = false) →
        { taken with wbuf := [(s.cfg.regRdt, next)] }.drain.nicRead s.cfg.regTdh = (h, b2) → s.cfg.nTx ≤ h.toNat →
        exec (.poll budget) s =
          .next (b2.pollEnds
            (Event.regRead s.cfg.regRdt t :: s.takeCalls next m buf buf2 a2 ++
              [Event.regWrite s.cfg.regRdt next, Event.regRead s.cfg.regTdh h]) 1
            ⟨.hwAccessError, s.cfg.regTdh.setWidth 64⟩))

/-- A POLL that hands over any number of frames answers that number, at most its budget, and tells the host the same
number (R225, R226). -/
def Obligations.PollCounts : Prop :=
  ∀ (s t : State) (budget : Word), s.sched = [] → s.fsm = .running → s.pollState = .scheduled → s.txLock = false →
    s.cfg.sizesOk = true → s.mem.wf = true → s.shaped = true → s.RxOwned → exec (.poll budget) s = .next t →
    ∃ (es : List Event) (work : Word) (r : Response), t.trace = s.trace ++ es ++ [Event.response s.nextCtx r] ∧
      (es.filter Event.delivers).length = work.toNat ∧ work.toNat ≤ budget.toNat ∧
      Event.call (.pollComplete work) ∈ es ∧ (r = .ok (work.setWidth 64) ∨ r.status = .hwAccessError)

/-- POLL keeps every RX slot Full, with the mapping of a whole buffer whose address is in the descriptor, however many
frames it hands over and wherever it stops (42_ring_manager R187, R192). -/
def Obligations.RxOwnedKept : Prop :=
  ∀ (s t : State) (budget : Word), s.sched = [] → s.cfg.sizesOk = true → s.mem.wf = true → s.shaped = true →
    s.RxOwned → exec (.poll budget) s = .next t → t.RxOwned

/-- READ_STATS, `op = 0x32` and nothing else in its word, answers the dropped-frame counter in every lifecycle state, with
no access of any kind (R230). -/
def Obligations.ReadStatsAnswers : Prop :=
  decode 0x32000000000000000000000000#104 = .ok .readStats ∧
  ∀ s : State, s.sched = [] → exec .readStats s = .next (s.ends [] (.ok s.rxDropped))

/-! ### The whole machine -/

/-- A command alone writes only the pieces of DRM's state that its rule names, in every interleaving with other agents;
and only RING_INIT, SUBMIT, POLL, and RESET while it waits for the NIC, may change DMA memory (10_state R21, R24, R29;
60_exceptions R280). -/
def Obligations.WritersOnly : Prop :=
  ∀ (c : Cfg) (i : Instr) (t t' : Task) (s s' : State), Reaches c i t → s.cfg = c → t.step s = .more t' s' →
    (∀ p : Piece, p ∉ writesOf i → p.same s s') ∧ (touchesMemory i = false → s'.mem = s.mem)

/-- The register commands never touch `fsm`, the rings, the slots, the lock, the poll state or memory (40_register_access
R130). -/
def Obligations.RegisterCommandsFrame : Prop :=
  ∀ (s t : State) (i : Instr), s.sched = [] →
    (i = .writeFlush ∨ (∃ off, i = .read32 off) ∨ (∃ v off, i = .write32 v off) ∨ ∃ v off, i = .writeIo v off) →
    exec i s = .next t →
    (∀ p : Piece, p.same s t) ∧ t.mem = s.mem ∧ t.wire = s.wire ∧ t.tasks = s.tasks ∧ t.cfg = s.cfg ∧
      t.allocs = s.allocs ∧ t.maps = s.maps ∧ t.pads = s.pads

/-- A command that nothing makes wait ends with exactly one response (60_exceptions R260), within the primitives the model
gives it (notes/assumptions/15.md), and with the TX lock free. -/
def Obligations.OneResponse : Prop :=
  ∀ (s : State) (i : Instr), s.sched = [] → s.txLock = false → s.pollState ≠ .active →
    (i = .stop → s.lockAwaited = false) →
    ∃ (t : State) (es : List Event) (r : Response), exec i s = .next t ∧
      t.trace = s.trace ++ es ++ [Event.response s.nextCtx r] ∧ es.all Event.quiet = true ∧
      t.nextCtx = s.nextCtx + 1 ∧ t.tasks = s.tasks ∧ t.txLock = false

/-- Under every schedule, DMA memory keeps its canonical form: equal memories are equal data. The form, and that an
unwritten byte reads 0, are the model's choice (notes/assumptions/4.md). -/
def Obligations.MemoryCanonical : Prop :=
  ∀ s t : State, s.mem.wf = true → step s = .next t → t.mem.wf = true

/-- Under every schedule in which the host keeps its duty about DETACH (45_device_agent R252 b, which DRM does not check),
the TX lock is held by exactly one command in flight when it is held and by none when it is free, and every exit path of a
command that holds it releases it (10_state R33, 60_exceptions R269). -/
def Obligations.LockOwned : Prop :=
  ∀ s t : State, s.detachAlone = true → s.lockOwned = true → step s = .next t → t.lockOwned = true

/-- Under every schedule, the index registers hold a value below the capacity of their ring, and so does every index a
command in flight has still to write (10_state R21, 42_ring_manager R191). -/
def Obligations.IndicesInRange : Prop :=
  ∀ s t : State, s.cfg.sizesOk = true → s.indicesOk = true → step s = .next t → t.indicesOk = true

/-- Under every schedule, the configuration is constant and the tables keep their capacities (00_scope R7, 10_state R30). -/
def Obligations.ShapeKept : Prop :=
  ∀ s t : State, s.shaped = true → step s = .next t → t.cfg = s.cfg ∧ t.shaped = true

/-- The invariants hold after block reset with any configuration that meets the spec's constraints (R7, 10_state R65), and
State.reset is that state for the default configuration, which meets them. That State carries the configuration, its
default values, and what memory holds are the model's choice (notes/assumptions/1.md, 2.md, 4.md). -/
def Obligations.ResetInvariants : Prop :=
  (∀ (c : Cfg) (s : State), c.wf = true → s = State.resetWith c →
    s.mem.wf = true ∧ s.lockOwned = true ∧ s.indicesOk = true ∧ s.shaped = true ∧ s.cfg = c) ∧
  State.reset = State.resetWith {} ∧ Cfg.wf {} = true
end

