-- ==== Sys2Proof/Laws/State.lean ====
section
/-! SUPPORT. What each named update of State does to each field, one lemma each, true by unfolding. -/

namespace Sys2Proof.Machine

variable (s : State)

/-! ### `State.emit` -/

@[simp] theorem State.emit_cfg (e : Event) : (s.emit e).cfg = s.cfg := rfl
@[simp] theorem State.emit_txBase (e : Event) : (s.emit e).txBase = s.txBase := rfl
@[simp] theorem State.emit_rxBase (e : Event) : (s.emit e).rxBase = s.rxBase := rfl
@[simp] theorem State.emit_txTail (e : Event) : (s.emit e).txTail = s.txTail := rfl
@[simp] theorem State.emit_txNtc (e : Event) : (s.emit e).txNtc = s.txNtc := rfl
@[simp] theorem State.emit_rxDropped (e : Event) : (s.emit e).rxDropped = s.rxDropped := rfl
@[simp] theorem State.emit_irqLine (e : Event) : (s.emit e).irqLine = s.irqLine := rfl
@[simp] theorem State.emit_mac (e : Event) : (s.emit e).mac = s.mac := rfl
@[simp] theorem State.emit_ringsReady (e : Event) : (s.emit e).ringsReady = s.ringsReady := rfl
@[simp] theorem State.emit_fsm (e : Event) : (s.emit e).fsm = s.fsm := rfl
@[simp] theorem State.emit_txLock (e : Event) : (s.emit e).txLock = s.txLock := rfl
@[simp] theorem State.emit_pollState (e : Event) : (s.emit e).pollState = s.pollState := rfl
@[simp] theorem State.emit_pollMissed (e : Event) : (s.emit e).pollMissed = s.pollMissed := rfl
@[simp] theorem State.emit_txSlots (e : Event) : (s.emit e).txSlots = s.txSlots := rfl
@[simp] theorem State.emit_rxSlots (e : Event) : (s.emit e).rxSlots = s.rxSlots := rfl
@[simp] theorem State.emit_tasks (e : Event) : (s.emit e).tasks = s.tasks := rfl
@[simp] theorem State.emit_nextCtx (e : Event) : (s.emit e).nextCtx = s.nextCtx := rfl
@[simp] theorem State.emit_wbuf (e : Event) : (s.emit e).wbuf = s.wbuf := rfl
@[simp] theorem State.emit_nic (e : Event) : (s.emit e).nic = s.nic := rfl
@[simp] theorem State.emit_mem (e : Event) : (s.emit e).mem = s.mem := rfl
@[simp] theorem State.emit_mmioValid (e : Event) : (s.emit e).mmioValid = s.mmioValid := rfl
@[simp] theorem State.emit_ioValid (e : Event) : (s.emit e).ioValid = s.ioValid := rfl
@[simp] theorem State.emit_port (e : Event) : (s.emit e).port = s.port := rfl
@[simp] theorem State.emit_sched (e : Event) : (s.emit e).sched = s.sched := rfl
@[simp] theorem State.emit_allocs (e : Event) : (s.emit e).allocs = s.allocs := rfl
@[simp] theorem State.emit_maps (e : Event) : (s.emit e).maps = s.maps := rfl
@[simp] theorem State.emit_pads (e : Event) : (s.emit e).pads = s.pads := rfl
@[simp] theorem State.emit_trace (e : Event) : (s.emit e).trace = s.trace ++ [e] := rfl
@[simp] theorem State.emit_wire (e : Event) : (s.emit e).wire = s.wire := rfl
@[simp] theorem State.emit_drawn (e : Event) : (s.emit e).drawn = s.drawn := rfl

/-! ### `State.respond` -/

@[simp] theorem State.respond_cfg (k : Nat) (r : Response) : (s.respond k r).cfg = s.cfg := rfl
@[simp] theorem State.respond_txBase (k : Nat) (r : Response) : (s.respond k r).txBase = s.txBase := rfl
@[simp] theorem State.respond_rxBase (k : Nat) (r : Response) : (s.respond k r).rxBase = s.rxBase := rfl
@[simp] theorem State.respond_txTail (k : Nat) (r : Response) : (s.respond k r).txTail = s.txTail := rfl
@[simp] theorem State.respond_txNtc (k : Nat) (r : Response) : (s.respond k r).txNtc = s.txNtc := rfl
@[simp] theorem State.respond_rxDropped (k : Nat) (r : Response) : (s.respond k r).rxDropped = s.rxDropped := rfl
@[simp] theorem State.respond_irqLine (k : Nat) (r : Response) : (s.respond k r).irqLine = s.irqLine := rfl
@[simp] theorem State.respond_mac (k : Nat) (r : Response) : (s.respond k r).mac = s.mac := rfl
@[simp] theorem State.respond_ringsReady (k : Nat) (r : Response) : (s.respond k r).ringsReady = s.ringsReady := rfl
@[simp] theorem State.respond_fsm (k : Nat) (r : Response) : (s.respond k r).fsm = s.fsm := rfl
@[simp] theorem State.respond_txLock (k : Nat) (r : Response) : (s.respond k r).txLock = s.txLock := rfl
@[simp] theorem State.respond_pollState (k : Nat) (r : Response) : (s.respond k r).pollState = s.pollState := rfl
@[simp] theorem State.respond_pollMissed (k : Nat) (r : Response) : (s.respond k r).pollMissed = s.pollMissed := rfl
@[simp] theorem State.respond_txSlots (k : Nat) (r : Response) : (s.respond k r).txSlots = s.txSlots := rfl
@[simp] theorem State.respond_rxSlots (k : Nat) (r : Response) : (s.respond k r).rxSlots = s.rxSlots := rfl
@[simp] theorem State.respond_tasks (k : Nat) (r : Response) : (s.respond k r).tasks = s.tasks := rfl
@[simp] theorem State.respond_nextCtx (k : Nat) (r : Response) : (s.respond k r).nextCtx = s.nextCtx := rfl
@[simp] theorem State.respond_wbuf (k : Nat) (r : Response) : (s.respond k r).wbuf = s.wbuf := rfl
@[simp] theorem State.respond_nic (k : Nat) (r : Response) : (s.respond k r).nic = s.nic := rfl
@[simp] theorem State.respond_mem (k : Nat) (r : Response) : (s.respond k r).mem = s.mem := rfl
@[simp] theorem State.respond_mmioValid (k : Nat) (r : Response) : (s.respond k r).mmioValid = s.mmioValid := rfl
@[simp] theorem State.respond_ioValid (k : Nat) (r : Response) : (s.respond k r).ioValid = s.ioValid := rfl
@[simp] theorem State.respond_port (k : Nat) (r : Response) : (s.respond k r).port = s.port := rfl
@[simp] theorem State.respond_sched (k : Nat) (r : Response) : (s.respond k r).sched = s.sched := rfl
@[simp] theorem State.respond_allocs (k : Nat) (r : Response) : (s.respond k r).allocs = s.allocs := rfl
@[simp] theorem State.respond_maps (k : Nat) (r : Response) : (s.respond k r).maps = s.maps := rfl
@[simp] theorem State.respond_pads (k : Nat) (r : Response) : (s.respond k r).pads = s.pads := rfl
@[simp] theorem State.respond_trace (k : Nat) (r : Response) : (s.respond k r).trace = s.trace ++ [.response k r] := rfl
@[simp] theorem State.respond_wire (k : Nat) (r : Response) : (s.respond k r).wire = s.wire := rfl
@[simp] theorem State.respond_drawn (k : Nat) (r : Response) : (s.respond k r).drawn = s.drawn := rfl

/-! ### `State.call` -/

@[simp] theorem State.call_cfg (c : HostCall) : (s.call c).cfg = s.cfg := rfl
@[simp] theorem State.call_txBase (c : HostCall) : (s.call c).txBase = s.txBase := rfl
@[simp] theorem State.call_rxBase (c : HostCall) : (s.call c).rxBase = s.rxBase := rfl
@[simp] theorem State.call_txTail (c : HostCall) : (s.call c).txTail = s.txTail := rfl
@[simp] theorem State.call_txNtc (c : HostCall) : (s.call c).txNtc = s.txNtc := rfl
@[simp] theorem State.call_rxDropped (c : HostCall) : (s.call c).rxDropped = s.rxDropped := rfl
@[simp] theorem State.call_irqLine (c : HostCall) : (s.call c).irqLine = s.irqLine := rfl
@[simp] theorem State.call_mac (c : HostCall) : (s.call c).mac = s.mac := rfl
@[simp] theorem State.call_ringsReady (c : HostCall) : (s.call c).ringsReady = s.ringsReady := rfl
@[simp] theorem State.call_fsm (c : HostCall) : (s.call c).fsm = s.fsm := rfl
@[simp] theorem State.call_txLock (c : HostCall) : (s.call c).txLock = s.txLock := rfl
@[simp] theorem State.call_pollState (c : HostCall) : (s.call c).pollState = s.pollState := rfl
@[simp] theorem State.call_pollMissed (c : HostCall) : (s.call c).pollMissed = s.pollMissed := rfl
@[simp] theorem State.call_txSlots (c : HostCall) : (s.call c).txSlots = s.txSlots := rfl
@[simp] theorem State.call_rxSlots (c : HostCall) : (s.call c).rxSlots = s.rxSlots := rfl
@[simp] theorem State.call_tasks (c : HostCall) : (s.call c).tasks = s.tasks := rfl
@[simp] theorem State.call_nextCtx (c : HostCall) : (s.call c).nextCtx = s.nextCtx := rfl
@[simp] theorem State.call_wbuf (c : HostCall) : (s.call c).wbuf = s.wbuf := rfl
@[simp] theorem State.call_nic (c : HostCall) : (s.call c).nic = s.nic := rfl
@[simp] theorem State.call_mem (c : HostCall) : (s.call c).mem = s.mem := rfl
@[simp] theorem State.call_mmioValid (c : HostCall) : (s.call c).mmioValid = s.mmioValid := rfl
@[simp] theorem State.call_ioValid (c : HostCall) : (s.call c).ioValid = s.ioValid := rfl
@[simp] theorem State.call_port (c : HostCall) : (s.call c).port = s.port := rfl
@[simp] theorem State.call_sched (c : HostCall) : (s.call c).sched = s.sched := rfl
@[simp] theorem State.call_allocs (c : HostCall) : (s.call c).allocs = s.allocs := rfl
@[simp] theorem State.call_maps (c : HostCall) : (s.call c).maps = s.maps := rfl
@[simp] theorem State.call_pads (c : HostCall) : (s.call c).pads = s.pads := rfl
@[simp] theorem State.call_trace (c : HostCall) : (s.call c).trace = s.trace ++ [.call c] := rfl
@[simp] theorem State.call_wire (c : HostCall) : (s.call c).wire = s.wire := rfl
@[simp] theorem State.call_drawn (c : HostCall) : (s.call c).drawn = s.drawn := rfl

/-! ### `State.takeCtx` -/

@[simp] theorem State.takeCtx_cfg : (s.takeCtx).cfg = s.cfg := rfl
@[simp] theorem State.takeCtx_txBase : (s.takeCtx).txBase = s.txBase := rfl
@[simp] theorem State.takeCtx_rxBase : (s.takeCtx).rxBase = s.rxBase := rfl
@[simp] theorem State.takeCtx_txTail : (s.takeCtx).txTail = s.txTail := rfl
@[simp] theorem State.takeCtx_txNtc : (s.takeCtx).txNtc = s.txNtc := rfl
@[simp] theorem State.takeCtx_rxDropped : (s.takeCtx).rxDropped = s.rxDropped := rfl
@[simp] theorem State.takeCtx_irqLine : (s.takeCtx).irqLine = s.irqLine := rfl
@[simp] theorem State.takeCtx_mac : (s.takeCtx).mac = s.mac := rfl
@[simp] theorem State.takeCtx_ringsReady : (s.takeCtx).ringsReady = s.ringsReady := rfl
@[simp] theorem State.takeCtx_fsm : (s.takeCtx).fsm = s.fsm := rfl
@[simp] theorem State.takeCtx_txLock : (s.takeCtx).txLock = s.txLock := rfl
@[simp] theorem State.takeCtx_pollState : (s.takeCtx).pollState = s.pollState := rfl
@[simp] theorem State.takeCtx_pollMissed : (s.takeCtx).pollMissed = s.pollMissed := rfl
@[simp] theorem State.takeCtx_txSlots : (s.takeCtx).txSlots = s.txSlots := rfl
@[simp] theorem State.takeCtx_rxSlots : (s.takeCtx).rxSlots = s.rxSlots := rfl
@[simp] theorem State.takeCtx_tasks : (s.takeCtx).tasks = s.tasks := rfl
@[simp] theorem State.takeCtx_nextCtx : (s.takeCtx).nextCtx = s.nextCtx + 1 := rfl
@[simp] theorem State.takeCtx_wbuf : (s.takeCtx).wbuf = s.wbuf := rfl
@[simp] theorem State.takeCtx_nic : (s.takeCtx).nic = s.nic := rfl
@[simp] theorem State.takeCtx_mem : (s.takeCtx).mem = s.mem := rfl
@[simp] theorem State.takeCtx_mmioValid : (s.takeCtx).mmioValid = s.mmioValid := rfl
@[simp] theorem State.takeCtx_ioValid : (s.takeCtx).ioValid = s.ioValid := rfl
@[simp] theorem State.takeCtx_port : (s.takeCtx).port = s.port := rfl
@[simp] theorem State.takeCtx_sched : (s.takeCtx).sched = s.sched := rfl
@[simp] theorem State.takeCtx_allocs : (s.takeCtx).allocs = s.allocs := rfl
@[simp] theorem State.takeCtx_maps : (s.takeCtx).maps = s.maps := rfl
@[simp] theorem State.takeCtx_pads : (s.takeCtx).pads = s.pads := rfl
@[simp] theorem State.takeCtx_trace : (s.takeCtx).trace = s.trace := rfl
@[simp] theorem State.takeCtx_wire : (s.takeCtx).wire = s.wire := rfl
@[simp] theorem State.takeCtx_drawn : (s.takeCtx).drawn = s.drawn := rfl

/-! ### `State.takePort` -/

@[simp] theorem State.takePort_cfg : (s.takePort).cfg = s.cfg := rfl
@[simp] theorem State.takePort_txBase : (s.takePort).txBase = s.txBase := rfl
@[simp] theorem State.takePort_rxBase : (s.takePort).rxBase = s.rxBase := rfl
@[simp] theorem State.takePort_txTail : (s.takePort).txTail = s.txTail := rfl
@[simp] theorem State.takePort_txNtc : (s.takePort).txNtc = s.txNtc := rfl
@[simp] theorem State.takePort_rxDropped : (s.takePort).rxDropped = s.rxDropped := rfl
@[simp] theorem State.takePort_irqLine : (s.takePort).irqLine = s.irqLine := rfl
@[simp] theorem State.takePort_mac : (s.takePort).mac = s.mac := rfl
@[simp] theorem State.takePort_ringsReady : (s.takePort).ringsReady = s.ringsReady := rfl
@[simp] theorem State.takePort_fsm : (s.takePort).fsm = s.fsm := rfl
@[simp] theorem State.takePort_txLock : (s.takePort).txLock = s.txLock := rfl
@[simp] theorem State.takePort_pollState : (s.takePort).pollState = s.pollState := rfl
@[simp] theorem State.takePort_pollMissed : (s.takePort).pollMissed = s.pollMissed := rfl
@[simp] theorem State.takePort_txSlots : (s.takePort).txSlots = s.txSlots := rfl
@[simp] theorem State.takePort_rxSlots : (s.takePort).rxSlots = s.rxSlots := rfl
@[simp] theorem State.takePort_tasks : (s.takePort).tasks = s.tasks := rfl
@[simp] theorem State.takePort_nextCtx : (s.takePort).nextCtx = s.nextCtx := rfl
@[simp] theorem State.takePort_wbuf : (s.takePort).wbuf = s.wbuf := rfl
@[simp] theorem State.takePort_nic : (s.takePort).nic = s.nic := rfl
@[simp] theorem State.takePort_mem : (s.takePort).mem = s.mem := rfl
@[simp] theorem State.takePort_mmioValid : (s.takePort).mmioValid = s.mmioValid := rfl
@[simp] theorem State.takePort_ioValid : (s.takePort).ioValid = s.ioValid := rfl
@[simp] theorem State.takePort_port : (s.takePort).port = none := rfl
@[simp] theorem State.takePort_sched : (s.takePort).sched = s.sched := rfl
@[simp] theorem State.takePort_allocs : (s.takePort).allocs = s.allocs := rfl
@[simp] theorem State.takePort_maps : (s.takePort).maps = s.maps := rfl
@[simp] theorem State.takePort_pads : (s.takePort).pads = s.pads := rfl
@[simp] theorem State.takePort_trace : (s.takePort).trace = s.trace := rfl
@[simp] theorem State.takePort_wire : (s.takePort).wire = s.wire := rfl
@[simp] theorem State.takePort_drawn : (s.takePort).drawn = s.drawn := rfl

/-! ### `State.park` -/

@[simp] theorem State.park_cfg (k : Nat) (t : Task) : (s.park k t).cfg = s.cfg := rfl
@[simp] theorem State.park_txBase (k : Nat) (t : Task) : (s.park k t).txBase = s.txBase := rfl
@[simp] theorem State.park_rxBase (k : Nat) (t : Task) : (s.park k t).rxBase = s.rxBase := rfl
@[simp] theorem State.park_txTail (k : Nat) (t : Task) : (s.park k t).txTail = s.txTail := rfl
@[simp] theorem State.park_txNtc (k : Nat) (t : Task) : (s.park k t).txNtc = s.txNtc := rfl
@[simp] theorem State.park_rxDropped (k : Nat) (t : Task) : (s.park k t).rxDropped = s.rxDropped := rfl
@[simp] theorem State.park_irqLine (k : Nat) (t : Task) : (s.park k t).irqLine = s.irqLine := rfl
@[simp] theorem State.park_mac (k : Nat) (t : Task) : (s.park k t).mac = s.mac := rfl
@[simp] theorem State.park_ringsReady (k : Nat) (t : Task) : (s.park k t).ringsReady = s.ringsReady := rfl
@[simp] theorem State.park_fsm (k : Nat) (t : Task) : (s.park k t).fsm = s.fsm := rfl
@[simp] theorem State.park_txLock (k : Nat) (t : Task) : (s.park k t).txLock = s.txLock := rfl
@[simp] theorem State.park_pollState (k : Nat) (t : Task) : (s.park k t).pollState = s.pollState := rfl
@[simp] theorem State.park_pollMissed (k : Nat) (t : Task) : (s.park k t).pollMissed = s.pollMissed := rfl
@[simp] theorem State.park_txSlots (k : Nat) (t : Task) : (s.park k t).txSlots = s.txSlots := rfl
@[simp] theorem State.park_rxSlots (k : Nat) (t : Task) : (s.park k t).rxSlots = s.rxSlots := rfl
@[simp] theorem State.park_tasks (k : Nat) (t : Task) : (s.park k t).tasks = (k, t) :: s.tasks := rfl
@[simp] theorem State.park_nextCtx (k : Nat) (t : Task) : (s.park k t).nextCtx = s.nextCtx := rfl
@[simp] theorem State.park_wbuf (k : Nat) (t : Task) : (s.park k t).wbuf = s.wbuf := rfl
@[simp] theorem State.park_nic (k : Nat) (t : Task) : (s.park k t).nic = s.nic := rfl
@[simp] theorem State.park_mem (k : Nat) (t : Task) : (s.park k t).mem = s.mem := rfl
@[simp] theorem State.park_mmioValid (k : Nat) (t : Task) : (s.park k t).mmioValid = s.mmioValid := rfl
@[simp] theorem State.park_ioValid (k : Nat) (t : Task) : (s.park k t).ioValid = s.ioValid := rfl
@[simp] theorem State.park_port (k : Nat) (t : Task) : (s.park k t).port = s.port := rfl
@[simp] theorem State.park_sched (k : Nat) (t : Task) : (s.park k t).sched = s.sched := rfl
@[simp] theorem State.park_allocs (k : Nat) (t : Task) : (s.park k t).allocs = s.allocs := rfl
@[simp] theorem State.park_maps (k : Nat) (t : Task) : (s.park k t).maps = s.maps := rfl
@[simp] theorem State.park_pads (k : Nat) (t : Task) : (s.park k t).pads = s.pads := rfl
@[simp] theorem State.park_trace (k : Nat) (t : Task) : (s.park k t).trace = s.trace := rfl
@[simp] theorem State.park_wire (k : Nat) (t : Task) : (s.park k t).wire = s.wire := rfl
@[simp] theorem State.park_drawn (k : Nat) (t : Task) : (s.park k t).drawn = s.drawn := rfl

/-! ### `State.without` -/

@[simp] theorem State.without_cfg (k : Nat) : (s.without k).cfg = s.cfg := rfl
@[simp] theorem State.without_txBase (k : Nat) : (s.without k).txBase = s.txBase := rfl
@[simp] theorem State.without_rxBase (k : Nat) : (s.without k).rxBase = s.rxBase := rfl
@[simp] theorem State.without_txTail (k : Nat) : (s.without k).txTail = s.txTail := rfl
@[simp] theorem State.without_txNtc (k : Nat) : (s.without k).txNtc = s.txNtc := rfl
@[simp] theorem State.without_rxDropped (k : Nat) : (s.without k).rxDropped = s.rxDropped := rfl
@[simp] theorem State.without_irqLine (k : Nat) : (s.without k).irqLine = s.irqLine := rfl
@[simp] theorem State.without_mac (k : Nat) : (s.without k).mac = s.mac := rfl
@[simp] theorem State.without_ringsReady (k : Nat) : (s.without k).ringsReady = s.ringsReady := rfl
@[simp] theorem State.without_fsm (k : Nat) : (s.without k).fsm = s.fsm := rfl
@[simp] theorem State.without_txLock (k : Nat) : (s.without k).txLock = s.txLock := rfl
@[simp] theorem State.without_pollState (k : Nat) : (s.without k).pollState = s.pollState := rfl
@[simp] theorem State.without_pollMissed (k : Nat) : (s.without k).pollMissed = s.pollMissed := rfl
@[simp] theorem State.without_txSlots (k : Nat) : (s.without k).txSlots = s.txSlots := rfl
@[simp] theorem State.without_rxSlots (k : Nat) : (s.without k).rxSlots = s.rxSlots := rfl
@[simp] theorem State.without_tasks (k : Nat) : (s.without k).tasks = otherTasks s.tasks k := rfl
@[simp] theorem State.without_nextCtx (k : Nat) : (s.without k).nextCtx = s.nextCtx := rfl
@[simp] theorem State.without_wbuf (k : Nat) : (s.without k).wbuf = s.wbuf := rfl
@[simp] theorem State.without_nic (k : Nat) : (s.without k).nic = s.nic := rfl
@[simp] theorem State.without_mem (k : Nat) : (s.without k).mem = s.mem := rfl
@[simp] theorem State.without_mmioValid (k : Nat) : (s.without k).mmioValid = s.mmioValid := rfl
@[simp] theorem State.without_ioValid (k : Nat) : (s.without k).ioValid = s.ioValid := rfl
@[simp] theorem State.without_port (k : Nat) : (s.without k).port = s.port := rfl
@[simp] theorem State.without_sched (k : Nat) : (s.without k).sched = s.sched := rfl
@[simp] theorem State.without_allocs (k : Nat) : (s.without k).allocs = s.allocs := rfl
@[simp] theorem State.without_maps (k : Nat) : (s.without k).maps = s.maps := rfl
@[simp] theorem State.without_pads (k : Nat) : (s.without k).pads = s.pads := rfl
@[simp] theorem State.without_trace (k : Nat) : (s.without k).trace = s.trace := rfl
@[simp] theorem State.without_wire (k : Nat) : (s.without k).wire = s.wire := rfl
@[simp] theorem State.without_drawn (k : Nat) : (s.without k).drawn = s.drawn := rfl

/-! ### `State.writeTxd` -/

@[simp] theorem State.writeTxd_cfg (i : Word) (f : TxField) (v : DWord) : (s.writeTxd i f v).cfg = s.cfg := rfl
@[simp] theorem State.writeTxd_txBase (i : Word) (f : TxField) (v : DWord) : (s.writeTxd i f v).txBase = s.txBase := rfl
@[simp] theorem State.writeTxd_rxBase (i : Word) (f : TxField) (v : DWord) : (s.writeTxd i f v).rxBase = s.rxBase := rfl
@[simp] theorem State.writeTxd_txTail (i : Word) (f : TxField) (v : DWord) : (s.writeTxd i f v).txTail = s.txTail := rfl
@[simp] theorem State.writeTxd_txNtc (i : Word) (f : TxField) (v : DWord) : (s.writeTxd i f v).txNtc = s.txNtc := rfl
@[simp] theorem State.writeTxd_rxDropped (i : Word) (f : TxField) (v : DWord) : (s.writeTxd i f v).rxDropped = s.rxDropped := rfl
@[simp] theorem State.writeTxd_irqLine (i : Word) (f : TxField) (v : DWord) : (s.writeTxd i f v).irqLine = s.irqLine := rfl
@[simp] theorem State.writeTxd_mac (i : Word) (f : TxField) (v : DWord) : (s.writeTxd i f v).mac = s.mac := rfl
@[simp] theorem State.writeTxd_ringsReady (i : Word) (f : TxField) (v : DWord) : (s.writeTxd i f v).ringsReady = s.ringsReady := rfl
@[simp] theorem State.writeTxd_fsm (i : Word) (f : TxField) (v : DWord) : (s.writeTxd i f v).fsm = s.fsm := rfl
@[simp] theorem State.writeTxd_txLock (i : Word) (f : TxField) (v : DWord) : (s.writeTxd i f v).txLock = s.txLock := rfl
@[simp] theorem State.writeTxd_pollState (i : Word) (f : TxField) (v : DWord) : (s.writeTxd i f v).pollState = s.pollState := rfl
@[simp] theorem State.writeTxd_pollMissed (i : Word) (f : TxField) (v : DWord) : (s.writeTxd i f v).pollMissed = s.pollMissed := rfl
@[simp] theorem State.writeTxd_txSlots (i : Word) (f : TxField) (v : DWord) : (s.writeTxd i f v).txSlots = s.txSlots := rfl
@[simp] theorem State.writeTxd_rxSlots (i : Word) (f : TxField) (v : DWord) : (s.writeTxd i f v).rxSlots = s.rxSlots := rfl
@[simp] theorem State.writeTxd_tasks (i : Word) (f : TxField) (v : DWord) : (s.writeTxd i f v).tasks = s.tasks := rfl
@[simp] theorem State.writeTxd_nextCtx (i : Word) (f : TxField) (v : DWord) : (s.writeTxd i f v).nextCtx = s.nextCtx := rfl
@[simp] theorem State.writeTxd_wbuf (i : Word) (f : TxField) (v : DWord) : (s.writeTxd i f v).wbuf = s.wbuf := rfl
@[simp] theorem State.writeTxd_nic (i : Word) (f : TxField) (v : DWord) : (s.writeTxd i f v).nic = s.nic := rfl
@[simp] theorem State.writeTxd_mem (i : Word) (f : TxField) (v : DWord) : (s.writeTxd i f v).mem = s.mem.write (s.txdAddr i f) f.size v := rfl
@[simp] theorem State.writeTxd_mmioValid (i : Word) (f : TxField) (v : DWord) : (s.writeTxd i f v).mmioValid = s.mmioValid := rfl
@[simp] theorem State.writeTxd_ioValid (i : Word) (f : TxField) (v : DWord) : (s.writeTxd i f v).ioValid = s.ioValid := rfl
@[simp] theorem State.writeTxd_port (i : Word) (f : TxField) (v : DWord) : (s.writeTxd i f v).port = s.port := rfl
@[simp] theorem State.writeTxd_sched (i : Word) (f : TxField) (v : DWord) : (s.writeTxd i f v).sched = s.sched := rfl
@[simp] theorem State.writeTxd_allocs (i : Word) (f : TxField) (v : DWord) : (s.writeTxd i f v).allocs = s.allocs := rfl
@[simp] theorem State.writeTxd_maps (i : Word) (f : TxField) (v : DWord) : (s.writeTxd i f v).maps = s.maps := rfl
@[simp] theorem State.writeTxd_pads (i : Word) (f : TxField) (v : DWord) : (s.writeTxd i f v).pads = s.pads := rfl
@[simp] theorem State.writeTxd_trace (i : Word) (f : TxField) (v : DWord) : (s.writeTxd i f v).trace = s.trace := rfl
@[simp] theorem State.writeTxd_wire (i : Word) (f : TxField) (v : DWord) : (s.writeTxd i f v).wire = s.wire := rfl
@[simp] theorem State.writeTxd_drawn (i : Word) (f : TxField) (v : DWord) : (s.writeTxd i f v).drawn = s.drawn := rfl

/-! ### `State.writeRxd` -/

@[simp] theorem State.writeRxd_cfg (i : Word) (f : RxField) (v : DWord) : (s.writeRxd i f v).cfg = s.cfg := rfl
@[simp] theorem State.writeRxd_txBase (i : Word) (f : RxField) (v : DWord) : (s.writeRxd i f v).txBase = s.txBase := rfl
@[simp] theorem State.writeRxd_rxBase (i : Word) (f : RxField) (v : DWord) : (s.writeRxd i f v).rxBase = s.rxBase := rfl
@[simp] theorem State.writeRxd_txTail (i : Word) (f : RxField) (v : DWord) : (s.writeRxd i f v).txTail = s.txTail := rfl
@[simp] theorem State.writeRxd_txNtc (i : Word) (f : RxField) (v : DWord) : (s.writeRxd i f v).txNtc = s.txNtc := rfl
@[simp] theorem State.writeRxd_rxDropped (i : Word) (f : RxField) (v : DWord) : (s.writeRxd i f v).rxDropped = s.rxDropped := rfl
@[simp] theorem State.writeRxd_irqLine (i : Word) (f : RxField) (v : DWord) : (s.writeRxd i f v).irqLine = s.irqLine := rfl
@[simp] theorem State.writeRxd_mac (i : Word) (f : RxField) (v : DWord) : (s.writeRxd i f v).mac = s.mac := rfl
@[simp] theorem State.writeRxd_ringsReady (i : Word) (f : RxField) (v : DWord) : (s.writeRxd i f v).ringsReady = s.ringsReady := rfl
@[simp] theorem State.writeRxd_fsm (i : Word) (f : RxField) (v : DWord) : (s.writeRxd i f v).fsm = s.fsm := rfl
@[simp] theorem State.writeRxd_txLock (i : Word) (f : RxField) (v : DWord) : (s.writeRxd i f v).txLock = s.txLock := rfl
@[simp] theorem State.writeRxd_pollState (i : Word) (f : RxField) (v : DWord) : (s.writeRxd i f v).pollState = s.pollState := rfl
@[simp] theorem State.writeRxd_pollMissed (i : Word) (f : RxField) (v : DWord) : (s.writeRxd i f v).pollMissed = s.pollMissed := rfl
@[simp] theorem State.writeRxd_txSlots (i : Word) (f : RxField) (v : DWord) : (s.writeRxd i f v).txSlots = s.txSlots := rfl
@[simp] theorem State.writeRxd_rxSlots (i : Word) (f : RxField) (v : DWord) : (s.writeRxd i f v).rxSlots = s.rxSlots := rfl
@[simp] theorem State.writeRxd_tasks (i : Word) (f : RxField) (v : DWord) : (s.writeRxd i f v).tasks = s.tasks := rfl
@[simp] theorem State.writeRxd_nextCtx (i : Word) (f : RxField) (v : DWord) : (s.writeRxd i f v).nextCtx = s.nextCtx := rfl
@[simp] theorem State.writeRxd_wbuf (i : Word) (f : RxField) (v : DWord) : (s.writeRxd i f v).wbuf = s.wbuf := rfl
@[simp] theorem State.writeRxd_nic (i : Word) (f : RxField) (v : DWord) : (s.writeRxd i f v).nic = s.nic := rfl
@[simp] theorem State.writeRxd_mem (i : Word) (f : RxField) (v : DWord) : (s.writeRxd i f v).mem = s.mem.write (s.rxdAddr i f) f.size v := rfl
@[simp] theorem State.writeRxd_mmioValid (i : Word) (f : RxField) (v : DWord) : (s.writeRxd i f v).mmioValid = s.mmioValid := rfl
@[simp] theorem State.writeRxd_ioValid (i : Word) (f : RxField) (v : DWord) : (s.writeRxd i f v).ioValid = s.ioValid := rfl
@[simp] theorem State.writeRxd_port (i : Word) (f : RxField) (v : DWord) : (s.writeRxd i f v).port = s.port := rfl
@[simp] theorem State.writeRxd_sched (i : Word) (f : RxField) (v : DWord) : (s.writeRxd i f v).sched = s.sched := rfl
@[simp] theorem State.writeRxd_allocs (i : Word) (f : RxField) (v : DWord) : (s.writeRxd i f v).allocs = s.allocs := rfl
@[simp] theorem State.writeRxd_maps (i : Word) (f : RxField) (v : DWord) : (s.writeRxd i f v).maps = s.maps := rfl
@[simp] theorem State.writeRxd_pads (i : Word) (f : RxField) (v : DWord) : (s.writeRxd i f v).pads = s.pads := rfl
@[simp] theorem State.writeRxd_trace (i : Word) (f : RxField) (v : DWord) : (s.writeRxd i f v).trace = s.trace := rfl
@[simp] theorem State.writeRxd_wire (i : Word) (f : RxField) (v : DWord) : (s.writeRxd i f v).wire = s.wire := rfl
@[simp] theorem State.writeRxd_drawn (i : Word) (f : RxField) (v : DWord) : (s.writeRxd i f v).drawn = s.drawn := rfl

/-! ### `State.raise` -/

@[simp] theorem State.raise_cfg (b : Word) : (s.raise b).cfg = s.cfg := rfl
@[simp] theorem State.raise_txBase (b : Word) : (s.raise b).txBase = s.txBase := rfl
@[simp] theorem State.raise_rxBase (b : Word) : (s.raise b).rxBase = s.rxBase := rfl
@[simp] theorem State.raise_txTail (b : Word) : (s.raise b).txTail = s.txTail := rfl
@[simp] theorem State.raise_txNtc (b : Word) : (s.raise b).txNtc = s.txNtc := rfl
@[simp] theorem State.raise_rxDropped (b : Word) : (s.raise b).rxDropped = s.rxDropped := rfl
@[simp] theorem State.raise_irqLine (b : Word) : (s.raise b).irqLine = s.irqLine := rfl
@[simp] theorem State.raise_mac (b : Word) : (s.raise b).mac = s.mac := rfl
@[simp] theorem State.raise_ringsReady (b : Word) : (s.raise b).ringsReady = s.ringsReady := rfl
@[simp] theorem State.raise_fsm (b : Word) : (s.raise b).fsm = s.fsm := rfl
@[simp] theorem State.raise_txLock (b : Word) : (s.raise b).txLock = s.txLock := rfl
@[simp] theorem State.raise_pollState (b : Word) : (s.raise b).pollState = s.pollState := rfl
@[simp] theorem State.raise_pollMissed (b : Word) : (s.raise b).pollMissed = s.pollMissed := rfl
@[simp] theorem State.raise_txSlots (b : Word) : (s.raise b).txSlots = s.txSlots := rfl
@[simp] theorem State.raise_rxSlots (b : Word) : (s.raise b).rxSlots = s.rxSlots := rfl
@[simp] theorem State.raise_tasks (b : Word) : (s.raise b).tasks = s.tasks := rfl
@[simp] theorem State.raise_nextCtx (b : Word) : (s.raise b).nextCtx = s.nextCtx := rfl
@[simp] theorem State.raise_wbuf (b : Word) : (s.raise b).wbuf = s.wbuf := rfl
@[simp] theorem State.raise_nic (b : Word) : (s.raise b).nic = { s.nic with icr := s.nic.icr ||| b } := rfl
@[simp] theorem State.raise_mem (b : Word) : (s.raise b).mem = s.mem := rfl
@[simp] theorem State.raise_mmioValid (b : Word) : (s.raise b).mmioValid = s.mmioValid := rfl
@[simp] theorem State.raise_ioValid (b : Word) : (s.raise b).ioValid = s.ioValid := rfl
@[simp] theorem State.raise_port (b : Word) : (s.raise b).port = s.port := rfl
@[simp] theorem State.raise_sched (b : Word) : (s.raise b).sched = s.sched := rfl
@[simp] theorem State.raise_allocs (b : Word) : (s.raise b).allocs = s.allocs := rfl
@[simp] theorem State.raise_maps (b : Word) : (s.raise b).maps = s.maps := rfl
@[simp] theorem State.raise_pads (b : Word) : (s.raise b).pads = s.pads := rfl
@[simp] theorem State.raise_trace (b : Word) : (s.raise b).trace = s.trace := rfl
@[simp] theorem State.raise_wire (b : Word) : (s.raise b).wire = s.wire := rfl
@[simp] theorem State.raise_drawn (b : Word) : (s.raise b).drawn = s.drawn := rfl

end Sys2Proof.Machine
end

