-- ==== Sys2Proof/Laws/Bus.lean ====
section
/-! SUPPORT. What the register accesses can do: a write at the NIC, a delivery and a read change the NIC and the count of
free values only; and the register map names each register once. -/

namespace Sys2Proof

/-! ### The register map (00_scope R9) -/

/-- Looking up by an injective key finds the entry itself. -/
theorem find_by_key {α β : Type} [DecidableEq β] (f : α → β) (l : List α) (h : (l.map f).Nodup) {x : α} (hx : x ∈ l) :
    l.find? (fun y => f y == f x) = some x := by
  induction l with
  | nil => simp at hx
  | cons y l ih =>
    simp only [List.map_cons, List.nodup_cons, List.mem_map, not_exists, not_and] at h
    by_cases hxy : f y = f x
    · rcases List.mem_cons.mp hx with rfl | hx
      · simp
      · exact absurd hxy.symm (h.1 x hx)
    · rcases List.mem_cons.mp hx with rfl | hx
      · exact absurd rfl hxy
      · simpa [hxy] using ih h.2 hx

/-- A named register other than a multicast entry is found at its own offset. -/
theorem Cfg.regAt_offset {c : Cfg} (h : c.mapOk = true) {r : NicReg} (hr : r ∈ NicReg.scalars) :
    c.regAt (c.offset r) = some r := by
  unfold Cfg.mapOk Cfg.scalarOffsets at h
  simp only [Bool.and_eq_true, decide_eq_true_eq] at h
  unfold Cfg.regAt
  rw [find_by_key c.offset NicReg.scalars h.1.1.1.1.1.1.1 hr]

/-- A multicast entry is found at its own offset. -/
theorem Cfg.regAt_mta {c : Cfg} (h : c.mapOk = true) {i : Nat} (hi : i < c.mtaEntries) :
    c.regAt (c.offset (.mta i)) = some (.mta i) := by
  unfold Cfg.mapOk Cfg.scalarOffsets at h
  simp only [Bool.and_eq_true, decide_eq_true_eq, List.all_eq_true, List.mem_map, forall_exists_index, and_imp,
    Bool.not_eq_true'] at h
  obtain ⟨⟨⟨⟨⟨⟨⟨_, _⟩, _⟩, hm⟩, _⟩, _⟩, hb⟩, hout⟩ := h
  have hoff : (c.offset (.mta i)).toNat = c.regMta.toNat + 4 * i := by
    simp only [Cfg.offset, BitVec.toNat_add, BitVec.toNat_ofNat]
    omega
  have hin : c.inMta (c.offset (.mta i)) = true := by
    simp only [Cfg.inMta, hoff, Bool.and_eq_true, decide_eq_true_eq]
    omega
  have hnone : NicReg.scalars.find? (fun r => c.offset r == c.offset (.mta i)) = none := by
    rw [List.find?_eq_none]
    intro r hr he
    have := hout (c.offset r) r hr rfl
    rw [beq_iff_eq.mp he, hin] at this
    exact absurd this (by simp)
  unfold Cfg.regAt
  rw [hnone]
  simp only [hin, hoff, if_true]
  congr 2
  omega

end Sys2Proof

namespace Sys2Proof.Machine

variable (s : State)

/-! ### What a write at the NIC can do (45_device_agent R241) -/

/-- A state that differs from another in the NIC and the count of free values only. -/
def OnlyNic (s s' : State) : Prop := ∃ n d, s' = { s with nic := n, drawn := d }

theorem OnlyNic.refl : OnlyNic s s := ⟨s.nic, s.drawn, rfl⟩

theorem OnlyNic.trans {s s' s'' : State} (h : OnlyNic s s') (h' : OnlyNic s' s'') : OnlyNic s s'' := by
  obtain ⟨n, d, rfl⟩ := h
  obtain ⟨n', d', rfl⟩ := h'
  exact ⟨n', d', rfl⟩

/-- A write applied at the NIC changes the NIC and the count of free values only. -/
theorem State.nicApply_only (off v : Word) : OnlyNic s (s.nicApply off v) := by
  unfold State.nicApply
  split
  · split
    · exact ⟨_, s.drawn, rfl⟩
    · exact ⟨_, _, rfl⟩
  · exact ⟨_, s.drawn, rfl⟩
  · exact OnlyNic.refl s

theorem State.nicWrite_only (off v : Word) : OnlyNic s (s.nicWrite off v) := by
  unfold State.nicWrite
  split
  · split
    · exact OnlyNic.trans ⟨s.nic, s.drawn + 1, rfl⟩ (State.nicApply_only _ off v)
    · exact ⟨s.nic, s.drawn + 1, rfl⟩
  · exact State.nicApply_only s off v

theorem State.deliver_only (l : List (Word × Word)) (s : State) : OnlyNic s (s.deliver l) := by
  induction l generalizing s with
  | nil => exact OnlyNic.refl s
  | cons p l ih => exact (State.nicWrite_only s p.1 p.2).trans (ih _)

theorem State.nicRead_only (off : Word) : OnlyNic s (s.nicRead off).2 := by
  unfold State.nicRead State.anyWord
  split
  · exact ⟨s.nic, _, rfl⟩
  · split
    · exact ⟨_, s.drawn, rfl⟩
    · exact ⟨s.nic, _, rfl⟩
    · exact ⟨s.nic, _, rfl⟩
    · exact OnlyNic.refl s
    · exact ⟨s.nic, _, rfl⟩


/-! ### The fields `nicApply` leaves alone -/

@[simp] theorem State.nicApply_cfg (off v : Word) : (s.nicApply off v).cfg = s.cfg := by
  obtain ⟨n, d, h⟩ := State.nicApply_only s off v; rw [h]
@[simp] theorem State.nicApply_txBase (off v : Word) : (s.nicApply off v).txBase = s.txBase := by
  obtain ⟨n, d, h⟩ := State.nicApply_only s off v; rw [h]
@[simp] theorem State.nicApply_rxBase (off v : Word) : (s.nicApply off v).rxBase = s.rxBase := by
  obtain ⟨n, d, h⟩ := State.nicApply_only s off v; rw [h]
@[simp] theorem State.nicApply_txTail (off v : Word) : (s.nicApply off v).txTail = s.txTail := by
  obtain ⟨n, d, h⟩ := State.nicApply_only s off v; rw [h]
@[simp] theorem State.nicApply_txNtc (off v : Word) : (s.nicApply off v).txNtc = s.txNtc := by
  obtain ⟨n, d, h⟩ := State.nicApply_only s off v; rw [h]
@[simp] theorem State.nicApply_rxDropped (off v : Word) : (s.nicApply off v).rxDropped = s.rxDropped := by
  obtain ⟨n, d, h⟩ := State.nicApply_only s off v; rw [h]
@[simp] theorem State.nicApply_irqLine (off v : Word) : (s.nicApply off v).irqLine = s.irqLine := by
  obtain ⟨n, d, h⟩ := State.nicApply_only s off v; rw [h]
@[simp] theorem State.nicApply_mac (off v : Word) : (s.nicApply off v).mac = s.mac := by
  obtain ⟨n, d, h⟩ := State.nicApply_only s off v; rw [h]
@[simp] theorem State.nicApply_ringsReady (off v : Word) : (s.nicApply off v).ringsReady = s.ringsReady := by
  obtain ⟨n, d, h⟩ := State.nicApply_only s off v; rw [h]
@[simp] theorem State.nicApply_fsm (off v : Word) : (s.nicApply off v).fsm = s.fsm := by
  obtain ⟨n, d, h⟩ := State.nicApply_only s off v; rw [h]
@[simp] theorem State.nicApply_txLock (off v : Word) : (s.nicApply off v).txLock = s.txLock := by
  obtain ⟨n, d, h⟩ := State.nicApply_only s off v; rw [h]
@[simp] theorem State.nicApply_pollState (off v : Word) : (s.nicApply off v).pollState = s.pollState := by
  obtain ⟨n, d, h⟩ := State.nicApply_only s off v; rw [h]
@[simp] theorem State.nicApply_pollMissed (off v : Word) : (s.nicApply off v).pollMissed = s.pollMissed := by
  obtain ⟨n, d, h⟩ := State.nicApply_only s off v; rw [h]
@[simp] theorem State.nicApply_txSlots (off v : Word) : (s.nicApply off v).txSlots = s.txSlots := by
  obtain ⟨n, d, h⟩ := State.nicApply_only s off v; rw [h]
@[simp] theorem State.nicApply_rxSlots (off v : Word) : (s.nicApply off v).rxSlots = s.rxSlots := by
  obtain ⟨n, d, h⟩ := State.nicApply_only s off v; rw [h]
@[simp] theorem State.nicApply_tasks (off v : Word) : (s.nicApply off v).tasks = s.tasks := by
  obtain ⟨n, d, h⟩ := State.nicApply_only s off v; rw [h]
@[simp] theorem State.nicApply_nextCtx (off v : Word) : (s.nicApply off v).nextCtx = s.nextCtx := by
  obtain ⟨n, d, h⟩ := State.nicApply_only s off v; rw [h]
@[simp] theorem State.nicApply_wbuf (off v : Word) : (s.nicApply off v).wbuf = s.wbuf := by
  obtain ⟨n, d, h⟩ := State.nicApply_only s off v; rw [h]
@[simp] theorem State.nicApply_mem (off v : Word) : (s.nicApply off v).mem = s.mem := by
  obtain ⟨n, d, h⟩ := State.nicApply_only s off v; rw [h]
@[simp] theorem State.nicApply_mmioValid (off v : Word) : (s.nicApply off v).mmioValid = s.mmioValid := by
  obtain ⟨n, d, h⟩ := State.nicApply_only s off v; rw [h]
@[simp] theorem State.nicApply_ioValid (off v : Word) : (s.nicApply off v).ioValid = s.ioValid := by
  obtain ⟨n, d, h⟩ := State.nicApply_only s off v; rw [h]
@[simp] theorem State.nicApply_port (off v : Word) : (s.nicApply off v).port = s.port := by
  obtain ⟨n, d, h⟩ := State.nicApply_only s off v; rw [h]
@[simp] theorem State.nicApply_sched (off v : Word) : (s.nicApply off v).sched = s.sched := by
  obtain ⟨n, d, h⟩ := State.nicApply_only s off v; rw [h]
@[simp] theorem State.nicApply_allocs (off v : Word) : (s.nicApply off v).allocs = s.allocs := by
  obtain ⟨n, d, h⟩ := State.nicApply_only s off v; rw [h]
@[simp] theorem State.nicApply_maps (off v : Word) : (s.nicApply off v).maps = s.maps := by
  obtain ⟨n, d, h⟩ := State.nicApply_only s off v; rw [h]
@[simp] theorem State.nicApply_pads (off v : Word) : (s.nicApply off v).pads = s.pads := by
  obtain ⟨n, d, h⟩ := State.nicApply_only s off v; rw [h]
@[simp] theorem State.nicApply_trace (off v : Word) : (s.nicApply off v).trace = s.trace := by
  obtain ⟨n, d, h⟩ := State.nicApply_only s off v; rw [h]
@[simp] theorem State.nicApply_wire (off v : Word) : (s.nicApply off v).wire = s.wire := by
  obtain ⟨n, d, h⟩ := State.nicApply_only s off v; rw [h]

/-! ### The fields `nicWrite` leaves alone -/

@[simp] theorem State.nicWrite_cfg (off v : Word) : (s.nicWrite off v).cfg = s.cfg := by
  obtain ⟨n, d, h⟩ := State.nicWrite_only s off v; rw [h]
@[simp] theorem State.nicWrite_txBase (off v : Word) : (s.nicWrite off v).txBase = s.txBase := by
  obtain ⟨n, d, h⟩ := State.nicWrite_only s off v; rw [h]
@[simp] theorem State.nicWrite_rxBase (off v : Word) : (s.nicWrite off v).rxBase = s.rxBase := by
  obtain ⟨n, d, h⟩ := State.nicWrite_only s off v; rw [h]
@[simp] theorem State.nicWrite_txTail (off v : Word) : (s.nicWrite off v).txTail = s.txTail := by
  obtain ⟨n, d, h⟩ := State.nicWrite_only s off v; rw [h]
@[simp] theorem State.nicWrite_txNtc (off v : Word) : (s.nicWrite off v).txNtc = s.txNtc := by
  obtain ⟨n, d, h⟩ := State.nicWrite_only s off v; rw [h]
@[simp] theorem State.nicWrite_rxDropped (off v : Word) : (s.nicWrite off v).rxDropped = s.rxDropped := by
  obtain ⟨n, d, h⟩ := State.nicWrite_only s off v; rw [h]
@[simp] theorem State.nicWrite_irqLine (off v : Word) : (s.nicWrite off v).irqLine = s.irqLine := by
  obtain ⟨n, d, h⟩ := State.nicWrite_only s off v; rw [h]
@[simp] theorem State.nicWrite_mac (off v : Word) : (s.nicWrite off v).mac = s.mac := by
  obtain ⟨n, d, h⟩ := State.nicWrite_only s off v; rw [h]
@[simp] theorem State.nicWrite_ringsReady (off v : Word) : (s.nicWrite off v).ringsReady = s.ringsReady := by
  obtain ⟨n, d, h⟩ := State.nicWrite_only s off v; rw [h]
@[simp] theorem State.nicWrite_fsm (off v : Word) : (s.nicWrite off v).fsm = s.fsm := by
  obtain ⟨n, d, h⟩ := State.nicWrite_only s off v; rw [h]
@[simp] theorem State.nicWrite_txLock (off v : Word) : (s.nicWrite off v).txLock = s.txLock := by
  obtain ⟨n, d, h⟩ := State.nicWrite_only s off v; rw [h]
@[simp] theorem State.nicWrite_pollState (off v : Word) : (s.nicWrite off v).pollState = s.pollState := by
  obtain ⟨n, d, h⟩ := State.nicWrite_only s off v; rw [h]
@[simp] theorem State.nicWrite_pollMissed (off v : Word) : (s.nicWrite off v).pollMissed = s.pollMissed := by
  obtain ⟨n, d, h⟩ := State.nicWrite_only s off v; rw [h]
@[simp] theorem State.nicWrite_txSlots (off v : Word) : (s.nicWrite off v).txSlots = s.txSlots := by
  obtain ⟨n, d, h⟩ := State.nicWrite_only s off v; rw [h]
@[simp] theorem State.nicWrite_rxSlots (off v : Word) : (s.nicWrite off v).rxSlots = s.rxSlots := by
  obtain ⟨n, d, h⟩ := State.nicWrite_only s off v; rw [h]
@[simp] theorem State.nicWrite_tasks (off v : Word) : (s.nicWrite off v).tasks = s.tasks := by
  obtain ⟨n, d, h⟩ := State.nicWrite_only s off v; rw [h]
@[simp] theorem State.nicWrite_nextCtx (off v : Word) : (s.nicWrite off v).nextCtx = s.nextCtx := by
  obtain ⟨n, d, h⟩ := State.nicWrite_only s off v; rw [h]
@[simp] theorem State.nicWrite_wbuf (off v : Word) : (s.nicWrite off v).wbuf = s.wbuf := by
  obtain ⟨n, d, h⟩ := State.nicWrite_only s off v; rw [h]
@[simp] theorem State.nicWrite_mem (off v : Word) : (s.nicWrite off v).mem = s.mem := by
  obtain ⟨n, d, h⟩ := State.nicWrite_only s off v; rw [h]
@[simp] theorem State.nicWrite_mmioValid (off v : Word) : (s.nicWrite off v).mmioValid = s.mmioValid := by
  obtain ⟨n, d, h⟩ := State.nicWrite_only s off v; rw [h]
@[simp] theorem State.nicWrite_ioValid (off v : Word) : (s.nicWrite off v).ioValid = s.ioValid := by
  obtain ⟨n, d, h⟩ := State.nicWrite_only s off v; rw [h]
@[simp] theorem State.nicWrite_port (off v : Word) : (s.nicWrite off v).port = s.port := by
  obtain ⟨n, d, h⟩ := State.nicWrite_only s off v; rw [h]
@[simp] theorem State.nicWrite_sched (off v : Word) : (s.nicWrite off v).sched = s.sched := by
  obtain ⟨n, d, h⟩ := State.nicWrite_only s off v; rw [h]
@[simp] theorem State.nicWrite_allocs (off v : Word) : (s.nicWrite off v).allocs = s.allocs := by
  obtain ⟨n, d, h⟩ := State.nicWrite_only s off v; rw [h]
@[simp] theorem State.nicWrite_maps (off v : Word) : (s.nicWrite off v).maps = s.maps := by
  obtain ⟨n, d, h⟩ := State.nicWrite_only s off v; rw [h]
@[simp] theorem State.nicWrite_pads (off v : Word) : (s.nicWrite off v).pads = s.pads := by
  obtain ⟨n, d, h⟩ := State.nicWrite_only s off v; rw [h]
@[simp] theorem State.nicWrite_trace (off v : Word) : (s.nicWrite off v).trace = s.trace := by
  obtain ⟨n, d, h⟩ := State.nicWrite_only s off v; rw [h]
@[simp] theorem State.nicWrite_wire (off v : Word) : (s.nicWrite off v).wire = s.wire := by
  obtain ⟨n, d, h⟩ := State.nicWrite_only s off v; rw [h]

/-! ### The fields `deliver` leaves alone -/

@[simp] theorem State.deliver_cfg (l : List (Word × Word)) : (s.deliver l).cfg = s.cfg := by
  obtain ⟨n, d, h⟩ := State.deliver_only l s; rw [h]
@[simp] theorem State.deliver_txBase (l : List (Word × Word)) : (s.deliver l).txBase = s.txBase := by
  obtain ⟨n, d, h⟩ := State.deliver_only l s; rw [h]
@[simp] theorem State.deliver_rxBase (l : List (Word × Word)) : (s.deliver l).rxBase = s.rxBase := by
  obtain ⟨n, d, h⟩ := State.deliver_only l s; rw [h]
@[simp] theorem State.deliver_txTail (l : List (Word × Word)) : (s.deliver l).txTail = s.txTail := by
  obtain ⟨n, d, h⟩ := State.deliver_only l s; rw [h]
@[simp] theorem State.deliver_txNtc (l : List (Word × Word)) : (s.deliver l).txNtc = s.txNtc := by
  obtain ⟨n, d, h⟩ := State.deliver_only l s; rw [h]
@[simp] theorem State.deliver_rxDropped (l : List (Word × Word)) : (s.deliver l).rxDropped = s.rxDropped := by
  obtain ⟨n, d, h⟩ := State.deliver_only l s; rw [h]
@[simp] theorem State.deliver_irqLine (l : List (Word × Word)) : (s.deliver l).irqLine = s.irqLine := by
  obtain ⟨n, d, h⟩ := State.deliver_only l s; rw [h]
@[simp] theorem State.deliver_mac (l : List (Word × Word)) : (s.deliver l).mac = s.mac := by
  obtain ⟨n, d, h⟩ := State.deliver_only l s; rw [h]
@[simp] theorem State.deliver_ringsReady (l : List (Word × Word)) : (s.deliver l).ringsReady = s.ringsReady := by
  obtain ⟨n, d, h⟩ := State.deliver_only l s; rw [h]
@[simp] theorem State.deliver_fsm (l : List (Word × Word)) : (s.deliver l).fsm = s.fsm := by
  obtain ⟨n, d, h⟩ := State.deliver_only l s; rw [h]
@[simp] theorem State.deliver_txLock (l : List (Word × Word)) : (s.deliver l).txLock = s.txLock := by
  obtain ⟨n, d, h⟩ := State.deliver_only l s; rw [h]
@[simp] theorem State.deliver_pollState (l : List (Word × Word)) : (s.deliver l).pollState = s.pollState := by
  obtain ⟨n, d, h⟩ := State.deliver_only l s; rw [h]
@[simp] theorem State.deliver_pollMissed (l : List (Word × Word)) : (s.deliver l).pollMissed = s.pollMissed := by
  obtain ⟨n, d, h⟩ := State.deliver_only l s; rw [h]
@[simp] theorem State.deliver_txSlots (l : List (Word × Word)) : (s.deliver l).txSlots = s.txSlots := by
  obtain ⟨n, d, h⟩ := State.deliver_only l s; rw [h]
@[simp] theorem State.deliver_rxSlots (l : List (Word × Word)) : (s.deliver l).rxSlots = s.rxSlots := by
  obtain ⟨n, d, h⟩ := State.deliver_only l s; rw [h]
@[simp] theorem State.deliver_tasks (l : List (Word × Word)) : (s.deliver l).tasks = s.tasks := by
  obtain ⟨n, d, h⟩ := State.deliver_only l s; rw [h]
@[simp] theorem State.deliver_nextCtx (l : List (Word × Word)) : (s.deliver l).nextCtx = s.nextCtx := by
  obtain ⟨n, d, h⟩ := State.deliver_only l s; rw [h]
@[simp] theorem State.deliver_wbuf (l : List (Word × Word)) : (s.deliver l).wbuf = s.wbuf := by
  obtain ⟨n, d, h⟩ := State.deliver_only l s; rw [h]
@[simp] theorem State.deliver_mem (l : List (Word × Word)) : (s.deliver l).mem = s.mem := by
  obtain ⟨n, d, h⟩ := State.deliver_only l s; rw [h]
@[simp] theorem State.deliver_mmioValid (l : List (Word × Word)) : (s.deliver l).mmioValid = s.mmioValid := by
  obtain ⟨n, d, h⟩ := State.deliver_only l s; rw [h]
@[simp] theorem State.deliver_ioValid (l : List (Word × Word)) : (s.deliver l).ioValid = s.ioValid := by
  obtain ⟨n, d, h⟩ := State.deliver_only l s; rw [h]
@[simp] theorem State.deliver_port (l : List (Word × Word)) : (s.deliver l).port = s.port := by
  obtain ⟨n, d, h⟩ := State.deliver_only l s; rw [h]
@[simp] theorem State.deliver_sched (l : List (Word × Word)) : (s.deliver l).sched = s.sched := by
  obtain ⟨n, d, h⟩ := State.deliver_only l s; rw [h]
@[simp] theorem State.deliver_allocs (l : List (Word × Word)) : (s.deliver l).allocs = s.allocs := by
  obtain ⟨n, d, h⟩ := State.deliver_only l s; rw [h]
@[simp] theorem State.deliver_maps (l : List (Word × Word)) : (s.deliver l).maps = s.maps := by
  obtain ⟨n, d, h⟩ := State.deliver_only l s; rw [h]
@[simp] theorem State.deliver_pads (l : List (Word × Word)) : (s.deliver l).pads = s.pads := by
  obtain ⟨n, d, h⟩ := State.deliver_only l s; rw [h]
@[simp] theorem State.deliver_trace (l : List (Word × Word)) : (s.deliver l).trace = s.trace := by
  obtain ⟨n, d, h⟩ := State.deliver_only l s; rw [h]
@[simp] theorem State.deliver_wire (l : List (Word × Word)) : (s.deliver l).wire = s.wire := by
  obtain ⟨n, d, h⟩ := State.deliver_only l s; rw [h]

/-! ### The fields `nicRead` leaves alone -/

@[simp] theorem State.nicRead_cfg (off : Word) : ((s.nicRead off).2).cfg = s.cfg := by
  obtain ⟨n, d, h⟩ := State.nicRead_only s off; rw [h]
@[simp] theorem State.nicRead_txBase (off : Word) : ((s.nicRead off).2).txBase = s.txBase := by
  obtain ⟨n, d, h⟩ := State.nicRead_only s off; rw [h]
@[simp] theorem State.nicRead_rxBase (off : Word) : ((s.nicRead off).2).rxBase = s.rxBase := by
  obtain ⟨n, d, h⟩ := State.nicRead_only s off; rw [h]
@[simp] theorem State.nicRead_txTail (off : Word) : ((s.nicRead off).2).txTail = s.txTail := by
  obtain ⟨n, d, h⟩ := State.nicRead_only s off; rw [h]
@[simp] theorem State.nicRead_txNtc (off : Word) : ((s.nicRead off).2).txNtc = s.txNtc := by
  obtain ⟨n, d, h⟩ := State.nicRead_only s off; rw [h]
@[simp] theorem State.nicRead_rxDropped (off : Word) : ((s.nicRead off).2).rxDropped = s.rxDropped := by
  obtain ⟨n, d, h⟩ := State.nicRead_only s off; rw [h]
@[simp] theorem State.nicRead_irqLine (off : Word) : ((s.nicRead off).2).irqLine = s.irqLine := by
  obtain ⟨n, d, h⟩ := State.nicRead_only s off; rw [h]
@[simp] theorem State.nicRead_mac (off : Word) : ((s.nicRead off).2).mac = s.mac := by
  obtain ⟨n, d, h⟩ := State.nicRead_only s off; rw [h]
@[simp] theorem State.nicRead_ringsReady (off : Word) : ((s.nicRead off).2).ringsReady = s.ringsReady := by
  obtain ⟨n, d, h⟩ := State.nicRead_only s off; rw [h]
@[simp] theorem State.nicRead_fsm (off : Word) : ((s.nicRead off).2).fsm = s.fsm := by
  obtain ⟨n, d, h⟩ := State.nicRead_only s off; rw [h]
@[simp] theorem State.nicRead_txLock (off : Word) : ((s.nicRead off).2).txLock = s.txLock := by
  obtain ⟨n, d, h⟩ := State.nicRead_only s off; rw [h]
@[simp] theorem State.nicRead_pollState (off : Word) : ((s.nicRead off).2).pollState = s.pollState := by
  obtain ⟨n, d, h⟩ := State.nicRead_only s off; rw [h]
@[simp] theorem State.nicRead_pollMissed (off : Word) : ((s.nicRead off).2).pollMissed = s.pollMissed := by
  obtain ⟨n, d, h⟩ := State.nicRead_only s off; rw [h]
@[simp] theorem State.nicRead_txSlots (off : Word) : ((s.nicRead off).2).txSlots = s.txSlots := by
  obtain ⟨n, d, h⟩ := State.nicRead_only s off; rw [h]
@[simp] theorem State.nicRead_rxSlots (off : Word) : ((s.nicRead off).2).rxSlots = s.rxSlots := by
  obtain ⟨n, d, h⟩ := State.nicRead_only s off; rw [h]
@[simp] theorem State.nicRead_tasks (off : Word) : ((s.nicRead off).2).tasks = s.tasks := by
  obtain ⟨n, d, h⟩ := State.nicRead_only s off; rw [h]
@[simp] theorem State.nicRead_nextCtx (off : Word) : ((s.nicRead off).2).nextCtx = s.nextCtx := by
  obtain ⟨n, d, h⟩ := State.nicRead_only s off; rw [h]
@[simp] theorem State.nicRead_wbuf (off : Word) : ((s.nicRead off).2).wbuf = s.wbuf := by
  obtain ⟨n, d, h⟩ := State.nicRead_only s off; rw [h]
@[simp] theorem State.nicRead_mem (off : Word) : ((s.nicRead off).2).mem = s.mem := by
  obtain ⟨n, d, h⟩ := State.nicRead_only s off; rw [h]
@[simp] theorem State.nicRead_mmioValid (off : Word) : ((s.nicRead off).2).mmioValid = s.mmioValid := by
  obtain ⟨n, d, h⟩ := State.nicRead_only s off; rw [h]
@[simp] theorem State.nicRead_ioValid (off : Word) : ((s.nicRead off).2).ioValid = s.ioValid := by
  obtain ⟨n, d, h⟩ := State.nicRead_only s off; rw [h]
@[simp] theorem State.nicRead_port (off : Word) : ((s.nicRead off).2).port = s.port := by
  obtain ⟨n, d, h⟩ := State.nicRead_only s off; rw [h]
@[simp] theorem State.nicRead_sched (off : Word) : ((s.nicRead off).2).sched = s.sched := by
  obtain ⟨n, d, h⟩ := State.nicRead_only s off; rw [h]
@[simp] theorem State.nicRead_allocs (off : Word) : ((s.nicRead off).2).allocs = s.allocs := by
  obtain ⟨n, d, h⟩ := State.nicRead_only s off; rw [h]
@[simp] theorem State.nicRead_maps (off : Word) : ((s.nicRead off).2).maps = s.maps := by
  obtain ⟨n, d, h⟩ := State.nicRead_only s off; rw [h]
@[simp] theorem State.nicRead_pads (off : Word) : ((s.nicRead off).2).pads = s.pads := by
  obtain ⟨n, d, h⟩ := State.nicRead_only s off; rw [h]
@[simp] theorem State.nicRead_trace (off : Word) : ((s.nicRead off).2).trace = s.trace := by
  obtain ⟨n, d, h⟩ := State.nicRead_only s off; rw [h]
@[simp] theorem State.nicRead_wire (off : Word) : ((s.nicRead off).2).wire = s.wire := by
  obtain ⟨n, d, h⟩ := State.nicRead_only s off; rw [h]

/-! ### The fields `drain` leaves alone -/

@[simp] theorem State.drain_cfg : s.drain.cfg = s.cfg := by simp [State.drain]
@[simp] theorem State.drain_txBase : s.drain.txBase = s.txBase := by simp [State.drain]
@[simp] theorem State.drain_rxBase : s.drain.rxBase = s.rxBase := by simp [State.drain]
@[simp] theorem State.drain_txTail : s.drain.txTail = s.txTail := by simp [State.drain]
@[simp] theorem State.drain_txNtc : s.drain.txNtc = s.txNtc := by simp [State.drain]
@[simp] theorem State.drain_rxDropped : s.drain.rxDropped = s.rxDropped := by simp [State.drain]
@[simp] theorem State.drain_irqLine : s.drain.irqLine = s.irqLine := by simp [State.drain]
@[simp] theorem State.drain_mac : s.drain.mac = s.mac := by simp [State.drain]
@[simp] theorem State.drain_ringsReady : s.drain.ringsReady = s.ringsReady := by simp [State.drain]
@[simp] theorem State.drain_fsm : s.drain.fsm = s.fsm := by simp [State.drain]
@[simp] theorem State.drain_txLock : s.drain.txLock = s.txLock := by simp [State.drain]
@[simp] theorem State.drain_pollState : s.drain.pollState = s.pollState := by simp [State.drain]
@[simp] theorem State.drain_pollMissed : s.drain.pollMissed = s.pollMissed := by simp [State.drain]
@[simp] theorem State.drain_txSlots : s.drain.txSlots = s.txSlots := by simp [State.drain]
@[simp] theorem State.drain_rxSlots : s.drain.rxSlots = s.rxSlots := by simp [State.drain]
@[simp] theorem State.drain_tasks : s.drain.tasks = s.tasks := by simp [State.drain]
@[simp] theorem State.drain_nextCtx : s.drain.nextCtx = s.nextCtx := by simp [State.drain]
@[simp] theorem State.drain_wbuf : s.drain.wbuf = [] := by simp [State.drain]
@[simp] theorem State.drain_mem : s.drain.mem = s.mem := by simp [State.drain]
@[simp] theorem State.drain_mmioValid : s.drain.mmioValid = s.mmioValid := by simp [State.drain]
@[simp] theorem State.drain_ioValid : s.drain.ioValid = s.ioValid := by simp [State.drain]
@[simp] theorem State.drain_port : s.drain.port = s.port := by simp [State.drain]
@[simp] theorem State.drain_sched : s.drain.sched = s.sched := by simp [State.drain]
@[simp] theorem State.drain_allocs : s.drain.allocs = s.allocs := by simp [State.drain]
@[simp] theorem State.drain_maps : s.drain.maps = s.maps := by simp [State.drain]
@[simp] theorem State.drain_pads : s.drain.pads = s.pads := by simp [State.drain]
@[simp] theorem State.drain_trace : s.drain.trace = s.trace := by simp [State.drain]
@[simp] theorem State.drain_wire : s.drain.wire = s.wire := by simp [State.drain]

/-! ### The register accesses as functions of the NIC alone

Nothing but the configuration, the NIC and the count of free values decides what an access does, so accesses commute with
every update of the other fields. -/

/-- `State.nicWrite` on the NIC and the count of free values. -/
def busWrite (c : Cfg) (x : Nic × Nat) (w : Word × Word) : Nic × Nat :=
  let s := State.nicWrite { State.resetWith c with nic := x.1, drawn := x.2 } w.1 w.2
  (s.nic, s.drawn)

/-- `State.nicRead` on the NIC and the count of free values. -/
def busRead (c : Cfg) (x : Nic × Nat) (off : Word) : Word × Nic × Nat :=
  let r := State.nicRead { State.resetWith c with nic := x.1, drawn := x.2 } off
  (r.1, r.2.nic, r.2.drawn)

theorem State.nicWrite_eq (off v : Word) :
    s.nicWrite off v =
      { s with nic := (busWrite s.cfg (s.nic, s.drawn) (off, v)).1, drawn := (busWrite s.cfg (s.nic, s.drawn) (off, v)).2 } := by
  unfold busWrite State.nicWrite State.nicApply
  dsimp only [State.resetWith]
  split
  · split
    · split
      · by_cases hv : v &&& s.cfg.ctrlRst = 0 <;> simp only [hv, if_true, if_false]
      · rfl
      · rfl
    · rfl
  · split
    · by_cases hv : v &&& s.cfg.ctrlRst = 0 <;> simp only [hv, if_true, if_false]
    · rfl
    · rfl

theorem State.deliver_eq (l : List (Word × Word)) (s : State) :
    s.deliver l =
      { s with nic := (l.foldl (busWrite s.cfg) (s.nic, s.drawn)).1, drawn := (l.foldl (busWrite s.cfg) (s.nic, s.drawn)).2 } := by
  induction l generalizing s with
  | nil => rfl
  | cons p l ih =>
    obtain ⟨off, v⟩ := p
    show (s.nicWrite off v).deliver l = _
    rw [ih, State.nicWrite_eq s off v]
    rfl

theorem State.drain_eq :
    s.drain =
      { s with
        wbuf := []
        nic := (s.wbuf.foldl (busWrite s.cfg) (s.nic, s.drawn)).1
        drawn := (s.wbuf.foldl (busWrite s.cfg) (s.nic, s.drawn)).2 } := by
  unfold State.drain
  rw [State.deliver_eq]

theorem State.nicRead_eq (off : Word) :
    s.nicRead off =
      ((busRead s.cfg (s.nic, s.drawn) off).1,
       { s with nic := (busRead s.cfg (s.nic, s.drawn) off).2.1, drawn := (busRead s.cfg (s.nic, s.drawn) off).2.2 }) := by
  unfold busRead State.nicRead State.anyWord
  dsimp only [State.resetWith]
  split
  · rfl
  · split <;> rfl

/-! ### Delivering -/

@[simp] theorem State.deliver_nil : s.deliver [] = s := rfl

@[simp] theorem State.deliver_cons (off v : Word) (l : List (Word × Word)) :
    s.deliver ((off, v) :: l) = (s.nicWrite off v).deliver l := rfl

/-- Posted writes are delivered in the order they were posted (20_memory R86 a). -/
theorem State.deliver_append (l l' : List (Word × Word)) (s : State) :
    s.deliver (l ++ l') = (s.deliver l).deliver l' := by
  induction l generalizing s with
  | nil => rfl
  | cons p l ih => exact ih _

/-- With nothing posted a drain changes nothing. -/
theorem State.drain_empty {s : State} (h : s.wbuf = []) : s.drain = s := by
  unfold State.drain
  rw [h, State.deliver_nil, ← h]

/-! ### A write by register -/

/-- While the NIC does not reset, a write to a named register other than device control is the one of R241. -/
theorem State.nicWrite_named {s : State} (hr : s.nic.resetting = false) {off : Word} {r : NicReg}
    (h : s.cfg.regAt off = some r) (hc : r ≠ .ctrl) (v : Word) :
    s.nicWrite off v = { s with nic := s.nic.write r v } := by
  unfold State.nicWrite State.nicApply
  rw [if_neg (by simp [hr]), h]
  cases r <;> simp_all

/-- A write of device control without the reset bit. -/
theorem State.nicWrite_ctrl {s : State} (hr : s.nic.resetting = false) {off v : Word}
    (h : s.cfg.regAt off = some .ctrl) (hv : v &&& s.cfg.ctrlRst = 0) :
    s.nicWrite off v = { s with nic := s.nic.write .ctrl v } := by
  unfold State.nicWrite State.nicApply
  rw [if_neg (by simp [hr]), h]
  simp [hv]

/-- A write of device control with the reset bit starts the global reset (R245). -/
theorem State.nicWrite_reset {s : State} (hr : s.nic.resetting = false) {off v : Word}
    (h : s.cfg.regAt off = some .ctrl) (hv : v &&& s.cfg.ctrlRst ≠ 0) :
    s.nicWrite off v = { s with nic := Nic.globalReset s.cfg s.drawn s.nic, drawn := s.drawn + 1 } := by
  unfold State.nicWrite State.nicApply
  rw [if_neg (by simp [hr]), h]
  exact if_neg hv

/-- A write at an offset that names no register changes no named register (93 U3). -/
theorem State.nicWrite_unnamed {s : State} (hr : s.nic.resetting = false) {off : Word}
    (h : s.cfg.regAt off = none) (v : Word) : s.nicWrite off v = s := by
  unfold State.nicWrite State.nicApply
  rw [if_neg (by simp [hr]), h]

/-- A write other than of device control neither starts nor ends a reset. -/
theorem State.nicWrite_resetting {s : State} (hr : s.nic.resetting = false) {off : Word}
    (h : s.cfg.regAt off ≠ some .ctrl) (v : Word) : (s.nicWrite off v).nic.resetting = false := by
  cases hra : s.cfg.regAt off with
  | none => rw [State.nicWrite_unnamed hr hra]; exact hr
  | some r =>
    rw [State.nicWrite_named hr hra (by rintro rfl; exact h hra)]
    cases r <;> exact hr

/-! ### A read by register -/

/-- While the NIC does not reset, a plain named register is read without side effect (20_memory R82). -/
theorem State.nicRead_named {s : State} (hr : s.nic.resetting = false) {off : Word} {r : NicReg}
    (h : s.cfg.regAt off = some r) (h1 : r ≠ .icr) (h2 : r ≠ .ims) (h3 : r ≠ .imc) :
    s.nicRead off = (s.nic.get r, s) := by
  unfold State.nicRead
  rw [if_neg (by simp [hr]), h]
  cases r <;> simp_all

/-- Reading the cause register clears it (R82). -/
theorem State.nicRead_icr {s : State} (hr : s.nic.resetting = false) {off : Word} (h : s.cfg.regAt off = some .icr) :
    s.nicRead off = (s.nic.icr, { s with nic := { s.nic with icr := 0 } }) := by
  unfold State.nicRead
  rw [if_neg (by simp [hr]), h]

/-! ### The register port (20_memory R77, R80, R81) -/

theorem State.regRead32_admitted {s : State} {off : Word} (h : s.admits off = true) :
    s.regRead32 off =
      some ((s.drain.nicRead off).1, (s.drain.nicRead off).2.emit (.regRead off (s.drain.nicRead off).1)) := by
  unfold State.regRead32
  rw [if_pos h]

theorem State.regRead32_refused {s : State} {off : Word} (h : s.admits off = false) : s.regRead32 off = none := by
  unfold State.regRead32
  rw [if_neg (by simp [h])]

theorem State.regWrite32_admitted {s : State} {off : Word} (h : s.admits off = true) (v : Word) :
    s.regWrite32 off v = some ({ s with wbuf := s.wbuf ++ [(off, v)] }.emit (.regWrite off v)) := by
  unfold State.regWrite32
  rw [if_pos h]

theorem State.regWrite32_refused {s : State} {off : Word} (h : s.admits off = false) (v : Word) :
    s.regWrite32 off v = none := by
  unfold State.regWrite32
  rw [if_neg (by simp [h])]

/-- What a register read can do, once: it is admitted, it drains `wbuf`, and it changes nothing else but the NIC, the
count of free values and the trace. -/
theorem State.regRead32_cases {s s' : State} {off v : Word} (h : s.regRead32 off = some (v, s')) :
    s.admits off = true ∧ v = (s.drain.nicRead off).1 ∧
      ∃ n d, s' = { s with wbuf := [], nic := n, drawn := d, trace := s.trace ++ [.regRead off v] } := by
  cases ha : s.admits off with
  | false => rw [State.regRead32_refused ha] at h; exact absurd h (by simp)
  | true =>
    rw [State.regRead32_admitted ha] at h
    obtain ⟨rfl, rfl⟩ := Prod.mk.inj (Option.some.inj h)
    obtain ⟨n, d, hn⟩ := ((State.deliver_only s.wbuf { s with wbuf := [] }).trans (State.nicRead_only s.drain off))
    exact ⟨rfl, rfl, n, d, by rw [hn]; rfl⟩

/-- What a register write can do, once. -/
theorem State.regWrite32_cases {s s' : State} {off v : Word} (h : s.regWrite32 off v = some s') :
    s.admits off = true ∧
      s' = { s with wbuf := s.wbuf ++ [(off, v)], trace := s.trace ++ [.regWrite off v] } := by
  cases ha : s.admits off with
  | false => rw [State.regWrite32_refused ha] at h; exact absurd h (by simp)
  | true => rw [State.regWrite32_admitted ha] at h; exact ⟨rfl, (Option.some.inj h).symm⟩

/-- What a port write can do, once: it changes the NIC, the count of free values and the trace, and never `wbuf`
(R83). -/
theorem State.ioWrite32_cases {s s' : State} {p : IoPort} {v : Word} (h : s.ioWrite32 p v = some s') :
    s.ioValid = true ∧
      ∃ n d, s' = { s with nic := n, drawn := d, trace := s.trace ++ [.ioWrite p v] } := by
  unfold State.ioWrite32 at h
  split at h
  · rename_i hv
    refine ⟨hv, ?_⟩
    cases p with
    | addr => obtain rfl := (Option.some.inj h).symm; exact ⟨_, s.drawn, rfl⟩
    | data =>
      obtain rfl := (Option.some.inj h).symm
      obtain ⟨n, d, hn⟩ := State.nicWrite_only s s.nic.ioIndex v
      exact ⟨n, d, by rw [hn]; rfl⟩
  · exact absurd h (by simp)

end Sys2Proof.Machine
end

