-- ==== Sys2Proof/Laws/Memory.lean ====
section
/-! SUPPORT. The laws of DMA memory: a read after a write, the frame of a write, and the canonical form. -/

namespace Sys2Proof.Machine

/-- Addresses strictly rising: the part of the canonical form that reading rests on. -/
abbrev Rising (l : List Host.Cell) : Prop := l.Pairwise (fun x y => x.1 < y.1)

theorem lookupCell_of_below {l : List Host.Cell} {a : Nat} (h : ∀ c ∈ l, a < c.1) :
    lookupCell l a = Memory.unlisted := by
  induction l with
  | nil => rfl
  | cons c rest ih =>
    have hc := h c (by simp)
    simp [lookupCell, Nat.ne_of_gt hc, ih (fun d hd => h d (by simp [hd]))]

theorem insertCell_keys {l : List Host.Cell} {a : Nat} {v : Byte} :
    ∀ c ∈ insertCell l a v, c = (a, v) ∨ c ∈ l := by
  induction l with
  | nil => intro c; unfold insertCell; split <;> simp
  | cons d rest ih =>
    intro c
    obtain ⟨k, b⟩ := d
    unfold insertCell
    split_ifs <;> simp <;> grind

/-- Reading after one byte is put: the byte at its address, nothing else changed. -/
theorem lookupCell_insertCell {l : List Host.Cell} (h : Rising l) (a b : Nat) (v : Byte) :
    lookupCell (insertCell l a v) b = if b = a then v else lookupCell l b := by
  induction l with
  | nil => unfold insertCell; split_ifs <;> simp_all [lookupCell, eq_comm]
  | cons d rest ih =>
    obtain ⟨k, w⟩ := d
    have h := List.pairwise_cons.mp h
    have below : ∀ {x}, x ≤ k → lookupCell rest x = Memory.unlisted := fun hx =>
      lookupCell_of_below (fun c hc => Nat.lt_of_le_of_lt hx (h.1 c hc))
    have ih := ih h.2
    unfold insertCell
    by_cases hak : a < k
    · have := below (Nat.le_of_lt hak)
      grind [lookupCell]
    · by_cases hek : a = k
      · subst hek
        have := below (Nat.le_refl a)
        grind [lookupCell]
      · grind [lookupCell]

theorem insertCell_rising {l : List Host.Cell} (h : Rising l) (a : Nat) (v : Byte) : Rising (insertCell l a v) := by
  induction l with
  | nil => unfold insertCell; split <;> simp [Rising]
  | cons d rest ih =>
    obtain ⟨k, w⟩ := d
    have hr := List.pairwise_cons.mp h
    have ih := ih hr.2
    unfold insertCell
    split_ifs with h1 h2 h3 h4
    · exact h
    · refine List.pairwise_cons.mpr ⟨?_, h⟩
      intro c hc
      rcases List.mem_cons.mp hc with rfl | hc
      · exact h1
      · exact Nat.lt_trans h1 (hr.1 c hc)
    · exact hr.2
    · subst h3
      exact List.pairwise_cons.mpr ⟨fun c hc => hr.1 c hc, hr.2⟩
    · refine List.pairwise_cons.mpr ⟨?_, ih⟩
      intro c hc
      rcases insertCell_keys c hc with rfl | hc
      · show k < a
        omega
      · exact hr.1 c hc

theorem insertCell_listed {l : List Host.Cell} {a : Nat} {v : Byte} (ha : a < 2 ^ 64)
    (h : ∀ c ∈ l, c.1 < 2 ^ 64 ∧ c.2 ≠ Memory.unlisted) :
    ∀ c ∈ insertCell l a v, c.1 < 2 ^ 64 ∧ c.2 ≠ Memory.unlisted := by
  induction l with
  | nil => intro c hc; unfold insertCell at hc; split at hc <;> grind
  | cons d rest ih =>
    obtain ⟨k, w⟩ := d
    have ih := ih (fun c hc => h c (by simp [hc]))
    intro c
    unfold insertCell
    split_ifs <;> grind

/-- The canonical form, as propositions. -/
theorem Memory.wf_iff (m : Memory) :
    m.wf = true ↔ Rising m.cells ∧ ∀ c ∈ m.cells, c.1 < 2 ^ 64 ∧ c.2 ≠ Memory.unlisted := by
  unfold Memory.wf
  simp only [Bool.and_eq_true, decide_eq_true_eq, List.all_eq_true]

theorem Memory.writeByte_wf {m : Memory} (h : m.wf = true) (a : DWord) (v : Byte) : (m.writeByte a v).wf = true := by
  rw [Memory.wf_iff] at *
  exact ⟨insertCell_rising h.1 _ _, insertCell_listed a.isLt h.2⟩

theorem Memory.write_wf {m : Memory} (h : m.wf = true) (a : DWord) (n : Nat) (v : DWord) : (m.write a n v).wf = true := by
  induction n generalizing m a v with
  | zero => exact h
  | succ n ih => exact ih (Memory.writeByte_wf h _ _) _ _

theorem Memory.store_wf {m : Memory} (h : m.wf = true) (a : DWord) (bs : List Byte) : (m.store a bs).wf = true := by
  induction bs generalizing m a with
  | nil => exact h
  | cons b bs ih => exact ih (Memory.writeByte_wf h _ _) _

/-- A byte read after a byte write. -/
theorem Memory.readByte_writeByte {m : Memory} (h : m.wf = true) (a b : DWord) (v : Byte) :
    (m.writeByte a v).readByte b = if b = a then v else m.readByte b := by
  have := lookupCell_insertCell ((Memory.wf_iff m).mp h).1 a.toNat b.toNat v
  simp only [Memory.readByte, Memory.writeByte, this, BitVec.toNat_inj]

/-- The frame of MemWrite: a byte outside the stored ones reads as before. -/
theorem Memory.readByte_write_outside {m : Memory} (h : m.wf = true) (a b : DWord) (n : Nat) (v : DWord)
    (hb : ∀ k, k < n → b ≠ a + BitVec.ofNat 64 k) : (m.write a n v).readByte b = m.readByte b := by
  induction n generalizing m a v with
  | zero => rfl
  | succ n ih =>
    have h0 : b ≠ a := by simpa using hb 0 (by omega)
    rw [Memory.write, ih (Memory.writeByte_wf h _ _), Memory.readByte_writeByte h, if_neg h0]
    intro k hk e
    refine hb (k + 1) (by omega) ?_
    rw [e, BitVec.add_assoc, BitVec.ofNat_add, BitVec.add_comm (BitVec.ofNat 64 k) (BitVec.ofNat 64 1)]
    rfl

/-- The frame of a string of stored bytes. -/
theorem Memory.readByte_store_outside {m : Memory} (h : m.wf = true) (a b : DWord) (bs : List Byte)
    (hb : ∀ k, k < bs.length → b ≠ a + BitVec.ofNat 64 k) : (m.store a bs).readByte b = m.readByte b := by
  induction bs generalizing m a with
  | nil => rfl
  | cons c bs ih =>
    have h0 : b ≠ a := by simpa using hb 0 (by simp)
    rw [Memory.store, ih (Memory.writeByte_wf h _ _), Memory.readByte_writeByte h, if_neg h0]
    intro k hk e
    refine hb (k + 1) (by simpa using hk) ?_
    rw [e, BitVec.add_assoc, BitVec.ofNat_add, BitVec.add_comm (BitVec.ofNat 64 k) (BitVec.ofNat 64 1)]
    rfl

/-- MemRead depends on its own bytes only. -/
theorem Memory.read_congr {m m' : Memory} (a : DWord) (n : Nat)
    (h : ∀ k, k < n → m.readByte (a + BitVec.ofNat 64 k) = m'.readByte (a + BitVec.ofNat 64 k)) :
    m.read a n = m'.read a n := by
  induction n generalizing a with
  | zero => rfl
  | succ n ih =>
    have h0 : m.readByte a = m'.readByte a := by simpa using h 0 (by omega)
    rw [Memory.read, Memory.read, h0, ih]
    intro k hk
    have := h (k + 1) (by omega)
    rwa [BitVec.ofNat_add, BitVec.add_comm (BitVec.ofNat 64 k), ← BitVec.add_assoc] at this

/-- A write leaves a read of other bytes alone. -/
theorem Memory.read_write_apart {m : Memory} (h : m.wf = true) (a b : DWord) (n k : Nat) (v : DWord)
    (hab : ∀ i j, i < n → j < k → b + BitVec.ofNat 64 i ≠ a + BitVec.ofNat 64 j) :
    (m.write a k v).read b n = m.read b n :=
  Memory.read_congr b n (fun i hi => Memory.readByte_write_outside h a _ k v (fun j hj => hab i j hi hj))

/-- MemRead after MemWrite at the same address: the low `n` bytes of the value. -/
theorem Memory.read_write_same {m : Memory} (h : m.wf = true) (a : DWord) (n : Nat) (hn : n ≤ 8) (v : DWord) :
    (m.write a n v).read a n = BitVec.ofNat 64 (v.toNat % 256 ^ n) := by
  induction n generalizing m a v with
  | zero => simp [Memory.read, Nat.mod_one]
  | succ n ih =>
    have ha : ∀ k, k < n → a ≠ a + 1 + BitVec.ofNat 64 k := by
      intro k hk e
      have := congrArg BitVec.toNat e
      have := a.isLt
      simp [BitVec.toNat_add] at *
      omega
    have hb : ((m.writeByte a (v.setWidth 8)).write (a + 1) n (v >>> 8)).readByte a = v.setWidth 8 := by
      rw [Memory.readByte_write_outside (Memory.writeByte_wf h _ _) _ _ _ _ ha, Memory.readByte_writeByte h, if_pos rfl]
    rw [Memory.write, Memory.read, hb, ih (Memory.writeByte_wf h _ _) _ (by omega)]
    have hv := v.isLt
    have hpow : 256 ^ (n + 1) ≤ 2 ^ 64 := by
      calc 256 ^ (n + 1) ≤ 256 ^ 8 := Nat.pow_le_pow_right (by omega) hn
        _ = 2 ^ 64 := by norm_num
    have hsplit : v.toNat % 256 ^ (n + 1) = v.toNat % 256 + 256 * (v.toNat / 256 % 256 ^ n) := by
      rw [pow_succ, Nat.mul_comm, Nat.mod_mul]
    have hlt : v.toNat / 256 % 256 ^ n < 256 ^ n := Nat.mod_lt _ (by positivity)
    rw [pow_succ] at hpow
    apply BitVec.eq_of_toNat_eq
    have e1 : (BitVec.setWidth 64 (v.setWidth 8)).toNat = v.toNat % 256 := by
      simp; omega
    have e2 : (BitVec.ofNat 64 ((v >>> 8).toNat % 256 ^ n) <<< 8).toNat = 2 ^ 8 * (v.toNat / 256 % 256 ^ n) := by
      simp only [BitVec.toNat_shiftLeft, BitVec.toNat_ofNat, BitVec.toNat_ushiftRight, Nat.shiftRight_eq_div_pow,
        Nat.shiftLeft_eq]
      norm_num
      generalize v.toNat / 256 % 256 ^ n = x at *
      omega
    rw [BitVec.toNat_or, e1, e2, Nat.or_comm, ← Nat.two_pow_add_eq_or_of_lt (by omega), BitVec.toNat_ofNat, hsplit]
    generalize v.toNat / 256 % 256 ^ n = x at *
    omega

end Sys2Proof.Machine
end

