-- ==== Sys2Proof/Laws/Moves.lean ====
section
/-! SUPPORT. What a move of the NIC or of the host can do, once for each: the fields it may change, and the canonical form
of memory. -/

namespace Sys2Proof.Machine

variable {s : State}

/-- Only the NIC, memory, the wire and the counter of free values differ. -/
def OnlyDevice (s s' : State) : Prop :=
  ∃ n m w d, s' = { s with nic := n, mem := m, wire := w, drawn := d }

theorem OnlyDevice.refl : OnlyDevice s s := ⟨s.nic, s.mem, s.wire, s.drawn, rfl⟩

theorem OnlyDevice.trans {s s' s'' : State} (h : OnlyDevice s s') (h' : OnlyDevice s' s'') : OnlyDevice s s'' := by
  obtain ⟨_, _, _, _, rfl⟩ := h
  obtain ⟨_, _, _, _, rfl⟩ := h'
  exact ⟨_, _, _, _, rfl⟩

theorem OnlyNic.device {s s' : State} (h : OnlyNic s s') : OnlyDevice s s' := by
  obtain ⟨n, d, rfl⟩ := h
  exact ⟨n, s.mem, s.wire, d, rfl⟩

/-- TX-ADVANCE sends the frame at the head unless it went early, and moves the head (R242). -/
theorem State.txAdvance_eq (s : State) : s.txAdvance =
    if s.txStartable then
      { s with
        nic := { s.nic with tdh := nextIndex (s.nic.txCap s.cfg) s.nic.tdh, txLag := s.nic.txLag + 1 }
        wire := if 0 ≤ s.nic.txLag then s.wire ++ [s.txFrame s.nic.tdh.toNat] else s.wire }
    else s := by
  unfold State.txAdvance State.transmit
  dsimp only
  split_ifs <;> rfl

/-- TX-WRITEBACK writes one status byte with Done set (R242). -/
theorem State.txWriteback_eq (s : State) (status : Byte) (raise : Bool) : s.txWriteback status raise =
    if s.txOwesDone then
      { s with
        nic := { s.nic with
          txLag := s.nic.txLag - 1, icr := s.nic.icr ||| (if raise then s.cfg.icrTxdw else 0) }
        mem := s.mem.writeByte (s.nicTxd (s.nic.writebackIndex s.cfg) 12) (status ||| s.cfg.txdStatDd) }
    else s := by
  unfold State.txWriteback
  by_cases h : s.txOwesDone = true
  · rw [if_pos h, if_pos h]
    rfl
  · rw [if_neg h, if_neg h]

/-- TX-EARLY sends the frame at the head and writes its Done before the head moves (R242). -/
theorem State.txEarly_eq (s : State) (status : Byte) (raise : Bool) : s.txEarly status raise =
    if s.txStartable && decide (s.nic.txLag = 0) then
      { s with
        nic := { s.nic with txLag := -1, icr := s.nic.icr ||| (if raise then s.cfg.icrTxdw else 0) }
        mem := s.mem.writeByte (s.nicTxd s.nic.tdh.toNat 12) (status ||| s.cfg.txdStatDd)
        wire := s.wire ++ [s.txFrame s.nic.tdh.toNat] }
    else s := by
  unfold State.txEarly
  by_cases h : (s.txStartable && decide (s.nic.txLag = 0)) = true
  · rw [if_pos h, if_pos h]
    rfl
  · rw [if_neg h, if_neg h]

theorem State.txAdvance_only (s : State) : OnlyDevice s s.txAdvance := by
  rw [State.txAdvance_eq]
  split
  · exact ⟨_, _, _, _, rfl⟩
  · exact OnlyDevice.refl

theorem State.txWriteback_only (s : State) (b : Byte) (r : Bool) : OnlyDevice s (s.txWriteback b r) := by
  rw [State.txWriteback_eq]
  split
  · exact ⟨_, _, _, _, rfl⟩
  · exact OnlyDevice.refl

theorem State.txEarly_only (s : State) (b : Byte) (r : Bool) : OnlyDevice s (s.txEarly b r) := by
  rw [State.txEarly_eq]
  split
  · exact ⟨_, _, _, _, rfl⟩
  · exact OnlyDevice.refl

theorem State.rxFill_only (s : State) (f : List Byte) (c : Half) (st e : Byte) (sp : Half) (r1 r2 : Bool) :
    OnlyDevice s (s.rxFill f c st e sp r1 r2) := by
  unfold State.rxFill
  split
  · exact ⟨_, _, _, _, rfl⟩
  · exact OnlyDevice.refl

/-- RX-FILL of a frame the NIC does not take, or with no descriptor to fill, changes nothing (R243). -/
theorem State.rxFill_refused {f : List Byte} (h : s.rxFillable = false ∨ s.takesFrame f = false) (c : Half)
    (st e : Byte) (sp : Half) (r1 r2 : Bool) : s.rxFill f c st e sp r1 r2 = s := by
  unfold State.rxFill
  rcases h with h | h <;> simp [h]

/-- A frame is addressed to an address that its first bytes are (R243). -/
theorem addressedTo_take {dst : List Byte} (h : dst.length = 6) (rest : List Byte) (n : Nat) :
    addressedTo dst ((dst ++ rest).take n) = true := by
  have e : ((dst ++ rest).take n).take 6 = dst.take (min n 6) := by
    rw [List.take_take, Nat.min_comm, List.take_append_of_le_length (by omega)]
  rw [addressedTo, e, beq_iff_eq, List.length_take, List.length_append, h]
  rcases Nat.lt_or_ge n 6 with h6 | h6
  · congr 1; omega
  · rw [List.take_of_length_le (by omega), List.take_of_length_le (by omega)]

theorem leBytes_length (n v : Nat) : (leBytes n v).length = n := by
  induction n generalizing v with
  | zero => rfl
  | succ n ih => simp [leBytes, ih]

theorem Nic.station_length (n : Nic) : n.station.length = 6 := by simp [Nic.station, leBytes_length]

/-- The free frame of a settling delay has a length of 1 to `RX_BUF_SIZE` and an address the NIC takes (R243). -/
theorem State.freeFrame_taken (h : 0 < s.cfg.rxBufSize.toNat) : s.takesFrame s.freeFrame = true := by
  have hm := Nat.mod_lt (Config.freeWord s.drawn).toNat h
  have hs := s.nic.station_length
  have hb : broadcast.length = 6 := rfl
  have hl : ∀ dst : List Byte, dst.length = 6 → ∀ n, (dst ++ (List.range (n - 6)).map
      (fun j => Config.freeByte (s.drawn + j))).length ≥ n := by
    intro dst hd n; simp [hd]; omega
  unfold State.takesFrame State.freeFrame Nic.accepts
  cases Config.freeBool s.drawn
  · have := hl _ hb (1 + (Config.freeWord s.drawn).toNat % s.cfg.rxBufSize.toNat)
    simp [addressedTo_take hb, List.length_take]; omega
  · have := hl _ hs (1 + (Config.freeWord s.drawn).toNat % s.cfg.rxBufSize.toNat)
    simp [addressedTo_take hs, List.length_take]; omega

/-- Outside the arrays of a RING_INIT in flight a move of the NIC happens as its rule says; else it does not happen
(42_ring_manager R183). -/
theorem State.nicMove_cases (s : State) (l : List (DWord × Nat)) (s' : State) :
    (s.heldBack l = true ∧ s.nicMove l s' = s) ∨ (s.heldBack l = false ∧ s.nicMove l s' = s') := by
  unfold State.nicMove
  cases h : s.heldBack l <;> simp

/-- No byte of the regions of a move that happens is in an array that is being built. -/
theorem State.not_beingBuilt {l : List (DWord × Nat)} (h : s.heldBack l = false) {r : DWord × Nat} (hr : r ∈ l) {k : Nat}
    (hk : k < r.2) : s.beingBuilt (r.1 + BitVec.ofNat 64 k).toNat = false := by
  simp only [State.heldBack, List.any_eq_false, List.mem_range, Bool.not_eq_true] at h
  exact h r hr k hk

/-- Once the rings are built nothing is held back. -/
theorem State.heldBack_ready (h : s.ringsReady = true) (l : List (DWord × Nat)) : s.heldBack l = false := by
  simp [State.heldBack, State.beingBuilt, h]

theorem State.nicMove_only {s s' : State} (h : OnlyDevice s s') (l : List (DWord × Nat)) : OnlyDevice s (s.nicMove l s') := by
  rcases s.nicMove_cases l s' with ⟨-, e⟩ | ⟨-, e⟩ <;> rw [e]
  · exact OnlyDevice.refl
  · exact h

theorem State.nicMove_wf {s s' : State} (hs : s.mem.wf = true) (h : s'.mem.wf = true) (l : List (DWord × Nat)) :
    (s.nicMove l s').mem.wf = true := by
  rcases s.nicMove_cases l s' with ⟨-, e⟩ | ⟨-, e⟩ <;> rw [e] <;> assumption

theorem State.cause_only (s : State) (bits : Word) : OnlyDevice s (s.cause bits) := by
  unfold State.cause
  split
  · exact OnlyDevice.refl
  · exact ⟨_, _, _, _, rfl⟩

theorem State.reloadDone_only (s : State) (icr : Word) : OnlyDevice s (s.reloadDone icr) := by
  unfold State.reloadDone
  split
  · exact ⟨_, _, _, _, rfl⟩
  · exact OnlyDevice.refl

theorem State.makeOwed_only (s : State) (o : Owed) : OnlyDevice s (s.makeOwed o) := by
  cases o with
  | advance i => exact State.nicMove_only (State.txAdvance_only s) _
  | writeback i =>
    exact OnlyDevice.trans (s' := { s with drawn := s.drawn + 1 }) ⟨_, _, _, _, rfl⟩
      (State.nicMove_only (State.txWriteback_only _ _ _) _)
  | early i =>
    exact OnlyDevice.trans (s' := { s with drawn := s.drawn + 1 }) ⟨_, _, _, _, rfl⟩
      (State.nicMove_only (State.txEarly_only _ _ _) _)
  | fill i =>
    exact OnlyDevice.trans (s' := { s with drawn := s.drawn + s.freeFrame.length + 2 }) ⟨_, _, _, _, rfl⟩
      (State.nicMove_only (State.rxFill_only _ _ _ _ _ _ _ _) _)
  | reload =>
    exact OnlyDevice.trans (s' := { s with drawn := s.drawn + 1 }) ⟨_, _, _, _, rfl⟩ (State.reloadDone_only _ _)

/-- The end of a settling delay changes only what the NIC may change (70_reset_and_hazards R330). -/
theorem State.settle_only (l : List Owed) (s : State) : OnlyDevice s (s.settle l) := by
  induction l generalizing s with
  | nil => exact OnlyDevice.refl
  | cons o l ih =>
    unfold State.settle
    split
    · exact (State.makeOwed_only s o).trans (ih _)
    · exact ih s

/-! ### The canonical form of memory -/

theorem State.txAdvance_wf (h : s.mem.wf = true) : s.txAdvance.mem.wf = true := by
  rw [State.txAdvance_eq]
  split <;> exact h

theorem State.txWriteback_wf (h : s.mem.wf = true) (b : Byte) (r : Bool) : (s.txWriteback b r).mem.wf = true := by
  rw [State.txWriteback_eq]
  split
  · exact Memory.writeByte_wf h _ _
  · exact h

theorem State.txEarly_wf (h : s.mem.wf = true) (b : Byte) (r : Bool) : (s.txEarly b r).mem.wf = true := by
  rw [State.txEarly_eq]
  split
  · exact Memory.writeByte_wf h _ _
  · exact h

theorem State.rxFill_wf (h : s.mem.wf = true) (f : List Byte) (c : Half) (st e : Byte) (sp : Half) (r1 r2 : Bool) :
    (s.rxFill f c st e sp r1 r2).mem.wf = true := by
  unfold State.rxFill
  split
  · exact Memory.writeByte_wf (Memory.write_wf (Memory.write_wf (Memory.write_wf (Memory.write_wf
      (Memory.store_wf h _ _) _ _ _) _ _ _) _ _ _) _ _ _) _ _
  · exact h

theorem State.nicAdvance_wf (h : s.mem.wf = true) : s.nicAdvance.mem.wf = true :=
  State.nicMove_wf h (State.txAdvance_wf h) _

theorem State.nicWriteback_wf (h : s.mem.wf = true) (b : Byte) (r : Bool) : (s.nicWriteback b r).mem.wf = true :=
  State.nicMove_wf h (State.txWriteback_wf h b r) _

theorem State.nicEarly_wf (h : s.mem.wf = true) (b : Byte) (r : Bool) : (s.nicEarly b r).mem.wf = true :=
  State.nicMove_wf h (State.txEarly_wf h b r) _

theorem State.nicFill_wf (h : s.mem.wf = true) (f : List Byte) (c : Half) (st e : Byte) (sp : Half) (r1 r2 : Bool) :
    (s.nicFill f c st e sp r1 r2).mem.wf = true :=
  State.nicMove_wf h (State.rxFill_wf h f c st e sp r1 r2) _

theorem State.reloadDone_wf (h : s.mem.wf = true) (icr : Word) : (s.reloadDone icr).mem.wf = true := by
  unfold State.reloadDone
  split <;> exact h

theorem State.hostStore_wf (h : s.mem.wf = true) (a : DWord) (bs : List Byte) : (s.hostStore a bs).mem.wf = true := by
  unfold State.hostStore
  split
  · exact Memory.store_wf h _ _
  · exact h

theorem State.settle_wf (l : List Owed) (h : s.mem.wf = true) : (s.settle l).mem.wf = true := by
  induction l generalizing s with
  | nil => exact h
  | cons o l ih =>
    unfold State.settle
    split
    · refine ih ?_
      cases o with
      | advance i => exact State.nicAdvance_wf h
      | writeback i => exact State.nicWriteback_wf (s := { s with drawn := s.drawn + 1 }) h _ _
      | early i => exact State.nicEarly_wf (s := { s with drawn := s.drawn + 1 }) h _ _
      | fill i => exact State.nicFill_wf (s := { s with drawn := s.drawn + s.freeFrame.length + 2 }) h _ _ _ _ _ _ _
      | reload => exact State.reloadDone_wf (s := { s with drawn := s.drawn + 1 }) h _
    · exact ih h

end Sys2Proof.Machine
end

