-- ==== Sys2Proof/Laws/PerInstr.lean ====
section
/-! SUPPORT. Statements about every instruction, one lemma per constructor. EncodeLegal: the command word of a command has a
known opcode and its must-be-zero bits are 0 (30_encoding R102, R108). -/

namespace Sys2Proof

/-- The opcode of a packed word. -/
theorem op_pack (op : Byte) (a : Word) (b : DWord) : CmdWord.op (pack op a b) = op := by
  apply BitVec.eq_of_getLsbD_eq
  intro i hi
  simp only [CmdWord.op, pack, BitVec.getLsbD_extractLsb', BitVec.getLsbD_append]
  rw [if_neg (by omega), if_neg (by omega), show 96 + i - 64 - 32 = i by omega]
  simp [hi]

/-- The operand bits of a packed word. -/
theorem operands_pack (op : Byte) (a : Word) (b : DWord) : (pack op a b).extractLsb' 0 96 = (a ++ b : BitVec 96) := by
  apply BitVec.eq_of_getLsbD_eq
  intro i hi
  simp only [pack, BitVec.getLsbD_extractLsb', BitVec.getLsbD_append, Nat.zero_add, hi, decide_true, Bool.true_and]
  split
  · rfl
  · rw [if_pos (by omega)]

/-- A packed word is legal when its operand bits have no must-be-zero bit set. -/
theorem pack_legal (op : Byte) (a : Word) (b : DWord) {f : Format} (hf : formatOf op = some f)
    (h : ∀ i, i < 96 → f.mustBeZero.getLsbD i = true → (a ++ b : BitVec 96).getLsbD i = false) :
    CmdWord.legal (pack op a b) = true := by
  have h0 : ((a ++ b : BitVec 96) &&& f.mustBeZero) = 0 := by
    apply BitVec.eq_of_getLsbD_eq
    intro i hi
    rw [BitVec.getLsbD_and]
    cases hm : f.mustBeZero.getLsbD i with
    | false => simp
    | true => simp [h i hi hm]
  simp only [CmdWord.legal, op_pack, hf, operands_pack, h0]
  rfl

/-- No operand: every operand bit is 0. -/
theorem pack_legal_none (op : Byte) (hf : formatOf op = some .z) : CmdWord.legal (pack op 0 0) = true :=
  pack_legal op 0 0 hf (fun i _ _ => by simp)

/-- The must-be-zero bits of formats O and B are the low 64. -/
theorem mustBeZero_o : ∀ i, i < 96 → Format.o.mustBeZero.getLsbD i = decide (i < 64) := by decide

/-- The must-be-zero bits of formats VO and AB are 63 to 32. -/
theorem mustBeZero_vo : ∀ i, i < 96 → Format.vo.mustBeZero.getLsbD i = (decide (i < 64) && decide (32 ≤ i)) := by decide

/-- One 32-bit operand. -/
theorem pack_legal_one (op : Byte) (a : Word) {f : Format} (hf : formatOf op = some f)
    (hm : f.mustBeZero = Format.o.mustBeZero) : CmdWord.legal (pack op a 0) = true :=
  pack_legal op a 0 hf (fun i hi h => by
    rw [hm, mustBeZero_o i hi] at h
    rw [BitVec.getLsbD_append, if_pos (of_decide_eq_true h)]
    simp)

/-- Two 32-bit operands. -/
theorem pack_legal_two (op : Byte) (a v : Word) {f : Format} (hf : formatOf op = some f)
    (hm : f.mustBeZero = Format.vo.mustBeZero) : CmdWord.legal (pack op a (lowArg v)) = true :=
  pack_legal op a (lowArg v) hf (fun i hi h => by
    rw [hm, mustBeZero_vo i hi, Bool.and_eq_true, decide_eq_true_iff, decide_eq_true_iff] at h
    rw [BitVec.getLsbD_append, if_pos h.1, lowArg, BitVec.getLsbD_setWidth, BitVec.getLsbD_of_ge v i h.2]
    simp)

namespace Laws.EncodeLegal

/-- The word of a command is legal. -/
def Statement (i : Instr) : Prop := CmdWord.legal (encode i) = true

theorem read32 (offset : Word) : Statement (.read32 offset) := pack_legal_one 0x01 offset rfl rfl
theorem write32 (value offset : Word) : Statement (.write32 value offset) := pack_legal_two 0x02 value offset rfl rfl
theorem writeFlush : Statement .writeFlush := pack_legal_none 0x03 rfl
theorem writeIo (value offset : Word) : Statement (.writeIo value offset) := pack_legal_two 0x04 value offset rfl rfl
theorem ringInit (txBase rxBase : Word) : Statement (.ringInit txBase rxBase) := pack_legal_two 0x10 txBase rxBase rfl rfl
theorem reset : Statement .reset := pack_legal_none 0x11 rfl
theorem configure : Statement .configure := pack_legal_none 0x12 rfl
theorem start : Statement .start := pack_legal_none 0x13 rfl
theorem stop : Statement .stop := pack_legal_none 0x14 rfl
theorem detach : Statement .detach := pack_legal_none 0x15 rfl
theorem submit (len : Word) (buf : DWord) : Statement (.submit len buf) :=
  pack_legal 0x20 len buf (f := .p) rfl (fun i _ h => by simp [Format.mustBeZero] at h)
theorem recycle : Statement .recycle := pack_legal_none 0x21 rfl
theorem irq : Statement .irq := pack_legal_none 0x30 rfl
theorem poll (budget : Word) : Statement (.poll budget) := pack_legal_one 0x31 budget rfl rfl
theorem readStats : Statement .readStats := pack_legal_none 0x32 rfl

end Laws.EncodeLegal

end Sys2Proof
end

