-- ==== Sys2Proof/Laws/Run.lean ====
section
/-! SUPPORT. Running a command: one primitive at a time while no other agent moves, what no primitive changes, and the one
induction behind every invariant of the machine under any schedule. -/

namespace Sys2Proof.Machine

/-! ### The context of the running command -/

@[simp] theorem taskAt_cons (k : Nat) (t : Task) (l : List (Nat × Task)) : taskAt ((k, t) :: l) k = some t := by
  simp [taskAt]

@[simp] theorem otherTasks_cons (k : Nat) (t : Task) (l : List (Nat × Task)) : otherTasks ((k, t) :: l) k = l := by
  simp [otherTasks]

@[simp] theorem State.park_without (s : State) (k : Nat) (t : Task) : (s.park k t).without k = s := by
  simp [State.park, State.without]

/-! ### While no other agent moves -/

/-- With no gap left the gap is empty. -/
@[simp] theorem State.gap_quiet {s : State} (h : s.sched = []) : s.gap = s := by
  unfold State.gap
  rw [h]

/-- One turn of `drive`. -/
theorem drive_succ (n k : Nat) (s : State) :
    drive (n + 1) k s =
      match taskAt s.gap.tasks k with
      | none => s.gap
      | some t =>
        match t.step (s.gap.without k) with
        | .more t' s' => drive n k (s'.park k t')
        | .done r s' => s'.respond k r
        | .wait => if s.gap.sched.isEmpty then s.gap else drive n k s.gap := rfl

/-- A primitive that goes on. -/
theorem drive_more {s s' : State} {t t' : Task} (hq : s.sched = []) (h : t.step s = .more t' s') (n k : Nat) :
    drive (n + 1) k (s.park k t) = drive n k (s'.park k t') := by
  rw [drive_succ, State.gap_quiet (by simpa using hq), State.park_tasks, taskAt_cons]
  simp only [State.park_without, h]

/-- The last primitive. -/
theorem drive_done {s s' : State} {t : Task} {r : Response} (hq : s.sched = []) (h : t.step s = .done r s')
    (n k : Nat) : drive (n + 1) k (s.park k t) = s'.respond k r := by
  rw [drive_succ, State.gap_quiet (by simpa using hq), State.park_tasks, taskAt_cons]
  simp only [State.park_without, h]

/-- A command that waits with no gap left stays in flight. -/
theorem drive_wait {s : State} {t : Task} (hq : s.sched = []) (h : t.step s = .wait) (n k : Nat) :
    drive (n + 1) k (s.park k t) = s.park k t := by
  rw [drive_succ, State.gap_quiet (by simpa using hq), State.park_tasks, taskAt_cons]
  simp [State.park_without, h, hq]

/-- Answering is one primitive. -/
theorem drive_answer {s : State} (hq : s.sched = []) (r : Response) (n k : Nat) :
    drive (n + 1) k (s.park k (Task.answer r)) = s.respond k r :=
  drive_done hq rfl n k

/-- A command on its own, from a task to its response, in at most so many primitives. -/
def quietRun : Nat → Task → State → Option (Response × State)
  | 0, _, _ => none
  | n + 1, t, s =>
    match t.step s with
    | .more t' s' => quietRun n t' s'
    | .done r s' => some (r, s')
    | .wait => none

theorem quietRun_succ (n : Nat) (t : Task) (s : State) :
    quietRun (n + 1) t s =
      match t.step s with
      | .more t' s' => quietRun n t' s'
      | .done r s' => some (r, s')
      | .wait => none := rfl

/-- Running from a point. -/
theorem quietRun_goto (n : Nat) (p : Point) (s : State) :
    quietRun (n + 1) ⟨[], p⟩ s =
      match p.step s with
      | .more t' s' => quietRun n t' s'
      | .done r s' => some (r, s')
      | .wait => none := rfl

/-- Running a straight-line primitive. -/
theorem quietRun_todo (n : Nat) (q : Prim) (qs : List Prim) (p : Point) (s : State) :
    quietRun (n + 1) ⟨q :: qs, p⟩ s =
      match q.apply s with
      | .ok s' => quietRun n ⟨qs, p⟩ s'
      | .error off => quietRun n (p.onError off) s := by
  rw [quietRun_succ]
  simp only [Task.step]
  cases q.apply s <;> rfl

theorem quietRun_answer (n : Nat) (r : Response) (s : State) : quietRun (n + 1) (Task.answer r) s = some (r, s) := rfl

/-! ### Where a failing access leads -/

@[simp] theorem Point.onError_respond (off : Word) (r : Response) : (Point.respond r).onError off = Task.raise off := rfl
@[simp] theorem Point.onError_resetSettle (off : Word) : Point.resetSettle.onError off = Task.raise off := rfl
@[simp] theorem Point.onError_resetManc (off : Word) : Point.resetManc.onError off = Task.raise off := rfl
@[simp] theorem Point.onError_stopLock (off : Word) (err : Option Word) :
    (Point.stopLock err).onError off = Task.goto (.stopLock (some off)) := rfl
@[simp] theorem Point.onError_submitEnd (off : Word) :
    Point.submitEnd.onError off = Task.unlockAnswer (.hwError off) := rfl
@[simp] theorem Point.onError_pollNext (off budget next work : Word) :
    (Point.pollNext budget next work).onError off = Task.goto (.pollEnd work (some off)) := rfl

/-! ### A list of primitives -/

/-- Primitives in order, none failing. -/
def primsOk : State → List Prim → Option State
  | s, [] => some s
  | s, p :: ps =>
    match p.apply s with
    | .ok s' => primsOk s' ps
    | .error _ => none

theorem primsOk_append (s : State) (ps qs : List Prim) :
    primsOk s (ps ++ qs) = (primsOk s ps).bind (fun s' => primsOk s' qs) := by
  induction ps generalizing s with
  | nil => rfl
  | cons p ps ih =>
    simp only [List.cons_append, primsOk]
    split
    · exact ih _
    · rfl

/-- Primitives that all succeed lead to their point. -/
theorem quietRun_prims {s s' : State} {ps : List Prim} (h : primsOk s ps = some s') (n : Nat) (p : Point) :
    quietRun (n + ps.length) ⟨ps, p⟩ s = quietRun n ⟨[], p⟩ s' := by
  induction ps generalizing s with
  | nil => obtain rfl := Option.some.inj h; rfl
  | cons q qs ih =>
    simp only [primsOk] at h
    split at h
    · rename_i x hx
      rw [List.length_cons, ← Nat.add_assoc, quietRun_succ]
      simp only [Task.step, hx]
      exact ih h
    · exact absurd h (by simp)

/-! ### What no primitive changes -/

/-- The fields that no primitive of a command changes: they are the environment's, or the machine's own. -/
structure Kept (s s' : State) : Prop where
  cfg : s'.cfg = s.cfg
  tasks : s'.tasks = s.tasks
  nextCtx : s'.nextCtx = s.nextCtx
  port : s'.port = s.port
  sched : s'.sched = s.sched
  mmioValid : s'.mmioValid = s.mmioValid
  ioValid : s'.ioValid = s.ioValid

theorem Kept.refl (s : State) : Kept s s := ⟨rfl, rfl, rfl, rfl, rfl, rfl, rfl⟩

theorem Kept.trans {s s' s'' : State} (h : Kept s s') (h' : Kept s' s'') : Kept s s'' :=
  ⟨h'.cfg.trans h.cfg, h'.tasks.trans h.tasks, h'.nextCtx.trans h.nextCtx, h'.port.trans h.port,
   h'.sched.trans h.sched, h'.mmioValid.trans h.mmioValid, h'.ioValid.trans h.ioValid⟩

theorem OnlyNic.kept {s s' : State} (h : OnlyNic s s') : Kept s s' := by
  obtain ⟨n, d, rfl⟩ := h
  exact ⟨rfl, rfl, rfl, rfl, rfl, rfl, rfl⟩

theorem regRead32_kept {s s' : State} {off v : Word} (h : s.regRead32 off = some (v, s')) : Kept s s' := by
  obtain ⟨_, _, n, d, rfl⟩ := State.regRead32_cases h
  exact ⟨rfl, rfl, rfl, rfl, rfl, rfl, rfl⟩

theorem reloadDone_kept (s : State) (icr : Word) : Kept s (s.reloadDone icr) := by
  unfold State.reloadDone
  split <;> exact ⟨rfl, rfl, rfl, rfl, rfl, rfl, rfl⟩

theorem reloadFree_kept (s : State) : Kept s s.reloadFree :=
  Kept.trans (s' := { s with drawn := s.drawn + 1 }) ⟨rfl, rfl, rfl, rfl, rfl, rfl, rfl⟩ (reloadDone_kept _ _)

theorem delayReload_kept (s : State) : Kept s s.delayReload := by
  unfold State.delayReload
  dsimp only
  split
  · exact Kept.trans (s' := s.emit (.delay s.cfg.delayReloadMs)) ⟨rfl, rfl, rfl, rfl, rfl, rfl, rfl⟩ (reloadFree_kept _)
  · exact ⟨rfl, rfl, rfl, rfl, rfl, rfl, rfl⟩

theorem orError_ok {off : Word} {o : Option State} {s' : State} (h : orError off o = .ok s') : o = some s' := by
  cases o with
  | none => exact absurd h (by simp [orError])
  | some x => exact congrArg some (Except.ok.inj h)

theorem Prim.apply_kept {s s' : State} {p : Prim} (h : p.apply s = .ok s') : Kept s s' := by
  cases p with
  | regWrite off v =>
    obtain ⟨_, rfl⟩ := State.regWrite32_cases (orError_ok h)
    exact ⟨rfl, rfl, rfl, rfl, rfl, rfl, rfl⟩
  | regRead off =>
    obtain ⟨⟨v, x⟩, hx, rfl⟩ := Option.map_eq_some_iff.mp (orError_ok h)
    exact regRead32_kept hx
  | ioWrite port v =>
    obtain ⟨_, n, d, rfl⟩ := State.ioWrite32_cases (orError_ok h)
    exact ⟨rfl, rfl, rfl, rfl, rfl, rfl, rfl⟩
  | delayReload => obtain rfl := Except.ok.inj h; exact delayReload_kept s
  | _ => obtain rfl := Except.ok.inj h; exact ⟨rfl, rfl, rfl, rfl, rfl, rfl, rfl⟩

theorem txAdvance_kept (s : State) : Kept s s.txAdvance := by
  unfold State.txAdvance State.transmit
  dsimp only
  split_ifs <;> exact ⟨rfl, rfl, rfl, rfl, rfl, rfl, rfl⟩

theorem txWriteback_kept (s : State) (b : Byte) (r : Bool) : Kept s (s.txWriteback b r) := by
  unfold State.txWriteback
  split <;> exact ⟨rfl, rfl, rfl, rfl, rfl, rfl, rfl⟩

theorem txEarly_kept (s : State) (b : Byte) (r : Bool) : Kept s (s.txEarly b r) := by
  unfold State.txEarly
  split <;> exact ⟨rfl, rfl, rfl, rfl, rfl, rfl, rfl⟩

theorem rxFill_kept (s : State) (f : List Byte) (c : Half) (st e : Byte) (sp : Half) (r1 r2 : Bool) :
    Kept s (s.rxFill f c st e sp r1 r2) := by
  unfold State.rxFill
  split <;> exact ⟨rfl, rfl, rfl, rfl, rfl, rfl, rfl⟩

theorem nicMove_kept {s s' : State} (h : Kept s s') (l : List (DWord × Nat)) : Kept s (s.nicMove l s') := by
  unfold State.nicMove
  split
  · exact Kept.refl s
  · exact h

theorem makeOwed_kept (s : State) (o : Owed) : Kept s (s.makeOwed o) := by
  cases o with
  | writeback i => exact Kept.trans (s' := { s with drawn := s.drawn + 1 }) ⟨rfl, rfl, rfl, rfl, rfl, rfl, rfl⟩ (nicMove_kept (txWriteback_kept _ _ _) _)
  | advance i => exact nicMove_kept (txAdvance_kept s) _
  | early i => exact Kept.trans (s' := { s with drawn := s.drawn + 1 }) ⟨rfl, rfl, rfl, rfl, rfl, rfl, rfl⟩ (nicMove_kept (txEarly_kept _ _ _) _)
  | fill i =>
    exact Kept.trans (s' := { s with drawn := s.drawn + s.freeFrame.length + 2 })
      ⟨rfl, rfl, rfl, rfl, rfl, rfl, rfl⟩ (nicMove_kept (rxFill_kept _ _ _ _ _ _ _ _) _)
  | reload => exact reloadFree_kept s

theorem settle_kept (l : List Owed) (s : State) : Kept s (s.settle l) := by
  induction l generalizing s with
  | nil => exact Kept.refl s
  | cons o l ih =>
    unfold State.settle
    split
    · exact (makeOwed_kept s o).trans (ih _)
    · exact ih s

theorem readThen_kept {s s' : State} {off : Word} {f t : Task} {g : Word → Task}
    (h : readThen off f g s = .more t s') : Kept s s' := by
  unfold readThen at h
  split at h
  · rename_i r hr
    injection h with _ h
    subst h
    exact regRead32_kept hr
  · injection h with _ h
    subst h
    exact Kept.refl s

theorem lockThen_kept {s s' : State} {t g : Task} (h : lockThen g s = .more t s') : Kept s s' := by
  unfold lockThen at h
  split at h
  · exact absurd h (by simp)
  · injection h with _ h
    subst h
    exact ⟨rfl, rfl, rfl, rfl, rfl, rfl, rfl⟩

theorem whenAdmitted_kept {s s' : State} {b : Bool} {t g : Task} (h : whenAdmitted b g s = .more t s') : Kept s s' := by
  unfold whenAdmitted at h
  split at h <;> (injection h with _ h; subst h; exact Kept.refl s)

theorem requestPoll_kept (s : State) : Kept s (requestPoll s) := by
  unfold requestPoll
  split
  · split <;> exact ⟨rfl, rfl, rfl, rfl, rfl, rfl, rfl⟩
  · exact Kept.refl s

/-- A point answers only at its last line, and then changes nothing. -/
theorem Point.step_done {s s' : State} {p : Point} {r : Response} (h : p.step s = .done r s') :
    p = .respond r ∧ s' = s := by
  cases p with
  | respond r' => injection h with h1 h2; subst h1; subst h2; exact ⟨rfl, rfl⟩
  | _ =>
    exfalso
    revert h
    simp only [Point.step, stepRead32, stepRingAdmit, stepRingAlloc, stepRingMap, stepRingUndo, stepResetAdmit,
      stepResetSettle, stepResetSettled, stepResetCtrl, stepResetManc, stepConfigureAdmit, stepStartAdmit, stepStopAdmit,
      stepStopWait, stepStopLock, stepStopRings, stepStopTx, stepStopRx, stepDetachAdmit, stepSubmitAdmit, stepSubmitLock,
      stepSubmitRecheck, stepSubmitTail, stepSubmitDone, stepSubmitPad, stepSubmitMap, stepSubmitSlot, stepSubmitEnd,
      stepRecycleAdmit, stepRecycleLock, stepRecycleHead, stepRecycleNtc, stepRecycleDone, stepRecycleSlot, stepIrqAdmit,
      stepIrqRead, stepIrqRequest, stepPollAdmit, stepPollTail, stepPollDone, stepPollLength, stepPollAlloc, stepPollMap,
      stepPollTake, stepPollNext, stepPollEnd, stepReadStats, readThen, lockThen, whenAdmitted]
    grind

theorem allocRxBuffer_kept {s s' : State} {z : Word} {o : Option DWord} (h : s.allocRxBuffer z = (o, s')) : Kept s s' := by
  obtain ⟨_, rfl⟩ := Prod.mk.inj h
  exact ⟨rfl, rfl, rfl, rfl, rfl, rfl, rfl⟩

theorem dmaMap_kept {s s' : State} {b : DWord} {l : Word} {d : Dir} {o : Option Mapping}
    (h : s.dmaMap b l d = (o, s')) : Kept s s' := by
  obtain ⟨_, rfl⟩ := Prod.mk.inj h
  exact ⟨rfl, rfl, rfl, rfl, rfl, rfl, rfl⟩

theorem pad_kept {s s' : State} {b : DWord} {l m : Word} {o : Bool} (h : s.pad b l m = (o, s')) : Kept s s' := by
  obtain ⟨_, rfl⟩ := Prod.mk.inj h
  exact ⟨rfl, rfl, rfl, rfl, rfl, rfl, rfl⟩

/-- STOP takes the TX lock only when it is free and no SUBMIT or RECYCLE in flight waits for it (R170). -/
theorem stepStopLock_cases {s s' : State} {e : Option Word} {t : Task} (h : stepStopLock e s = .more t s') :
    s.lockAwaited = false ∧ s.txLock = false ∧ t = Task.goto (.stopRings e) ∧ s' = { s with txLock := true } := by
  unfold stepStopLock lockThen at h
  split_ifs at h with ha hl
  injection h with h1 h2
  exact ⟨by simpa using ha, by simpa using hl, h1.symm, h2.symm⟩

/-- A point that goes on keeps what no primitive changes. -/
theorem Point.step_kept {s s' : State} {p : Point} {t : Task} (h : p.step s = .more t s') : Kept s s' := by
  cases p with
  | respond r => exact absurd h (by simp [Point.step])
  | stopLock e => obtain ⟨-, -, -, rfl⟩ := stepStopLock_cases h; exact ⟨rfl, rfl, rfl, rfl, rfl, rfl, rfl⟩
  | submitLock l b => exact lockThen_kept h
  | recycleLock c => exact lockThen_kept h
  | resetAdmit => exact whenAdmitted_kept h
  | configureAdmit => exact whenAdmitted_kept h
  | startAdmit => exact whenAdmitted_kept h
  | stopAdmit => exact whenAdmitted_kept h
  | recycleAdmit => exact whenAdmitted_kept h
  | irqAdmit => exact whenAdmitted_kept h
  | resetSettled owed => injection h with _ h; subst h; exact settle_kept _ _
  | irqRequest => injection h with _ h; subst h; exact requestPoll_kept s
  | read32 off => simp only [Point.step, stepRead32] at h; exact readThen_kept h
  | resetCtrl => simp only [Point.step, stepResetCtrl] at h; exact readThen_kept h
  | resetManc => simp only [Point.step, stepResetManc] at h; exact readThen_kept h
  | recycleHead c => simp only [Point.step, stepRecycleHead] at h; exact readThen_kept h
  | irqRead => simp only [Point.step, stepIrqRead] at h; exact readThen_kept h
  | pollTail b => simp only [Point.step, stepPollTail] at h; exact readThen_kept h
  | _ =>
    simp only [Point.step, stepRingAdmit, stepRingAlloc, stepRingMap, stepRingUndo, stepResetSettle, stepStopWait,
      stepStopRings, stepStopTx, stepStopRx, stepDetachAdmit, stepSubmitAdmit, stepSubmitRecheck, stepSubmitTail,
      stepSubmitDone, stepSubmitPad, stepSubmitMap, stepSubmitSlot, stepSubmitEnd, stepRecycleNtc,
      stepRecycleDone, stepRecycleSlot, stepPollAdmit, stepPollDone, stepPollLength, stepPollAlloc, stepPollMap, stepPollTake,
      stepPollNext, stepPollEnd, stepReadStats] at h
    repeat' (split at h)
    all_goals first | injection h with _ h | exact absurd h (by simp)
    all_goals
      subst h
      first
      | exact ⟨rfl, rfl, rfl, rfl, rfl, rfl, rfl⟩
      | (rename_i e _; exact allocRxBuffer_kept e)
      | (rename_i e _; exact dmaMap_kept e)
      | (rename_i e _; exact pad_kept e)

/-- A command answers only at its last line, and then changes nothing. -/
theorem Task.step_done {s s' : State} {t : Task} {r : Response} (h : t.step s = .done r s') :
    t = Task.answer r ∧ s' = s := by
  obtain ⟨todo, point⟩ := t
  cases todo with
  | nil => obtain ⟨rfl, rfl⟩ := Point.step_done h; exact ⟨rfl, rfl⟩
  | cons p ps =>
    unfold Task.step at h
    dsimp only at h
    split at h <;> exact absurd h (by simp)

/-- One primitive of a command keeps what no primitive changes. -/
theorem Task.step_kept {s s' : State} {t t' : Task} (h : t.step s = .more t' s') : Kept s s' := by
  obtain ⟨todo, point⟩ := t
  cases todo with
  | nil => exact Point.step_kept h
  | cons p ps =>
    unfold Task.step at h
    dsimp only at h
    split at h
    · rename_i e
      injection h with _ h
      subst h
      exact Prim.apply_kept e
    · injection h with _ h
      subst h
      exact Kept.refl s

/-! ### A command while no other agent moves -/

/-- What a command does on its own is what `drive` does while no other agent moves. -/
theorem drive_of_quietRun {n m k : Nat} {t : Task} {s s' : State} {r : Response} (hq : s.sched = [])
    (h : quietRun n t s = some (r, s')) (hn : n ≤ m) : drive m k (s.park k t) = s'.respond k r := by
  induction n generalizing t s m with
  | zero => exact absurd h (by simp [quietRun])
  | succ n ih =>
    obtain ⟨m, rfl⟩ : ∃ m', m = m' + 1 := ⟨m - 1, by omega⟩
    rw [quietRun_succ] at h
    cases hp : t.step s with
    | more t' s1 =>
      rw [hp] at h
      rw [drive_more hq hp]
      exact ih ((Task.step_kept hp).sched.trans hq) h (by omega)
    | done r' s1 =>
      rw [hp] at h
      obtain ⟨rfl, rfl⟩ := Prod.mk.inj (Option.some.inj h)
      exact drive_done hq hp _ _
    | wait => rw [hp] at h; exact absurd h (by simp)

/-- The same for a command of the command port, in at most `fuel` primitives. -/
theorem runCommand_of_quietRun {n turns : Nat} {t : Task} {s s' : State} {r : Response} (hq : s.sched = [])
    (h : quietRun n t s.takeCtx = some (r, s')) (hn : n ≤ s.fuel turns) :
    runCommand t turns s = s'.respond s.nextCtx r :=
  drive_of_quietRun (by simpa using hq) h hn

/-- `fuel` is never less than 256. -/
theorem State.fuel_ge (s : State) (turns : Nat) : 256 ≤ s.fuel turns := by
  unfold State.fuel
  omega

/-! ### One induction for every schedule -/

/-- A property of the whole state that every move of every agent keeps, and that does not look at the schedule, the
command port or the numbering of contexts. -/
structure Inductive (P : State → Prop) : Prop where
  /-- The schedule is the environment's. -/
  sched : ∀ s l, P s → P { s with sched := l }
  /-- The command port is the host's. -/
  port : ∀ s w, P s → P { s with port := w }
  /-- Every move of every agent keeps it; a primitive of a command in flight is the move `advance`. -/
  move : ∀ s m, P s → P (Move.apply s m)
  /-- A command that starts keeps it. -/
  start : ∀ s i, P s → P (s.takeCtx.park s.nextCtx (taskOf s.cfg i))
  /-- An illegal command word keeps it. -/
  reject : ∀ s, P s → P s.rejectWord

/-- What no move of any agent changes: the schedule. -/
theorem Move.apply_sched (s : State) (m : Move) : (m.apply s).sched = s.sched := by
  cases m with
  | bus =>
    simp only [Move.apply, State.busMove]
    split
    · rfl
    · exact State.nicWrite_sched _ _ _
  | txAdvance => exact (nicMove_kept (txAdvance_kept s) _).sched
  | txWriteback b r => exact (nicMove_kept (txWriteback_kept s b r) _).sched
  | txEarly b r => exact (nicMove_kept (txEarly_kept s b r) _).sched
  | rxFill f c st e sp r1 r2 => exact (nicMove_kept (rxFill_kept s f c st e sp r1 r2) _).sched
  | cause b => simp only [Move.apply, State.cause]; split <;> rfl
  | reloadDone v => exact (reloadDone_kept s v).sched
  | setMmioValid b => rfl
  | setIoValid b => rfl
  | hostStore a bs => simp only [Move.apply, State.hostStore]; split <;> rfl
  | issue w => simp only [Move.apply, State.issue]; split <;> rfl
  | advance k =>
    simp only [Move.apply, State.advance]
    cases taskAt s.tasks k with
    | none => rfl
    | some t =>
      dsimp only
      cases hp : t.step (s.without k) with
      | more t' s' => exact (Task.step_kept hp).sched
      | done r s' => obtain ⟨-, rfl⟩ := Task.step_done hp; rfl
      | wait => rfl

/-- A property of the whole state that every move with `Q` keeps, and that does not look at the schedule, the command port
or the numbering of contexts. -/
structure InductiveUnder (Q : Move → Prop) (P : State → Prop) : Prop where
  sched : ∀ s l, P s → P { s with sched := l }
  move : ∀ s m, Q m → P s → P (Move.apply s m)
  /-- The primitives of a command in flight are among the moves. -/
  advance : ∀ k, Q (.advance k)

/-- Every move the schedule still holds has `Q`. -/
def State.schedAll (Q : Move → Prop) (s : State) : Prop := ∀ l ∈ s.sched, ∀ m ∈ l, Q m

theorem InductiveUnder.moves {Q : Move → Prop} {P : State → Prop} (h : InductiveUnder Q P) (l : List Move) (s : State)
    (hl : ∀ m ∈ l, Q m) (hs : P s) : P (s.moves l) ∧ (s.moves l).sched = s.sched := by
  induction l generalizing s with
  | nil => exact ⟨hs, rfl⟩
  | cons m l ih =>
    have := ih (m.apply s) (fun x hx => hl x (.tail _ hx)) (h.move s m (hl m (.head _)) hs)
    exact ⟨this.1, this.2.trans (Move.apply_sched s m)⟩

theorem InductiveUnder.gap {Q : Move → Prop} {P : State → Prop} (h : InductiveUnder Q P) {s : State}
    (hq : s.schedAll Q) (hs : P s) : P s.gap ∧ s.gap.schedAll Q := by
  unfold State.gap
  split
  · exact ⟨hs, hq⟩
  · rename_i ms rest e
    have := h.moves ms { s with sched := rest } (hq ms (e ▸ .head _)) (h.sched s _ hs)
    exact ⟨this.1, fun l hl => hq l (by rw [this.2] at hl; exact e ▸ .tail _ hl)⟩

theorem InductiveUnder.drive {Q : Move → Prop} {P : State → Prop} (h : InductiveUnder Q P) (n k : Nat) (s : State)
    (hq : s.schedAll Q) (hs : P s) : P (drive n k s) := by
  induction n generalizing s with
  | zero => exact hs
  | succ n ih =>
    rw [drive_succ]
    obtain ⟨hg, hgq⟩ := h.gap hq hs
    generalize s.gap = g at hg hgq
    have hm := h.move g (.advance k) (h.advance k) hg
    have hmq := Move.apply_sched g (.advance k)
    simp only [Move.apply, State.advance] at hm hmq
    cases ht : taskAt g.tasks k with
    | none => exact hg
    | some t =>
      rw [ht] at hm hmq
      dsimp only at hm hmq ⊢
      cases hp : t.step (g.without k) with
      | more t' s' =>
        rw [hp] at hm hmq
        exact ih _ (fun l hl => hgq l (hmq ▸ hl)) hm
      | done r s' => rw [hp] at hm; exact hm
      | wait =>
        dsimp only
        split
        · exact hg
        · exact ih _ hgq hg

/-- A command of the command port keeps the property, whatever schedule of such moves there is. -/
theorem InductiveUnder.runCommand {Q : Move → Prop} {P : State → Prop} (h : InductiveUnder Q P) (t : Task) (turns : Nat)
    (s : State) (hq : s.schedAll Q) (hs : P (s.takeCtx.park s.nextCtx t)) : P (runCommand t turns s) :=
  h.drive _ _ _ hq hs

theorem Inductive.under {P : State → Prop} (h : Inductive P) : InductiveUnder (fun _ => True) P :=
  ⟨h.sched, fun s m _ hs => h.move s m hs, fun _ => trivial⟩

theorem Inductive.gap {P : State → Prop} (h : Inductive P) {s : State} (hs : P s) : P s.gap :=
  (h.under.gap (fun _ _ _ _ => trivial) hs).1

/-- The meaning of every command is a command run in a context of its own. -/
theorem exec_eq (i : Instr) (s : State) : ∃ turns, exec i s = .next (runCommand (taskOf s.cfg i) turns s) := by
  cases i <;> exact ⟨_, rfl⟩

/-- A step keeps an inductive property, whatever the schedule. -/
theorem Inductive.step {P : State → Prop} (h : Inductive P) {s s' : State} (hs : P s)
    (e : step s = .next s') : P s' := by
  unfold Sys2Proof.Machine.step at e
  split at e
  · rename_i w hw
    have hs : P s.takePort := h.port s none hs
    unfold serve at e
    split at e
    · rename_i i hi
      obtain ⟨turns, he⟩ := exec_eq i s.takePort
      rw [he] at e
      obtain rfl := Host.Outcome.next.inj e
      exact h.under.runCommand _ _ _ (fun _ _ _ _ => trivial) (h.start _ i hs)
    · obtain rfl := Host.Outcome.next.inj e
      exact h.reject _ hs
  · obtain rfl := Host.Outcome.next.inj e
    unfold State.idle
    split
    · exact h.move s .bus hs
    · exact h.gap hs

end Sys2Proof.Machine
end

