-- ==== Sys2Proof/Tests/Slice0.lean ====
section
/-! SUPPORT. The model's own tests: ill-formed words and configurations refused, a word of every command decoded, a few
one-step results with the values of 95_test_vectors, and, for each obligation with hypotheses, a state and operands that
meet them (the theorems `witness_…`). -/

namespace Sys2Proof.Tests

open Sys2Proof.Machine

/- One theorem at a time: as many kernel evaluations at once as there are theorems do not fit in memory. -/
set_option Elab.async false

/-! ### Well-formedness (30_encoding R102, R108; 00_scope R8 to R11) -/

/-- One word for each format with a must-be-zero bit set (vectors VE16 to VE21), and an unknown opcode (VE12). -/
theorem test_ill_formed_words :
    CmdWord.legal 0x11000000000000000000000001#104 = false ∧ CmdWord.legal 0x13000000010000000000000000#104 = false ∧
    CmdWord.legal 0x01000000080000000000000001#104 = false ∧ CmdWord.legal 0x020000000100000001000000D8#104 = false ∧
    CmdWord.legal 0x31000000108000000000000000#104 = false ∧ CmdWord.legal 0x10001000000000000100101000#104 = false ∧
    CmdWord.legal 0x00000000000000000000000000#104 = false := by decide

/-- A configuration that breaks each constraint of R8, and one with another descriptor size than R104 gives. -/
theorem test_ill_formed_sizes :
    Cfg.sizesOk { nTx := 1 } = false ∧ Cfg.sizesOk { nRx := 1 } = false ∧ Cfg.sizesOk { nTx := 0x10000000 } = false ∧
    Cfg.sizesOk { nRx := 0x10000000 } = false ∧ Cfg.sizesOk { blockSize := 59 } = false ∧
    Cfg.sizesOk { blockSize := 65536 } = false ∧ Cfg.sizesOk { descSize := 8 } = false := by decide

/-- A configuration that breaks each constraint of R9: two names at one offset, a misaligned offset, an offset outside
the region, a misaligned table, a table past the region or past 2^32, a table over a named register. -/
theorem test_ill_formed_map :
    Cfg.mapOk { regTipg := 0x400 } = false ∧ Cfg.mapOk { regTipg := 0x411 } = false ∧
    Cfg.mapOk { regTipg := 0x20000 } = false ∧ Cfg.mapOk { regMta := 0x5202 } = false ∧
    Cfg.mapOk { regMta := 0x1FFFC } = false ∧ Cfg.mapOk { regMta := 0xFFFFFFFC, mmioSize := 2 ^ 33 } = false ∧
    Cfg.mapOk { regMta := 0x5300 } = false ∧ Cfg.mapOk { mtaEntries := 0, regMta := 0x400 } = false ∧
    Cfg.mapOk { mtaEntries := 0, regMta := 0x20000 } = false ∧ Cfg.mapOk { mtaEntries := 0 } = true := by decide +kernel

/-- A configuration that breaks each constraint of R10. -/
theorem test_ill_formed_masks :
    Cfg.masksOk { icrTxdw := 0 } = false ∧ Cfg.masksOk { icrRxt0 := 0x11 } = false ∧ Cfg.masksOk { rctlEn := 0 } = false ∧
    Cfg.masksOk { tctlEn := 0 } = false ∧ Cfg.masksOk { ctrlRst := 0 } = false ∧ Cfg.masksOk { mancArpEn := 0 } = false ∧
    Cfg.masksOk { rahAv := 0 } = false ∧ Cfg.masksOk { rctlSz2048 := 0x8000 } = false := by decide

/-- A configuration that breaks each constraint of R11. -/
theorem test_ill_formed_descriptor_masks :
    Cfg.descOk { txdCmdEop := 0 } = false ∧ Cfg.descOk { txdCmdRs := 0 } = false ∧ Cfg.descOk { txdStatDd := 0 } = false ∧
    Cfg.descOk { rxdStatDd := 0 } = false ∧ Cfg.descOk { txdCmdRs := 0x09 } = false := by decide

/-- The default configuration meets every constraint. -/
theorem test_default_cfg_wf : Cfg.wf {} = true := by decide +kernel

/-! ### Decoding (30_encoding R101; vectors VE1 to VE15) -/

theorem test_decode_read32 : decode 0x01000000080000000000000000#104 = .ok (.read32 0x8) := by decide
theorem test_decode_write32 : decode 0x02FFFFFFFF00000000000000D8#104 = .ok (.write32 0xFFFFFFFF 0xD8) := by decide
theorem test_decode_writeFlush : decode 0x03000000000000000000000000#104 = .ok .writeFlush := by decide
theorem test_decode_writeIo : decode 0x04041402400000000000000000#104 = .ok (.writeIo 0x04140240 0x0) := by decide
theorem test_decode_ringInit : decode 0x10001000000000000000101000#104 = .ok (.ringInit 0x00100000 0x00101000) := by
  decide
theorem test_decode_reset : decode 0x11000000000000000000000000#104 = .ok .reset := by decide
theorem test_decode_configure : decode 0x12000000000000000000000000#104 = .ok .configure := by decide
theorem test_decode_start : decode 0x13000000000000000000000000#104 = .ok .start := by decide
theorem test_decode_stop : decode 0x14000000000000000000000000#104 = .ok .stop := by decide
theorem test_decode_detach : decode 0x15000000000000000000000000#104 = .ok .detach := by decide
theorem test_decode_submit : decode 0x200000004000000000000000B0#104 = .ok (.submit 64 0xB0) := by decide
theorem test_decode_submit_wide :
    decode 0x2080000001F000000000000001#104 = .ok (.submit 0x80000001 0xF000000000000001) := by decide
theorem test_decode_recycle : decode 0x21000000000000000000000000#104 = .ok .recycle := by decide
theorem test_decode_irq : decode 0x30000000000000000000000000#104 = .ok .irq := by decide
theorem test_decode_poll : decode 0x31000000100000000000000000#104 = .ok (.poll 16) := by decide
theorem test_decode_readStats : decode 0x32000000000000000000000000#104 = .ok .readStats := by decide

/-- Opcodes 0x00, 0x05, 0x33 and 0xFF are no commands (VE12 to VE15). -/
theorem test_decode_unknown :
    decode 0x00000000000000000000000000#104 = .error (.unknownOpcode 0x00) ∧
    decode 0x05000000000000000000000000#104 = .error (.unknownOpcode 0x05) ∧
    decode 0x33000000000000000000000000#104 = .error (.unknownOpcode 0x33) ∧
    decode 0xFFFFFFFFFFFFFFFFFFFFFFFFFF#104 = .error (.unknownOpcode 0xFF) := by decide

/-- A set must-be-zero bit is refused by name, format by format (VE16 to VE21). -/
theorem test_decode_must_be_zero :
    decode 0x11000000000000000000000001#104 = .error (.nonzeroMustBeZero 0x11) ∧
    decode 0x13000000010000000000000000#104 = .error (.nonzeroMustBeZero 0x13) ∧
    decode 0x01000000080000000000000001#104 = .error (.nonzeroMustBeZero 0x01) ∧
    decode 0x020000000100000001000000D8#104 = .error (.nonzeroMustBeZero 0x02) ∧
    decode 0x31000000108000000000000000#104 = .error (.nonzeroMustBeZero 0x31) ∧
    decode 0x10001000000000000100101000#104 = .error (.nonzeroMustBeZero 0x10) := by decide

/-- The bytes of a word are little-endian (20_memory R75), and the word of the command table is read from them. -/
theorem test_decode_bytes :
    decodeBytes [0xD8, 0, 0, 0, 0, 0, 0, 0, 0xFF, 0xFF, 0xFF, 0xFF, 0x02] = .ok (.write32 0xFFFFFFFF 0xD8) ∧
    decodeTableWord 104 0x200000004000000000000000B0 = some (.submit 64 0xB0) ∧ decodeBytes [] = .error (.wrongLength 0) := by
  decide

/-- The bytes of a response word are little-endian (20_memory R75): HW_ACCESS_ERROR(0x3818) and BUSY. -/
theorem test_response_bytes :
    (Response.hwError 0x3818).bytes = [0x18, 0x38, 0, 0, 0, 0, 0, 0, 0x01] ∧
    (Response.refuse .busy).bytes = [0, 0, 0, 0, 0, 0, 0, 0, 0x02] := by decide

/-! ### A running machine

The state `S_run` of 95_test_vectors section 0, with the fixture's rings of eight. -/

/-- The state after a command. -/
def after (i : Instr) (s : State) : State :=
  match exec i s with
  | .next t => t
  | .fault _ => s
  | .refused _ => s

/-- The mapping and handle of RX buffer `k` in the fixture. -/
def rxMapping (k : Nat) : Mapping := ⟨BitVec.ofNat 64 (0x40000 + 0x800 * k), 2048, .fromDevice⟩

/-- The descriptors of `S_run`. -/
def runMem : Memory :=
  (List.range 8).foldl (fun m i =>
    (m.writeByte (BitVec.ofNat 64 (0x10000C + 16 * i)) 1).write (BitVec.ofNat 64 (0x101000 + 16 * i)) 8 (rxMapping i).addr) ⟨[]⟩

/-- The NIC of `S_run`. -/
def runNic : Nic :=
  { Nic.atReset {} with
    status := 0x80080783, rctl := 0x04008002, tctl := 0x0004010A, rdbal := 0x101000, rdlen := 0x80, rdt := 7,
    tdbal := 0x100000, tdlen := 0x80, ral0 := 0x12005452, rah0 := 0x80005634, mask := 0x9D }

/-- `S_run`. -/
def run : State :=
  { State.reset with
    fsm := .running, ringsReady := true, txBase := 0x100000, rxBase := 0x101000, mem := runMem, nic := runNic,
    rxSlots := (List.range 8).map (fun k => .full (rxMapping k) (BitVec.ofNat 64 (0xA0 + k))) }

/-- The machine after block reset, its host ready to give eight buffers. -/
def attached : State :=
  { State.reset with
    allocs := (List.range 8).map (fun k => some (BitVec.ofNat 64 (0xA0 + k))),
    maps := (List.range 8).map (fun k => some (rxMapping k).addr) }

/-- `S_run` with packet 0xB0 submitted at TX descriptor 0 and completed by the NIC (VT13, S4 variant a). -/
def completed : State :=
  { run with
    txTail := 1, nic := { runNic with tdh := 1, tdt := 1 },
    txSlots := setSlot run.txSlots 0 (.full ⟨0x20000, 64, .toDevice⟩ 0xB0),
    mem := (runMem.write 0x100000 8 0x20000).write 0x100008 8 0x0000000109000040 }

/-- `S_run` with a 64-byte frame in RX descriptor 0, a poll scheduled, and a host that can replace the buffer (S7). -/
def received : State :=
  { run with
    pollState := .scheduled, allocs := [some 0xA8], maps := [some 0x44000], nic := { runNic with rdh := 1 },
    mem := (runMem.write 0x101008 2 64).writeByte 0x10100C 1 }

/-- `s` with TX enabled and one descriptor handed to the NIC. -/
def sending : State := { run with nic := { runNic with tdt := 1 } }

/-- What the last command answered. -/
def answered (s : State) : Option Event := s.trace.getLast?

/-! ### One step each (values from 95_test_vectors) -/

/-- VA1. -/
theorem test_read32_status : answered (after (.read32 0x8) run) = some (.response 0 (.ok 0x80080783)) := by
  decide +kernel

/-- VA2, VA3. -/
theorem test_read32_refused :
    answered (after (.read32 0x2) run) = some (.response 0 (.hwError 0x2)) ∧
    answered (after (.read32 0x20000) run) = some (.response 0 (.hwError 0x20000)) := by decide +kernel

/-- VA6, first half. -/
theorem test_write32_posts :
    (after (.write32 0xFFFFFFFF 0xD8) run).wbuf = [(0xD8, 0xFFFFFFFF)] ∧
    (after (.write32 0xFFFFFFFF 0xD8) run).nic.mask = 0x9D := by decide +kernel

/-- VA6, second half. -/
theorem test_writeFlush_drains :
    (after .writeFlush { run with wbuf := [(0xD8, 0xFFFFFFFF)] }).nic.mask = 0 ∧
    (after .writeFlush { run with wbuf := [(0xD8, 0xFFFFFFFF)] }).wbuf = [] := by decide +kernel

/-- VA9: the NIC begins its global reset. -/
theorem test_writeIo_reset :
    (after (.writeIo 0x04140240 0x0) run).nic.resetting = true ∧
    answered (after (.writeIo 0x04140240 0x0) run) = some (.response 0 (.ok 0)) := by decide +kernel

/-- VA11: the ports go away after the first port write. -/
theorem test_writeIo_halfway :
    (after (.writeIo 0x1 0x100) { run with sched := [[], [.setIoValid false]] }).nic.ioIndex = 0x100 ∧
    answered (after (.writeIo 0x1 0x100) { run with sched := [[], [.setIoValid false]] }) =
      some (.response 0 (.hwError 0x4)) := by decide +kernel

/-- P1 command 1: the image of TX descriptor 7 and of RX descriptor 7 (VM2, VM3). -/
theorem test_ringInit_images :
    (after (.ringInit 0x100000 0x101000) attached).mem.load 0x100070 16 =
      [0, 0, 0, 0, 0, 0, 0, 0, 0, 0, 0, 0, 1, 0, 0, 0] ∧
    (after (.ringInit 0x100000 0x101000) attached).mem.load 0x101070 16 =
      [0x00, 0x38, 0x04, 0, 0, 0, 0, 0, 0, 0, 0, 0, 0, 0, 0, 0] := by decide +kernel

/-- VG3, VG4: a region may end at 2^32, not past it. -/
theorem test_ringInit_end_of_memory :
    answered (after (.ringInit 0xFFFFFFF0 0x101000) attached) = some (.response 0 (.refuse .illegalCommand)) ∧
    answered (after (.ringInit 0xFFFFFF80 0x101000) attached) = some (.response 0 (.ok 0)) := by decide +kernel

/-- P1 command 2, positions 6 to 8, and the state it leaves. -/
theorem test_reset_writes_control :
    ((after .reset { attached with nic := { runNic with ctrl := 0x00140240 } }).trace.drop 5).take 3 =
      [.regRead 0x0 0x00140240, .ioWrite .addr 0x0, .ioWrite .data 0x04140240] ∧
    (after .reset { attached with nic := { runNic with ctrl := 0x00140240 } }).fsm = .reset := by decide +kernel

/-- P1 command 3: 146 writes, and the ones of positions 1, 2, 130 and 146. -/
theorem test_configure_writes :
    (after .configure { run with fsm := .reset }).wbuf.length = 146 ∧
    (after .configure { run with fsm := .reset }).wbuf.take 2 = [(0x5400, 0x12005452), (0x5404, 0x80005634)] ∧
    (after .configure { run with fsm := .reset }).wbuf[129]? = some (0x53FC, 0) ∧
    (after .configure { run with fsm := .reset }).wbuf[145]? = some (0xD0, 0x9D) := by decide +kernel

/-- VL6. -/
theorem test_start : (after .start { run with fsm := .configured }).fsm = .running := by decide +kernel

/-- VL12: the eight RX slots are released although the quiesce fails. -/
theorem test_stop_unmapped :
    (after .stop { run with mmioValid := false }).trace.length = 17 ∧
    answered (after .stop { run with mmioValid := false }) = some (.response 0 (.hwError 0xD8)) := by decide +kernel

/-- VL14. -/
theorem test_detach :
    (after .detach { run with fsm := .stopped, rxDropped := 5 }).rxDropped = 0 ∧
    (after .detach { run with fsm := .stopped, rxDropped := 5 }).fsm = .uninitialized := by decide +kernel

/-- R252 (b): DRM does not look for another command in flight. -/
theorem test_detach_unchecked :
    answered (after .detach { run with fsm := .stopped, tasks := [(7, recycleTask)] }) = some (.response 0 (.ok 0)) := by
  decide +kernel

/-- VM1, P2 command 1. -/
theorem test_submit_image :
    (after (.submit 64 0xB0) { run with maps := [some 0x20000] }).mem.load 0x100000 16 =
      [0x00, 0x00, 0x02, 0, 0, 0, 0, 0, 0x40, 0x00, 0x00, 0x09, 0x00, 0, 0, 0] ∧
    (after (.submit 64 0xB0) { run with maps := [some 0x20000] }).wbuf = [(0x3818, 1)] := by decide +kernel

/-- VT13: the order of the host calls. -/
theorem test_submit_reclaims_in_place :
    (after (.submit 64 0xB8) { completed with txTail := 0, maps := [some 0x28000] }).trace.take 3 =
      [.call (.dmaMap 0xB8 64 .toDevice (some 0x28000)), .call (.dmaUnmap ⟨0x20000, 64, .toDevice⟩),
       .call (.txComplete 0xB0)] := by decide +kernel

/-- S4 variant (a). -/
theorem test_recycle_completes :
    (after .recycle completed).trace =
      [.regRead 0x3810 1, .call (.dmaUnmap ⟨0x20000, 64, .toDevice⟩), .call (.txComplete 0xB0), .response 0 (.ok 0)] ∧
    (after .recycle completed).txNtc = 1 := by decide +kernel

/-- R170: a RECYCLE that waits for the lock finishes before STOP takes it; until it does STOP stays in flight. -/
theorem test_stop_after_recycle :
    (after .stop { completed with tasks := [(7, recycleBody .command)] }).ringsReady = true ∧
    ((after .stop { completed with
        sched := List.replicate 10 [] ++ List.replicate 14 [.advance 7], tasks := [(7, recycleBody .command)],
        nextCtx := 8 }).trace.filter (fun e => match e with | .response _ _ => true | _ => false)) =
      [.response 7 (.ok 0), .response 8 (.ok 0)] := by decide +kernel

/-- VC5. -/
theorem test_recycle_bad_head :
    answered (after .recycle { completed with nic := { runNic with tdh := 8 } }) = some (.response 0 (.hwError 0x3810)) := by
  decide +kernel

/-- VI1. -/
theorem test_irq_schedules :
    (after .irq { run with nic := { runNic with icr := 0x80 } }).trace =
      [.regRead 0xC0 0x80, .call .pollSchedule, .response 0 (.ok 0)] ∧
    (after .irq { run with nic := { runNic with icr := 0x80 } }).pollState = .scheduled := by decide +kernel

/-- VI6. -/
theorem test_irq_missed :
    (after .irq { run with pollState := .active, nic := { runNic with icr := 0x80 } }).pollMissed = true := by
  decide +kernel

/-- S7, the trace of POLL 16. -/
theorem test_poll_delivers :
    (after (.poll 16) received).trace =
      [.regRead 0x2818 7, .call (.allocRxBuffer 2048 (some 0xA8)), .call (.dmaMap 0xA8 2048 .fromDevice (some 0x44000)),
       .call (.dmaUnmap ⟨0x40000, 2048, .fromDevice⟩), .call (.rxDeliver 0xA0 64), .regWrite 0x2818 0,
       .regRead 0x3810 0, .call (.pollComplete 1), .response 0 (.ok 1)] := by decide +kernel

/-- S7, the descriptor afterwards: the length stays. -/
theorem test_poll_descriptor :
    (after (.poll 16) received).mem.load 0x101000 16 =
      [0x00, 0x40, 0x04, 0, 0, 0, 0, 0, 0x40, 0, 0, 0, 0, 0, 0, 0] := by decide +kernel

/-- VX2. -/
theorem test_readStats :
    answered (after .readStats { run with rxDropped := 2 }) = some (.response 0 (.ok 2)) := by decide +kernel

/-- The step runs the word on the port as the first command after reset: READ_STATS answers 0 (VL2). -/
theorem test_step_after_reset :
    (match step (State.reset.withFetchWord 104 0x32000000000000000000000000) with
      | .next t => answered t
      | .fault _ => none
      | .refused _ => none) = some (.response 0 (.ok 0)) := by decide +kernel

/-- VK3: the interrupt line. -/
theorem test_line :
    { runNic with icr := 0x81 }.lineAsserted = true ∧ { runNic with icr := 0x81, mask := 0 }.lineAsserted = false := by
  decide +kernel

/-- VK4 and VK5: the two orders of the NIC's work on a TX descriptor. -/
theorem test_tx_moves :
    sending.txAdvance.nic.txLag = 1 ∧ (sending.txAdvance.txWriteback 0 false).txDone 0 = true ∧
    (sending.txEarly 0 false).nic.txLag = -1 ∧ (sending.txEarly 0 false).txAdvance.nic.tdh = 1 := by decide +kernel

/-- R243: a frame is taken if it begins with the station address 52:54:00:12:34:56 (VM7) or with broadcast. -/
theorem test_accepts :
    runNic.accepts [0x52, 0x54, 0x00, 0x12, 0x34, 0x56, 0xAB] = true ∧
    runNic.accepts [0xFF, 0xFF, 0xFF, 0xFF, 0xFF, 0xFF, 0xAB] = true ∧
    runNic.accepts [0x52, 0x54, 0x00, 0x12, 0x34, 0x57, 0xAB] = false ∧
    runNic.accepts [0x01, 0x00, 0x5E, 0x00, 0x00, 0x01, 0xAB] = false := by decide

/-- RING_INIT building its arrays while the NIC owes a write-back for TX descriptor 0 of the same array. -/
def building : State :=
  { run with
    ringsReady := false, nic := { runNic with tdh := 1, txLag := 1 }, mem := ⟨[]⟩,
    tasks := [(0, Task.goto (.ringAlloc 0))] }

/-- R183: the write-back does not land during RING_INIT; with RING_INIT over it does. -/
theorem test_ringInit_alone :
    Move.apply building (.txWriteback 0 false) = building ∧
    (Move.apply { building with tasks := [] } (.txWriteback 0 false)).txDone 0 = true := by decide +kernel

/-- R330: the settling delay lets an earlier global reset end. -/
theorem test_settle_reload :
    ({ run with nic := { runNic with resetting := true } }.settle
      { run with nic := { runNic with resetting := true } }.owed).nic.resetting = false := by decide +kernel

/-! ### Witnesses: the hypotheses of the obligations can be met -/

/-- Every command takes a next state. -/
theorem next_after (i : Instr) (s : State) : exec i s = .next (after i s) := by cases i <;> rfl

/-- `s` with the interrupt line's causes `c`. -/
def withCause (s : State) (c : Word) : State := { s with nic := { s.nic with icr := c } }

/-- `s` with the register region unmapped. -/
def unmapped (s : State) : State := { s with mmioValid := false }

/-- Every TX descriptor of `S_run` is Free. -/
theorem run_txFree : ∀ i, i < 8 → run.txDone (index i) = true ∧ slotAt run.txSlots (index i) = .empty := by
  decide +kernel

/-- Every RX slot of `S_run` is Full with its buffer. -/
theorem run_rxOwned : ∀ i, i < 8 → slotAt run.rxSlots (index i) = .full (rxMapping i) (BitVec.ofNat 64 (0xA0 + i)) ∧
    (rxMapping i).dir = .fromDevice ∧ (rxMapping i).len = run.cfg.rxBufSize ∧
    run.readRxd (index i) .addr = (rxMapping i).addr := by decide +kernel

/-- The same with a frame received. -/
theorem received_rxOwned : ∀ i, i < 8 →
    slotAt received.rxSlots (index i) = .full (rxMapping i) (BitVec.ofNat 64 (0xA0 + i)) ∧
    (rxMapping i).dir = .fromDevice ∧ (rxMapping i).len = received.cfg.rxBufSize ∧
    received.readRxd (index i) .addr = (rxMapping i).addr := by decide +kernel

theorem witness_EncodeOfDecode : decode 0x200000004000000000000000B0#104 = .ok (.submit 64 0xB0) := by decide

theorem witness_StepRunsCommand :
    (run.presenting 104 0x32000000000000000000000000).port = some 0x32000000000000000000000000#104 ∧
    decode 0x32000000000000000000000000#104 = .ok .readStats := by decide +kernel

/-- One word for each of the two reasons. -/
theorem witness_IllegalWord :
    (run.presenting 104 0x33000000000000000000000000).port = some 0x33000000000000000000000000#104 ∧
    CmdWord.op 0x33000000000000000000000000#104 ∉
      [0x01, 0x02, 0x03, 0x04, 0x10, 0x11, 0x12, 0x13, 0x14, 0x15, 0x20, 0x21, 0x30, 0x31, 0x32] ∧
    (run.presenting 104 0x11000000000000000000000001).port = some 0x11000000000000000000000001#104 ∧
    formatOf (CmdWord.op 0x11000000000000000000000001#104) = some .z ∧
    ((0x11000000000000000000000001#104).extractLsb' 0 96 &&& Format.z.mustBeZero) ≠ 0 := by decide +kernel

/-- A state that refuses each command that it can refuse (VL1, VL3, VL11, VG9, VO2), and a string of
bytes of another length. -/
theorem witness_NotAdmitted :
    run.sched = [] ∧ State.reset.sched = [] ∧
    run.admitted (.ringInit 0x100000 0x101000) = false ∧ run.admitted .reset = false ∧ run.admitted .configure = false ∧
    run.admitted .start = false ∧ { run with fsm := .stopped }.admitted .stop = false ∧ run.admitted .detach = false ∧
    State.reset.admitted (.submit 64 0xB0) = false ∧ State.reset.admitted .recycle = false ∧
    State.reset.admitted .irq = false ∧ run.admitted (.poll 16) = false ∧ [(0 : Byte)].length ≠ 13 := by decide +kernel

theorem witness_AssembledValues : ({} : Cfg).rahAv &&& 0xFFFF = 0 := by decide

theorem witness_Read32Stored :
    run.sched = [] ∧ run.admits 0x8 = true ∧ run.drain.nic.resetting = false ∧ run.cfg.regAt 0x8 = some .status := by
  decide +kernel

theorem witness_Read32Cause :
    run.sched = [] ∧ run.cfg.mapOk = true ∧ run.admits run.cfg.regIcr = true ∧ run.drain.nic.resetting = false := by
  decide +kernel

/-- A NIC that resets; the last offset of the region, which names no register (VA4); the two mask registers. -/
theorem witness_Read32Unspecified :
    { run with nic := { runNic with resetting := true } }.admits 0x8 = true ∧
    { run with nic := { runNic with resetting := true } }.drain.nic.resetting = true ∧
    run.admits 0x1FFFC = true ∧ run.cfg.regAt 0x1FFFC = none ∧ run.admits 0xD0 = true ∧ run.cfg.regAt 0xD0 = some .ims ∧
    run.admits 0xD8 = true ∧ run.cfg.regAt 0xD8 = some .imc ∧ run.sched = [] := by decide +kernel

/-- Misaligned; the first offset past the region; the region unmapped, for the status register too. -/
theorem witness_RegisterAccessRefused :
    run.sched = [] ∧ (0x2 : Word).toNat % 4 ≠ 0 ∧ run.cfg.mmioSize < (0x20000 : Word).toNat + 4 ∧
    (unmapped run).mmioValid = false ∧ (unmapped run).sched = [] ∧ (0x8 : Word) = (unmapped run).cfg.regStatus := by
  decide +kernel

/-- The last offset of the region. -/
theorem witness_Write32Posts :
    run.sched = [] ∧ (0x1FFFC : Word).toNat % 4 = 0 ∧ (0x1FFFC : Word).toNat + 4 ≤ run.cfg.mmioSize ∧
    run.mmioValid = true := by decide +kernel

theorem witness_WriteFlushDrains :
    run.sched = [] ∧ run.cfg.mapOk = true ∧ run.admits run.cfg.regStatus = true ∧ run.drain.nic.resetting = false := by
  decide +kernel

/-- A scalar register, and the last entry of the multicast table. -/
theorem witness_ReadAfterWrite :
    run.sched = [] ∧ run.admits 0x410 = true ∧ run.shaped = true ∧ run.drain.nic.resetting = false ∧
    run.cfg.mapOk = true ∧ run.cfg.regAt 0x410 = some .tipg ∧ run.admits 0x53FC = true ∧
    run.cfg.regAt 0x53FC = some (.mta 127) := by decide +kernel

/-- A plain register; device control without the reset bit; the last offset of the region, which names none. -/
theorem witness_WriteIoPorts :
    run.sched = [] ∧ run.ioValid = true ∧ run.nic.resetting = false ∧ run.cfg.regAt 0x100 = some .rctl ∧
    run.cfg.regAt 0x0 = some .ctrl ∧ (0x00140240 : Word) &&& run.cfg.ctrlRst = 0 ∧ run.cfg.regAt 0x1FFFC = none := by
  decide +kernel

theorem witness_WriteIoRefused :
    { run with ioValid := false }.sched = [] ∧ { run with ioValid := false }.ioValid = false ∧
    { run with sched := [[], [.setIoValid false]] }.sched = [[], [.setIoValid false]] ∧
    { run with sched := [[], [.setIoValid false]] }.ioValid = true := by decide +kernel

/-- The last entry of the multicast table, and the mask registers. -/
theorem witness_NicRegisters :
    NicReg.mta 127 ∉ [NicReg.icr, .ims, .imc, .status] ∧ 127 < runNic.mta.length ∧ NicReg.rctl ≠ NicReg.mta 127 ∧
    run.cfg.mapOk = true ∧ run.nic.resetting = false := by decide +kernel

theorem witness_GlobalReset :
    run.sched = [] ∧ run.ioValid = true ∧ run.cfg.mapOk = true ∧ run.nic.resetting = false ∧
    (0x04140240 : Word) &&& run.cfg.ctrlRst ≠ 0 := by decide +kernel

theorem witness_TxOrders :
    sending.txStartable = true ∧ sending.nic.txLag = 0 ∧ sending.nic.tdh.toNat < sending.nic.txCap sending.cfg ∧
    sending.mem.wf = true := by decide +kernel

/-- A frame of one byte, the buffer apart from the descriptor; a frame that is not taken; a NIC with no descriptor. -/
theorem witness_RxFillStores :
    run.rxFillable = true ∧ 1 ≤ [(0xFF : Byte)].length ∧ [(0xFF : Byte)].length ≤ run.cfg.rxBufSize.toNat ∧
    run.nic.accepts [0xFF] = true ∧ [(0xFF : Byte)].length < 2 ^ 16 ∧ run.mem.wf = true ∧
    run.nic.accepts [0xAB] = false ∧ attached.rxFillable = false ∧
    (∀ k, k < [(0xFF : Byte)].length → ¬ within (run.nicRxd run.nic.rdh.toNat 0) 16
      (run.mem.read (run.nicRxd run.nic.rdh.toNat 0) 8 + BitVec.ofNat 64 k)) := by
  refine ⟨by decide +kernel, by decide, by decide, by decide, by decide, by decide +kernel, by decide, by decide, ?_⟩
  rintro k hk ⟨j, hj, h⟩
  have : ∀ k, k < 1 → ∀ j, j < 16 → run.mem.read (run.nicRxd run.nic.rdh.toNat 0) 8 + BitVec.ofNat 64 k ≠
      run.nicRxd run.nic.rdh.toNat 0 + BitVec.ofNat 64 j := by decide +kernel
  exact this k hk j hj h

/-- Every one of the moves is enabled somewhere; the first and the last byte of two arrays that are being built. -/
theorem witness_NicNeverWrites :
    sending.mem.wf = true ∧ sending.txStartable = true ∧ sending.txAdvance.txOwesDone = true ∧ run.rxFillable = true ∧
    building.mem.wf = true ∧ building.beingBuilt (0x100000 : DWord).toNat = true ∧
    building.beingBuilt (0x10107F : DWord).toNat = true ∧ building.beingBuilt (0x101080 : DWord).toNat = false := by
  decide +kernel

/-- STOP in `S_run`. -/
theorem witness_FsmTransitions : run.sched = [] ∧ exec .stop run = .next (after .stop run) := ⟨by decide, rfl⟩

/-- A NIC at rest, and one that still resets. -/
theorem witness_ResetCompletes :
    attached.sched = [] ∧ attached.fsm = .uninitialized ∧ attached.cfg.mapOk = true ∧ attached.ioValid = true ∧
    (∀ o ∈ [attached.cfg.regImc, attached.cfg.regRctl, attached.cfg.regTctl, attached.cfg.regStatus, attached.cfg.regCtrl,
      attached.cfg.regManc, attached.cfg.regIcr], attached.admits o = true) ∧
    attached.drain.nic.resetting = false ∧ attached.cfg.imcAll = 0xFFFFFFFF ∧ attached.cfg.ctrlRst ≠ 0 ∧
    { attached with nic := { runNic with resetting := true } }.drain.nic.resetting = true :=
  ⟨by decide, by decide, by decide +kernel, by decide, List.all_eq_true.mp (by decide +kernel), by decide, by decide,
   by decide, by decide⟩

/-- VL7 and VL8. -/
theorem witness_ResetFails :
    (unmapped attached).sched = [] ∧ (unmapped attached).fsm = .uninitialized ∧ (unmapped attached).mmioValid = false ∧
    { attached with ioValid := false }.fsm = .uninitialized ∧ { attached with ioValid := false }.cfg.mapOk = true ∧
    { attached with ioValid := false }.ioValid = false ∧
    (∀ o ∈ [attached.cfg.regImc, attached.cfg.regRctl, attached.cfg.regTctl, attached.cfg.regStatus, attached.cfg.regCtrl],
      { attached with ioValid := false }.admits o = true) ∧
    { attached with ioValid := false }.drain.nic.resetting = false :=
  ⟨by decide, by decide, by decide, by decide, by decide +kernel, by decide, List.all_eq_true.mp (by decide +kernel),
   by decide⟩

theorem witness_ConfigureCompletes :
    { run with fsm := .reset }.sched = [] ∧ { run with fsm := .reset }.ringsReady = true ∧
    (∀ w ∈ { run with fsm := .reset }.configureWrites, { run with fsm := .reset }.admits w.1 = true) :=
  ⟨by decide, by decide, (List.all_eq_true (p := fun w : Word × Word => State.admits { run with fsm := .reset } w.1)).mp (by decide +kernel)⟩

/-- The first write, and the last but one. -/
theorem witness_ConfigureFails :
    (∀ x ∈ { run with fsm := .reset }.configureWrites, { run with fsm := .reset }.admits x.1 = true) ∧
    { run with fsm := .reset }.configureWrites[0]? = some (0x5400, 0x12005452) ∧
    { run with fsm := .reset }.configureWrites[144]? = some (0x410, 0x00602008) ∧
    144 + 1 < { run with fsm := .reset }.configureWrites.length :=
  ⟨(List.all_eq_true (p := fun w : Word × Word => State.admits { run with fsm := .reset } w.1)).mp (by decide +kernel), by decide +kernel,
   by decide +kernel, by decide +kernel⟩

theorem witness_StartCompletes :
    { run with fsm := .configured }.sched = [] ∧ { run with fsm := .configured }.fsm = .configured ∧ run.sched = [] ∧
    run.fsm ≠ .configured := by decide +kernel

theorem witness_BlockReset : State.reset = State.resetWith {} := rfl

/-- With rings built and without. -/
theorem witness_StopCompletes :
    run.lockAwaited = false ∧ State.reset.lockAwaited = false ∧ run.sched = [] ∧ run.fsm ≠ .stopped ∧ run.pollState ≠ .active ∧ run.txLock = false ∧ run.cfg.mapOk = true ∧
    run.cfg.sizesOk = true ∧ State.reset.cfg.sizesOk = true ∧
    (∀ o ∈ [run.cfg.regImc, run.cfg.regRctl, run.cfg.regTctl, run.cfg.regStatus], run.admits o = true) ∧
    run.drain.nic.resetting = false ∧ run.ringsReady = true ∧ State.reset.sched = [] ∧ State.reset.fsm ≠ .stopped ∧
    State.reset.pollState ≠ .active ∧ State.reset.txLock = false ∧ State.reset.cfg.mapOk = true ∧
    (∀ o ∈ [run.cfg.regImc, run.cfg.regRctl, run.cfg.regTctl, run.cfg.regStatus], State.reset.admits o = true) ∧
    State.reset.ringsReady = false :=
  ⟨by decide, by decide, by decide, by decide, by decide, by decide, by decide +kernel, by decide, by decide,
   List.all_eq_true.mp (by decide +kernel), by decide,
   by decide, by decide, by decide, by decide, by decide, by decide +kernel, List.all_eq_true.mp (by decide +kernel),
   by decide⟩

theorem witness_StopEmptiesSlots :
    run.lockAwaited = false ∧ run.sched = [] ∧ run.admitted .stop = true ∧ run.pollState ≠ .active ∧ run.txLock = false ∧ run.ringsReady = true ∧
    run.shaped = true ∧ run.cfg.sizesOk = true ∧ exec .stop run = .next (after .stop run) :=
  ⟨by decide, by decide, by decide, by decide, by decide, by decide, by decide +kernel, by decide, rfl⟩

/-- VL12; and the region unmapped before the first access of the quiesce, and before the last. -/
theorem witness_StopQuiesceFails :
    run.lockAwaited = false ∧ (unmapped run).lockAwaited = false ∧
    (unmapped run).sched = [] ∧ (unmapped run).fsm ≠ .stopped ∧ (unmapped run).pollState ≠ .active ∧
    (unmapped run).txLock = false ∧ (unmapped run).ringsReady = true ∧ (unmapped run).cfg.sizesOk = true ∧
    (unmapped run).mmioValid = false ∧ run.fsm ≠ .stopped ∧ run.pollState ≠ .active ∧ run.txLock = false ∧
    run.ringsReady = true ∧
    [run.cfg.regImc, run.cfg.regRctl, run.cfg.regTctl, run.cfg.regStatus][0]? = some 0xD8 ∧
    [run.cfg.regImc, run.cfg.regRctl, run.cfg.regTctl, run.cfg.regStatus][3]? = some 0x8 ∧
    ((quiesceWrites run.cfg).take 3).all (fun w => run.admits w.1) = true := by decide +kernel

/-- The lock held, with a poll scheduled and with the region unmapped; the lock free, a RECYCLE and a SUBMIT waiting for it;
a poll active. -/
theorem witness_Waiting :
    (unmapped { run with tasks := [(7, recycleBody .command)] }).lockAwaited = true ∧
    (unmapped { run with tasks := [(7, Task.goto (.submitLock 64 0xB0))] }).lockAwaited = true ∧
    { received with txLock := true }.fsm = .running ∧ { received with txLock := true }.pollState = .scheduled ∧
    { received with txLock := true }.admits run.cfg.regRdt = true ∧
    { received with txLock := true }.drain.nicRead run.cfg.regRdt = (7, { received with txLock := true }) ∧
    { received with txLock := true, mem := runMem }.rxDone (nextIndex run.cfg.nRx 7) = false ∧
    (unmapped { run with txLock := true }).txLock = true ∧ (unmapped { run with txLock := true }).mmioValid = false ∧
    (unmapped { run with txLock := true }).fsm ≠ .stopped ∧ (unmapped { run with txLock := true }).pollState ≠ .active ∧
    { run with txLock := true }.sched = [] ∧ { run with txLock := true }.fsm = .running ∧
    (2048 : Word).toNat ≤ { run with txLock := true }.cfg.blockSize ∧ { run with txLock := true }.txLock = true ∧
    { run with pollState := .active }.fsm ≠ .stopped ∧ { run with pollState := .active }.pollState = .active := by
  decide +kernel

/-- Stopped; not stopped. -/
theorem witness_DetachResets :
    { run with fsm := .stopped }.sched = [] ∧ { run with fsm := .stopped }.fsm = .stopped ∧ run.sched = [] ∧
    run.fsm ≠ .stopped := by decide +kernel

/-- The buffers of the fixture. -/
theorem witness_RingInitBuilds :
    attached.sched = [] ∧ attached.admitted (.ringInit 0x100000 0x101000) = true ∧
    ringBasesOk attached.cfg 0x100000 0x101000 = true ∧ attached.cfg.sizesOk = true ∧ attached.shaped = true ∧
    attached.mem.wf = true ∧ ((List.range 8).map (fun k => BitVec.ofNat 64 (0xA0 + k))).length = attached.cfg.nRx ∧
    ((List.range 8).map (fun k => (rxMapping k).addr)).length = attached.cfg.nRx ∧
    attached.allocs = ((List.range 8).map (fun k => BitVec.ofNat 64 (0xA0 + k))).map some ++ [] ∧
    attached.maps = ((List.range 8).map (fun k => (rxMapping k).addr)).map some ++ [] := by decide +kernel

/-- The first allocation fails; the last mapping fails (VG7, VG8). -/
theorem witness_RingInitGivesBack :
    ([] : List DWord).length < attached.cfg.nRx ∧
    { attached with allocs := [none] }.allocs = ([] : List DWord).map some ++ none :: [] ∧
    { attached with allocs := [none] }.maps = ([] : List DWord).map some ++ attached.maps ∧
    (List.replicate 7 (0xA0 : DWord)).length < attached.cfg.nRx ∧
    { attached with allocs := List.replicate 8 (some 0xA0), maps := List.replicate 7 (some 0x40000) ++ [none] }.allocs =
      (List.replicate 7 (0xA0 : DWord)).map some ++ some 0xA0 :: [] ∧
    { attached with allocs := List.replicate 8 (some 0xA0), maps := List.replicate 7 (some 0x40000) ++ [none] }.maps =
      (List.replicate 7 (0x40000 : DWord)).map some ++ none :: [] ∧
    attached.admitted (.ringInit 0x100000 0x101000) = true ∧ ringBasesOk attached.cfg 0x100000 0x101000 = true ∧
    attached.shaped = true ∧ attached.cfg.sizesOk = true ∧ attached.sched = [] := by decide +kernel

/-- One pair of bases for each of the five conditions (VG2, VG3, VG5). -/
theorem witness_RingInitOperands :
    attached.sched = [] ∧ attached.admitted (.ringInit 0x100008 0x101000) = true ∧ (0x100008 : Word).toNat % 16 ≠ 0 ∧
    (0x101004 : Word).toNat % 16 ≠ 0 ∧ 2 ^ 32 < (0xFFFFFF90 : Word).toNat + attached.cfg.nTx * attached.cfg.descSize ∧
    2 ^ 32 < (0xFFFFFFF0 : Word).toNat + attached.cfg.nRx * attached.cfg.descSize ∧
    (0x100070 : Word).toNat < (0x100000 : Word).toNat + attached.cfg.nTx * attached.cfg.descSize ∧
    (0x100000 : Word).toNat < (0x100070 : Word).toNat + attached.cfg.nRx * attached.cfg.descSize := by decide +kernel

/-- The longest packet; and one byte short of the Ethernet minimum (VT2, VT4). -/
theorem witness_SubmitAccepted :
    { run with maps := [some 0x20000], pads := [true] }.sched = [] ∧ run.fsm = .running ∧ run.txLock = false ∧
    run.cfg.sizesOk = true ∧ run.mem.wf = true ∧ (2048 : Word).toNat ≤ run.cfg.blockSize ∧
    run.cfg.ethZlen ≤ (2048 : Word).toNat ∧ (59 : Word).toNat < run.cfg.ethZlen ∧ run.txDone run.txTail = true ∧
    run.admits run.cfg.regTdt = true ∧
    { run with maps := [some 0x20000], pads := [true] }.maps.head? = some (some 0x20000) ∧
    { run with maps := [some 0x20000], pads := [true] }.pads.head? = some true := by decide +kernel

/-- VT1, VT8, VT6, VT7: each clause at the edge of its range. -/
theorem witness_SubmitRefused :
    run.sched = [] ∧ run.fsm = .running ∧ run.cfg.blockSize < (2049 : Word).toNat ∧
    (2048 : Word).toNat ≤ run.cfg.blockSize ∧ run.txLock = false ∧
    { run with mem := ⟨[]⟩ }.txDone run.txTail = false ∧ run.txDone run.txTail = true ∧
    (59 : Word).toNat < run.cfg.ethZlen ∧ run.pads.headD false = false ∧ run.cfg.ethZlen ≤ (60 : Word).toNat ∧
    run.maps.headD none = none ∧ { run with pads := [true] }.pads.headD false = true := by decide +kernel

/-- VT11, with the shortest packet that needs no padding and the longest that does. -/
theorem witness_SubmitDoorbellFails :
    (unmapped run).txDone run.txTail = true ∧ (unmapped run).admits run.cfg.regTdt = false ∧
    (unmapped { run with maps := [some 0x20000] }).maps.head? = some (some 0x20000) ∧
    (unmapped run).cfg.sizesOk = true ∧ (unmapped run).mem.wf = true ∧ (unmapped run).fsm = .running ∧
    (unmapped run).txLock = false ∧ (unmapped run).sched = [] ∧ (60 : Word).toNat ≤ run.cfg.blockSize ∧
    run.cfg.ethZlen ≤ (60 : Word).toNat ∧ (59 : Word).toNat < run.cfg.ethZlen ∧
    (unmapped { run with pads := [true] }).pads.head? = some true := by decide +kernel

/-- Head 1 of a ring with one completed packet, and the last head a ring of eight has. -/
theorem witness_RecycleReclaims :
    completed.sched = [] ∧ completed.fsm = .running ∧ completed.txLock = false ∧ completed.cfg.sizesOk = true ∧
    completed.txNtc.toNat < completed.cfg.nTx ∧ completed.admits completed.cfg.regTdh = true ∧
    completed.drain.nicRead completed.cfg.regTdh = (1, completed.drain) ∧ (1 : Word).toNat < completed.cfg.nTx ∧
    { completed with nic := { runNic with tdh := 7 } }.drain.nicRead completed.cfg.regTdh =
      (7, { completed with nic := { runNic with tdh := 7 } }.drain) ∧ (7 : Word).toNat < completed.cfg.nTx ∧
    completed.drain.nic.resetting = false ∧ completed.cfg.mapOk = true := by decide +kernel

/-- VC7 and VC5. -/
theorem witness_RecycleBadHead :
    (unmapped run).sched = [] ∧ (unmapped run).fsm = .running ∧ (unmapped run).txLock = false ∧
    (unmapped run).admits run.cfg.regTdh = false ∧
    { run with nic := { runNic with tdh := 8 } }.drain.nicRead run.cfg.regTdh =
      (8, { run with nic := { runNic with tdh := 8 } }.drain) ∧ run.cfg.nTx ≤ (8 : Word).toNat ∧
    { run with nic := { runNic with tdh := 8 } }.admits run.cfg.regTdh = true := by decide +kernel

/-- `S_run` itself, with the shortest packet that needs no padding and the longest that does. -/
theorem witness_RoundTrip :
    { run with maps := [some 0x20000] }.sched = [] ∧ run.fsm = .running ∧ run.txLock = false ∧ run.cfg.wf = true ∧
    run.mem.wf = true ∧ run.shaped = true ∧ run.wbuf = [] ∧ run.admits run.cfg.regTdt = true ∧
    run.admits run.cfg.regTdh = true ∧ run.nic.resetting = false ∧ run.nic.txLag = 0 ∧
    run.nic.tctl &&& run.cfg.tctlEn ≠ 0 ∧ run.nic.tdbal = run.txBase ∧ run.nic.tdbah = 0 ∧
    run.nic.tdlen = BitVec.ofNat 32 (run.cfg.nTx * run.cfg.descSize) ∧ run.txTail.toNat < run.cfg.nTx ∧ run.txNtc = run.txTail ∧
    run.nic.tdh = run.txTail ∧ run.nic.tdt = run.txTail ∧
    (∀ i, i < 8 → run.txDone (index i) = true ∧ slotAt run.txSlots (index i) = .empty) ∧
    run.cfg.ethZlen ≤ (60 : Word).toNat ∧ (60 : Word).toNat ≤ run.cfg.blockSize ∧
    (59 : Word).toNat < run.cfg.ethZlen ∧ { run with pads := [true] }.pads.head? = some true ∧
    { run with maps := [some 0x20000] }.maps.head? = some (some 0x20000) := by decide +kernel

/-- `S_run`, and RECYCLE or SUBMIT in it. -/
theorem witness_TxOwnedKept :
    run.sched = [] ∧ run.txLock = false ∧ run.cfg.sizesOk = true ∧ run.mem.wf = true ∧ run.shaped = true ∧
    run.txTail.toNat < run.cfg.nTx ∧ run.txNtc.toNat < run.cfg.nTx ∧ run.TxOwned ∧
    exec .recycle run = .next (after .recycle run) :=
  ⟨by decide, by decide, by decide, by decide +kernel, by decide +kernel, by decide, by decide,
   fun i hi => Or.inl (run_txFree i hi), rfl⟩

/-- VI2 and VI9. -/
theorem witness_IrqRequestsNothing :
    run.sched = [] ∧ run.fsm = .running ∧ run.admits run.cfg.regIcr = true ∧
    run.drain.nicRead run.cfg.regIcr = (0, run) ∧ (unmapped run).sched = [] ∧ (unmapped run).fsm = .running ∧
    (unmapped run).admits run.cfg.regIcr = false := by decide +kernel

/-- The lowest and the highest cause bit; each poll state. -/
theorem witness_IrqRequestsPoll :
    (withCause run 1).drain.nicRead run.cfg.regIcr = (1, run) ∧
    (withCause run 0x80000000).drain.nicRead run.cfg.regIcr = (0x80000000, run) ∧ (withCause run 1).sched = [] ∧
    (withCause run 1).fsm = .running ∧ (withCause run 1).admits run.cfg.regIcr = true ∧
    (withCause run 1).pollState = .idle ∧ { run with pollState := .scheduled }.pollState = .scheduled ∧
    { run with pollState := .active }.pollState = .active ∧ (withCause run 1).drain.nic.resetting = false ∧
    run.cfg.mapOk = true := by decide +kernel

/-- Budget 0 with a frame waiting, and no frame; with and without a missed interrupt (VO1, VO3, VO11). -/
theorem witness_PollNoFrame :
    received.sched = [] ∧ received.fsm = .running ∧ received.pollState = .scheduled ∧ received.txLock = false ∧
    received.cfg.sizesOk = true ∧ received.txNtc.toNat < received.cfg.nTx ∧ received.admits received.cfg.regRdt = true ∧
    received.admits received.cfg.regTdh = true ∧ received.drain.nicRead received.cfg.regRdt = (7, received) ∧
    { received with mem := runMem }.rxDone (nextIndex received.cfg.nRx 7) = false ∧
    received.drain.nicRead received.cfg.regTdh = (0, received) ∧ (0 : Word).toNat < received.cfg.nTx ∧
    { received with pollMissed := true }.pollMissed = true ∧ received.pollMissed = false := by decide +kernel

/-- S7: budget 1, or a budget of 16 with no frame behind the first. -/
theorem witness_PollOneFrame :
    received.mem.wf = true ∧ received.shaped = true ∧ received.drain.nicRead received.cfg.regRdt = (7, received) ∧
    (0 : Word) = nextIndex received.cfg.nRx 7 ∧ (1 : Word) ≠ 0 ∧ received.rxDone 0 = true ∧
    received.rxDone (nextIndex received.cfg.nRx 0) = false ∧
    slotAt received.rxSlots 0 = .full (rxMapping 0) 0xA0 ∧ received.allocs.head? = some (some 0xA8) ∧
    received.maps.head? = some (some 0x44000) ∧
    { received with wbuf := [(received.cfg.regRdt, 0)] }.drain.nicRead received.cfg.regTdh =
      (0, { received with nic := { received.nic with rdt := 0 } }) ∧ received.txNtc = 0 ∧ received.pollMissed = false ∧
    received.fsm = .running ∧ received.pollState = .scheduled ∧ received.txLock = false ∧ received.sched = [] ∧
    received.cfg.sizesOk = true ∧ received.admits received.cfg.regRdt = true ∧
    received.admits received.cfg.regTdh = true := by decide +kernel

/-- VO6 and VO7: no buffer; a buffer and no mapping. -/
theorem witness_PollNoReplacement :
    { received with allocs := [] }.allocs.headD none = none ∧ received.allocs.headD none = some 0xA8 ∧
    { received with maps := [none] }.maps.headD none = none ∧ received.rxDone 0 = true ∧
    (0 : Word) = nextIndex received.cfg.nRx 7 ∧ received.drain.nicRead received.cfg.regRdt = (7, received) ∧
    received.drain.nicRead received.cfg.regTdh = (0, received) ∧ received.txNtc = 0 ∧ received.pollMissed = false ∧
    received.fsm = .running ∧ received.pollState = .scheduled ∧ received.txLock = false ∧ received.sched = [] ∧
    received.cfg.sizesOk = true ∧ received.admits received.cfg.regRdt = true ∧
    received.admits received.cfg.regTdh = true := by decide +kernel

/-- `received` with a TX head that `N_TX` places do not hold. -/
def badHead : State := { received with nic := { received.nic with tdh := 8 } }

/-- VO9; the region unmapped before RECYCLE's head read; a head outside the ring with no frame, and after one (VO16); the
tail write of VO10. -/
theorem witness_PollFails :
    (unmapped received).sched = [] ∧ (unmapped received).fsm = .running ∧ (unmapped received).pollState = .scheduled ∧
    (unmapped received).admits received.cfg.regRdt = false ∧ received.fsm = .running ∧ received.pollState = .scheduled ∧
    received.txLock = false ∧ received.admits received.cfg.regRdt = true ∧ received.admits received.cfg.regTdh = true ∧
    received.drain.nicRead received.cfg.regRdt = (7, received) ∧
    { received with mem := runMem }.rxDone (nextIndex received.cfg.nRx 7) = false ∧
    badHead.drain.nicRead received.cfg.regRdt = (7, badHead) ∧
    badHead.drain.nicRead received.cfg.regTdh = (8, badHead) ∧ received.cfg.nTx ≤ (8 : Word).toNat ∧
    received.cfg.sizesOk = true ∧ received.mem.wf = true ∧ received.shaped = true ∧
    (0 : Word) = nextIndex received.cfg.nRx 7 ∧ received.rxDone 0 = true ∧
    slotAt received.rxSlots 0 = .full (rxMapping 0) 0xA0 ∧ received.allocs.head? = some (some 0xA8) ∧
    received.maps.head? = some (some 0x44000) ∧ received.rxDone (nextIndex received.cfg.nRx 0) = false ∧
    { badHead with wbuf := [(received.cfg.regRdt, 0)] }.drain.nicRead received.cfg.regTdh =
      (8, { badHead with nic := { badHead.nic with rdt := 0 } }) := by decide +kernel

theorem witness_PollCounts :
    received.sched = [] ∧ received.fsm = .running ∧ received.pollState = .scheduled ∧ received.txLock = false ∧
    received.cfg.sizesOk = true ∧ received.mem.wf = true ∧ received.shaped = true ∧ received.RxOwned ∧
    exec (.poll 1) received = .next (after (.poll 1) received) :=
  ⟨by decide, by decide, by decide, by decide, by decide, by decide +kernel, by decide +kernel,
   fun i hi => ⟨_, _, received_rxOwned i hi⟩, rfl⟩

theorem witness_RxOwnedKept :
    received.sched = [] ∧ received.cfg.sizesOk = true ∧ received.mem.wf = true ∧ received.shaped = true ∧
    received.RxOwned ∧ exec (.poll 16) received = .next (after (.poll 16) received) :=
  ⟨by decide, by decide, by decide +kernel, by decide +kernel, fun i hi => ⟨_, _, received_rxOwned i hi⟩, rfl⟩

theorem witness_ReadStatsAnswers : run.sched = [] := by decide

/-- RECYCLE takes the lock. -/
theorem witness_WritersOnly :
    Reaches run.cfg .recycle (recycleBody .command) ∧
    (recycleBody .command).step run = .more (Task.goto (.recycleHead .command)) { run with txLock := true } :=
  ⟨.next (s := run) (s' := run) .start rfl rfl, rfl⟩

theorem witness_RegisterCommandsFrame :
    run.sched = [] ∧ exec .writeFlush run = .next (after .writeFlush run) := ⟨by decide, rfl⟩

theorem witness_OneResponse :
    run.sched = [] ∧ run.txLock = false ∧ run.pollState ≠ .active ∧ run.lockAwaited = false := by decide

/-- The default configuration, and the smallest rings. -/
theorem witness_ResetInvariants : Cfg.wf {} = true ∧ Cfg.wf { nTx := 2, nRx := 2 } = true := by decide +kernel

/-- RECYCLE on the command port, the bus, the NIC and a second command moving between its primitives. -/
def busy : State :=
  { run with port := some (encode .recycle), sched := [[.bus], [.txAdvance], [.issue (encode .irq)]] }

/-- DETACH on the command port, no other command in flight. -/
def leaving : State := { run with fsm := .stopped, port := some (encode .detach), sched := [[.bus]] }

/-- The host's duty is kept in both, and the step of each takes a next state. -/
theorem witness_LockOwned :
    busy.detachAlone = true ∧ leaving.detachAlone = true ∧ leaving.lockOwned = true ∧
    (match step leaving with
      | .next t => t.fsm
      | .fault _ => .stopped
      | .refused _ => .stopped) = .uninitialized := by decide +kernel

/-- The invariants hold there, and the step takes a next state in which the second command is in flight. -/
theorem witness_invariants :
    busy.mem.wf = true ∧ busy.lockOwned = true ∧ busy.cfg.sizesOk = true ∧ busy.indicesOk = true ∧ busy.shaped = true ∧
    (match step busy with
      | .next t => t.tasks.length
      | .fault _ => 0
      | .refused _ => 0) = 1 := by decide +kernel

end Sys2Proof.Tests
end

section
/-! PROOFS. The configuration and the capacities of the tables under every schedule (00_scope R7, 10_state R30): each
register access and each move of the NIC keeps the length of the multicast table, each primitive and each point of a command
keeps the length of the slot tables or, DETACH's block reset alone, builds them anew at the configured length. -/

namespace Sys2Proof.Machine

variable {s s' : State} {c : Cfg}

/-! ### The multicast table under the bus and the NIC (45_device_agent R241 to R245) -/

@[simp] theorem Nic.write_mta_length (n : Nic) (r : NicReg) (v : Word) : (n.write r v).mta.length = n.mta.length := by
  cases r with
  | mta i => exact List.length_set
  | _ => rfl

@[simp] theorem Nic.globalReset_mta_length (c : Cfg) (k : Nat) (n : Nic) :
    (Nic.globalReset c k n).mta.length = n.mta.length := by
  simp [Nic.globalReset]

@[simp] theorem State.nicApply_mta_length (s : State) (off v : Word) :
    (s.nicApply off v).nic.mta.length = s.nic.mta.length := by
  unfold State.nicApply
  split
  · split <;> simp
  · simp
  · rfl

@[simp] theorem State.nicWrite_mta_length (s : State) (off v : Word) :
    (s.nicWrite off v).nic.mta.length = s.nic.mta.length := by
  unfold State.nicWrite
  split
  · split <;> simp
  · simp

@[simp] theorem State.deliver_mta_length (l : List (Word × Word)) (s : State) :
    (s.deliver l).nic.mta.length = s.nic.mta.length := by
  induction l generalizing s with
  | nil => rfl
  | cons w l ih => rw [State.deliver_cons, ih, State.nicWrite_mta_length]

@[simp] theorem State.drain_mta_length (s : State) : s.drain.nic.mta.length = s.nic.mta.length := by
  simp [State.drain]

@[simp] theorem State.nicRead_mta (s : State) (off : Word) : (s.nicRead off).2.nic.mta = s.nic.mta := by
  unfold State.nicRead State.anyWord
  split
  · rfl
  · split <;> rfl

theorem State.txAdvance_mta (s : State) : s.txAdvance.nic.mta = s.nic.mta := by
  rw [State.txAdvance_eq]
  split <;> rfl

theorem State.txWriteback_mta (s : State) (b : Byte) (r : Bool) : (s.txWriteback b r).nic.mta = s.nic.mta := by
  rw [State.txWriteback_eq]
  split <;> rfl

theorem State.txEarly_mta (s : State) (b : Byte) (r : Bool) : (s.txEarly b r).nic.mta = s.nic.mta := by
  rw [State.txEarly_eq]
  split <;> rfl

theorem State.rxFill_mta (s : State) (f : List Byte) (c : Half) (st e : Byte) (sp : Half) (r1 r2 : Bool) :
    (s.rxFill f c st e sp r1 r2).nic.mta = s.nic.mta := by
  unfold State.rxFill
  split <;> rfl

theorem State.reloadDone_mta (s : State) (icr : Word) : (s.reloadDone icr).nic.mta = s.nic.mta := by
  unfold State.reloadDone
  split <;> rfl

theorem State.cause_mta (s : State) (bits : Word) : (s.cause bits).nic.mta = s.nic.mta := by
  unfold State.cause
  split <;> rfl

/-- A move of the NIC that is held back keeps the table as well. -/
theorem State.nicMove_mta (h : s'.nic.mta = s.nic.mta) (l : List (DWord × Nat)) :
    (s.nicMove l s').nic.mta = s.nic.mta := by
  rcases s.nicMove_cases l s' with ⟨-, e⟩ | ⟨-, e⟩ <;> rw [e]
  exact h

theorem State.makeOwed_mta (s : State) (o : Owed) : (s.makeOwed o).nic.mta = s.nic.mta := by
  cases o with
  | writeback i => exact State.nicMove_mta (State.txWriteback_mta { s with drawn := s.drawn + 1 } _ _) _
  | advance i => exact State.nicMove_mta (State.txAdvance_mta s) _
  | early i => exact State.nicMove_mta (State.txEarly_mta { s with drawn := s.drawn + 1 } _ _) _
  | fill i =>
    exact State.nicMove_mta (State.rxFill_mta { s with drawn := s.drawn + s.freeFrame.length + 2 } _ _ _ _ _ _ _) _
  | reload => exact State.reloadDone_mta { s with drawn := s.drawn + 1 } _

theorem State.settle_mta (l : List Owed) (s : State) : (s.settle l).nic.mta = s.nic.mta := by
  induction l generalizing s with
  | nil => rfl
  | cons o l ih =>
    rw [State.settle, ih]
    split
    · exact State.makeOwed_mta s o
    · rfl

/-! ### The shape -/

/-- The configuration is `c` and the tables have its capacities. -/
structure HasShape (c : Cfg) (s : State) : Prop where
  cfg : s.cfg = c
  txSlots : s.txSlots.length = c.nTx
  rxSlots : s.rxSlots.length = c.nRx
  mta : s.nic.mta.length = c.mtaEntries

/-- `HasShape` is `State.shaped` at a named configuration. -/
theorem hasShape_iff : HasShape c s ↔ s.cfg = c ∧ s.shaped = true := by
  simp only [State.shaped, Bool.and_eq_true, decide_eq_true_eq]
  constructor
  · rintro ⟨rfl, htx, hrx, hmta⟩
    exact ⟨rfl, ⟨htx, hrx⟩, hmta⟩
  · rintro ⟨rfl, ⟨htx, hrx⟩, hmta⟩
    exact ⟨rfl, htx, hrx, hmta⟩

/-- The shape looks at the configuration and three lengths only. -/
theorem HasShape.of_eq (h : HasShape c s) (hcfg : s'.cfg = s.cfg) (htx : s'.txSlots.length = s.txSlots.length)
    (hrx : s'.rxSlots.length = s.rxSlots.length) (hmta : s'.nic.mta.length = s.nic.mta.length) : HasShape c s' :=
  ⟨hcfg.trans h.cfg, htx.trans h.txSlots, hrx.trans h.rxSlots, hmta.trans h.mta⟩

/-- The NIC has no slot tables: a move of its own keeps the shape when it keeps the multicast table's length. -/
theorem HasShape.device (h : HasShape c s) (hd : OnlyDevice s s') (hmta : s'.nic.mta.length = s.nic.mta.length) :
    HasShape c s' := by
  obtain ⟨n, m, w, d, rfl⟩ := hd
  exact h.of_eq rfl rfl rfl hmta

theorem HasShape.nicWrite (h : HasShape c s) (off v : Word) : HasShape c (s.nicWrite off v) :=
  h.device (State.nicWrite_only s off v).device (State.nicWrite_mta_length s off v)

/-- Block reset builds the slot tables at the configured capacities and leaves the NIC alone (10_state R65). -/
theorem HasShape.blockReset (h : HasShape c s) : HasShape c s.blockReset where
  cfg := h.cfg
  txSlots := List.length_replicate.trans (congrArg Cfg.nTx h.cfg)
  rxSlots := List.length_replicate.trans (congrArg Cfg.nRx h.cfg)
  mta := h.mta

/-! ### The primitives of a command -/

theorem HasShape.regRead32 {off v : Word} (h : HasShape c s) (e : s.regRead32 off = some (v, s')) : HasShape c s' := by
  cases ha : s.admits off with
  | false => rw [State.regRead32_refused ha] at e; exact absurd e (by simp)
  | true =>
    rw [State.regRead32_admitted ha] at e
    obtain ⟨-, rfl⟩ := Prod.mk.inj (Option.some.inj e)
    exact h.of_eq (by simp) (by simp) (by simp) (by simp)

theorem HasShape.ioWrite32 {p : IoPort} {v : Word} (h : HasShape c s) (e : s.ioWrite32 p v = some s') :
    HasShape c s' := by
  unfold State.ioWrite32 at e
  split at e
  · cases p with
    | addr => obtain rfl := Option.some.inj e; exact h.of_eq rfl rfl rfl rfl
    | data => obtain rfl := Option.some.inj e; exact (h.nicWrite _ _).of_eq rfl rfl rfl rfl
  · exact absurd e (by simp)

theorem HasShape.reloadFree (h : HasShape c s) : HasShape c s.reloadFree :=
  HasShape.device (s := { s with drawn := s.drawn + 1 }) (h.of_eq rfl rfl rfl rfl) (State.reloadDone_only _ _)
    (congrArg List.length (State.reloadDone_mta _ _))

theorem HasShape.delayReload (h : HasShape c s) : HasShape c s.delayReload := by
  have he : HasShape c (s.emit (.delay s.cfg.delayReloadMs)) := h.of_eq rfl rfl rfl rfl
  unfold State.delayReload
  dsimp only
  split
  · exact he.reloadFree
  · exact he

/-- A primitive that succeeds keeps the shape: a slot is replaced in place, an access keeps the NIC's table. -/
theorem Prim.apply_hasShape {p : Prim} (h : HasShape c s) (e : p.apply s = .ok s') : HasShape c s' := by
  cases p with
  | regWrite off v =>
    obtain ⟨-, rfl⟩ := State.regWrite32_cases (orError_ok e)
    exact h.of_eq rfl rfl rfl rfl
  | regRead off =>
    obtain ⟨⟨v, x⟩, hx, rfl⟩ := Option.map_eq_some_iff.mp (orError_ok e)
    exact h.regRead32 hx
  | ioWrite port v => exact h.ioWrite32 (orError_ok e)
  | delayReload => obtain rfl := Except.ok.inj e; exact h.delayReload
  | setTxSlot i v => obtain rfl := Except.ok.inj e; exact h.of_eq rfl List.length_set rfl rfl
  | setRxSlot i v => obtain rfl := Except.ok.inj e; exact h.of_eq rfl rfl List.length_set rfl
  | _ => obtain rfl := Except.ok.inj e; exact h.of_eq rfl rfl rfl rfl

/-! ### The points of a command -/

/-- Two states agree on the configuration, both slot tables and the NIC. -/
structure SameTables (s s' : State) : Prop where
  cfg : s'.cfg = s.cfg
  txSlots : s'.txSlots = s.txSlots
  rxSlots : s'.rxSlots = s.rxSlots
  nic : s'.nic = s.nic

theorem SameTables.refl (s : State) : SameTables s s := ⟨rfl, rfl, rfl, rfl⟩

theorem SameTables.hasShape (e : SameTables s s') (h : HasShape c s) : HasShape c s' :=
  h.of_eq e.cfg (congrArg _ e.txSlots) (congrArg _ e.rxSlots) (congrArg (fun n => n.mta.length) e.nic)

/-- What a point does to the slot tables and the NIC. -/
inductive TableStep (s : State) : State → Prop where
  | same {s' : State} (h : SameTables s s') : TableStep s s'
  | read {s' : State} {off v : Word} (h : s.regRead32 off = some (v, s')) : TableStep s s'
  | settle (owed : List Owed) : TableStep s (s.settle owed)
  | blockReset : TableStep s s.blockReset

theorem TableStep.hasShape (e : TableStep s s') (h : HasShape c s) : HasShape c s' := by
  cases e with
  | same hs => exact hs.hasShape h
  | read hr => exact h.regRead32 hr
  | settle owed => exact h.device (State.settle_only owed s) (congrArg List.length (State.settle_mta owed s))
  | blockReset => exact h.blockReset

theorem readThen_tableStep {off : Word} {f t : Task} {g : Word → Task} (h : readThen off f g s = .more t s') :
    TableStep s s' := by
  unfold readThen at h
  split at h
  · rename_i r hr
    obtain ⟨-, rfl⟩ := Progress.more.inj h
    exact .read hr
  · obtain ⟨-, rfl⟩ := Progress.more.inj h
    exact .same (.refl s)

theorem lockThen_sameTables {t g : Task} (h : lockThen g s = .more t s') : SameTables s s' := by
  unfold lockThen at h
  split at h
  · exact absurd h (by simp)
  · obtain ⟨-, rfl⟩ := Progress.more.inj h
    exact ⟨rfl, rfl, rfl, rfl⟩

theorem whenAdmitted_sameTables {b : Bool} {t g : Task} (h : whenAdmitted b g s = .more t s') : SameTables s s' := by
  unfold whenAdmitted at h
  split at h <;> (obtain ⟨-, rfl⟩ := Progress.more.inj h; exact .refl s)

theorem requestPoll_sameTables (s : State) : SameTables s (requestPoll s) := by
  unfold requestPoll
  split
  · split <;> exact ⟨rfl, rfl, rfl, rfl⟩
  · exact .refl s

theorem allocRxBuffer_sameTables {z : Word} {o : Option DWord} (h : s.allocRxBuffer z = (o, s')) : SameTables s s' := by
  obtain ⟨-, rfl⟩ := Prod.mk.inj h
  exact ⟨rfl, rfl, rfl, rfl⟩

theorem dmaMap_sameTables {b : DWord} {l : Word} {d : Dir} {o : Option Mapping} (h : s.dmaMap b l d = (o, s')) :
    SameTables s s' := by
  obtain ⟨-, rfl⟩ := Prod.mk.inj h
  exact ⟨rfl, rfl, rfl, rfl⟩

theorem pad_sameTables {b : DWord} {l m : Word} {o : Bool} (h : s.pad b l m = (o, s')) : SameTables s s' := by
  obtain ⟨-, rfl⟩ := Prod.mk.inj h
  exact ⟨rfl, rfl, rfl, rfl⟩

/-- A point that goes on reads a register, ends a settling delay, resets the block, or touches neither the slot tables nor
the NIC: slots are written by primitives, not by points. -/
theorem Point.step_tableStep {p : Point} {t : Task} (h : p.step s = .more t s') : TableStep s s' := by
  cases p with
  | respond r => exact absurd h (by simp [Point.step])
  | read32 | resetCtrl | resetManc | recycleHead | irqRead | pollTail =>
    simp only [Point.step, stepRead32, stepResetCtrl, stepResetManc, stepRecycleHead, stepIrqRead, stepPollTail] at h
    exact readThen_tableStep h
  | resetSettled owed => obtain ⟨-, rfl⟩ := Progress.more.inj h; exact .settle owed
  | detachAdmit =>
    simp only [Point.step, stepDetachAdmit] at h
    split at h <;> obtain ⟨-, rfl⟩ := Progress.more.inj h
    · exact .blockReset
    · exact .same (.refl s)
  | stopLock e => obtain ⟨-, -, -, rfl⟩ := stepStopLock_cases h; exact .same ⟨rfl, rfl, rfl, rfl⟩
  | submitLock | recycleLock => exact .same (lockThen_sameTables h)
  | resetAdmit | configureAdmit | startAdmit | stopAdmit | recycleAdmit | irqAdmit =>
    exact .same (whenAdmitted_sameTables h)
  | irqRequest => obtain ⟨-, rfl⟩ := Progress.more.inj h; exact .same (requestPoll_sameTables s)
  | stopWait =>
    simp only [Point.step, stepStopWait] at h
    split at h
    · exact absurd h (by simp)
    · obtain ⟨-, rfl⟩ := Progress.more.inj h
      exact .same (.refl s)
  | ringAlloc i =>
    simp only [Point.step, stepRingAlloc] at h
    split at h
    · split at h <;> rename_i e <;> obtain ⟨-, rfl⟩ := Progress.more.inj h <;> exact .same (allocRxBuffer_sameTables e)
    · obtain ⟨-, rfl⟩ := Progress.more.inj h
      exact .same (.refl s)
  | pollAlloc =>
    simp only [Point.step, stepPollAlloc] at h
    split at h <;> rename_i e <;> obtain ⟨-, rfl⟩ := Progress.more.inj h <;> exact .same (allocRxBuffer_sameTables e)
  | ringMap | submitMap | pollMap =>
    simp only [Point.step, stepRingMap, stepSubmitMap, stepPollMap] at h
    split at h <;> rename_i e <;> obtain ⟨-, rfl⟩ := Progress.more.inj h <;> exact .same (dmaMap_sameTables e)
  | submitPad =>
    simp only [Point.step, stepSubmitPad] at h
    split at h <;> rename_i e <;> obtain ⟨-, rfl⟩ := Progress.more.inj h <;> exact .same (pad_sameTables e)
  | _ =>
    simp only [Point.step, stepRingAdmit, stepRingUndo, stepResetSettle, stepStopRings, stepStopTx, stepStopRx,
      stepSubmitAdmit, stepSubmitRecheck, stepSubmitTail, stepSubmitDone, stepSubmitSlot, stepSubmitEnd,
      stepRecycleNtc, stepRecycleDone, stepRecycleSlot, stepPollAdmit, stepPollDone, stepPollLength, stepPollTake,
      stepPollNext, stepPollEnd, stepReadStats] at h
    repeat' (split at h)
    all_goals
      obtain ⟨-, rfl⟩ := Progress.more.inj h
      exact .same ⟨rfl, rfl, rfl, rfl⟩

/-- One primitive of a command keeps the shape. -/
theorem Task.step_hasShape {t t' : Task} (h : HasShape c s) (e : t.step s = .more t' s') : HasShape c s' := by
  obtain ⟨todo, point⟩ := t
  cases todo with
  | nil => exact (Point.step_tableStep e).hasShape h
  | cons p ps =>
    unfold Task.step at e
    dsimp only at e
    split at e
    · rename_i hp
      obtain ⟨-, rfl⟩ := Progress.more.inj e
      exact Prim.apply_hasShape h hp
    · obtain ⟨-, rfl⟩ := Progress.more.inj e
      exact h

/-! ### Every move of every agent -/

theorem HasShape.busMove (h : HasShape c s) : HasShape c s.busMove := by
  unfold State.busMove
  split
  · exact h
  · rename_i rest _
    have hrest : HasShape c { s with wbuf := rest } := h.of_eq rfl rfl rfl rfl
    exact hrest.nicWrite _ _

theorem HasShape.hostStore (h : HasShape c s) (a : DWord) (bs : List Byte) : HasShape c (s.hostStore a bs) := by
  unfold State.hostStore
  split
  · exact h.of_eq rfl rfl rfl rfl
  · exact h

theorem HasShape.issue (h : HasShape c s) (w : CmdWord) : HasShape c (s.issue w) := by
  unfold State.issue
  split <;> exact h.of_eq rfl rfl rfl rfl

theorem HasShape.advance (h : HasShape c s) (k : Nat) : HasShape c (s.advance k) := by
  have hw : HasShape c (s.without k) := h.of_eq rfl rfl rfl rfl
  unfold State.advance
  split
  · exact h
  · split
    · rename_i e
      exact (Task.step_hasShape hw e).of_eq rfl rfl rfl rfl
    · rename_i e
      obtain ⟨-, rfl⟩ := Task.step_done e
      exact hw.of_eq rfl rfl rfl rfl
    · exact h

/-- A move of the NIC, held back or not, that keeps the multicast table. -/
theorem HasShape.nicMove (h : HasShape c s) (hd : OnlyDevice s s') (hmta : s'.nic.mta = s.nic.mta)
    (l : List (DWord × Nat)) : HasShape c (s.nicMove l s') :=
  h.device (State.nicMove_only hd l) (congrArg List.length (State.nicMove_mta hmta l))

theorem Move.apply_hasShape (h : HasShape c s) (m : Move) : HasShape c (m.apply s) := by
  cases m with
  | bus => exact h.busMove
  | txAdvance => exact h.nicMove (State.txAdvance_only s) (State.txAdvance_mta s) _
  | txWriteback b r => exact h.nicMove (State.txWriteback_only s b r) (State.txWriteback_mta s b r) _
  | txEarly b r => exact h.nicMove (State.txEarly_only s b r) (State.txEarly_mta s b r) _
  | rxFill f k st e sp r1 r2 =>
    exact h.nicMove (State.rxFill_only s f k st e sp r1 r2) (State.rxFill_mta s f k st e sp r1 r2) _
  | cause b => exact h.device (State.cause_only s b) (congrArg List.length (State.cause_mta s b))
  | reloadDone v => exact h.device (State.reloadDone_only s v) (congrArg List.length (State.reloadDone_mta s v))
  | setMmioValid b => exact h.of_eq rfl rfl rfl rfl
  | setIoValid b => exact h.of_eq rfl rfl rfl rfl
  | hostStore a bs => exact h.hostStore a bs
  | issue w => exact h.issue w
  | advance k => exact h.advance k

/-- The shape is inductive: the schedule, the port and the contexts are no part of it, and every move keeps it. -/
theorem hasShape_inductive (c : Cfg) : Inductive (HasShape c) where
  sched _ _ h := h.of_eq rfl rfl rfl rfl
  port _ _ h := h.of_eq rfl rfl rfl rfl
  move _ m h := Move.apply_hasShape h m
  start _ _ h := h.of_eq rfl rfl rfl rfl
  reject _ h := h.of_eq rfl rfl rfl rfl

end Sys2Proof.Machine

namespace Sys2Proof
open Sys2Proof.Machine

/-- Settles O59: the shape at the configuration of the state before the step is an inductive property. -/
theorem shapeKept : Obligations.ShapeKept := by
  intro s t hs e
  exact hasShape_iff.mp ((hasShape_inductive s.cfg).step (hasShape_iff.mpr ⟨rfl, hs⟩) e)

end Sys2Proof
end

section
/-! PROOFS. What one step of a command does to DRM's own state and to DMA memory, once for every command: a primitive writes
its parts (00_scope R14), the step of a point changes those of `Point.changes`, and nothing else differs. -/

namespace Sys2Proof.Machine

variable {s s' s'' : State}

/-! ### Agreement of two states -/

/-- What the rules about writers speak of: a piece of DRM's own state, or DMA memory. -/
inductive Part where
  | piece (p : Piece)
  | memory

/-- Two states agree on every part outside a list. -/
structure AgreeOff (l : List Part) (s s' : State) : Prop where
  piece : ∀ p, .piece p ∉ l → p.same s s'
  memory : .memory ∉ l → s'.mem = s.mem

theorem AgreeOff.mono {l l' : List Part} (h : AgreeOff l s s') (hl : ∀ x ∈ l, x ∈ l') : AgreeOff l' s s' :=
  ⟨fun p hp => h.piece p (fun hx => hp (hl _ hx)), fun hm => h.memory (fun hx => hm (hl _ hx))⟩

/-- The bus, the NIC, the wire, the host's answers and the model's records are no piece of DRM's state. -/
theorem Piece.same_of_ports (s : State) (wb : List (Word × Word)) (n : Nic) (m : Memory) (al ma : List (Option DWord))
    (pa : List Bool) (tr : List Event) (w : List (List Byte)) (d : Nat) (p : Piece) :
    p.same s { s with wbuf := wb, nic := n, mem := m, allocs := al, maps := ma, pads := pa, trace := tr, wire := w,
                      drawn := d } := by
  cases p <;> rfl

theorem agreeOff_ports (l : List Part) (s : State) (wb : List (Word × Word)) (n : Nic) (al ma : List (Option DWord))
    (pa : List Bool) (tr : List Event) (w : List (List Byte)) (d : Nat) :
    AgreeOff l s { s with wbuf := wb, nic := n, allocs := al, maps := ma, pads := pa, trace := tr, wire := w,
                          drawn := d } :=
  ⟨fun p _ => Piece.same_of_ports s wb n s.mem al ma pa tr w d p, fun _ => rfl⟩

theorem AgreeOff.refl (l : List Part) (s : State) : AgreeOff l s s :=
  agreeOff_ports l s s.wbuf s.nic s.allocs s.maps s.pads s.trace s.wire s.drawn

theorem OnlyDevice.piece_same (h : OnlyDevice s s') (p : Piece) : p.same s s' := by
  obtain ⟨n, m, w, d, rfl⟩ := h
  exact Piece.same_of_ports ..

/-! ### What a primitive writes -/

/-- The parts a primitive writes (00_scope R14). -/
def Prim.parts : Prim → List Part
  | .regWrite _ _ | .regRead _ | .ioWrite _ _ | .delayReload | .call _ => []
  | .setFsm _ => [.piece .fsm]
  | .setTxBase _ => [.piece .txBase]
  | .setRxBase _ => [.piece .rxBase]
  | .setTxTail _ => [.piece .txTail]
  | .setTxNtc _ => [.piece .txNtc]
  | .setRingsReady _ => [.piece .ringsReady]
  | .setPollState _ => [.piece .pollState]
  | .setPollMissed _ => [.piece .pollMissed]
  | .countDropped => [.piece .rxDropped]
  | .txd _ _ _ | .rxd _ _ _ => [.memory]
  | .setTxSlot _ _ => [.piece .txSlots]
  | .setRxSlot _ _ => [.piece .rxSlots]
  | .unlock => [.piece .txLock]

theorem State.delayReload_agreeOff (l : List Part) (s : State) : AgreeOff l s s.delayReload := by
  unfold State.delayReload State.reloadFree State.reloadDone
  dsimp only
  split_ifs <;> exact agreeOff_ports ..

theorem State.regRead32_agreeOff {off v : Word} (l : List Part) (h : s.regRead32 off = some (v, s')) :
    AgreeOff l s s' := by
  obtain ⟨_, _, n, d, rfl⟩ := State.regRead32_cases h
  exact agreeOff_ports ..

/-- A primitive writes its parts and nothing else of DRM's state or memory. -/
theorem Prim.apply_agreeOff {p : Prim} (h : p.apply s = .ok s') : AgreeOff p.parts s s' := by
  cases p with
  | regWrite off v =>
    obtain ⟨_, rfl⟩ := State.regWrite32_cases (orError_ok h)
    exact agreeOff_ports ..
  | regRead off =>
    obtain ⟨⟨v, x⟩, hx, rfl⟩ := Option.map_eq_some_iff.mp (orError_ok h)
    exact State.regRead32_agreeOff _ hx
  | ioWrite port v =>
    obtain ⟨_, n, d, rfl⟩ := State.ioWrite32_cases (orError_ok h)
    exact agreeOff_ports ..
  | delayReload => obtain rfl := Except.ok.inj h; exact State.delayReload_agreeOff _ s
  | call c => obtain rfl := Except.ok.inj h; exact agreeOff_ports ..
  | _ =>
    obtain rfl := Except.ok.inj h
    refine ⟨fun p hp => ?_, fun hm => ?_⟩
    · cases p <;> simp_all [Prim.parts, Piece.same]
    · simp_all [Prim.parts]

/-! ### What the step of a point leads to -/

/-- A step that goes on leads to a task and a state with `Q`. -/
def Progress.Leads (Q : Task → State → Prop) : Progress → Prop
  | .more t s => Q t s
  | .done _ _ => True
  | .wait => True

variable {Q : Task → State → Prop}

@[simp] theorem leads_more {t : Task} : (Progress.more t s).Leads Q ↔ Q t s := Iff.rfl
@[simp] theorem leads_done {r : Response} : (Progress.done r s).Leads Q := trivial
@[simp] theorem leads_wait : Progress.wait.Leads Q := trivial

theorem leads_readThen {off : Word} {f : Task} {g : Word → Task} (hf : Q f s)
    (hg : ∀ v s', s.regRead32 off = some (v, s') → Q (g v) s') : (readThen off f g s).Leads Q := by
  unfold readThen
  split
  · rename_i e; exact hg _ _ e
  · exact hf

theorem leads_lockThen {t : Task} (h : s.txLock = false → Q t { s with txLock := true }) : (lockThen t s).Leads Q := by
  unfold lockThen
  split
  · trivial
  · rename_i hl; exact h (by simpa using hl)

theorem leads_stopLock {err : Option Word}
    (h : s.txLock = false → Q (Task.goto (.stopRings err)) { s with txLock := true }) : (stepStopLock err s).Leads Q := by
  unfold stepStopLock
  split
  · trivial
  · exact leads_lockThen h

theorem leads_whenAdmitted {b : Bool} {t : Task} (h : Q t s) (hr : Q (Task.answer (.refuse .illegalState)) s) :
    (whenAdmitted b t s).Leads Q := by
  unfold whenAdmitted
  split
  · exact h
  · exact hr

theorem Progress.Leads.imp {Q' : Task → State → Prop} {g : Progress} (h : g.Leads Q) (hQ : ∀ t s, Q t s → Q' t s) :
    g.Leads Q' := by
  cases g with
  | more t s => exact hQ t s h
  | done => trivial
  | wait => trivial

theorem Progress.Leads.of_more {g : Progress} {t : Task} (h : g.Leads Q) (e : g = .more t s) : Q t s := by
  rwa [e] at h

/-- The parts the step of a point changes itself, before the primitives it asks for. -/
def Point.changes : Point → List Part
  | .stopLock _ | .submitLock _ _ | .recycleLock _ => [.piece .txLock]
  | .detachAdmit => (writesOf .detach).map .piece
  | .irqRequest | .pollAdmit _ | .pollEnd _ _ => [.piece .pollState, .piece .pollMissed]
  | .resetSettled _ => [.memory]
  | .respond _ | .read32 _ | .ringAdmit _ _ | .ringAlloc _ | .ringMap _ _ | .ringUndo _ _ | .resetAdmit | .resetSettle
  | .resetCtrl | .resetManc | .configureAdmit | .startAdmit | .stopAdmit | .stopWait | .stopRings _ | .stopTx _ _
  | .stopRx _ _ | .submitAdmit _ _ | .submitRecheck _ _ | .submitTail _ _ | .submitDone _ _ _ | .submitPad _ _ _
  | .submitMap _ _ _ | .submitSlot _ _ _ | .submitEnd | .recycleAdmit | .recycleHead _ | .recycleNtc _ _
  | .recycleDone _ _ _ | .recycleSlot _ _ _ | .irqAdmit | .irqRead | .pollTail _ | .pollDone _ _ _ | .pollLength _ _ _
  | .pollAlloc _ _ _ _ | .pollMap _ _ _ _ _ | .pollTake _ _ _ _ _ _ | .pollNext _ _ _ | .readStats => []

theorem State.blockReset_agreeOff (s : State) : AgreeOff ((writesOf .detach).map .piece) s s.blockReset := by
  refine ⟨fun p hp => absurd ?_ hp, fun _ => rfl⟩
  cases p <;> simp [writesOf]

theorem State.pollUpdate_agreeOff (s : State) (p : PollState) (b : Bool) :
    AgreeOff [.piece .pollState, .piece .pollMissed] s { s with pollState := p, pollMissed := b } := by
  refine ⟨fun p hp => ?_, fun _ => rfl⟩
  cases p <;> simp_all [Piece.same]

theorem State.lockUpdate_agreeOff (s : State) (b : Bool) : AgreeOff [.piece .txLock] s { s with txLock := b } := by
  refine ⟨fun p hp => ?_, fun _ => rfl⟩
  cases p <;> simp_all [Piece.same]

theorem requestPoll_agreeOff (s : State) : AgreeOff [.piece .pollState, .piece .pollMissed] s (requestPoll s) := by
  unfold requestPoll
  split
  · split <;> refine ⟨fun p hp => ?_, fun _ => rfl⟩ <;> cases p <;> simp_all [Piece.same]
  · exact .refl _ s

/-- The step of a point changes the parts of `Point.changes` and nothing else of DRM's state or memory. -/
theorem Point.step_agreeOff (p : Point) (s : State) : (p.step s).Leads (fun _ s' => AgreeOff p.changes s s') := by
  cases p with
  | respond => trivial
  | read32 | resetCtrl | resetManc | recycleHead | irqRead | pollTail =>
    simp only [Point.step, stepRead32, stepResetCtrl, stepResetManc, stepRecycleHead, stepIrqRead, stepPollTail]
    exact leads_readThen (.refl _ s) (fun v s' => State.regRead32_agreeOff _)
  | resetAdmit | configureAdmit | startAdmit | stopAdmit | recycleAdmit | irqAdmit =>
    exact leads_whenAdmitted (.refl _ s) (.refl _ s)
  | submitLock | recycleLock => exact leads_lockThen (fun _ => State.lockUpdate_agreeOff s true)
  | stopLock => exact leads_stopLock (fun _ => State.lockUpdate_agreeOff s true)
  | resetSettled owed =>
    exact ⟨fun p _ => (State.settle_only owed s).piece_same p, fun hm => absurd (List.mem_singleton_self _) hm⟩
  | detachAdmit =>
    simp only [Point.step, stepDetachAdmit]
    split
    · exact State.blockReset_agreeOff s
    · exact .refl _ s
  | irqRequest => exact requestPoll_agreeOff s
  | pollAdmit =>
    simp only [Point.step, stepPollAdmit]
    split
    · exact State.pollUpdate_agreeOff s .active s.pollMissed
    · exact .refl _ s
  | pollEnd =>
    simp only [Point.step, stepPollEnd]
    split
    · exact State.pollUpdate_agreeOff s .scheduled false
    · exact State.pollUpdate_agreeOff s .idle s.pollMissed
  | ringAlloc =>
    simp only [Point.step, stepRingAlloc]
    split
    · split <;> rename_i e <;> obtain ⟨-, rfl⟩ := Prod.mk.inj e <;> exact agreeOff_ports ..
    · exact .refl _ s
  | ringMap | submitPad | submitMap | pollAlloc | pollMap =>
    simp only [Point.step, stepRingMap, stepSubmitPad, stepSubmitMap, stepPollAlloc, stepPollMap]
    split <;> rename_i e <;> obtain ⟨-, rfl⟩ := Prod.mk.inj e <;> exact agreeOff_ports ..
  | stopWait =>
    simp only [Point.step, stepStopWait]
    split
    · trivial
    · exact .refl _ s
  | _ =>
    simp only [Point.step, stepRingAdmit, stepRingUndo, stepResetSettle, stepStopRings, stepStopTx, stepStopRx,
      stepSubmitAdmit, stepSubmitRecheck, stepSubmitTail, stepSubmitDone, stepSubmitSlot, stepSubmitEnd, stepRecycleNtc,
      stepRecycleDone, stepRecycleSlot, stepPollDone, stepPollLength, stepPollTake, stepPollNext, stepReadStats]
    repeat' split
    all_goals exact agreeOff_ports ..

/-- How a command goes on: from its point, past a primitive, or to the clean-up of an access that failed. -/
inductive TaskStep (s : State) : Task → Task → State → Prop where
  | point {p : Point} {t' : Task} {s' : State} (h : p.step s = .more t' s') : TaskStep s ⟨[], p⟩ t' s'
  | prim {q : Prim} {qs : List Prim} {p : Point} {s' : State} (h : q.apply s = .ok s') :
      TaskStep s ⟨q :: qs, p⟩ ⟨qs, p⟩ s'
  | failed {q : Prim} {qs : List Prim} {p : Point} {off : Word} (h : q.apply s = .error off) :
      TaskStep s ⟨q :: qs, p⟩ (p.onError off) s

theorem Task.step_cases {t t' : Task} (h : t.step s = .more t' s') : TaskStep s t t' s' := by
  obtain ⟨todo, p⟩ := t
  cases todo with
  | nil => exact .point h
  | cons q qs =>
    simp only [Task.step] at h
    split at h <;> rename_i e <;> obtain ⟨rfl, rfl⟩ := Progress.more.inj h
    · exact .prim e
    · exact .failed e

end Sys2Proof.Machine
end

section
/-! PROOFS. What a move of any agent does to DRM and its commands in flight, and the one induction behind the invariants of
DRM's own state under every schedule (45_device_agent R240). -/

namespace Sys2Proof.Machine

variable {s s' : State}

/-! ### What a move of any agent does to DRM -/

/-- The configuration, the commands in flight and every piece of DRM's own state are as they were. -/
structure SameDrm (s s' : State) : Prop where
  cfg : s'.cfg = s.cfg
  tasks : s'.tasks = s.tasks
  piece : ∀ p : Piece, p.same s s'

/-- Every field but DRM's own state, the configuration and the commands in flight is outside. -/
theorem sameDrm_outside (s : State) (k : Nat) (wb : List (Word × Word)) (n : Nic) (m : Memory) (mv iv : Bool)
    (w : Option CmdWord) (sc : List (List Move)) (al ma : List (Option DWord)) (pa : List Bool) (tr : List Event)
    (wi : List (List Byte)) (d : Nat) :
    SameDrm s { s with nextCtx := k, wbuf := wb, nic := n, mem := m, mmioValid := mv, ioValid := iv, port := w,
                       sched := sc, allocs := al, maps := ma, pads := pa, trace := tr, wire := wi, drawn := d } :=
  ⟨rfl, rfl, fun p => by cases p <;> rfl⟩

theorem SameDrm.refl (s : State) : SameDrm s s := sameDrm_outside ..

theorem OnlyDevice.sameDrm (h : OnlyDevice s s') : SameDrm s s' := by
  obtain ⟨n, m, w, d, rfl⟩ := h
  exact sameDrm_outside ..

theorem State.busMove_sameDrm (s : State) : SameDrm s s.busMove := by
  unfold State.busMove
  split
  · exact .refl s
  · rename_i off v rest _
    obtain ⟨n, d, e⟩ := State.nicWrite_only { s with wbuf := rest } off v
    rw [e]
    exact sameDrm_outside ..

theorem State.hostStore_sameDrm (s : State) (a : DWord) (bs : List Byte) : SameDrm s (s.hostStore a bs) := by
  unfold State.hostStore
  split <;> exact sameDrm_outside ..

/-- What a move can do to DRM: nothing, start a command, make a primitive of a command in flight, or end one. -/
inductive MoveEffect (s : State) : Move → State → Prop where
  | outside {m : Move} {s' : State} (h : SameDrm s s') : MoveEffect s m s'
  | issue {w : CmdWord} {i : Instr} (h : decode w = .ok i) :
      MoveEffect s (.issue w) (s.takeCtx.park s.nextCtx (taskOf s.cfg i))
  | primitive {k : Nat} {t t' : Task} {s' : State} (ht : taskAt s.tasks k = some t)
      (h : t.step (s.without k) = .more t' s') : MoveEffect s (.advance k) (s'.park k t')
  | answer {k : Nat} {r : Response} (ht : taskAt s.tasks k = some (Task.answer r)) :
      MoveEffect s (.advance k) ((s.without k).respond k r)

theorem State.issue_effect (s : State) (w : CmdWord) : MoveEffect s (.issue w) (s.issue w) := by
  unfold State.issue
  split
  · rename_i e; exact .issue e
  · exact .outside (sameDrm_outside ..)

theorem State.advance_effect (s : State) (k : Nat) : MoveEffect s (.advance k) (s.advance k) := by
  unfold State.advance
  split
  · exact .outside (.refl s)
  · rename_i t ht
    split
    · rename_i e; exact .primitive ht e
    · rename_i e
      obtain ⟨rfl, rfl⟩ := Task.step_done e
      exact .answer ht
    · exact .outside (.refl s)

theorem Move.apply_effect (s : State) (m : Move) : MoveEffect s m (m.apply s) := by
  cases m with
  | bus => exact .outside (State.busMove_sameDrm s)
  | txAdvance => exact .outside (State.nicMove_only (State.txAdvance_only s) _).sameDrm
  | txWriteback b r => exact .outside (State.nicMove_only (State.txWriteback_only s b r) _).sameDrm
  | txEarly b r => exact .outside (State.nicMove_only (State.txEarly_only s b r) _).sameDrm
  | rxFill f c st e sp r1 r2 => exact .outside (State.nicMove_only (State.rxFill_only s f c st e sp r1 r2) _).sameDrm
  | cause b => exact .outside (State.cause_only s b).sameDrm
  | reloadDone v => exact .outside (State.reloadDone_only s v).sameDrm
  | setMmioValid b => exact .outside (sameDrm_outside ..)
  | setIoValid b => exact .outside (sameDrm_outside ..)
  | hostStore a bs => exact .outside (State.hostStore_sameDrm s a bs)
  | issue w => exact s.issue_effect w
  | advance k => exact s.advance_effect k

/-! ### Invariants of DRM and its commands in flight -/

/-- The command in flight in a context, taken out of the list. -/
theorem taskAt_perm {l : List (Nat × Task)} {k : Nat} {t : Task} (h : taskAt l k = some t) :
    l.Perm ((k, t) :: otherTasks l k) := by
  induction l with
  | nil => exact absurd h (by simp [taskAt])
  | cons x l ih =>
    obtain ⟨j, u⟩ := x
    by_cases hj : j = k
    · subst hj
      obtain rfl : u = t := by simpa [taskAt] using h
      simp
    · have hl : taskAt l k = some t := by simpa [taskAt, hj] using h
      have ho : otherTasks ((j, u) :: l) k = (j, u) :: otherTasks l k := by simp [otherTasks, hj]
      rw [ho]
      exact ((ih hl).cons _).trans (.swap _ _ _)

/-- A property of DRM's own state and the commands in flight that every primitive of every command keeps, as long as only
commands with `Q` are issued. -/
structure CommandInvariant (Q : Instr → Prop) (P : State → Prop) : Prop where
  /-- It looks at nothing else. -/
  same : ∀ {s s' : State}, SameDrm s s' → P s → P s'
  issue : ∀ {s : State} {i : Instr} (k : Nat), Q i → P s → P (s.park k (taskOf s.cfg i))
  primitive : ∀ {s s' : State} {k : Nat} {t t' : Task}, P s → taskAt s.tasks k = some t →
    t.step (s.without k) = .more t' s' → P (s'.park k t')
  answer : ∀ {s : State} {k : Nat} {r : Response}, P s → taskAt s.tasks k = some (Task.answer r) → P (s.without k)

/-- A move that issues only commands with `Q`. -/
def Move.IssuesOnly (Q : Instr → Prop) : Move → Prop
  | .issue w => ∀ i, decode w = .ok i → Q i
  | _ => True

variable {Q : Instr → Prop} {P : State → Prop}

/-- A command that starts, by a move or from the command port. -/
theorem CommandInvariant.start (h : CommandInvariant Q P) {i : Instr} (hi : Q i) (hs : P s) :
    P (s.takeCtx.park s.nextCtx (taskOf s.cfg i)) :=
  h.issue (s := s.takeCtx) _ hi (h.same (sameDrm_outside ..) hs)

theorem CommandInvariant.move (h : CommandInvariant Q P) {m : Move} (hm : m.IssuesOnly Q) (hs : P s) : P (m.apply s) := by
  have e := Move.apply_effect s m
  generalize m.apply s = s' at e
  cases e with
  | outside e => exact h.same e hs
  | issue e => exact h.start (hm _ e) hs
  | primitive ht e => exact h.primitive hs ht e
  | answer ht => exact h.same (sameDrm_outside ..) (h.answer hs ht)

theorem CommandInvariant.under (h : CommandInvariant Q P) : InductiveUnder (Move.IssuesOnly Q) P :=
  ⟨fun _ _ hs => h.same (sameDrm_outside ..) hs, fun _ _ hm hs => h.move hm hs, fun _ => trivial⟩

/-- A step keeps the property when the command port and the schedule hold only commands with `Q`. -/
theorem CommandInvariant.step (h : CommandInvariant Q P) (hsched : s.schedAll (Move.IssuesOnly Q))
    (hport : ∀ w i, s.port = some w → decode w = .ok i → Q i) (hs : P s)
    (e : Sys2Proof.Machine.step s = .next s') : P s' := by
  unfold Sys2Proof.Machine.step at e
  split at e
  · rename_i w hw
    have hp : P s.takePort := h.same (sameDrm_outside ..) hs
    unfold serve at e
    split at e
    · rename_i i hi
      obtain ⟨turns, he⟩ := exec_eq i s.takePort
      obtain rfl := Host.Outcome.next.inj (he.symm.trans e)
      exact h.under.runCommand _ _ _ hsched (h.start (hport w i hw hi) hp)
    · obtain rfl := Host.Outcome.next.inj e
      exact h.same (sameDrm_outside s.takePort ..) hp
  · obtain rfl := Host.Outcome.next.inj e
    unfold State.idle
    split
    · exact h.same (State.busMove_sameDrm s) hs
    · exact (h.under.gap hsched hs).1

end Sys2Proof.Machine
end

section
/-! PROOFS. What a command may write, wherever it stands (10_state R21, R24, R29; 60_exceptions R280): a command never comes
to a primitive or a point that writes more than the rule of the command names. -/

namespace Sys2Proof.Machine

variable {s s' : State} {c : Cfg} {i : Instr} {l : List Part}

/-- What a command may write: its pieces, and DMA memory when it touches it. -/
def partsOf (i : Instr) : List Part := (writesOf i).map .piece ++ if touchesMemory i then [.memory] else []

@[simp] theorem touchesMemory_ringInit (a b : Word) : touchesMemory (.ringInit a b) = true := rfl
@[simp] theorem touchesMemory_reset : touchesMemory .reset = true := rfl
@[simp] theorem touchesMemory_submit (n : Word) (b : DWord) : touchesMemory (.submit n b) = true := rfl
@[simp] theorem touchesMemory_poll (b : Word) : touchesMemory (.poll b) = true := rfl

/-- What the runner of RECYCLE's body may write. -/
def Caller.mayWrite : Caller → List Part
  | .command => partsOf .recycle
  | .poll _ => partsOf (.poll 0)

/-- What the command that stands at a point may write. -/
def Point.mayWrite : Point → List Part
  | .respond _ | .read32 _ | .readStats => []
  | .ringAdmit _ _ | .ringAlloc _ | .ringMap _ _ | .ringUndo _ _ => partsOf (.ringInit 0 0)
  | .resetAdmit | .resetSettle | .resetSettled _ | .resetCtrl | .resetManc => partsOf .reset
  | .configureAdmit => partsOf .configure
  | .startAdmit => partsOf .start
  | .stopAdmit | .stopWait | .stopLock _ | .stopRings _ | .stopTx _ _ | .stopRx _ _ => partsOf .stop
  | .detachAdmit => partsOf .detach
  | .submitAdmit _ _ | .submitLock _ _ | .submitRecheck _ _ | .submitTail _ _ | .submitDone _ _ _ | .submitPad _ _ _
  | .submitMap _ _ _ | .submitSlot _ _ _ | .submitEnd => partsOf (.submit 0 0)
  | .recycleAdmit => partsOf .recycle
  | .recycleLock c | .recycleHead c | .recycleNtc c _ | .recycleDone c _ _ | .recycleSlot c _ _ => c.mayWrite
  | .irqAdmit | .irqRead | .irqRequest => partsOf .irq
  | .pollAdmit _ | .pollTail _ | .pollDone _ _ _ | .pollLength _ _ _ | .pollAlloc _ _ _ _ | .pollMap _ _ _ _ _
  | .pollTake _ _ _ _ _ _ | .pollNext _ _ _ | .pollEnd _ _ => partsOf (.poll 0)

/-- A command writes nothing outside a list, now or later. -/
def Task.WritesIn (l : List Part) (t : Task) : Prop :=
  (∀ p ∈ t.todo, ∀ x ∈ p.parts, x ∈ l) ∧ ∀ x ∈ t.point.mayWrite, x ∈ l

theorem Task.WritesIn.mono {l' : List Part} {t : Task} (h : t.WritesIn l) (hl : ∀ x ∈ l, x ∈ l') : t.WritesIn l' :=
  ⟨fun p hp x hx => hl x (h.1 p hp x hx), fun x hx => hl x (h.2 x hx)⟩

@[simp] theorem writesIn_mk {ps : List Prim} {p : Point} :
    Task.WritesIn l ⟨ps, p⟩ ↔ (∀ q ∈ ps, ∀ x ∈ q.parts, x ∈ l) ∧ ∀ x ∈ p.mayWrite, x ∈ l := Iff.rfl

@[simp] theorem writesIn_goto {p : Point} : (Task.goto p).WritesIn l ↔ ∀ x ∈ p.mayWrite, x ∈ l := by simp [Task.goto]

@[simp] theorem writesIn_answer {r : Response} : (Task.answer r).WritesIn l := by simp [Task.answer, Point.mayWrite]

@[simp] theorem writesIn_raise {off : Word} : (Task.raise off).WritesIn l := writesIn_answer

@[simp] theorem writesIn_unlockAnswer {r : Response} :
    (Task.unlockAnswer r).WritesIn l ↔ .piece .txLock ∈ l := by
  simp [Task.unlockAnswer, Point.mayWrite, Prim.parts]

@[simp] theorem writesIn_recycleThen {ps : List Prim} {e : Option Word} {c : Caller} :
    (recycleThen ps e c).WritesIn c.mayWrite ↔ ∀ q ∈ ps, ∀ x ∈ q.parts, x ∈ c.mayWrite := by
  cases c <;> simp [recycleThen, Prim.parts, Point.mayWrite, Caller.mayWrite, partsOf, writesOf, or_imp, forall_and]

theorem Point.changes_mayWrite (p : Point) : ∀ x ∈ p.changes, x ∈ p.mayWrite := by
  cases p with
  | recycleLock c => cases c <;> simp [Point.changes, Point.mayWrite, Caller.mayWrite, partsOf, writesOf]
  | _ => simp [Point.changes, Point.mayWrite, partsOf, writesOf]

theorem Point.onError_writesIn (p : Point) (off : Word) : (p.onError off).WritesIn p.mayWrite := by
  cases p <;> simp [Point.onError, Point.mayWrite, partsOf, writesOf]

/-- CONFIGURE's two lists are register writes. -/
theorem mem_configure {q : Prim} (h : q ∈ configureRx c ++ configureTx c) : ∃ off v, q = .regWrite off v := by
  simp only [configureRx, configureTx, List.mem_append, List.mem_map, List.mem_cons, List.not_mem_nil, or_false] at h
  grind

/-- RING_INIT's first part writes the bases, the TX descriptors and slots, and the two indices. -/
theorem mem_ringInitTx {a b : Word} {q : Prim} (h : q ∈ ringInitTx c a b) :
    q = .setTxBase a ∨ q = .setRxBase b ∨ (∃ i f v, q = .txd i f v) ∨ (∃ i, q = .setTxSlot i .empty) ∨
      q = .setTxTail 0 ∨ q = .setTxNtc 0 := by
  simp only [ringInitTx, freeTxDescriptor, txdWrites, List.mem_append, List.mem_flatMap, List.mem_cons,
    List.not_mem_nil, or_false] at h
  grind

/-- A point leads to a task that writes no more than the command at the point may. -/
theorem Point.step_writesIn (p : Point) (s : State) : (p.step s).Leads (fun t _ => t.WritesIn p.mayWrite) := by
  cases p with
  | respond => trivial
  | read32 | resetCtrl | resetManc | pollTail =>
    simp only [Point.step, stepRead32, stepResetCtrl, stepResetManc, stepPollTail]
    exact leads_readThen (by simp [Point.mayWrite])
      (fun v s' _ => by simp [Point.mayWrite, partsOf, writesOf, Prim.parts, writeViaIoPort])
  | irqRead =>
    simp only [Point.step, stepIrqRead]
    refine leads_readThen (by simp) (fun v s' _ => ?_)
    split <;> simp [Point.mayWrite]
  | recycleHead c =>
    simp only [Point.step, stepRecycleHead]
    refine leads_readThen (by simp [Point.mayWrite]) (fun v s' _ => ?_)
    split <;> simp [Point.mayWrite]
  | resetAdmit | startAdmit | stopAdmit | recycleAdmit | irqAdmit =>
    simp only [Point.step, stepResetAdmit, stepStartAdmit, stepStopAdmit, stepRecycleAdmit, stepIrqAdmit]
    refine leads_whenAdmitted ?_ (by simp)
    simp [Point.mayWrite, Caller.mayWrite, recycleBody, partsOf, writesOf, Prim.parts, quiesce, flush]
  | configureAdmit =>
    refine leads_whenAdmitted ⟨List.forall_mem_append.2 ⟨fun q hq => ?_, ?_⟩, by simp [Point.mayWrite]⟩ (by simp)
    · obtain ⟨off, v, rfl⟩ := mem_configure hq
      simp [Prim.parts]
    · simp [Point.mayWrite, partsOf, writesOf, Prim.parts]
  | submitLock | recycleLock => exact leads_lockThen (fun _ => by simp [Point.mayWrite])
  | stopLock => exact leads_stopLock (fun _ => by simp [Point.mayWrite])
  | ringAdmit a b =>
    simp only [Point.step, stepRingAdmit]
    split_ifs
    · refine ⟨fun q hq => ?_, fun x hx => hx⟩
      obtain rfl | rfl | ⟨_, _, _, rfl⟩ | ⟨_, rfl⟩ | rfl | rfl := mem_ringInitTx hq <;>
        simp [Prim.parts, Point.mayWrite, partsOf, writesOf]
    · simp
    · simp
  | submitSlot buf t m =>
    simp only [Point.step, stepSubmitSlot]
    cases slotAt s.txSlots t <;>
      simp [reclaimInPlace, txdWrites, Prim.parts, Point.mayWrite, partsOf, writesOf]
  | pollTake budget next work len m2 b2 =>
    simp only [Point.step, stepPollTake]
    cases slotAt s.rxSlots next <;> simp [handOver, Prim.parts, Point.mayWrite, partsOf, writesOf]
  | recycleDone c h idx =>
    simp only [Point.step, stepRecycleDone]
    split
    · simp [Point.mayWrite]
    · exact writesIn_recycleThen.mpr (by cases c <;> simp [Caller.mayWrite, partsOf, writesOf, Prim.parts])
  | recycleSlot c h idx =>
    simp only [Point.step, stepRecycleSlot]
    split <;> cases c <;> simp [Point.mayWrite, Caller.mayWrite, partsOf, writesOf, Prim.parts]
  | _ =>
    simp only [Point.step, stepRingAlloc, stepRingMap, stepRingUndo, stepResetSettle, stepResetSettled, stepStopWait,
      stepStopRings, stepStopTx, stepStopRx, stepDetachAdmit, stepSubmitAdmit, stepSubmitRecheck, stepSubmitTail,
      stepSubmitDone, stepSubmitPad, stepSubmitMap, stepSubmitEnd, stepRecycleNtc, stepIrqRequest, stepPollAdmit,
      stepPollDone, stepPollLength, stepPollAlloc, stepPollMap, stepPollNext, stepPollEnd, stepReadStats]
    repeat' split
    all_goals
      simp [rxdArm, quiesce, flush, recycleBody, Prim.parts, Point.mayWrite, Caller.mayWrite, partsOf, writesOf]

/-- One primitive of a command that writes nothing outside a list changes nothing outside it, and leaves a command that
writes nothing outside it. -/
theorem Task.step_writesIn {t t' : Task} (ht : t.WritesIn l) (h : t.step s = .more t' s') :
    t'.WritesIn l ∧ AgreeOff l s s' := by
  obtain ⟨htodo, hp⟩ := ht
  cases Task.step_cases h with
  | @point p _ _ e =>
    have hw := (Point.step_writesIn p s).of_more e
    have ha := (Point.step_agreeOff p s).of_more e
    exact ⟨hw.mono hp, ha.mono (fun x hx => hp x (p.changes_mayWrite x hx))⟩
  | @prim q qs _ _ e => exact ⟨⟨fun r hr => htodo r (.tail _ hr), hp⟩, (Prim.apply_agreeOff e).mono (htodo q (.head _))⟩
  | @failed _ _ p _ e => exact ⟨(p.onError_writesIn _).mono hp, .refl l s⟩

theorem taskOf_writesIn (c : Cfg) (i : Instr) : (taskOf c i).WritesIn (partsOf i) := by
  cases i <;> simp [taskOf, read32Task, write32Task, writeFlushTask, writeIoTask, writeViaIoPort, flush, ringInitTask,
    resetTask, configureTask, startTask, stopTask, detachTask, submitTask, recycleTask, irqTask, pollTask, readStatsTask,
    Prim.parts, Point.mayWrite, partsOf, writesOf]

/-- Wherever a command stands, it writes nothing outside its rule's parts. -/
theorem Reaches.writesIn {t : Task} (h : Reaches c i t) : t.WritesIn (partsOf i) := by
  induction h with
  | start => exact taskOf_writesIn c i
  | next _ _ e ih => exact (Task.step_writesIn ih e).1

end Sys2Proof.Machine

namespace Sys2Proof
open Sys2Proof.Machine

/-- Settles O53: where a command stands it writes only the parts of its rule, by induction on how it came there. -/
theorem writersOnly : Obligations.WritersOnly := by
  intro c i t t' s s' hr _ h
  have ha := (Task.step_writesIn hr.writesIn h).2
  exact ⟨fun p hp => ha.piece p (by simpa [partsOf] using hp), fun hm => ha.memory (by simp [partsOf, hm])⟩

end Sys2Proof
end

section
/-! PROOFS. The TX indices under every schedule (10_state R21, 42_ring_manager R191): the two registers, and every index a
command in flight has still to write to them, stay below the capacity of the ring. -/

namespace Sys2Proof.Machine

variable {s s' : State} {c : Cfg} {n : Nat}

theorem nextIndex_lt (h : 0 < n) (i : Word) : (nextIndex n i).toNat < n := by
  rw [nextIndex, BitVec.toNat_ofNat]
  exact (Nat.mod_le _ _).trans_lt (Nat.mod_lt _ h)

/-- Every index a command has still to write to the two registers is below `n`. -/
def Task.indexOk (n : Nat) (t : Task) : Bool := t.todo.all (Prim.indexOk n) && t.point.indexOk n

@[simp] theorem indexOk_mk {ps : List Prim} {p : Point} :
    Task.indexOk n ⟨ps, p⟩ = (ps.all (Prim.indexOk n) && p.indexOk n) := rfl

@[simp] theorem indexOk_goto {p : Point} : (Task.goto p).indexOk n = p.indexOk n := rfl
@[simp] theorem indexOk_answer {r : Response} : (Task.answer r).indexOk n = true := rfl
@[simp] theorem indexOk_raise {off : Word} : (Task.raise off).indexOk n = true := rfl
@[simp] theorem indexOk_unlockAnswer {r : Response} : (Task.unlockAnswer r).indexOk n = true := rfl

@[simp] theorem indexOk_recycleThen {ps : List Prim} {e : Option Word} {k : Caller} :
    (recycleThen ps e k).indexOk n = ps.all (Prim.indexOk n) := by
  cases k <;> simp [recycleThen, Prim.indexOk, Point.indexOk]

theorem Point.onError_indexOk (p : Point) (off : Word) : (p.onError off).indexOk n = true := by
  cases p <;> simp [Point.onError, Point.indexOk]

/-- A primitive that writes neither index register writes none out of range. -/
theorem Prim.indexOk_of_parts {q : Prim} (htail : Part.piece .txTail ∉ q.parts) (hntc : Part.piece .txNtc ∉ q.parts) :
    q.indexOk n = true := by
  cases q <;> simp_all [Prim.indexOk, Prim.parts]

/-- Only in RECYCLE's loop, which may write next-to-clean, a point carries an index for a register. -/
theorem Point.indexOk_of_mayWrite {p : Point} (h : Part.piece .txNtc ∉ p.mayWrite) : p.indexOk n = true := by
  cases p with
  | recycleDone c | recycleSlot c => cases c <;> simp [Point.mayWrite, Caller.mayWrite, partsOf, writesOf] at h
  | _ => rfl

/-- A command that may write neither index register carries no index for one. -/
theorem Task.WritesIn.indexOk {l : List Part} {t : Task} (h : t.WritesIn l) (htail : Part.piece .txTail ∉ l)
    (hntc : Part.piece .txNtc ∉ l) : t.indexOk n = true := by
  obtain ⟨htodo, hp⟩ := h
  refine Bool.and_eq_true_iff.mpr ⟨List.all_eq_true.mpr fun q hq => ?_, ?_⟩
  · exact Prim.indexOk_of_parts (fun hx => htail (htodo q hq _ hx)) (fun hx => hntc (htodo q hq _ hx))
  · exact Point.indexOk_of_mayWrite (fun hx => hntc (hp _ hx))

/-- The two TX index registers are below `n`. -/
def State.indicesBelow (n : Nat) (s : State) : Prop := s.txTail.toNat < n ∧ s.txNtc.toNat < n

theorem AgreeOff.indicesBelow {l : List Part} (h : AgreeOff l s s') (htail : Part.piece .txTail ∉ l)
    (hntc : Part.piece .txNtc ∉ l) (hs : s.indicesBelow n) : s'.indicesBelow n := by
  have e1 : s'.txTail = s.txTail := h.piece .txTail htail
  have e2 : s'.txNtc = s.txNtc := h.piece .txNtc hntc
  exact ⟨e1 ▸ hs.1, e2 ▸ hs.2⟩

theorem Prim.apply_indicesBelow {q : Prim} (h : q.apply s = .ok s') (hq : q.indexOk n = true) (hs : s.indicesBelow n) :
    s'.indicesBelow n := by
  cases q with
  | setTxTail v => obtain rfl := Except.ok.inj h; exact ⟨of_decide_eq_true hq, hs.2⟩
  | setTxNtc v => obtain rfl := Except.ok.inj h; exact ⟨hs.1, of_decide_eq_true hq⟩
  | _ => exact (Prim.apply_agreeOff h).indicesBelow (by simp [Prim.parts]) (by simp [Prim.parts]) hs

/-- The step of a point keeps the registers in range: only block reset writes them, to 0. -/
theorem Point.step_indicesBelow (hn : 0 < n) (p : Point) (hs : s.indicesBelow n) :
    (p.step s).Leads (fun _ s' => s'.indicesBelow n) := by
  cases p with
  | detachAdmit =>
    simp only [Point.step, stepDetachAdmit]
    split
    · exact ⟨hn, hn⟩
    · exact hs
  | _ =>
    refine (Point.step_agreeOff _ s).imp (fun _ _ h => h.indicesBelow ?_ ?_ hs) <;> simp [Point.changes]

/-- A point leads to a command with every index in range. -/
theorem Point.step_indexOk {p : Point} (hn : 0 < s.cfg.nTx) (hs : s.indicesBelow s.cfg.nTx)
    (hp : p.indexOk s.cfg.nTx = true) : (p.step s).Leads (fun t _ => t.indexOk s.cfg.nTx = true) := by
  cases p with
  | respond | read32 | resetAdmit | resetSettle | resetSettled | resetCtrl | resetManc | startAdmit | stopAdmit | stopWait
  | stopLock | stopRings | stopTx | stopRx | irqAdmit | irqRead | irqRequest | readStats =>
    refine (Point.step_writesIn _ s).imp (fun t _ h => h.indexOk ?_ ?_) <;> simp [Point.mayWrite, partsOf, writesOf]
  | configureAdmit =>
    refine leads_whenAdmitted ?_ (by simp)
    rw [indexOk_mk, List.all_append, Bool.and_eq_true, Bool.and_eq_true, List.all_eq_true]
    refine ⟨⟨fun q hq => ?_, by simp [Prim.indexOk, hn]⟩, rfl⟩
    obtain ⟨off, v, rfl⟩ := mem_configure hq
    rfl
  | ringAdmit a b =>
    simp only [Point.step, stepRingAdmit]
    split_ifs
    · rw [leads_more, indexOk_mk, Bool.and_eq_true, List.all_eq_true]
      refine ⟨fun q hq => ?_, rfl⟩
      obtain rfl | rfl | ⟨_, _, _, rfl⟩ | ⟨_, rfl⟩ | rfl | rfl := mem_ringInitTx hq <;> simp [Prim.indexOk, hn]
    · simp
    · simp
  | submitLock | recycleLock => exact leads_lockThen (fun _ => by simp [Point.indexOk])
  | submitSlot buf t m =>
    simp only [Point.step, stepSubmitSlot]
    cases slotAt s.txSlots t <;> simp [reclaimInPlace, txdWrites, Prim.indexOk, Point.indexOk, nextIndex_lt hn]
  | recycleAdmit => exact leads_whenAdmitted (by simp [recycleBody, Point.indexOk]) (by simp)
  | recycleHead c =>
    simp only [Point.step, stepRecycleHead]
    refine leads_readThen (by simp) (fun v s' _ => ?_)
    split <;> simp [Point.indexOk]
  | recycleNtc c h => simpa [Point.step, stepRecycleNtc, Point.indexOk] using hs.2
  | recycleDone c h idx =>
    simp only [Point.step, stepRecycleDone]
    split <;> simpa [Point.indexOk, Prim.indexOk] using hp
  | recycleSlot c h idx =>
    simp only [Point.step, stepRecycleSlot]
    split <;> simp [Point.indexOk, Prim.indexOk, nextIndex_lt hn]
  | pollTail =>
    simp only [Point.step, stepPollTail]
    exact leads_readThen (by simp [Point.indexOk]) (fun v s' _ => by simp [Point.indexOk])
  | pollTake budget next work len m2 b2 =>
    simp only [Point.step, stepPollTake]
    cases slotAt s.rxSlots next <;> simp [handOver, Prim.indexOk, Point.indexOk]
  | _ =>
    simp only [Point.step, stepRingAlloc, stepRingMap, stepRingUndo, stepDetachAdmit, stepSubmitAdmit, stepSubmitRecheck,
      stepSubmitTail, stepSubmitDone, stepSubmitPad, stepSubmitMap, stepSubmitEnd, stepPollAdmit, stepPollDone,
      stepPollLength, stepPollAlloc, stepPollMap, stepPollNext, stepPollEnd]
    repeat' split
    all_goals simp [rxdArm, recycleBody, Prim.indexOk, Point.indexOk]

/-- One primitive of a command keeps every index in range, in the registers and in the command. -/
theorem Task.step_indexOk {t t' : Task} (hn : 0 < s.cfg.nTx) (hs : s.indicesBelow s.cfg.nTx)
    (ht : t.indexOk s.cfg.nTx = true) (h : t.step s = .more t' s') :
    t'.indexOk s.cfg.nTx = true ∧ s'.indicesBelow s.cfg.nTx := by
  obtain ⟨htodo, hp⟩ := Bool.and_eq_true_iff.mp ht
  cases Task.step_cases h with
  | @point p _ _ e => exact ⟨(Point.step_indexOk hn hs hp).of_more e, (Point.step_indicesBelow hn p hs).of_more e⟩
  | prim e =>
    rw [List.all_cons, Bool.and_eq_true] at htodo
    exact ⟨Bool.and_eq_true_iff.mpr ⟨htodo.2, hp⟩, Prim.apply_indicesBelow e htodo.1 hs⟩
  | @failed _ _ p _ e => exact ⟨p.onError_indexOk _, hs⟩

/-! ### Every move of every agent -/

/-- The two index registers, and every index a command in flight has still to write, are below the capacity of the TX ring
of the configuration `c`. -/
structure IndicesBelow (c : Cfg) (s : State) : Prop where
  cfg : s.cfg = c
  registers : s.indicesBelow c.nTx
  tasks : ∀ x ∈ s.tasks, x.2.indexOk c.nTx = true

/-- `IndicesBelow` is `State.indicesOk` at a named configuration. -/
theorem indicesBelow_iff : IndicesBelow c s ↔ s.cfg = c ∧ s.indicesOk = true := by
  have e : s.indicesOk = true ↔ s.indicesBelow s.cfg.nTx ∧ ∀ x ∈ s.tasks, x.2.indexOk s.cfg.nTx = true := by
    simp [State.indicesOk, State.indicesBelow, Task.indexOk]
  rw [e]
  constructor
  · rintro ⟨rfl, hr, ht⟩
    exact ⟨rfl, hr, ht⟩
  · rintro ⟨rfl, hr, ht⟩
    exact ⟨rfl, hr, ht⟩

theorem taskOf_indexOk (c : Cfg) (i : Instr) : (taskOf c i).indexOk n = true := by cases i <;> rfl

/-- Every primitive of every command keeps the indices in range. -/
theorem indicesBelow_invariant (hn : 0 < c.nTx) : CommandInvariant (fun _ => True) (IndicesBelow c) where
  same e h := by
    have e1 : _ = _ := e.piece .txTail
    have e2 : _ = _ := e.piece .txNtc
    exact ⟨e.cfg.trans h.cfg, ⟨e1 ▸ h.registers.1, e2 ▸ h.registers.2⟩, e.tasks ▸ h.tasks⟩
  issue k _ h := ⟨h.cfg, h.registers, List.forall_mem_cons.mpr ⟨taskOf_indexOk _ _, h.tasks⟩⟩
  primitive {s s' k t t'} h ht e := by
    obtain ⟨rfl, hr, htasks⟩ := h
    have hp := taskAt_perm ht
    have hk := Task.step_kept e
    obtain ⟨ht', hr'⟩ := Task.step_indexOk (s := s.without k) hn hr (htasks _ (hp.mem_iff.mpr (.head _))) e
    refine ⟨hk.cfg, hr', List.forall_mem_cons.mpr ⟨ht', ?_⟩⟩
    rw [hk.tasks]
    exact fun x hx => htasks x (hp.mem_iff.mpr (.tail _ hx))
  answer h ht := ⟨h.cfg, h.registers, fun x hx => h.tasks x ((taskAt_perm ht).mem_iff.mpr (.tail _ hx))⟩

end Sys2Proof.Machine

namespace Sys2Proof
open Sys2Proof.Machine

/-- Settles O58: the indices in range are an invariant of every command, whatever is issued and scheduled. -/
theorem indicesInRange : Obligations.IndicesInRange := by
  intro s t hsizes hs e
  have hn : 0 < s.cfg.nTx := by
    simp only [Cfg.sizesOk, Bool.and_eq_true, decide_eq_true_eq] at hsizes
    omega
  have hall : s.schedAll (Move.IssuesOnly (fun _ => True)) := fun _ _ m _ => by cases m <;> simp [Move.IssuesOnly]
  exact (indicesBelow_iff.mp ((indicesBelow_invariant hn).step hall (fun _ _ _ _ => trivial)
    (indicesBelow_iff.mpr ⟨rfl, hs⟩) e)).2

end Sys2Proof
end

section
/-! PROOFS. Who holds the TX lock (10_state R33, 60_exceptions R269): a command holds it from `lock(tx)` to the `unlock(tx)`
that every way out passes, so exactly one command holds a held lock; and a DETACH, which resets the lock, runs alone by the
host's duty (45_device_agent R252 b). -/

namespace Sys2Proof.Machine

variable {s s' : State} {t t' : Task} {ps : List Prim} {p : Point} {b : Bool}

/-! ### Where a command stands with regard to the lock -/

theorem Task.holdsLock_iff : t.holdsLock = true ↔ .unlock ∈ t.todo ∨ t.point.locked = true := by
  simp [Task.holdsLock]

theorem Task.holdsLock_nil : (⟨[], p⟩ : Task).holdsLock = p.locked := rfl

theorem Task.lockShape_iff : t.lockShape = true ↔
    t.todo.count .unlock ≤ 1 ∧ (.unlock ∈ t.todo → t.point.locked = false) ∧
      (t.holdsLock = true → t.point = .submitEnd ∨ ∀ q ∈ t.todo, q.mayFail = false) := by
  simp only [Task.lockShape, Bool.and_eq_true, Bool.or_eq_true, Bool.not_eq_true', decide_eq_true_eq, beq_iff_eq,
    List.all_eq_true, Bool.and_eq_false_iff]
  grind

/-- A command stands where it may, and holds the lock or not. -/
def Task.LockAt (b : Bool) (t : Task) : Prop := t.lockShape = true ∧ t.holdsLock = b

/-- With no release ahead a command holds the lock exactly at a locked point, and no access fails before it but SUBMIT's
doorbell. -/
theorem lockAt_of_noUnlock (hu : .unlock ∉ ps) :
    Task.LockAt b ⟨ps, p⟩ ↔ p.locked = b ∧ (b = true → p = .submitEnd ∨ ∀ q ∈ ps, q.mayFail = false) := by
  have hc : ps.count .unlock = 0 := List.count_eq_zero.mpr hu
  have hh : (⟨ps, p⟩ : Task).holdsLock = p.locked := by
    rw [Bool.eq_iff_iff, Task.holdsLock_iff]
    simp [hu]
  rw [Task.LockAt, Task.lockShape_iff, hh, and_comm]
  refine and_congr_right (fun e => ?_)
  simp [hc, hu, e]

/-- A command on its way to the release, which nothing before it can miss. -/
theorem lockAt_release (hu : .unlock ∉ ps) (hf : ∀ q ∈ ps, q.mayFail = false) (hp : p.locked = false) :
    Task.LockAt true ⟨ps ++ [.unlock], p⟩ := by
  refine ⟨Task.lockShape_iff.mpr ⟨?_, fun _ => hp, fun _ => .inr ?_⟩, Task.holdsLock_iff.mpr (.inl (by simp))⟩
  · simp [List.count_eq_zero.mpr hu]
  · simpa [or_imp, forall_and, Prim.mayFail] using hf

@[simp] theorem lockAt_goto : (Task.goto p).LockAt b ↔ p.locked = b := by
  simp [Task.goto, lockAt_of_noUnlock]

@[simp] theorem lockAt_answer {r : Response} : (Task.answer r).LockAt b ↔ b = false := by
  cases b <;> simp [Task.answer, lockAt_of_noUnlock, Point.locked]

@[simp] theorem lockAt_raise {off : Word} : (Task.raise off).LockAt b ↔ b = false := lockAt_answer

@[simp] theorem lockAt_unlockAnswer {r : Response} : (Task.unlockAnswer r).LockAt true :=
  lockAt_release (ps := []) (by simp) (by simp) rfl

theorem lockAt_recycleThen (hu : .unlock ∉ ps) (hf : ∀ q ∈ ps, q.mayFail = false) (e : Option Word) (c : Caller) :
    (recycleThen ps e c).LockAt true := by
  cases c <;> exact lockAt_release hu hf rfl

/-- A command that never writes the lock does not hold it: the locked points are those of STOP, SUBMIT and RECYCLE. -/
theorem Task.WritesIn.lockAt {l : List Part} (h : t.WritesIn l) (hl : Part.piece .txLock ∉ l) : t.LockAt false := by
  obtain ⟨todo, p⟩ := t
  obtain ⟨htodo, hp⟩ := h
  have hu : .unlock ∉ todo := fun hm => hl (htodo _ hm _ (by simp [Prim.parts]))
  have hlocked : p.locked = false := by
    refine Bool.eq_false_iff.mpr (fun h => hl (hp _ ?_))
    cases p with
    | recycleHead c | recycleNtc c | recycleDone c | recycleSlot c =>
      cases c <;> simp [Point.mayWrite, Caller.mayWrite, partsOf, writesOf]
    | stopRings | stopTx | stopRx | submitRecheck | submitTail | submitDone | submitPad | submitMap | submitSlot
    | submitEnd =>
      simp [Point.mayWrite, partsOf, writesOf]
    | _ => exact absurd h (by simp [Point.locked])
  simp [lockAt_of_noUnlock hu, hlocked]

/-! ### What a step does to the lock -/

/-- The points that take the lock. -/
def Point.takesLock : Point → Bool
  | .stopLock _ => true
  | p => p.awaitsLock

/-- After `lock(tx)` at the latest a command stands where it holds the lock; it leaves those places through `unlock(tx)`
alone. -/
theorem Point.step_lockAt (p : Point) (s : State) : (p.step s).Leads (fun t _ => t.LockAt (p.locked || p.takesLock)) := by
  cases p with
  | respond | read32 | ringAdmit | ringAlloc | ringMap | ringUndo | resetAdmit | resetSettle | resetSettled | resetCtrl
  | resetManc | configureAdmit | startAdmit | irqAdmit | irqRead | irqRequest | readStats =>
    refine (Point.step_writesIn _ s).imp (fun t _ h => h.lockAt ?_)
    simp [Point.mayWrite, partsOf, writesOf]
  | stopAdmit | recycleAdmit =>
    exact leads_whenAdmitted
      (by simp [lockAt_of_noUnlock, recycleBody, Point.locked, Point.takesLock, Point.awaitsLock])
      (lockAt_answer.mpr rfl)
  | submitLock | recycleLock => exact leads_lockThen (fun _ => lockAt_goto.mpr rfl)
  | stopLock => exact leads_stopLock (fun _ => lockAt_goto.mpr rfl)
  | stopRx i err =>
    simp only [Point.step, stepStopRx]
    split
    · split <;> simp [lockAt_of_noUnlock, Prim.mayFail, Point.locked]
    · exact lockAt_release (ps := [.setRingsReady false]) (by simp) (by simp [Prim.mayFail]) rfl
  | submitSlot buf t m =>
    simp only [Point.step, stepSubmitSlot]
    cases slotAt s.txSlots t <;> simp [lockAt_of_noUnlock, reclaimInPlace, txdWrites, Point.locked]
  | recycleHead c =>
    simp only [Point.step, stepRecycleHead]
    have hfail := lockAt_recycleThen (ps := []) (by simp) (by simp) (some s.cfg.regTdh) c
    refine leads_readThen hfail (fun h s' _ => ?_)
    split
    · simp [Point.locked]
    · exact hfail
  | recycleDone c h idx =>
    simp only [Point.step, stepRecycleDone]
    split
    · simp [Point.locked]
    · exact lockAt_recycleThen (by simp) (by simp [Prim.mayFail]) none c
  | pollTail =>
    simp only [Point.step, stepPollTail]
    exact leads_readThen (lockAt_goto.mpr rfl) (fun t s' _ => lockAt_goto.mpr rfl)
  | pollTake budget next work len m2 b2 =>
    simp only [Point.step, stepPollTake]
    cases slotAt s.rxSlots next <;>
      simp [lockAt_of_noUnlock, handOver, Point.locked, Point.takesLock, Point.awaitsLock]
  | _ =>
    simp only [Point.step, stepStopWait, stepStopRings, stepStopTx, stepDetachAdmit, stepSubmitAdmit, stepSubmitRecheck,
      stepSubmitTail, stepSubmitDone, stepSubmitPad, stepSubmitMap, stepSubmitEnd, stepRecycleNtc, stepRecycleSlot,
      stepPollAdmit, stepPollDone, stepPollLength, stepPollAlloc, stepPollMap, stepPollNext, stepPollEnd]
    repeat' split
    all_goals
      simp [lockAt_of_noUnlock, quiesce, flush, recycleBody, Prim.mayFail, Point.locked, Point.takesLock, Point.awaitsLock]

theorem Point.onError_lockAt (p : Point) (off : Word) : (p.onError off).LockAt (p == .submitEnd) := by
  cases p <;> simp [Point.onError, Point.locked]

/-- A point that takes the lock finds it free. -/
theorem Point.step_takesLock {p : Point} (hp : p.takesLock = true) :
    (p.step s).Leads (fun _ s' => s.txLock = false ∧ s'.txLock = true) := by
  cases p with
  | submitLock | recycleLock => exact leads_lockThen (fun h => ⟨h, rfl⟩)
  | stopLock => exact leads_stopLock (fun h => ⟨h, rfl⟩)
  | _ => simp [Point.takesLock, Point.awaitsLock] at hp

/-- What one primitive does to the lock and to the command's hold on it. -/
inductive LockMove (s s' : State) (t t' : Task) : Prop where
  | keeps (hold : t'.holdsLock = t.holdsLock) (lock : s'.txLock = s.txLock)
  | takes (before : t.holdsLock = false) (after : t'.holdsLock = true) (free : s.txLock = false) (held : s'.txLock = true)
  | gives (before : t.holdsLock = true) (after : t'.holdsLock = false) (free : s'.txLock = false)

theorem Point.step_lock (hd : p ≠ .detachAdmit) (h : p.step s = .more t' s') :
    t'.lockShape = true ∧ LockMove s s' ⟨[], p⟩ t' := by
  obtain ⟨hshape, hhold⟩ := (Point.step_lockAt p s).of_more h
  refine ⟨hshape, ?_⟩
  cases htake : p.takesLock with
  | true =>
    obtain ⟨hfree, hheld⟩ := (Point.step_takesLock htake).of_more h
    refine .takes ?_ (by simp [hhold, htake]) hfree hheld
    cases p <;> simp_all [Point.takesLock, Point.awaitsLock, Task.holdsLock, Point.locked]
  | false =>
    refine .keeps (by simp [hhold, htake, Task.holdsLock_nil]) (((Point.step_agreeOff p s).of_more h).piece .txLock ?_)
    cases p <;> simp_all [Point.takesLock, Point.awaitsLock, Point.changes]

theorem Prim.mayFail_of_error {q : Prim} {off : Word} (h : q.apply s = .error off) : q.mayFail = true := by
  cases q with
  | regWrite | regRead | ioWrite => rfl
  | _ => exact absurd h (by simp [Prim.apply])

/-- One primitive of a command that stands where it may, not at DETACH's block reset, leaves it where it may stand, and
the lock goes with its hold on it. -/
theorem Task.step_lock (hd : t.point ≠ .detachAdmit) (ht : t.lockShape = true) (h : t.step s = .more t' s') :
    t'.lockShape = true ∧ LockMove s s' t t' := by
  obtain ⟨hcount, hrel, hfail⟩ := Task.lockShape_iff.mp ht
  cases Task.step_cases h with
  | point e => exact Point.step_lock hd e
  | @prim q qs p _ e =>
    by_cases hq : q = .unlock
    · subst hq
      have hu : .unlock ∉ qs := List.count_eq_zero.mp (by simpa using hcount)
      obtain ⟨hshape, hhold⟩ := (lockAt_of_noUnlock hu).mpr ⟨hrel (.head _), by simp⟩
      obtain rfl := Except.ok.inj e
      exact ⟨hshape, .gives (Task.holdsLock_iff.mpr (.inl (.head _))) hhold rfl⟩
    · have hhold : (⟨qs, p⟩ : Task).holdsLock = (⟨q :: qs, p⟩ : Task).holdsLock := by
        rw [Bool.eq_iff_iff, Task.holdsLock_iff, Task.holdsLock_iff]
        simp [Ne.symm hq]
      refine ⟨Task.lockShape_iff.mpr ⟨?_, fun hm => hrel (.tail _ hm), fun hh => ?_⟩, .keeps hhold ?_⟩
      · simpa [List.count_cons, hq] using hcount
      · exact (hfail (hhold ▸ hh)).imp_right (fun hf r hr => hf r (.tail _ hr))
      · refine (Prim.apply_agreeOff e).piece .txLock ?_
        cases q <;> simp_all [Prim.parts]
  | @failed q qs p off e =>
    obtain ⟨hshape, hhold⟩ := p.onError_lockAt off
    refine ⟨hshape, .keeps (hhold.trans ?_) rfl⟩
    rw [Bool.eq_iff_iff, beq_iff_eq]
    constructor
    · rintro rfl
      exact Task.holdsLock_iff.mpr (.inr rfl)
    · intro hh
      refine (hfail hh).resolve_right (fun hf => ?_)
      exact absurd (Prim.mayFail_of_error e) (by simp [hf q (.head _)])

/-! ### Every move of every agent -/

/-- The lock is held by exactly one command in flight when it is held and by none when it is free, every command stands
where it may, and none is a DETACH that has still to reset the block. -/
structure LockHeldOnce (s : State) : Prop where
  shape : ∀ x ∈ s.tasks, x.2.lockShape = true
  holders : s.tasks.countP (fun x => x.2.holdsLock) = s.txLock.toNat
  noDetach : ∀ x ∈ s.tasks, x.2.point ≠ .detachAdmit

theorem lockOwned_iff : s.lockOwned = true ↔
    (∀ x ∈ s.tasks, x.2.lockShape = true) ∧ s.tasks.countP (fun x => x.2.holdsLock) = s.txLock.toNat := by
  cases h : s.txLock <;> simp [State.lockOwned, h, List.countP_eq_length_filter]

/-- Only DETACH may write the station address, so no other command comes to DETACH's test. -/
theorem Task.WritesIn.notDetach (h : t.WritesIn p.mayWrite) (hd : p ≠ .detachAdmit) : t.point ≠ .detachAdmit := by
  intro e
  have hmac : Part.piece .mac ∈ p.mayWrite := h.2 _ (by simp [e, Point.mayWrite, partsOf, writesOf])
  cases p with
  | detachAdmit => exact hd rfl
  | recycleLock c | recycleHead c | recycleNtc c | recycleDone c | recycleSlot c =>
    cases c <;> simp [Point.mayWrite, Caller.mayWrite, partsOf, writesOf] at hmac
  | _ => simp [Point.mayWrite, partsOf, writesOf] at hmac

theorem Task.step_notDetach (hd : t.point ≠ .detachAdmit) (h : t.step s = .more t' s') : t'.point ≠ .detachAdmit := by
  cases Task.step_cases h with
  | @point p _ _ e => exact ((Point.step_writesIn p s).of_more e).notDetach hd
  | prim e => exact hd
  | @failed _ _ p off e => exact (p.onError_writesIn off).notDetach hd

theorem taskOf_free (c : Cfg) (i : Instr) : (taskOf c i).LockAt false := by
  cases i <;> simp [taskOf, read32Task, write32Task, writeFlushTask, writeIoTask, writeViaIoPort, flush, ringInitTask,
    resetTask, configureTask, startTask, stopTask, detachTask, submitTask, recycleTask, irqTask, pollTask, readStatsTask,
    lockAt_of_noUnlock, Point.locked]

theorem taskOf_notDetach {i : Instr} (c : Cfg) (h : i ≠ .detach) : (taskOf c i).point ≠ .detachAdmit := by
  cases i <;> simp_all [taskOf, read32Task, write32Task, writeFlushTask, writeIoTask, ringInitTask, resetTask,
    configureTask, startTask, stopTask, submitTask, recycleTask, irqTask, pollTask, readStatsTask, Task.goto]

/-- While no DETACH is issued, every primitive of every command keeps the lock owned. -/
theorem lockHeldOnce_invariant : CommandInvariant (fun i => i ≠ .detach) LockHeldOnce where
  same {s s'} e h := by
    have el : s'.txLock = s.txLock := e.piece .txLock
    exact ⟨e.tasks ▸ h.shape, by rw [e.tasks, el, h.holders], e.tasks ▸ h.noDetach⟩
  issue {s i} k hi h := by
    obtain ⟨hshape, hhold⟩ := taskOf_free s.cfg i
    exact ⟨List.forall_mem_cons.mpr ⟨hshape, h.shape⟩, by simp [hhold, h.holders],
      List.forall_mem_cons.mpr ⟨taskOf_notDetach _ hi, h.noDetach⟩⟩
  primitive {s s' k t t'} h ht e := by
    have hp := taskAt_perm ht
    have hmem : ∀ x ∈ otherTasks s.tasks k, x ∈ s.tasks := fun x hx => hp.mem_iff.mpr (.tail _ hx)
    have ht : (k, t) ∈ s.tasks := hp.mem_iff.mpr (.head _)
    have hk : s'.tasks = otherTasks s.tasks k := (Task.step_kept e).tasks
    obtain ⟨hshape, hmove⟩ := Task.step_lock (h.noDetach _ ht) (h.shape _ ht) e
    have hcount := hp.countP_eq (fun x => x.2.holdsLock)
    rw [h.holders, List.countP_cons] at hcount
    refine ⟨?_, ?_, ?_⟩
    · rw [State.park_tasks, hk]
      exact List.forall_mem_cons.mpr ⟨hshape, fun x hx => h.shape x (hmem x hx)⟩
    · rw [State.park_tasks, State.park_txLock, hk, List.countP_cons]
      generalize (otherTasks s.tasks k).countP (fun x => x.2.holdsLock) = n at hcount ⊢
      cases hmove with
      | keeps hold lock => rw [hold, lock, State.without_txLock, hcount]
      | takes before after free held => simp_all
      | gives before after free => cases hl : s.txLock <;> simp_all
    · rw [State.park_tasks, hk]
      exact List.forall_mem_cons.mpr ⟨Task.step_notDetach (h.noDetach _ ht) e, fun x hx => h.noDetach x (hmem x hx)⟩
  answer {s k r} h ht := by
    have hp := taskAt_perm ht
    have hcount := hp.countP_eq (fun x => x.2.holdsLock)
    rw [h.holders, List.countP_cons] at hcount
    exact ⟨fun x hx => h.shape x (hp.mem_iff.mpr (.tail _ hx)), hcount.symm,
      fun x hx => h.noDetach x (hp.mem_iff.mpr (.tail _ hx))⟩

/-- A DETACH alone: the lock is free, and what is in flight is a DETACH. -/
structure DetachOnly (s : State) : Prop where
  free : s.txLock = false
  tasks : ∀ x ∈ s.tasks, x.2 = detachTask ∨ ∃ r, x.2 = Task.answer r

theorem DetachOnly.lockOwned (h : DetachOnly s) : s.lockOwned = true := by
  have hat : ∀ x ∈ s.tasks, x.2.LockAt false := by
    intro x hx
    rcases h.tasks x hx with e | ⟨r, e⟩ <;> rw [e]
    · exact lockAt_goto.mpr rfl
    · exact lockAt_answer.mpr rfl
  refine lockOwned_iff.mpr ⟨fun x hx => (hat x hx).1, ?_⟩
  rw [h.free, Bool.toNat_false, List.countP_eq_zero]
  exact fun x hx => by simp [(hat x hx).2]

theorem detachOnly_invariant : CommandInvariant (fun i => i = .detach) DetachOnly where
  same {s s'} e h := ⟨(e.piece .txLock : s'.txLock = s.txLock).trans h.free, e.tasks ▸ h.tasks⟩
  issue {s i} k hi h := ⟨h.free, List.forall_mem_cons.mpr ⟨.inl (hi ▸ rfl), h.tasks⟩⟩
  primitive {s s' k t t'} h ht e := by
    have hp := taskAt_perm ht
    have hother : ∀ x ∈ otherTasks s.tasks k, _ := fun x hx => h.tasks x (hp.mem_iff.mpr (.tail _ hx))
    have hk : s'.tasks = otherTasks s.tasks k := (Task.step_kept e).tasks
    rcases h.tasks _ (hp.mem_iff.mpr (.head _)) with rfl | ⟨r, rfl⟩
    · change stepDetachAdmit (s.without k) = _ at e
      unfold stepDetachAdmit at e
      split at e <;> obtain ⟨rfl, rfl⟩ := Progress.more.inj e
      · exact ⟨rfl, List.forall_mem_cons.mpr ⟨.inr ⟨_, rfl⟩, hother⟩⟩
      · exact ⟨h.free, List.forall_mem_cons.mpr ⟨.inr ⟨_, rfl⟩, hother⟩⟩
    · exact absurd e (by simp [Task.step, Task.answer, Point.step])
  answer {s k r} h ht := ⟨h.free, fun x hx => h.tasks x ((taskAt_perm ht).mem_iff.mpr (.tail _ hx))⟩

/-- A move that issues no command, or no DETACH, issues only commands of either sort. -/
theorem Move.issuesOnly_of_noIssue {m : Move} (Q : Instr → Prop) (h : m.noIssue = true) : m.IssuesOnly Q := by
  cases m with
  | issue w => simp [Move.noIssue] at h
  | _ => trivial

theorem Move.issuesOnly_of_noDetach {m : Move} (h : m.noDetach = true) : m.IssuesOnly (fun i => i ≠ .detach) := by
  cases m with
  | issue w =>
    intro i hi
    simpa [Move.noDetach, hi] using h
  | _ => trivial

/-- What the host's duty about DETACH says of the coming step (45_device_agent R252 b). -/
theorem State.detachAlone_cases (h : s.detachAlone = true) :
    (s.tasks = [] ∧ s.schedAll (fun m => m.noIssue = true) ∧ ∀ w i, s.port = some w → decode w = .ok i → i = .detach) ∨
    ((∀ x ∈ s.tasks, x.2.point ≠ .detachAdmit) ∧ s.schedAll (fun m => m.noDetach = true) ∧
      ∀ w i, s.port = some w → decode w = .ok i → i ≠ .detach) := by
  simp only [State.detachAlone, Bool.and_eq_true, List.all_eq_true, bne_iff_ne] at h
  obtain ⟨⟨htasks, hsched⟩, hport⟩ := h
  cases hp : s.port with
  | none => exact .inr ⟨htasks, hsched, fun w i hw => absurd hw (by simp)⟩
  | some w =>
    have hinj : ∀ w' i, some w = some w' → decode w' = .ok i → decode w = .ok i :=
      fun w' i e hi => Option.some.inj e ▸ hi
    by_cases hd : decode w = .ok .detach
    · simp only [hp, hd, Bool.and_eq_true, List.isEmpty_iff, List.all_eq_true] at hport
      refine .inl ⟨hport.1, hport.2, fun w' i e hi => ?_⟩
      exact Except.ok.inj ((hinj w' i e hi).symm.trans hd)
    · exact .inr ⟨htasks, hsched, fun w' i e hi hdet => hd (hdet ▸ hinj w' i e hi)⟩

end Sys2Proof.Machine

namespace Sys2Proof
open Sys2Proof.Machine

/-- Settles O57: a step with DETACH on the command port keeps a DETACH alone, any other step keeps the lock owned. -/
theorem lockOwned : Obligations.LockOwned := by
  intro s t halone hs e
  obtain ⟨hshape, hholders⟩ := lockOwned_iff.mp hs
  rcases State.detachAlone_cases halone with ⟨htasks, hsched, hport⟩ | ⟨htasks, hsched, hport⟩
  · have hfree : s.txLock = false := by
      rw [htasks, List.countP_nil] at hholders
      exact Bool.toNat_eq_zero.mp hholders.symm
    exact (detachOnly_invariant.step (fun l hl m hm => Move.issuesOnly_of_noIssue _ (hsched l hl m hm)) hport
      ⟨hfree, by simp [htasks]⟩ e).lockOwned
  · have h := lockHeldOnce_invariant.step (fun l hl m hm => Move.issuesOnly_of_noDetach (hsched l hl m hm)) hport
      ⟨hshape, hholders, htasks⟩ e
    exact lockOwned_iff.mpr ⟨h.shape, h.holders⟩

end Sys2Proof
end

section
/-! PROOFS. Commands that wait (10_state R33, 41_reset_configure R170): a command that no other agent interrupts makes its
primitives up to the one that has no step, and stays in flight there. -/

namespace Sys2Proof.Machine

variable {s s' : State} {t t' : Task}

/-- A command on its own comes from `t` in `s` to `t'` in `s'`, where it waits; the count is that of its turns. -/
inductive QuietWait : Nat → Task → State → Task → State → Prop where
  | wait {t : Task} {s : State} (h : t.step s = .wait) : QuietWait 1 t s t s
  | more {n : Nat} {t t1 t' : Task} {s s1 s' : State} (h : t.step s = .more t1 s1) (hw : QuietWait n t1 s1 t' s') :
      QuietWait (n + 1) t s t' s'

/-- A command that comes to wait on its own stays in flight, with no gap left, where it waits. -/
theorem drive_of_quietWait {n m k : Nat} (hw : QuietWait n t s t' s') (hq : s.sched = []) (hn : n ≤ m) :
    drive m k (s.park k t) = s'.park k t' := by
  induction hw generalizing m with
  | wait h =>
    obtain ⟨m, rfl⟩ : ∃ m', m = m' + 1 := ⟨m - 1, by omega⟩
    exact drive_wait hq h m k
  | more h _ ih =>
    obtain ⟨m, rfl⟩ : ∃ m', m = m' + 1 := ⟨m - 1, by omega⟩
    rw [drive_more hq h]
    exact ih ((Task.step_kept h).sched.trans hq) (by omega)

theorem runCommand_of_quietWait {n turns : Nat} (hw : QuietWait n t s.takeCtx t' s') (hq : s.sched = []) (hn : n ≤ 256) :
    runCommand t turns s = s'.park s.nextCtx t' :=
  drive_of_quietWait hw hq (hn.trans (s.fuel_ge turns))

/-- The host's view of a register read is the same whatever the poll state and the numbering of contexts are. -/
theorem State.regRead32_pollState {b : State} {off v : Word} (ha : s.admits off = true)
    (h : s.drain.nicRead off = (v, b)) (p : PollState) (k : Nat) :
    { s with pollState := p, nextCtx := k }.regRead32 off =
      some (v, { b with pollState := p, nextCtx := k, trace := s.trace ++ [.regRead off v] }) := by
  rw [State.regRead32_admitted (s := { s with pollState := p, nextCtx := k }) ha]
  rw [State.drain_eq, State.nicRead_eq] at h
  obtain ⟨rfl, rfl⟩ := Prod.mk.inj h
  rw [State.drain_eq, State.nicRead_eq]
  rfl

/-- A read through the bus changes nothing but the posted writes, the NIC and the count of free values. -/
theorem State.drain_nicRead_only {b : State} {off v : Word} (h : s.drain.nicRead off = (v, b)) :
    ∃ n d, b = { s with wbuf := [], nic := n, drawn := d } := by
  rw [State.drain_eq, State.nicRead_eq] at h
  exact ⟨_, _, (Prod.mk.inj h).2.symm⟩

theorem submit_quietWait {len : Word} {buf : DWord} (hfsm : s.fsm = .running) (hlen : len.toNat ≤ s.cfg.blockSize)
    (hlock : s.txLock = true) : QuietWait 2 (submitTask len buf) s (Task.goto (.submitLock len buf)) s := by
  refine .more (t1 := Task.goto (.submitLock len buf)) ?_ (.wait (if_pos hlock))
  change stepSubmitAdmit len buf s = _
  simp [stepSubmitAdmit, hfsm, Nat.not_lt.mpr hlen]

theorem recycle_quietWait (hfsm : s.fsm = .running) (hlock : s.txLock = true) :
    QuietWait 2 recycleTask s (recycleBody .command) s := by
  refine .more (t1 := recycleBody .command) ?_ (.wait (if_pos hlock))
  change stepRecycleAdmit s = _
  simp [stepRecycleAdmit, whenAdmitted, hfsm]

/-- A register write that is not admitted leads to its place's clean-up, nothing changed (60_exceptions R261). -/
theorem Task.step_regWrite_refused {off : Word} (h : s.admits off = false) {v : Source} {ps : List Prim} {p : Point} :
    Task.step s ⟨.regWrite off v :: ps, p⟩ = .more (p.onError off) s := by
  simp [Task.step, Prim.apply, State.regWrite32_refused h, orError]

/-- STOP sets `Stopped`, then comes to where it waits for a poll to end. -/
theorem stop_quietWait {n : Nat} (hfsm : s.fsm ≠ .stopped)
    (hw : QuietWait n (Task.goto .stopWait) { s with fsm := .stopped } t' s') : QuietWait (n + 2) stopTask s t' s' := by
  refine .more (t1 := ⟨[.setFsm .stopped], .stopWait⟩) (s1 := s) ?_ (.more rfl hw)
  change stepStopAdmit s = _
  simp [stepStopAdmit, whenAdmitted, hfsm]

theorem stopWait_quietWait (hpoll : s.pollState = .active) :
    QuietWait 1 (Task.goto .stopWait) s (Task.goto .stopWait) s := by
  refine .wait ?_
  change stepStopWait _ = _
  simp [stepStopWait, hpoll]

/-- With no poll in flight STOP goes on to the lock, its quiesce failing at the first write. -/
theorem stopLock_quietWait (hpoll : s.pollState ≠ .active) (hlock : s.txLock = true ∨ s.lockAwaited = true)
    (hvalid : s.mmioValid = false) :
    QuietWait 5 (Task.goto .stopWait) s (Task.goto (.stopLock (some s.cfg.regImc)))
      { s with pollState := .idle, pollMissed := false } := by
  refine .more (t1 := ⟨[.setPollState .idle, .setPollMissed false] ++ quiesce s.cfg ++ [flush s.cfg], .stopLock none⟩)
    (s1 := s) ?_ <| .more rfl <| .more rfl <| .more (t1 := Task.goto (.stopLock (some s.cfg.regImc))) ?_ <| .wait ?_
  · change stepStopWait s = _
    simp [stepStopWait, hpoll]
  · have hrefused : State.admits { s with pollState := .idle, pollMissed := false } s.cfg.regImc = false := by
      simp [State.admits, hvalid]
    exact Task.step_regWrite_refused hrefused
  · change stepStopLock _ _ = _
    unfold stepStopLock
    split
    · rfl
    · rename_i ha
      exact if_pos (hlock.resolve_right ha)

/-- POLL waits at the lock when it has no frame to hand over. -/
theorem poll_quietWait {b : State} {budget v : Word} (hadmit : s.admitsPoll = true) (hlock : s.txLock = true)
    (hreg : s.admits s.cfg.regRdt = true) (hread : s.drain.nicRead s.cfg.regRdt = (v, b))
    (hnone : budget = 0 ∨ s.rxDone (nextIndex s.cfg.nRx v) = false) (k : Nat) :
    QuietWait 4 (pollTask budget) { s with nextCtx := k } (recycleBody (.poll 0))
      { b with pollState := .active, nextCtx := k, trace := s.trace ++ [.regRead s.cfg.regRdt v] } := by
  have hread' := State.regRead32_pollState hreg hread .active k
  obtain ⟨n, d, rfl⟩ := State.drain_nicRead_only hread
  refine .more (t1 := Task.goto (.pollTail budget)) (s1 := { s with pollState := .active, nextCtx := k }) (if_pos hadmit) <|
    .more (t1 := Task.goto (.pollDone budget (nextIndex s.cfg.nRx v) 0))
      (s1 := { s with wbuf := [], nic := n, drawn := d, pollState := .active, nextCtx := k,
                      trace := s.trace ++ [.regRead s.cfg.regRdt v] }) ?_ <|
    .more (t1 := recycleBody (.poll 0)) (if_neg ?_) <| .wait (if_pos hlock)
  · change stepPollTail budget _ = _
    simp only [stepPollTail, readThen, hread']
  · rw [Bool.and_eq_true, decide_eq_true_eq]
    rintro ⟨hbudget, hdone⟩
    rcases hnone with rfl | hnone
    · exact absurd hbudget (by simp)
    · exact absurd (hnone.symm.trans hdone) (by simp)

end Sys2Proof.Machine

namespace Sys2Proof
open Sys2Proof.Machine

/-- Settles O31: each command's own run to the primitive that has no step. -/
theorem waiting : Obligations.Waiting := by
  refine ⟨?_, ?_, ?_, ?_, ?_⟩
  · intro s len buf hq hfsm hlen hlock
    exact congrArg _ (runCommand_of_quietWait (submit_quietWait (s := s.takeCtx) hfsm hlen hlock) hq (by decide))
  · intro s hq hfsm hlock
    exact congrArg _ (runCommand_of_quietWait (recycle_quietWait (s := s.takeCtx) hfsm hlock) hq (by decide))
  · intro s b budget v hq hfsm hpoll hlock hreg hread hnone
    have hadmit : s.admitsPoll = true := by simp [State.admitsPoll, hfsm, hpoll]
    have htasks : b.tasks = s.tasks := by
      obtain ⟨n, d, rfl⟩ := State.drain_nicRead_only hread
      rfl
    rw [← htasks]
    exact congrArg _ (runCommand_of_quietWait
      (poll_quietWait hadmit hlock hreg hread hnone (s.nextCtx + 1)) hq (by decide))
  · intro s hq hfsm hpoll hlock hvalid
    exact congrArg _ (runCommand_of_quietWait
      (stop_quietWait (s := s.takeCtx) hfsm (stopLock_quietWait hpoll hlock hvalid)) hq (by decide))
  · intro s hq hfsm hpoll
    exact congrArg _ (runCommand_of_quietWait
      (stop_quietWait (s := s.takeCtx) hfsm (stopWait_quietWait hpoll)) hq (by decide))

end Sys2Proof
end

section
/-! PROOFS. Block reset (10_state R65, 70_reset_and_hazards R300): what it holds, and that the invariants hold there. -/

namespace Sys2Proof
open Sys2Proof.Machine

/-- Settles O33: block reset holds what R65 says, field by field. -/
theorem blockReset : Obligations.BlockReset := by
  rintro c s rfl
  refine ⟨rfl, rfl, rfl, rfl, rfl, rfl, rfl, rfl, rfl, rfl, ?_, ?_, ?_, ?_, rfl, rfl, rfl, rfl, rfl⟩
  · exact fun x hx => List.eq_of_mem_replicate hx
  · exact fun x hx => List.eq_of_mem_replicate hx
  · exact List.length_replicate
  · exact List.length_replicate

/-- Settles O60: with no command in flight and empty memory the invariants ask only that the TX ring have a place for index
0, and that the tables be made at their capacities. -/
theorem resetInvariants : Obligations.ResetInvariants := by
  refine ⟨?_, rfl, by decide +kernel⟩
  rintro c s hc rfl
  have hn : 0 < c.nTx := by
    simp only [Cfg.wf, Cfg.sizesOk, Bool.and_eq_true, decide_eq_true_eq] at hc
    omega
  refine ⟨rfl, rfl, ?_, ?_, rfl⟩
  · simp [State.indicesOk, State.resetWith, hn]
  · simp [State.shaped, State.resetWith, Nic.atReset]

end Sys2Proof
end

section
/-! PROOFS. DMA memory under every schedule (20_memory R73, R76): whoever writes it writes by `Memory.writeByte`, which keeps
the canonical form; most of what a command or the host does leaves memory alone. -/

namespace Sys2Proof.Machine

variable {s s' : State}

/-- Only the primitives that write a descriptor field write memory. -/
theorem Prim.apply_wf {p : Prim} (h : s.mem.wf = true) (e : p.apply s = .ok s') : s'.mem.wf = true := by
  cases p with
  | txd | rxd => obtain rfl := Except.ok.inj e; exact Memory.write_wf h _ _ _
  | _ => rw [(Prim.apply_agreeOff e).memory (by simp [Prim.parts])]; exact h

/-- Only at the end of a settling delay does a point change memory: the NIC makes the moves it owes. -/
theorem Point.step_wf {p : Point} {t : Task} (h : s.mem.wf = true) (e : p.step s = .more t s') : s'.mem.wf = true := by
  have hkeep : .memory ∉ p.changes → s'.mem.wf = true := fun hm => by
    rw [((p.step_agreeOff s).of_more e).memory hm]; exact h
  cases p with
  | resetSettled owed => obtain ⟨-, rfl⟩ := Progress.more.inj e; exact State.settle_wf owed h
  | _ => exact hkeep (by simp [Point.changes])

theorem Task.step_wf {t t' : Task} (h : s.mem.wf = true) (e : t.step s = .more t' s') : s'.mem.wf = true := by
  cases Task.step_cases e with
  | point e => exact Point.step_wf h e
  | prim e => exact Prim.apply_wf h e
  | failed => exact h

@[simp] theorem State.busMove_mem (s : State) : s.busMove.mem = s.mem := by
  unfold State.busMove
  split
  · rfl
  · exact State.nicWrite_mem _ _ _

@[simp] theorem State.cause_mem (s : State) (bits : Word) : (s.cause bits).mem = s.mem := by
  unfold State.cause
  split <;> rfl

@[simp] theorem State.issue_mem (s : State) (w : CmdWord) : (s.issue w).mem = s.mem := by
  unfold State.issue
  split <;> rfl

theorem State.advance_wf (h : s.mem.wf = true) (k : Nat) : (s.advance k).mem.wf = true := by
  unfold State.advance
  split
  · exact h
  · split
    · rename_i e
      rw [State.park_mem]
      exact Task.step_wf (s := s.without k) h e
    · rename_i e
      obtain ⟨-, rfl⟩ := Task.step_done e
      exact h
    · exact h

theorem Move.apply_wf (h : s.mem.wf = true) (m : Move) : (m.apply s).mem.wf = true := by
  cases m with
  | bus => exact (congrArg Memory.wf s.busMove_mem).trans h
  | txAdvance => exact State.nicAdvance_wf h
  | txWriteback b r => exact State.nicWriteback_wf h b r
  | txEarly b r => exact State.nicEarly_wf h b r
  | rxFill f c st e sp r1 r2 => exact State.nicFill_wf h f c st e sp r1 r2
  | cause b => exact (congrArg Memory.wf (s.cause_mem b)).trans h
  | reloadDone v => exact State.reloadDone_wf h v
  | setMmioValid | setIoValid => exact h
  | hostStore a bs => exact State.hostStore_wf h a bs
  | issue w => exact (congrArg Memory.wf (s.issue_mem w)).trans h
  | advance k => exact State.advance_wf h k

/-- The canonical form is inductive: starting and refusing commands does not touch memory, and every move keeps it. -/
theorem memory_wf_inductive : Inductive (fun s => s.mem.wf = true) where
  sched _ _ h := h
  port _ _ h := h
  move _ m h := Move.apply_wf h m
  start _ _ h := h
  reject _ h := h

end Sys2Proof.Machine

namespace Sys2Proof
open Sys2Proof.Machine

/-- Settles O56: every move of every agent keeps the canonical form, so a step does. -/
theorem memoryCanonical : Obligations.MemoryCanonical :=
  fun _ _ hs e => memory_wf_inductive.step hs e

end Sys2Proof
end

section
/-! PROOFS. READ32 and WRITE32 on their own (40_register_access R131 to R133; 20_memory R77 to R86): what each does when its
access is admitted and when it is not, the order of posted writes, and a register read after a write. -/

namespace Sys2Proof

/-- An offset that names a multicast entry names one that the table has (00_scope R9). -/
theorem Cfg.regAt_mta_lt {c : Cfg} {off : Word} {i : Nat} (h : c.regAt off = some (.mta i)) : i < c.mtaEntries := by
  unfold Cfg.regAt at h
  split at h
  · rename_i hfind
    obtain rfl := Option.some.inj h
    exact absurd (List.mem_of_find?_eq_some hfind) (by simp [NicReg.scalars])
  · split at h
    · rename_i hin
      obtain rfl := NicReg.mta.inj (Option.some.inj h)
      simp only [Cfg.inMta, Bool.and_eq_true, decide_eq_true_eq] at hin
      omega
    · exact absurd h (by simp)

end Sys2Proof

namespace Sys2Proof.Machine

variable {s s' : State} {off v value : Word}

/-! ### Ending a command -/

@[simp] theorem State.ends_sched (s : State) (es : List Event) (r : Response) : (s.ends es r).sched = s.sched := rfl
@[simp] theorem State.ends_nic (s : State) (es : List Event) (r : Response) : (s.ends es r).nic = s.nic := rfl
@[simp] theorem State.ends_wbuf (s : State) (es : List Event) (r : Response) : (s.ends es r).wbuf = s.wbuf := rfl
@[simp] theorem State.ends_nextCtx (s : State) (es : List Event) (r : Response) :
    (s.ends es r).nextCtx = s.nextCtx + 1 := rfl
@[simp] theorem State.ends_trace (s : State) (es : List Event) (r : Response) :
    (s.ends es r).trace = s.trace ++ es ++ [.response s.nextCtx r] := rfl
@[simp] theorem State.ends_admits (s : State) (es : List Event) (r : Response) (off : Word) :
    (s.ends es r).admits off = s.admits off := rfl

/-- A drain looks neither at the numbering of contexts nor at the trace. -/
theorem State.ends_drain (s : State) (es : List Event) (r : Response) : (s.ends es r).drain = s.drain.ends es r := by
  rw [State.drain_eq, State.drain_eq]
  rfl

/-- Nor does a read at the NIC. -/
theorem State.ends_nicRead (h : s.nicRead off = (v, s')) (es : List Event) (r : Response) :
    (s.ends es r).nicRead off = (v, s'.ends es r) := by
  rw [State.nicRead_eq] at h
  obtain ⟨rfl, rfl⟩ := Prod.mk.inj h
  rw [State.nicRead_eq]
  rfl

/-! ### An access that is not admitted (20_memory R77, R135) -/

theorem State.admits_eq_false_iff :
    s.admits off = false ↔ off.toNat % 4 ≠ 0 ∨ s.cfg.mmioSize < off.toNat + 4 ∨ s.mmioValid = false := by
  simp only [State.admits, Bool.and_eq_false_iff, decide_eq_false_iff_not, not_le, or_assoc, ne_eq]

theorem readThen_refused (h : s.admits off = false) (f : Task) (g : Word → Task) :
    readThen off f g s = .more f s := by
  simp [readThen, State.regRead32_refused h]

theorem Task.step_read32 (s : State) (off : Word) : (read32Task off).step s = stepRead32 off s := rfl

/-- A discarded read that is not admitted leads to its place's clean-up, nothing changed. -/
theorem Task.step_regRead_refused (h : s.admits off = false) {ps : List Prim} {p : Point} :
    Task.step s ⟨.regRead off :: ps, p⟩ = .more (p.onError off) s := by
  simp [Task.step, Prim.apply, State.regRead32_refused h, orError]

/-- A run of at most 256 primitives never meets the bound on their number. -/
theorem runCommand_of_shortRun {n turns : Nat} {t : Task} {r : Response} (hq : s.sched = [])
    (h : quietRun n t s.takeCtx = some (r, s')) (hn : n ≤ 256) : runCommand t turns s = s'.respond s.nextCtx r :=
  runCommand_of_quietRun hq h (hn.trans (s.fuel_ge turns))

/-- A command whose first primitive fails with nothing to clean up answers the failure and changes nothing. -/
theorem runCommand_of_raise {t : Task} {turns : Nat} (hq : s.sched = [])
    (h : t.step s.takeCtx = .more (Task.raise off) s.takeCtx) : runCommand t turns s = s.ends [] (.hwError off) := by
  have hrun : quietRun 2 t s.takeCtx = some (.hwError off, s.takeCtx) := by
    rw [quietRun_succ, h]
    rfl
  rw [runCommand_of_shortRun hq hrun (by decide)]
  simp [State.ends, State.respond, State.emit, State.takeCtx]

theorem exec_read32_refused (hq : s.sched = []) (h : s.admits off = false) :
    exec (.read32 off) s = .next (s.ends [] (.hwError off)) := by
  have hstep : (read32Task off).step s.takeCtx = .more (Task.raise off) s.takeCtx :=
    (Task.step_read32 _ off).trans (readThen_refused (s := s.takeCtx) h _ _)
  exact congrArg _ (runCommand_of_raise hq hstep)

theorem exec_write32_refused (hq : s.sched = []) (h : s.admits off = false) :
    exec (.write32 value off) s = .next (s.ends [] (.hwError off)) :=
  congrArg _ (runCommand_of_raise hq (Task.step_regWrite_refused (s := s.takeCtx) h))

theorem exec_writeFlush_refused (hq : s.sched = []) (h : s.admits s.cfg.regStatus = false) :
    exec .writeFlush s = .next (s.ends [] (.hwError s.cfg.regStatus)) :=
  congrArg _ (runCommand_of_raise hq (Task.step_regRead_refused (s := s.takeCtx) h))

/-! ### An access that is admitted (R131, R132) -/

/-- READ32 delivers the posted writes, reads, and answers the value. -/
theorem exec_read32_admitted (hq : s.sched = []) (ha : s.admits off = true) (h : s.drain.nicRead off = (v, s')) :
    exec (.read32 off) s = .next (s'.ends [.regRead off v] (.ok (v.setWidth 64))) := by
  have hread := State.regRead32_pollState ha h s.pollState (s.nextCtx + 1)
  obtain ⟨n, d, rfl⟩ := State.drain_nicRead_only h
  have hstep : (read32Task off).step s.takeCtx = .more (Task.answer (.ok (v.setWidth 64)))
      { s.takeCtx with wbuf := [], nic := n, drawn := d, trace := s.trace ++ [.regRead off v] } := by
    change s.takeCtx.regRead32 off = _ at hread
    simp only [Task.step_read32, stepRead32, readThen, hread]
    rfl
  have hrun : quietRun 2 (read32Task off) s.takeCtx = some (.ok (v.setWidth 64),
      { s.takeCtx with wbuf := [], nic := n, drawn := d, trace := s.trace ++ [.regRead off v] }) := by
    rw [quietRun_succ, hstep]
    rfl
  exact congrArg _ (runCommand_of_shortRun hq hrun (by decide))

/-- WRITE32 posts the pair and answers OK(0). -/
theorem exec_write32_admitted (hq : s.sched = []) (ha : s.admits off = true) :
    exec (.write32 value off) s =
      .next ({ s with wbuf := s.wbuf ++ [(off, value)] }.ends [.regWrite off value] (.ok 0)) := by
  have hrun : quietRun 2 (write32Task value off) s.takeCtx = some (.ok 0,
      { s.takeCtx with wbuf := s.wbuf ++ [(off, value)] }.emit (.regWrite off value)) := by
    rw [write32Task, quietRun_todo, Prim.apply, State.regWrite32_admitted (s := s.takeCtx) ha]
    rfl
  exact congrArg _ (runCommand_of_shortRun hq hrun (by decide))

/-! ### A register read after a write (R81, R86) -/

/-- The newest posted write is delivered last. -/
theorem State.drain_post (s : State) (off v : Word) :
    { s with wbuf := s.wbuf ++ [(off, v)] }.drain = s.drain.nicWrite off v :=
  State.deliver_append s.wbuf [(off, v)] { s with wbuf := [] }

@[simp] theorem Nic.write_resetting (n : Nic) (r : NicReg) (v : Word) : (n.write r v).resetting = n.resetting := by
  cases r <;> rfl

/-- A stored register holds what was written to it; a multicast entry, when the table has it. -/
theorem Nic.get_write {n : Nic} {r : NicReg} (hr : r ∉ [.icr, .ims, .imc, .status])
    (hmta : ∀ i, r = .mta i → i < n.mta.length) (v : Word) : (n.write r v).get r = v := by
  cases r with
  | icr | ims | imc | status => simp at hr
  | mta i => simp [Nic.write, Nic.get, hmta i rfl]
  | _ => rfl

end Sys2Proof.Machine

namespace Sys2Proof
open Sys2Proof.Machine

/-- Settles O9: the first READ32 leaves nothing posted and the cause register 0, so the second reads 0 and changes
nothing. -/
theorem read32Cause : Obligations.Read32Cause := by
  intro s hq hmap ha hr
  have hicr : s.cfg.regAt s.cfg.regIcr = some .icr := Cfg.regAt_offset hmap (r := .icr) (by simp [NicReg.scalars])
  have hfirst := State.nicRead_icr hr (off := s.cfg.regIcr) (by simpa using hicr)
  have hagain : { s.drain with nic := { s.drain.nic with icr := 0 } }.nicRead s.cfg.regIcr =
      (0, { s.drain with nic := { s.drain.nic with icr := 0 } }) :=
    State.nicRead_icr (by simpa using hr) (by simpa using hicr)
  refine ⟨_, exec_read32_admitted hq ha hfirst, rfl, exec_read32_admitted (by simpa using hq) ?_ ?_⟩
  · rw [State.ends_admits]
    simpa [State.admits] using ha
  · rw [State.drain_empty (by simp)]
    exact State.ends_nicRead hagain _ _

/-- Settles O11: an access that misses one of R77's three conditions is not admitted. -/
theorem registerAccessRefused : Obligations.RegisterAccessRefused := by
  intro s off value hq hcond
  have h := State.admits_eq_false_iff.mpr hcond
  refine ⟨exec_read32_refused hq h, exec_write32_refused hq h, ?_⟩
  rintro rfl
  exact exec_writeFlush_refused hq h

/-- Settles O14: the drain of READ32 delivers the write last, and the register holds it. -/
theorem readAfterWrite : Obligations.ReadAfterWrite := by
  intro s off value r hq ha hshape hr _ hreg hplain
  simp only [List.mem_cons, List.not_mem_nil, or_false, not_or] at hplain
  obtain ⟨hicr, hims, himc, hstatus, hctrl⟩ := hplain
  have hmta : ∀ i, r = .mta i → i < s.drain.nic.mta.length := by
    rintro i rfl
    rw [State.drain_mta_length, (hasShape_iff.mpr ⟨rfl, hshape⟩).mta]
    exact Cfg.regAt_mta_lt hreg
  have hget : (s.drain.nic.write r value).get r = value :=
    Nic.get_write (by simp [hicr, hims, himc, hstatus]) hmta value
  have hposted := State.nicWrite_named hr (by simpa using hreg) hctrl value
  have hread : (s.drain.nicWrite off value).nicRead off = (value, s.drain.nicWrite off value) := by
    rw [hposted, State.nicRead_named (r := r) (by simpa using hr) (by simpa using hreg) hicr hims himc, hget]
  have hwritten := State.ends_nicRead hread [.regWrite off value] (.ok 0)
  rw [← State.drain_post, ← State.ends_drain] at hwritten
  refine ⟨_, _, exec_write32_admitted hq ha, exec_read32_admitted (by simpa using hq) ha hwritten, ?_, ?_, ?_⟩
  · simp
  · simp
  · rw [State.ends_nic, State.ends_drain, State.ends_nic, State.drain_post, hposted]

end Sys2Proof
end

section
/-! PROOFS. Command words and assembled values (30_encoding R100 to R115, 20_memory R75): the decoder and the encoder are
inverse on legal words, what becomes of an illegal word and of a command outside its lifecycle states, and the values of the words
that DRM puts together. -/

namespace Sys2Proof

variable {w : CmdWord} {i : Instr} {k : Byte} {f : Format}

/-! ### The fields of a word (R100) -/

@[simp] theorem arg0_pack (op : Byte) (a : Word) (b : DWord) : CmdWord.arg0 (pack op a b) = a := by
  rw [CmdWord.arg0, pack, BitVec.extractLsb'_append_eq_of_le (by decide)]
  exact BitVec.extractLsb'_append_eq_right

@[simp] theorem arg1_pack (op : Byte) (a : Word) (b : DWord) : CmdWord.arg1 (pack op a b) = b :=
  BitVec.extractLsb'_append_eq_right

@[simp] theorem arg1Low_pack (op : Byte) (a v : Word) : CmdWord.arg1Low (pack op a (lowArg v)) = v := by
  rw [CmdWord.arg1Low, pack, BitVec.extractLsb'_append_eq_of_add_le (by decide), lowArg,
    BitVec.extractLsb'_setWidth_of_le (by decide), BitVec.extractLsb'_eq_self]

/-- A word is its three fields. -/
theorem pack_fields (w : CmdWord) : pack (CmdWord.op w) (CmdWord.arg0 w) (CmdWord.arg1 w) = w := by
  rw [pack, CmdWord.op, CmdWord.arg0,
    BitVec.extractLsb'_append_extractLsb'_eq_extractLsb' (show 96 = 64 + 32 by decide)]
  exact BitVec.extractLsb'_append_extractLsb'

/-! ### Legal words (R102, R108) -/

theorem legal_iff :
    CmdWord.legal w = true ↔ ∃ f, formatOf (CmdWord.op w) = some f ∧ w.extractLsb' 0 96 &&& f.mustBeZero = 0 := by
  unfold CmdWord.legal
  cases formatOf (CmdWord.op w) <;> simp

/-- The must-be-zero bits of a legal word are 0. -/
theorem getLsbD_of_legal (hl : CmdWord.legal w = true) (hf : formatOf (CmdWord.op w) = some f) {j : Nat} (hj : j < 96)
    (hm : f.mustBeZero.getLsbD j = true) : w.getLsbD j = false := by
  obtain ⟨g, hg, hzero⟩ := legal_iff.mp hl
  obtain rfl := Option.some.inj (hf.symm.trans hg)
  have hbit : (w.extractLsb' 0 96 &&& f.mustBeZero).getLsbD j = false := by simp [hzero]
  rw [BitVec.getLsbD_and, hm] at hbit
  simpa [hj] using hbit

theorem arg0_eq_zero (hl : CmdWord.legal w = true) (hf : formatOf (CmdWord.op w) = some .z) : CmdWord.arg0 w = 0 := by
  apply BitVec.eq_of_getLsbD_eq
  intro j hj
  have hmask : ∀ j, j < 96 → Format.z.mustBeZero.getLsbD j = true := by decide
  simp [CmdWord.arg0, getLsbD_of_legal hl hf (j := 64 + j) (by omega) (hmask _ (by omega))]

theorem arg1_eq_zero (hl : CmdWord.legal w = true) (hf : formatOf (CmdWord.op w) = some f)
    (hm : ∀ j, j < 64 → f.mustBeZero.getLsbD j = true) : CmdWord.arg1 w = 0 := by
  apply BitVec.eq_of_getLsbD_eq
  intro j hj
  simp [CmdWord.arg1, getLsbD_of_legal hl hf (by omega) (hm j hj)]

theorem arg1_eq_lowArg (hl : CmdWord.legal w = true) (hf : formatOf (CmdWord.op w) = some f)
    (hm : f.mustBeZero = Format.vo.mustBeZero) : CmdWord.arg1 w = lowArg (CmdWord.arg1Low w) := by
  apply BitVec.eq_of_getLsbD_eq
  intro j hj
  by_cases hlow : j < 32
  · simp [CmdWord.arg1, CmdWord.arg1Low, lowArg, hj, hlow]
  · have hmask : f.mustBeZero.getLsbD j = true := by simp [hm, mustBeZero_vo j (by omega), hj, Nat.not_lt.mp hlow]
    simp [CmdWord.arg1, CmdWord.arg1Low, lowArg, hlow, getLsbD_of_legal hl hf (by omega) hmask]

/-! ### A legal word is packed from the operands its format has (R102)

The opcode is given by its number, as the decoder compares it. -/

theorem pack_all_eq (hop : (CmdWord.op w).toNat = k.toNat) : pack k (CmdWord.arg0 w) (CmdWord.arg1 w) = w := by
  obtain rfl := BitVec.eq_of_toNat_eq hop
  exact pack_fields w

theorem pack_none_eq (hl : CmdWord.legal w = true) (hop : (CmdWord.op w).toNat = k.toNat)
    (hf : formatOf k = some .z) : pack k 0 0 = w := by
  rw [← BitVec.eq_of_toNat_eq hop] at hf
  rw [← pack_all_eq hop, arg0_eq_zero hl hf, arg1_eq_zero hl hf (by decide)]

theorem pack_one_eq (hl : CmdWord.legal w = true) (hop : (CmdWord.op w).toNat = k.toNat) (hf : formatOf k = some f)
    (hm : f.mustBeZero = Format.o.mustBeZero) : pack k (CmdWord.arg0 w) 0 = w := by
  rw [← BitVec.eq_of_toNat_eq hop] at hf
  have hlow : ∀ j, j < 64 → f.mustBeZero.getLsbD j = true := fun j hj => by
    simp [hm, mustBeZero_o j (by omega), hj]
  conv_rhs => rw [← pack_all_eq hop, arg1_eq_zero hl hf hlow]

theorem pack_two_eq (hl : CmdWord.legal w = true) (hop : (CmdWord.op w).toNat = k.toNat) (hf : formatOf k = some f)
    (hm : f.mustBeZero = Format.vo.mustBeZero) : pack k (CmdWord.arg0 w) (lowArg (CmdWord.arg1Low w)) = w := by
  rw [← BitVec.eq_of_toNat_eq hop] at hf
  rw [← arg1_eq_lowArg hl hf hm, pack_all_eq hop]

/-! ### The decoder and the encoder (R100 to R102) -/

theorem decode_eq_ok_iff : decode w = .ok i ↔ commandOf w = some i ∧ CmdWord.legal w = true := by
  unfold decode
  cases commandOf w with
  | none => simp
  | some i' => cases CmdWord.legal w <;> simp

/-- The word of every command is legal. -/
theorem encode_legal (i : Instr) : CmdWord.legal (encode i) = true := by
  cases i with
  | read32 offset => exact Laws.EncodeLegal.read32 offset
  | write32 value offset => exact Laws.EncodeLegal.write32 value offset
  | writeFlush => exact Laws.EncodeLegal.writeFlush
  | writeIo value offset => exact Laws.EncodeLegal.writeIo value offset
  | ringInit txBase rxBase => exact Laws.EncodeLegal.ringInit txBase rxBase
  | reset => exact Laws.EncodeLegal.reset
  | configure => exact Laws.EncodeLegal.configure
  | start => exact Laws.EncodeLegal.start
  | stop => exact Laws.EncodeLegal.stop
  | detach => exact Laws.EncodeLegal.detach
  | submit len buf => exact Laws.EncodeLegal.submit len buf
  | recycle => exact Laws.EncodeLegal.recycle
  | irq => exact Laws.EncodeLegal.irq
  | poll budget => exact Laws.EncodeLegal.poll budget
  | readStats => exact Laws.EncodeLegal.readStats

/-- The opcode picks the row of the command table, and each operand is the field it was packed into. -/
theorem commandOf_encode (i : Instr) : commandOf (encode i) = some i := by
  cases i <;> simp [encode, commandOf, op_pack]

theorem decode_encode (i : Instr) : decode (encode i) = .ok i :=
  decode_eq_ok_iff.mpr ⟨commandOf_encode i, encode_legal i⟩

/-- Row by row of the command table: a legal word has no bit that its command does not. -/
theorem encode_of_commandOf (h : commandOf w = some i) (hl : CmdWord.legal w = true) : encode i = w := by
  unfold commandOf at h
  split at h <;> obtain ⟨⟩ := h
  next hop => exact pack_one_eq hl hop rfl rfl
  next hop => exact pack_two_eq hl hop rfl rfl
  next hop => exact pack_none_eq hl hop rfl
  next hop => exact pack_two_eq hl hop rfl rfl
  next hop => exact pack_two_eq hl hop rfl rfl
  next hop => exact pack_none_eq hl hop rfl
  next hop => exact pack_none_eq hl hop rfl
  next hop => exact pack_none_eq hl hop rfl
  next hop => exact pack_none_eq hl hop rfl
  next hop => exact pack_none_eq hl hop rfl
  next hop => exact pack_all_eq hop
  next hop => exact pack_none_eq hl hop rfl
  next hop => exact pack_none_eq hl hop rfl
  next hop => exact pack_one_eq hl hop rfl rfl
  next hop => exact pack_none_eq hl hop rfl

/-! ### Little-endian bytes (20_memory R75) -/

theorem leValue_leBytes (n v : Nat) : leValue (leBytes n v) = v % 256 ^ n := by
  induction n generalizing v with
  | zero => simp [leBytes, leValue, Nat.mod_one]
  | succ n ih => rw [leBytes, leValue, ih, BitVec.toNat_ofNat, pow_succ' 256 n, Nat.mod_mul]

theorem decodeBytes_leBytes (w : CmdWord) : decodeBytes (leBytes 13 w.toNat) = decode w := by
  have hw : w.toNat % 256 ^ 13 = w.toNat := Nat.mod_eq_of_lt w.isLt
  rw [decodeBytes, if_pos (Machine.leBytes_length _ _), leValue_leBytes, hw, BitVec.ofNat_toNat, BitVec.setWidth_eq]

/-! ### Words that are no command (R108) -/

theorem op_mem_of_formatOf (h : formatOf k = some f) :
    k ∈ ([0x01, 0x02, 0x03, 0x04, 0x10, 0x11, 0x12, 0x13, 0x14, 0x15, 0x20, 0x21, 0x30, 0x31, 0x32] : List Byte) := by
  unfold formatOf at h
  split at h <;> simp_all [← BitVec.toNat_inj]

theorem decode_of_not_legal (h : CmdWord.legal w = false) : ∃ e, decode w = .error e := by
  cases hd : decode w with
  | error e => exact ⟨e, rfl⟩
  | ok i => simp [(decode_eq_ok_iff.mp hd).2] at h

/-! ### Lanes of a register (R112) -/

theorem toNat_or_of_disjoint {n : Nat} {x y : BitVec n} (h : x &&& y = 0) : (x ||| y).toNat = x.toNat + y.toNat := by
  rw [← BitVec.add_eq_or_of_and_eq_zero x y h, BitVec.toNat_add_of_and_eq_zero h]

/-- A half word shares no bit with a mask that has none in the low half. -/
theorem and_eq_zero_of_lt {x y : Word} (hx : x.toNat < 2 ^ 16) (hy : y &&& 0xFFFF = 0) : x &&& y = 0 := by
  have hlow : x &&& 0xFFFF = x := by
    apply BitVec.eq_of_toNat_eq
    rw [BitVec.toNat_and]
    exact Nat.and_two_pow_sub_one_of_lt_two_pow hx
  calc x &&& y = x &&& (y &&& 0xFFFF) := by rw [BitVec.and_comm y, ← BitVec.and_assoc, hlow]
    _ = 0 := by rw [hy]; exact BitVec.and_zero

/-- A byte put into the lane above what is there. -/
theorem toNat_or_lane {x : Word} {n : Nat} (hx : x.toNat < 2 ^ n) (hn : n + 8 ≤ 32) (b : Byte) :
    (x ||| b.setWidth 32 <<< n).toNat = x.toNat + 2 ^ n * b.toNat := by
  have hpow : 2 ^ n * 2 ^ 8 ≤ 2 ^ 32 := by rw [← pow_add]; exact Nat.pow_le_pow_right (by decide) hn
  have hlane : 2 ^ n * b.toNat < 2 ^ 32 := by
    calc 2 ^ n * b.toNat < 2 ^ n * 2 ^ 8 := Nat.mul_lt_mul_of_pos_left b.isLt (by positivity)
      _ ≤ 2 ^ 32 := hpow
  have hb : b.toNat < 2 ^ 32 := b.isLt.trans (by decide)
  rw [BitVec.toNat_or, BitVec.toNat_shiftLeft, BitVec.toNat_setWidth, Nat.mod_eq_of_lt hb, Nat.shiftLeft_eq,
    Nat.mul_comm b.toNat, Nat.mod_eq_of_lt hlane, Nat.or_comm, ← Nat.two_pow_add_eq_or_of_lt hx, Nat.add_comm]

theorem Mac.ral_toNat (m : Mac) :
    m.ral.toNat = m.b0.toNat + 2 ^ 8 * m.b1.toNat + 2 ^ 16 * m.b2.toNat + 2 ^ 24 * m.b3.toNat := by
  have h0 : (m.b0.setWidth 32).toNat = m.b0.toNat := by simp; omega
  have h1 := toNat_or_lane (x := m.b0.setWidth 32) (n := 8) (by omega) (by decide) m.b1
  have h2 := toNat_or_lane (x := m.b0.setWidth 32 ||| m.b1.setWidth 32 <<< 8) (n := 16) (by omega) (by decide) m.b2
  rw [Mac.ral, toNat_or_lane (by omega) (by decide), h2, h1, h0]

/-- The valid flag stands above the two bytes. -/
theorem Mac.rah_toNat {c : Cfg} (h : c.rahAv &&& 0xFFFF = 0) (m : Mac) :
    (Mac.rah c m).toNat = m.b4.toNat + 2 ^ 8 * m.b5.toNat + c.rahAv.toNat := by
  have h0 : (m.b4.setWidth 32).toNat = m.b4.toNat := by simp; omega
  have h1 := toNat_or_lane (x := m.b4.setWidth 32) (n := 8) (by omega) (by decide) m.b5
  rw [Mac.rah, toNat_or_of_disjoint (and_eq_zero_of_lt (by omega) h), h1, h0]

end Sys2Proof

namespace Sys2Proof.Machine

variable {s : State} {w : CmdWord} {i : Instr}

theorem Response.word_toNat (r : Response) : r.word.toNat = r.status.code.toNat * 2 ^ 64 + r.data.toNat := by
  rw [Response.word, BitVec.toNat_append, ← Nat.shiftLeft_add_eq_or_of_lt r.data.isLt, Nat.shiftLeft_eq]

theorem Response.leValue_bytes (r : Response) : leValue r.bytes = r.word.toNat := by
  rw [Response.bytes, leValue_leBytes]
  exact Nat.mod_eq_of_lt r.word.isLt

/-! ### The command port (R100, R108) -/

/-- A command that only answers takes a context and leaves its response. -/
theorem State.takeCtx_respond (s : State) (r : Response) : s.takeCtx.respond s.nextCtx r = s.ends [] r := by
  simp [State.ends, State.respond, State.emit, State.takeCtx]

theorem step_of_port (h : s.port = some w) : step s = serve w s.takePort := by
  rw [step, h]

theorem serve_ok (h : decode w = .ok i) (s : State) : serve w s = exec i s := by
  rw [serve, h]

theorem serve_error {e : DecodeError} (h : decode w = .error e) (s : State) :
    serve w s = .next (s.ends [] (.refuse .illegalCommand)) := by
  rw [serve, h, ← State.takeCtx_respond]
  rfl

/-! ### Commands that are not admitted (R109, 41_reset_configure R150) -/

/-- A command whose first primitive leads to an answer and changes nothing has only its response as its effect. -/
theorem runCommand_of_answer {t : Task} {r : Response} (hq : s.sched = [])
    (h : t.step s.takeCtx = .more (Task.answer r) s.takeCtx) (turns : Nat) : runCommand t turns s = s.ends [] r := by
  have hrun : quietRun 2 t s.takeCtx = some (r, s.takeCtx) := by
    rw [quietRun_succ, h]
    rfl
  rw [runCommand_of_shortRun hq hrun (by decide), State.takeCtx_respond]

theorem whenAdmitted_refused {b : Bool} (h : b = false) (t : Task) (s : State) :
    whenAdmitted b t s = .more (Task.answer (.refuse .illegalState)) s := by
  rw [h]
  rfl

/-- The admission table is the test that each command makes first. -/
theorem taskOf_step_notAdmitted (c : Cfg) (h : s.admitted i = false) :
    (taskOf c i).step s = .more (Task.answer (.refuse .illegalState)) s := by
  cases i with
  | read32 | write32 | writeFlush | writeIo | readStats => exact absurd h (by simp [State.admitted])
  | ringInit txBase rxBase =>
    refine if_neg ?_
    unfold State.admitted at h
    cases hf : s.fsm <;> simp_all [State.admitsRingInit]
  | reset | start | stop | recycle | irq => exact whenAdmitted_refused (by simpa [State.admitted] using h) _ s
  | configure => exact whenAdmitted_refused (by simpa [State.admitted, State.admitsConfigure] using h) _ s
  | detach | submit => exact if_neg (by simpa [State.admitted] using h)
  | poll => exact if_neg (by simpa [State.admitted, State.admitsPoll] using h)

theorem exec_notAdmitted (hq : s.sched = []) (h : s.admitted i = false) :
    exec i s = .next (s.ends [] (.refuse .illegalState)) := by
  obtain ⟨turns, he⟩ := exec_eq i s
  rw [he, runCommand_of_answer hq (taskOf_step_notAdmitted (s := s.takeCtx) s.cfg h)]

end Sys2Proof.Machine

namespace Sys2Proof
open Sys2Proof.Machine

/-- Settles O1: the word of a command decodes to it, and thirteen bytes hold the whole word. -/
theorem decodeOfEncode : Obligations.DecodeOfEncode :=
  fun i => ⟨decode_encode i, (decodeBytes_leBytes (encode i)).trans (decode_encode i)⟩

/-- Settles O2: the decoder accepts legal words only, and a legal word is packed from its command's operands. -/
theorem encodeOfDecode : Obligations.EncodeOfDecode := by
  intro w i h
  obtain ⟨hcommand, hlegal⟩ := decode_eq_ok_iff.mp h
  exact encode_of_commandOf hcommand hlegal

/-- Settles O6: a command that is not admitted answers at its first primitive, and the length is tested first. -/
theorem notAdmitted : Obligations.NotAdmitted :=
  ⟨fun _ _ hq h => exec_notAdmitted hq h, fun _ h => if_neg h⟩

/-- Settles O7: each lane stands above the ones below it; the default values are evaluated. -/
theorem assembledValues : Obligations.AssembledValues := by
  refine ⟨Mac.ral_toNat, fun _ m h => Mac.rah_toNat h m, by decide, by decide, by decide, by decide, by decide, ?_⟩
  exact fun r => ⟨leBytes_length 9 _, (Response.leValue_bytes r).trans (Response.word_toNat r)⟩

/-- Settles O3: the legal words are those of their commands; the other two are evaluated. -/
theorem decodedWords : Obligations.DecodedWords :=
  ⟨decode_encode (.read32 0x8), decode_encode (.write32 0xFFFFFFFF 0xD8), decode_encode (.writeIo 0x04140240 0x0),
    decode_encode (.ringInit 0x00100000 0x00101000), decode_encode (.submit 64 0xB0), decode_encode (.poll 16),
    by decide, by decide⟩

/-- Settles O4: the port is read, the word decoded, the command run. -/
theorem stepRunsCommand : Obligations.StepRunsCommand :=
  fun _ _ _ hw hi => (step_of_port hw).trans (serve_ok hi _)

/-- Settles O5: either reason makes the word illegal, and no illegal word decodes. -/
theorem illegalWord : Obligations.IllegalWord := by
  intro s w hw hbad
  have hlegal : CmdWord.legal w = false := by
    rw [Bool.eq_false_iff, ne_eq, legal_iff]
    rintro ⟨f, hf, hzero⟩
    rcases hbad with hop | ⟨g, hg, hne⟩
    · exact hop (op_mem_of_formatOf hf)
    · obtain rfl := Option.some.inj (hg.symm.trans hf)
      exact hne hzero
  obtain ⟨e, he⟩ := decode_of_not_legal hlegal
  exact (step_of_port hw).trans (serve_error he _)

end Sys2Proof
end

section
/-! PROOFS. The register access layer (40_register_access R130 to R135): a read whose value the spec leaves open, WRITE_FLUSH
and WRITE_IO on their own, WRITE_IO when the I/O region goes away between its ports, and the frame of the four commands. -/

namespace Sys2Proof.Machine

variable {s s' : State} {off v value : Word}

/-! ### What a read answers (20_memory R82; 93 U3, U6) -/

/-- Where the spec gives a read no value, it draws a free one and touches nothing at the NIC. -/
theorem State.nicRead_unspecified
    (h : s.nic.resetting = true ∨ s.cfg.regAt off = none ∨ s.cfg.regAt off = some .ims ∨ s.cfg.regAt off = some .imc) :
    s.nicRead off = s.anyWord := by
  unfold State.nicRead
  split
  · rfl
  · next hr =>
    obtain hreset | hnone | hims | himc := h
    · exact absurd hreset hr
    · rw [hnone]
    · rw [hims]
    · rw [himc]

/-- A read of the status register answers it while the NIC does not reset, and changes no register in any case. -/
theorem State.nicRead_status (hreg : s.cfg.regAt off = some .status) :
    ∃ v d, s.nicRead off = (v, { s with drawn := d }) ∧ (s.nic.resetting = false → v = s.nic.status ∧ d = s.drawn) := by
  cases hr : s.nic.resetting with
  | true => exact ⟨_, _, State.nicRead_unspecified (.inl hr), fun h => absurd h (by simp)⟩
  | false => exact ⟨_, s.drawn, State.nicRead_named hr hreg (by decide) (by decide) (by decide), fun _ => ⟨rfl, rfl⟩⟩

/-! ### WRITE_FLUSH (R133) -/

/-- WRITE_FLUSH delivers the posted writes, reads the status register and answers OK(0) whatever the value. -/
theorem exec_writeFlush_admitted (hq : s.sched = []) (ha : s.admits s.cfg.regStatus = true)
    (h : s.drain.nicRead s.cfg.regStatus = (v, s')) :
    exec .writeFlush s = .next (s'.ends [.regRead s.cfg.regStatus v] (.ok 0)) := by
  have hread := State.regRead32_pollState ha h s.pollState (s.nextCtx + 1)
  change s.takeCtx.regRead32 s.cfg.regStatus = _ at hread
  obtain ⟨n, d, rfl⟩ := State.drain_nicRead_only h
  have hrun : quietRun 2 (writeFlushTask s.cfg) s.takeCtx = some (.ok 0,
      { s.takeCtx with wbuf := [], nic := n, drawn := d, trace := s.trace ++ [.regRead s.cfg.regStatus v] }) := by
    rw [writeFlushTask, quietRun_todo, flush, Prim.apply, hread]
    rfl
  exact congrArg _ (runCommand_of_shortRun hq hrun (by decide))

/-! ### WRITE_IO (R134, 20_memory R83) -/

/-- A port write while the I/O region is unmapped leads to its place's clean-up, nothing changed. -/
theorem Task.step_ioWrite_refused (hio : s.ioValid = false) {port : IoPort} {ps : List Prim} {p : Point} :
    Task.step s ⟨.ioWrite port v :: ps, p⟩ = .more (p.onError (s.cfg.port port)) s := by
  simp [Task.step, Prim.apply, State.ioWrite32, hio, orError]

/-- The NIC's index port holds `off`: what the first of WRITE_IO's two writes does (`Prim.apply_ioAddr`). -/
def State.setIndex (s : State) (off : Word) : State := { s with nic := { s.nic with ioIndex := off } }

theorem Prim.apply_ioAddr (hio : s.ioValid = true) :
    (Prim.ioWrite .addr off).apply s = .ok ((s.setIndex off).emit (.ioWrite .addr off)) := by
  simp [Prim.apply, State.ioWrite32, hio, orError, State.setIndex]

theorem Prim.apply_ioData (hio : s.ioValid = true) :
    (Prim.ioWrite .data v).apply s = .ok ((s.nicWrite s.nic.ioIndex v).emit (.ioWrite .data v)) := by
  simp [Prim.apply, State.ioWrite32, hio, orError]

/-- Two results of an access that are the same have the same NIC and count of free values. -/
theorem State.nic_drawn_inj {n n' : Nic} {d d' : Nat}
    (h : { s with nic := n, drawn := d } = { s with nic := n', drawn := d' }) : n = n' ∧ d = d' :=
  ⟨congrArg State.nic h, congrArg State.drawn h⟩

/-- A write to a named register that starts no global reset is the one of R241. -/
theorem State.nicWrite_plain {r : NicReg} (hr : s.nic.resetting = false) (hreg : s.cfg.regAt off = some r)
    (hctrl : r = .ctrl → v &&& s.cfg.ctrlRst = 0) : s.nicWrite off v = { s with nic := s.nic.write r v } := by
  by_cases hc : r = .ctrl
  · subst hc
    exact State.nicWrite_ctrl hr hreg (hctrl rfl)
  · exact State.nicWrite_named hr hreg hc v

/-- A write at the NIC looks neither at the trace nor at the numbering of contexts. -/
theorem State.nicWrite_emit (s : State) (e : Event) (off v : Word) :
    (s.emit e).nicWrite off v = (s.nicWrite off v).emit e := by
  rw [State.nicWrite_eq, State.nicWrite_eq s]
  rfl

theorem State.setIndex_nicWrite_takeCtx (s : State) (off v : Word) :
    (s.takeCtx.setIndex off).nicWrite off v = ((s.setIndex off).nicWrite off v).takeCtx := by
  rw [State.nicWrite_eq, State.nicWrite_eq (s.setIndex off)]
  rfl

/-- The two port writes of WRITE_IO: the index at once, then a write to the register that the index names. -/
theorem primsOk_writeViaIoPort (hio : s.ioValid = true) :
    primsOk s (writeViaIoPort value off) =
      some ((((s.setIndex off).nicWrite off value).emit (.ioWrite .addr off)).emit (.ioWrite .data value)) := by
  have hdata : (Prim.ioWrite .data value).apply ((s.setIndex off).emit (.ioWrite .addr off)) =
      .ok ((((s.setIndex off).emit (.ioWrite .addr off)).nicWrite off value).emit (.ioWrite .data value)) :=
    Prim.apply_ioData hio
  simp only [writeViaIoPort, primsOk, Prim.apply_ioAddr hio, hdata, State.nicWrite_emit]

/-- WRITE_IO makes its two port writes and answers OK(0). -/
theorem exec_writeIo_admitted (hq : s.sched = []) (hio : s.ioValid = true) :
    exec (.writeIo value off) s =
      .next (((s.setIndex off).nicWrite off value).ends [.ioWrite .addr off, .ioWrite .data value] (.ok 0)) := by
  have hrun := quietRun_prims (primsOk_writeViaIoPort (s := s.takeCtx) (value := value) (off := off) hio) 1
    (.respond (.ok 0))
  have hlength : 1 + (writeViaIoPort value off).length ≤ 256 := by simp [writeViaIoPort]
  refine congrArg _ ((runCommand_of_shortRun hq hrun hlength).trans ?_)
  rw [State.setIndex_nicWrite_takeCtx]
  simp [State.ends, State.respond, State.emit, State.takeCtx, State.setIndex]

/-- With the I/O region unmapped the index write itself is not performed. -/
theorem exec_writeIo_refused (hq : s.sched = []) (hio : s.ioValid = false) :
    exec (.writeIo value off) s = .next (s.ends [] (.hwError s.cfg.ioAddr)) :=
  congrArg _ (runCommand_of_raise hq (Task.step_ioWrite_refused (s := s.takeCtx) hio))

/-! ### The I/O region goes away between the two ports (60_exceptions R266) -/

/-- A primitive that goes on, after a gap in which the other agents change the state but not the command. -/
theorem drive_gap_more {g : State} {t t' : Task} {k : Nat} (hg : (s.park k t).gap = g.park k t)
    (h : t.step g = .more t' s') (n : Nat) : drive (n + 1) k (s.park k t) = drive n k (s'.park k t') := by
  rw [drive_succ, hg, State.park_tasks, taskAt_cons]
  simp only [State.park_without, h]

theorem Task.step_writeIo (hio : s.ioValid = true) :
    (writeIoTask value off).step s = .more ⟨[.ioWrite .data value], .respond (.ok 0)⟩
      ((s.setIndex off).emit (.ioWrite .addr off)) := by
  simp [Task.step, writeIoTask, writeViaIoPort, Prim.apply_ioAddr hio]

/-- The index write stays made; the data write is not performed. -/
theorem exec_writeIo_unmapped_between (hq : s.sched = [[], [.setIoValid false]]) (hio : s.ioValid = true) :
    exec (.writeIo value off) s =
      .next (({ s with sched := [], ioValid := false }.setIndex off).ends [.ioWrite .addr off] (.hwError s.cfg.ioData)) := by
  obtain ⟨n, hfuel⟩ : ∃ n, s.fuel 0 = n + 3 := ⟨s.fuel 0 - 3, by have := s.fuel_ge 0; omega⟩
  have hfirst : (s.takeCtx.park s.nextCtx (writeIoTask value off)).gap =
      { s.takeCtx with sched := [[.setIoValid false]] }.park s.nextCtx (writeIoTask value off) := by
    simp [State.gap, State.park, State.takeCtx, hq, State.moves]
  have hindex := Task.step_writeIo (value := value) (off := off)
    (s := { s.takeCtx with sched := [[.setIoValid false]] }) hio
  have hdata := Task.step_ioWrite_refused (v := value) (port := .data) (ps := []) (p := .respond (.ok 0))
    (s := ({ s.takeCtx with sched := [], ioValid := false }.setIndex off).emit (.ioWrite .addr off)) rfl
  have hrun := (drive_gap_more hfirst hindex (n + 2)).trans
    ((drive_gap_more rfl hdata (n + 1)).trans (drive_answer rfl _ n s.nextCtx))
  rw [← hfuel] at hrun
  refine congrArg _ (hrun.trans ?_)
  simp [State.ends, State.respond, State.emit, State.takeCtx, State.setIndex, Response.hwError, Cfg.port]

/-! ### The frame of the four commands (R130) -/

/-- A state that differs from another in the posted writes, the NIC, the count of free values, the numbering of contexts
and the trace only. -/
def OnlyBus (s s' : State) : Prop :=
  ∃ wb n d k tr, s' = { s with wbuf := wb, nic := n, drawn := d, nextCtx := k, trace := tr }

theorem OnlyBus.refl (s : State) : OnlyBus s s := ⟨s.wbuf, s.nic, s.drawn, s.nextCtx, s.trace, rfl⟩

theorem OnlyBus.ends (h : OnlyBus s s') (es : List Event) (r : Response) : OnlyBus s (s'.ends es r) := by
  obtain ⟨wb, n, d, k, tr, rfl⟩ := h
  exact ⟨wb, n, d, _, _, rfl⟩

theorem State.drain_nicRead_onlyBus (s : State) (off : Word) : OnlyBus s (s.drain.nicRead off).2 := by
  obtain ⟨n, d, h⟩ := State.drain_nicRead_only (s := s) (off := off) rfl
  exact ⟨_, n, d, s.nextCtx, s.trace, h⟩

theorem State.setIndex_nicWrite_onlyBus (s : State) (off v : Word) : OnlyBus s ((s.setIndex off).nicWrite off v) := by
  obtain ⟨n, d, h⟩ := State.nicWrite_only (s.setIndex off) off v
  exact ⟨s.wbuf, n, d, s.nextCtx, s.trace, h⟩

/-- Neither DRM's own state nor the commands in flight, memory, the wire or the host's answers are the bus. -/
theorem OnlyBus.frame (h : OnlyBus s s') :
    (∀ p : Piece, p.same s s') ∧ s'.mem = s.mem ∧ s'.wire = s.wire ∧ s'.tasks = s.tasks ∧ s'.cfg = s.cfg ∧
      s'.allocs = s.allocs ∧ s'.maps = s.maps ∧ s'.pads = s.pads := by
  obtain ⟨wb, n, d, k, tr, rfl⟩ := h
  exact ⟨fun p => by cases p <;> rfl, rfl, rfl, rfl, rfl, rfl, rfl, rfl⟩

theorem exec_read32_onlyBus (hq : s.sched = []) (off : Word) :
    ∃ s', exec (.read32 off) s = .next s' ∧ OnlyBus s s' := by
  cases ha : s.admits off with
  | false => exact ⟨_, exec_read32_refused hq ha, (OnlyBus.refl s).ends _ _⟩
  | true => exact ⟨_, exec_read32_admitted hq ha rfl, (s.drain_nicRead_onlyBus off).ends _ _⟩

theorem exec_write32_onlyBus (hq : s.sched = []) (value off : Word) :
    ∃ s', exec (.write32 value off) s = .next s' ∧ OnlyBus s s' := by
  cases ha : s.admits off with
  | false => exact ⟨_, exec_write32_refused hq ha, (OnlyBus.refl s).ends _ _⟩
  | true => exact ⟨_, exec_write32_admitted hq ha, OnlyBus.ends ⟨_, s.nic, s.drawn, s.nextCtx, s.trace, rfl⟩ _ _⟩

theorem exec_writeFlush_onlyBus (hq : s.sched = []) : ∃ s', exec .writeFlush s = .next s' ∧ OnlyBus s s' := by
  cases ha : s.admits s.cfg.regStatus with
  | false => exact ⟨_, exec_writeFlush_refused hq ha, (OnlyBus.refl s).ends _ _⟩
  | true => exact ⟨_, exec_writeFlush_admitted hq ha rfl, (s.drain_nicRead_onlyBus _).ends _ _⟩

theorem exec_writeIo_onlyBus (hq : s.sched = []) (value off : Word) :
    ∃ s', exec (.writeIo value off) s = .next s' ∧ OnlyBus s s' := by
  cases hio : s.ioValid with
  | false => exact ⟨_, exec_writeIo_refused hq hio, (OnlyBus.refl s).ends _ _⟩
  | true => exact ⟨_, exec_writeIo_admitted hq hio, (s.setIndex_nicWrite_onlyBus off value).ends _ _⟩

end Sys2Proof.Machine

namespace Sys2Proof
open Sys2Proof.Machine

/-- Settles O8: the read after the drain finds the register's stored value and has no side effect. -/
theorem read32Stored : Obligations.Read32Stored := by
  intro s off r hq ha hr hreg hicr hims himc
  exact ⟨exec_read32_admitted hq ha (State.nicRead_named hr (by simpa using hreg) hicr hims himc), State.drain_wbuf s⟩

/-- Settles O10: in each of the three cases the read draws one free value. -/
theorem read32Unspecified : Obligations.Read32Unspecified := by
  intro s off hq ha hcase
  exact ⟨_, exec_read32_admitted hq ha (State.nicRead_unspecified (by simpa using hcase))⟩

/-- Settles O12: R77's three conditions admit the write, which enters `wbuf`. -/
theorem write32Posts : Obligations.Write32Posts := by
  intro s off value hq halign hsize hmap
  exact exec_write32_admitted hq (by simp [State.admits, halign, hsize, hmap])

/-- Settles O13: the read drains `wbuf`, and the status register has no side effect when it is read. -/
theorem writeFlushDrains : Obligations.WriteFlushDrains := by
  intro s hq hmap ha
  have hreg : s.cfg.regAt s.cfg.regStatus = some .status :=
    Cfg.regAt_offset hmap (r := .status) (by simp [NicReg.scalars])
  obtain ⟨v, d, hread, hvalue⟩ := State.nicRead_status (s := s.drain) (by simpa using hreg)
  exact ⟨v, d, exec_writeFlush_admitted hq ha hread, rfl, State.drain_wbuf s, hvalue⟩

/-- Settles O15: the data port's write is a write at the offset just put in the index, and goes by that offset's
register. -/
theorem writeIoPorts : Obligations.WriteIoPorts := by
  intro s off value hq hio
  have hexec := exec_writeIo_admitted (value := value) (off := off) hq hio
  obtain ⟨n, d, hw⟩ := State.nicWrite_only (s.setIndex off) off value
  rw [hw] at hexec
  refine ⟨n, d, hexec, fun hr => ⟨fun r hreg hctrl => ?_, fun hreg => ?_⟩⟩
  · exact State.nic_drawn_inj (hw.symm.trans (State.nicWrite_plain (s := s.setIndex off) hr hreg hctrl))
  · exact State.nic_drawn_inj (hw.symm.trans (State.nicWrite_unnamed (s := s.setIndex off) hr hreg value))

/-- Settles O16: at the index port nothing has been written; at the data port the index has. -/
theorem writeIoRefused : Obligations.WriteIoRefused :=
  ⟨fun _ _ _ hq hio => exec_writeIo_refused hq hio, fun _ _ _ hq hio => exec_writeIo_unmapped_between hq hio⟩

/-- Settles O54: each register command, its access admitted or not, changes only what the bus and the host's record
hold. -/
theorem registerCommandsFrame : Obligations.RegisterCommandsFrame := by
  intro s t i hq hi he
  obtain ⟨s', hexec, hbus⟩ : ∃ s', exec i s = .next s' ∧ OnlyBus s s' := by
    obtain rfl | ⟨off, rfl⟩ | ⟨v, off, rfl⟩ | ⟨v, off, rfl⟩ := hi
    · exact exec_writeFlush_onlyBus hq
    · exact exec_read32_onlyBus hq off
    · exact exec_write32_onlyBus hq v off
    · exact exec_writeIo_onlyBus hq v off
  obtain rfl := Host.Outcome.next.inj (hexec.symm.trans he)
  exact hbus.frame

end Sys2Proof
end

section
/-! PROOFS. A command step by step where only the gaps of the schedule stand between its primitives: runs built up from their
end, steps that no gap without moves disturbs, the register region unmapped in a gap (60_exceptions R261), and the register
writes that a command posts (20_memory R81). -/

namespace Sys2Proof.Machine

variable {s s1 s' : State} {t t1 t' : Task} {n m turns : Nat} {x : Response × State} {r : Response}

/-! ### A run of a command on its own, from its end -/

theorem quietRun_of_step (h : t.step s = .more t1 s1) (hr : quietRun n t1 s1 = some x) :
    quietRun (n + 1) t s = some x := by
  rw [quietRun_succ, h]
  exact hr

/-- More turns than a run needs do not change it. -/
theorem quietRun_mono (h : quietRun n t s = some x) (hn : n ≤ m) : quietRun m t s = some x := by
  induction n generalizing t s m with
  | zero => exact absurd h (by simp [quietRun])
  | succ n ih =>
    obtain ⟨m, rfl⟩ : ∃ m', m = m' + 1 := ⟨m - 1, by omega⟩
    rw [quietRun_succ] at h ⊢
    cases hs : t.step s with
    | more t1 s1 => rw [hs] at h; exact ih h (by omega)
    | done r s1 => rw [hs] at h; exact h
    | wait => rw [hs] at h; exact absurd h (by simp)

/-- A run that first makes primitives that all succeed. -/
theorem quietRun_of_prims {ps : List Prim} {p : Point} (h : primsOk s ps = some s1) (hr : quietRun n ⟨[], p⟩ s1 = some x) :
    quietRun (n + ps.length) ⟨ps, p⟩ s = some x :=
  (quietRun_prims h n p).trans hr

/-! ### Steps that do not look at the schedule -/

/-- One primitive takes a command from `t` in `s` to `t'` in `s'`, whatever the schedule holds. -/
def StepsTo (t : Task) (s : State) (t' : Task) (s' : State) : Prop :=
  ∀ l, t.step { s with sched := l } = .more t' { s' with sched := l }

/-- So many primitives take a command from `t` in `s` to `t'` in `s'`, whatever the schedule holds. -/
inductive Walk : Nat → Task → State → Task → State → Prop where
  | refl {t : Task} {s : State} : Walk 0 t s t s
  | step {n : Nat} {t t1 t' : Task} {s s1 s' : State} (h : StepsTo t s t1 s1) (hw : Walk n t1 s1 t' s') :
      Walk (n + 1) t s t' s'

theorem Walk.trans (h : Walk n t s t1 s1) (h' : Walk m t1 s1 t' s') : Walk (n + m) t s t' s' := by
  induction h with
  | refl => rwa [Nat.zero_add]
  | step e _ ih => rw [Nat.add_right_comm]; exact .step e (ih h')

/-- While no other agent moves. -/
theorem Walk.quietRun (h : Walk n t s t' s') (l : List (List Move)) (hr : quietRun m t' { s' with sched := l } = some x) :
    Machine.quietRun (m + n) t { s with sched := l } = some x := by
  induction h with
  | refl => exact hr
  | step e _ ih => exact quietRun_of_step (e l) (ih hr)

/-- Through gaps that hold no move. -/
theorem Walk.drive (h : Walk n t s t' s') (m k : Nat) (rest : List (List Move)) :
    drive (m + n) k ({ s with sched := List.replicate n [] ++ rest }.park k t) =
      Machine.drive m k ({ s' with sched := rest }.park k t') := by
  induction h with
  | refl => rfl
  | @step n t t1 t' s s1 s' e _ ih =>
    have hgap : ({ s with sched := List.replicate (n + 1) [] ++ rest }.park k t).gap =
        { s with sched := List.replicate n [] ++ rest }.park k t := rfl
    rw [← Nat.add_assoc, drive_gap_more hgap (e _), ih]

/-! ### The register region goes away in a gap -/

/-- A run in whose first gap the other agents change the state but not the command, and in whose other gaps nothing
moves. -/
theorem drive_of_gap {g : State} {k : Nat} (hg : (s.park k t).gap = g.park k t) (hq : g.sched = [])
    (h : quietRun n t g = some (r, s')) (hn : n ≤ m) : drive m k (s.park k t) = s'.respond k r := by
  have hrun := drive_of_quietRun hq h hn (k := k)
  cases m with
  | zero => obtain rfl : n = 0 := by omega
            exact absurd h (by simp [quietRun])
  | succ m =>
    rw [drive_succ, State.gap_quiet (by simpa using hq)] at hrun
    rw [drive_succ, hg]
    exact hrun

/-- A command that the region's unmapping finds after `n` primitives, and its run from there. -/
theorem runCommand_unmapped (hs : s.sched = List.replicate n [] ++ [[.setMmioValid false]])
    (hw : Walk n t s.takeCtx t1 s1) (hr : quietRun m t1 { s1 with sched := [], mmioValid := false } = some (r, s'))
    (hn : n + m ≤ s.fuel turns) : runCommand t turns s = s'.respond s.nextCtx r := by
  obtain ⟨f, hf⟩ : ∃ f, s.fuel turns = f + n := ⟨s.fuel turns - n, by omega⟩
  have hstart : s.takeCtx = { s.takeCtx with sched := List.replicate n [] ++ [[.setMmioValid false]] } := by
    rw [← hs]
    rfl
  rw [runCommand, hf, hstart, hw.drive f]
  exact drive_of_gap rfl rfl hr (by omega)

/-! ### Posting register writes (R81) -/

/-- The state after DRM has posted these writes. -/
def State.post (s : State) (ws : List (Word × Word)) : State :=
  { s with wbuf := s.wbuf ++ ws, trace := s.trace ++ writeEvents ws }

/-- The register write that a primitive posts. -/
def Prim.posts (s : State) : Prim → Option (Word × Word)
  | .regWrite off v => some (off, v.value s)
  | _ => none

theorem Prim.posts_eq_some {q : Prim} {w : Word × Word} (h : q.posts s = some w) :
    ∃ v, q = .regWrite w.1 v ∧ v.value s = w.2 := by
  cases q with
  | regWrite off v => obtain rfl := Option.some.inj h; exact ⟨v, rfl, rfl⟩
  | _ => exact absurd h (by simp [Prim.posts])

/-- What a write posts depends neither on what is posted nor on the trace. -/
theorem Prim.posts_post (s : State) (ws : List (Word × Word)) : Prim.posts (s.post ws) = Prim.posts s := by
  funext q
  cases q with
  | regWrite off v => cases v <;> rfl
  | _ => rfl

theorem stepsTo_regWrite {off : Word} (ha : s.admits off = true) (v : Source) (qs : List Prim) (p : Point) :
    StepsTo ⟨.regWrite off v :: qs, p⟩ s ⟨qs, p⟩ (s.post [(off, v.value s)]) := by
  intro l
  have hv : v.value { s with sched := l } = v.value s := by cases v <;> rfl
  simp only [Task.step, Prim.apply, State.regWrite32_admitted (s := { s with sched := l }) ha, orError, hv]
  rfl

/-- A list of register writes, each admitted, posts them in order. -/
theorem walk_posts {ps : List Prim} {ws : List (Word × Word)} (hp : ps.map (Prim.posts s) = ws.map some)
    (ha : ∀ w ∈ ws, s.admits w.1 = true) (qs : List Prim) (p : Point) :
    Walk ws.length ⟨ps ++ qs, p⟩ s ⟨qs, p⟩ (s.post ws) := by
  induction ws generalizing s ps with
  | nil =>
    obtain rfl : ps = [] := by simpa using hp
    have hs : s.post [] = s := by simp [State.post, writeEvents]
    rw [hs]
    exact .refl
  | cons w ws ih =>
    obtain ⟨q, ps, rfl, hq, hps⟩ := List.map_eq_cons_iff.mp hp
    obtain ⟨v, rfl, hv⟩ := Prim.posts_eq_some hq
    have hstep := stepsTo_regWrite (ha w (.head _)) v (ps ++ qs) p
    have hall : s.post (w :: ws) = (s.post [w]).post ws := by simp [State.post, writeEvents]
    rw [hv] at hstep
    rw [hall]
    refine .step hstep (ih ?_ fun w' hw' => ha w' (.tail _ hw'))
    rw [Prim.posts_post]
    exact hps

/-! ### An access to the region that is not admitted (60_exceptions R261) -/

/-- The register that a primitive accesses. -/
def Prim.accesses : Prim → Option Word
  | .regWrite off _ => some off
  | .regRead off => some off
  | _ => none

theorem Task.step_access_refused {q : Prim} {off : Word} (hq : q.accesses = some off) (h : s.admits off = false)
    (qs : List Prim) (p : Point) : Task.step s ⟨q :: qs, p⟩ = .more (p.onError off) s := by
  cases q with
  | regWrite o v => obtain rfl := Option.some.inj hq; exact Task.step_regWrite_refused h
  | regRead o => obtain rfl := Option.some.inj hq; exact Task.step_regRead_refused h
  | _ => exact absurd hq (by simp [Prim.accesses])

theorem State.admits_unmapped (h : s.mmioValid = false) (off : Word) : s.admits off = false :=
  State.admits_eq_false_iff.mpr (.inr (.inr h))

end Sys2Proof.Machine
end

section
/-! PROOFS. CONFIGURE, START and DETACH on their own (41_reset_configure R150, R160 to R168, R172). -/

namespace Sys2Proof.Machine

variable {s : State} {n : Nat}

/-! ### START and DETACH -/

theorem quietRun_start (h : s.fsm = .configured) : quietRun 3 startTask s = some (.ok 0, { s with fsm := .running }) := by
  refine quietRun_of_step (t1 := ⟨[.setFsm .running], .respond (.ok 0)⟩) (s1 := s) ?_ rfl
  change stepStartAdmit s = _
  simp [stepStartAdmit, whenAdmitted, h]

theorem quietRun_detach (h : s.fsm = .stopped) : quietRun 2 detachTask s = some (.ok 0, s.blockReset) := by
  refine quietRun_of_step (t1 := Task.answer (.ok 0)) (s1 := s.blockReset) ?_ rfl
  change stepDetachAdmit s = _
  simp [stepDetachAdmit, h]

/-! ### CONFIGURE -/

/-- The writes of CONFIGURE before the interrupt enable, which comes after the two indices are zeroed (R160, R166). -/
def State.ringWrites (s : State) : List (Word × Word) :=
  (configureRx s.cfg ++ configureTx s.cfg).filterMap (Prim.posts s)

theorem State.configureWrites_eq (s : State) : s.configureWrites = s.ringWrites ++ [(s.cfg.regIms, s.cfg.imsCfg)] := by
  simp [State.ringWrites, State.configureWrites, configureRx, configureTx, Prim.posts, Source.value, Cfg.offset, ringBytes,
    Cfg.rctlCfg, Cfg.tctlCfg, Cfg.imsCfg, Function.comp_def]

theorem State.configureWrites_length (s : State) : s.configureWrites.length = s.cfg.mtaEntries + 18 := by
  simp [State.configureWrites]

theorem State.ringWrites_length (s : State) : s.ringWrites.length = s.cfg.mtaEntries + 17 := by
  have h := s.configureWrites_length
  rw [State.configureWrites_eq, List.length_append, List.length_singleton] at h
  omega

/-- The RX part and the TX part post those writes. -/
theorem configure_posts (s : State) :
    (configureRx s.cfg ++ configureTx s.cfg).map (Prim.posts s) = s.ringWrites.map some := by
  simp [State.ringWrites, configureRx, configureTx, Prim.posts, Function.comp_def]

/-- What CONFIGURE does after those writes. -/
def configureEnd (c : Cfg) : List Prim :=
  [.setTxTail 0, .setTxNtc 0, .regWrite c.regIms (.lit c.imsCfg), .setFsm .configured]

theorem stepsTo_configure (h : s.admitsConfigure = true) :
    StepsTo configureTask s ⟨configureRx s.cfg ++ configureTx s.cfg ++ configureEnd s.cfg, .respond (.ok 0)⟩ s := by
  intro l
  have hl : State.admitsConfigure { s with sched := l } = true := h
  change stepConfigureAdmit _ = _
  simp only [stepConfigureAdmit, whenAdmitted, hl, if_true]
  rfl

/-- After the ring writes: the indices, the interrupt enable, the lifecycle state. -/
theorem quietRun_configureEnd (ha : s.admits s.cfg.regIms = true) :
    quietRun 5 ⟨configureEnd s.cfg, .respond (.ok 0)⟩ s =
      some (.ok 0, { s.post [(s.cfg.regIms, s.cfg.imsCfg)] with txTail := 0, txNtc := 0, fsm := .configured }) := by
  have hims := stepsTo_regWrite (s := { s with txTail := 0, txNtc := 0 }) ha (.lit s.cfg.imsCfg)
    [.setFsm .configured] (.respond (.ok 0)) s.sched
  refine quietRun_of_step (s1 := { s with txTail := 0 }) rfl ?_
  refine quietRun_of_step (s1 := { s with txTail := 0, txNtc := 0 }) rfl ?_
  exact quietRun_of_step hims rfl

theorem quietRun_configure (h : s.admitsConfigure = true) (ha : ∀ w ∈ s.configureWrites, s.admits w.1 = true) :
    quietRun (s.cfg.mtaEntries + 23) configureTask s =
      some (.ok 0, { s.post s.configureWrites with txTail := 0, txNtc := 0, fsm := .configured }) := by
  rw [State.configureWrites_eq] at ha ⊢
  have hpost : s.post (s.ringWrites ++ [(s.cfg.regIms, s.cfg.imsCfg)]) =
      (s.post s.ringWrites).post [(s.cfg.regIms, s.cfg.imsCfg)] := by
    simp [State.post, writeEvents]
  have hwalk := (Walk.refl.step (stepsTo_configure h)).trans (walk_posts (configure_posts s)
    (fun w hw => ha w (List.mem_append_left _ hw)) (configureEnd s.cfg) (.respond (.ok 0)))
  have hend := quietRun_configureEnd (s := s.post s.ringWrites) (ha _ (List.mem_append_right _ (.head _)))
  rw [hpost]
  exact quietRun_mono (hwalk.quietRun s.sched hend) (by rw [State.ringWrites_length]; omega)

/-- CONFIGURE after `k` of the ring writes stands before the next. -/
theorem walk_configure {k : Nat} {w : Word × Word} (h : s.admitsConfigure = true)
    (ha : ∀ x ∈ s.ringWrites, s.admits x.1 = true) (hk : s.ringWrites[k]? = some w) :
    ∃ q qs, q.accesses = some w.1 ∧
      Walk (k + 1) configureTask s ⟨q :: qs, .respond (.ok 0)⟩ (s.post (s.ringWrites.take k)) := by
  have hposts := configure_posts s
  generalize hps : configureRx s.cfg ++ configureTx s.cfg = ps at hposts
  obtain ⟨q, hq, hw⟩ : ∃ q, ps[k]? = some q ∧ q.posts s = some w := by
    have hget := congrArg (·[k]?) hposts
    simpa [hk] using hget
  obtain ⟨v, rfl, -⟩ := Prim.posts_eq_some hw
  have hsplit : ps = ps.take k ++ .regWrite w.1 v :: ps.drop (k + 1) := by
    obtain ⟨hlt, hq⟩ := List.getElem?_eq_some_iff.mp hq
    rw [← hq, ← List.drop_eq_getElem_cons hlt, List.take_append_drop]
  have hlength : (s.ringWrites.take k).length = k := by
    obtain ⟨hlt, -⟩ := List.getElem?_eq_some_iff.mp hk
    rw [List.length_take]
    omega
  have hwalk := walk_posts (ps := ps.take k) (ws := s.ringWrites.take k) (by rw [List.map_take, List.map_take, hposts])
    (fun x hx => ha x (List.mem_of_mem_take hx)) (.regWrite w.1 v :: ps.drop (k + 1) ++ configureEnd s.cfg)
    (.respond (.ok 0))
  have hstart := stepsTo_configure h
  rw [hps, hsplit, List.append_assoc] at hstart
  rw [hlength] at hwalk
  exact ⟨.regWrite w.1 v, _, rfl, .step hstart hwalk⟩

/-- A register access after which a command ends when it fails, with the region unmapped. -/
theorem quietRun_access_unmapped {q : Prim} {off : Word} (hq : q.accesses = some off) (h : s.mmioValid = false)
    (qs : List Prim) (r : Response) : quietRun 2 ⟨q :: qs, .respond r⟩ s = some (.hwError off, s) :=
  quietRun_of_step (Task.step_access_refused hq (State.admits_unmapped h off) qs _) rfl

end Sys2Proof.Machine

namespace Sys2Proof
open Sys2Proof.Machine

/-- Settles O25: the ring writes, the indices, the interrupt enable, in one run. -/
theorem configureCompletes : Obligations.ConfigureCompletes := by
  intro s hq hfsm hready ha
  have hadmit : s.admitsConfigure = true := by simp [State.admitsConfigure, hfsm, hready]
  have hfuel : s.cfg.mtaEntries + 23 ≤ s.fuel 0 := by unfold State.fuel; omega
  exact ⟨congrArg _ (runCommand_of_quietRun hq (quietRun_configure (s := s.takeCtx) hadmit ha) hfuel),
    s.configureWrites_length⟩

/-- Settles O26: write `k` is one of the ring writes, and finds the region unmapped. -/
theorem configureFails : Obligations.ConfigureFails := by
  intro s k w hs hfsm hready ha hk hlast
  have hadmit : s.admitsConfigure = true := by simp [State.admitsConfigure, hfsm, hready]
  rw [State.configureWrites_eq, List.length_append, List.length_singleton] at hlast
  have hlt : k < s.ringWrites.length := by omega
  have htake : s.configureWrites.take k = s.ringWrites.take k := by
    rw [State.configureWrites_eq, List.take_append_of_le_length hlt.le]
  rw [State.configureWrites_eq, List.getElem?_append_left hlt] at hk
  rw [htake]
  obtain ⟨q, qs, hacc, hwalk⟩ := walk_configure (s := s.takeCtx) hadmit
    (fun x hx => ha x (by rw [State.configureWrites_eq]; exact List.mem_append_left _ hx)) hk
  have hfuel : k + 1 + 2 ≤ s.fuel 0 := by simp [State.fuel, hs]; omega
  exact congrArg _ (runCommand_unmapped hs hwalk (quietRun_access_unmapped hacc rfl qs _) hfuel)

/-- Settles O27: the admission and one write of the lifecycle state. -/
theorem startCompletes : Obligations.StartCompletes := by
  refine ⟨decode_encode .start, fun s hq => ⟨fun h => ?_, fun h => ?_⟩⟩
  · have hrun := runCommand_of_shortRun (turns := 0) hq (quietRun_start (s := s.takeCtx) h) (by decide)
    exact congrArg _ (hrun.trans ({ s with fsm := .running }.takeCtx_respond _))
  · exact exec_notAdmitted hq (by simp [State.admitted, h])

/-- Settles O32: the admission and the block reset are one step. -/
theorem detachResets : Obligations.DetachResets := by
  refine ⟨fun s hq h => ?_, fun s hq h => exec_notAdmitted hq (by simp [State.admitted, h])⟩
  have hrun := runCommand_of_shortRun (turns := 0) hq (quietRun_detach (s := s.takeCtx) h) (by decide)
  exact congrArg _ (hrun.trans (s.blockReset.takeCtx_respond _))

end Sys2Proof
end

section
/-! PROOFS. The lifecycle state changes only by the transitions of the table (41_reset_configure R150): a command that is let in
carries from then on no other lifecycle state than the one its transition gives. -/

namespace Sys2Proof.Machine

variable {s s' : State} {t t' : Task} {i : Instr} {f₀ : Fsm} {g : Option Fsm}

/-- A point past the admission of its command, where the command may set the lifecycle state to `g` alone. -/
def Point.fsmWithin (g : Option Fsm) : Point → Prop
  | .resetAdmit | .configureAdmit | .startAdmit | .stopAdmit | .detachAdmit => False
  | .resetSettle | .resetSettled _ | .resetCtrl | .resetManc => g = some .reset
  | _ => True

/-- A command past its admission that may set the lifecycle state to `g` alone, now or later. -/
structure Task.FsmWithin (g : Option Fsm) (t : Task) : Prop where
  todo : ∀ f, .setFsm f ∈ t.todo → g = some f
  point : t.point.fsmWithin g

/-- A command that never writes the lifecycle state carries none. -/
theorem Task.WritesIn.fsmWithin {l : List Part} (h : t.WritesIn l) (hl : .piece .fsm ∉ l) : t.FsmWithin g := by
  obtain ⟨htodo, hp⟩ := h
  refine ⟨fun f hf => absurd (htodo _ hf _ (by simp [Prim.parts])) hl, ?_⟩
  cases hpt : t.point with
  | resetAdmit | configureAdmit | startAdmit | stopAdmit | detachAdmit | resetSettle | resetSettled | resetCtrl
  | resetManc =>
    exact absurd (hp (.piece .fsm) (by simp [hpt, Point.mayWrite, partsOf, writesOf])) hl
  | _ => trivial

theorem fsmWithin_goto {p : Point} (h : p.fsmWithin g) : (Task.goto p).FsmWithin g := ⟨by simp [Task.goto], h⟩

theorem fsmWithin_answer (r : Response) : (Task.answer r).FsmWithin g := ⟨by simp [Task.answer], trivial⟩

theorem Point.onError_fsmWithin (p : Point) (off : Word) : (p.onError off).FsmWithin g := by
  cases p with
  | stopLock | pollNext => exact fsmWithin_goto trivial
  | submitEnd => exact ⟨by simp [Point.onError, Task.unlockAnswer], trivial⟩
  | _ => exact fsmWithin_answer _

/-- Past its admission a command goes on under the same lifecycle state. -/
theorem Point.step_fsmWithin {p : Point} (hp : p.fsmWithin g) (s : State) :
    (p.step s).Leads (fun t _ => t.FsmWithin g) := by
  cases p with
  | resetAdmit | configureAdmit | startAdmit | stopAdmit | detachAdmit => exact hp.elim
  | resetSettle | resetSettled => exact fsmWithin_goto hp
  | resetCtrl =>
    simp only [Point.step, stepResetCtrl]
    refine leads_readThen (fsmWithin_answer _) (fun v s' _ => ?_)
    exact ⟨by simp [writeViaIoPort], hp⟩
  | resetManc =>
    simp only [Point.step, stepResetManc]
    refine leads_readThen (fsmWithin_answer _) (fun v s' _ => ?_)
    refine ⟨fun f hf => ?_, trivial⟩
    obtain rfl : f = .reset := by simpa using hf
    exact hp
  | stopWait =>
    simp only [Point.step, stepStopWait]
    split
    · trivial
    · exact ⟨by simp [quiesce, flush], trivial⟩
  | stopLock => exact leads_stopLock (fun _ => fsmWithin_goto trivial)
  | stopRings | stopTx | stopRx =>
    simp only [Point.step, stepStopRings, stepStopTx, stepStopRx]
    repeat' split
    all_goals exact ⟨by simp [Task.goto, Task.unlockAnswer], trivial⟩
  | recycleLock c | recycleHead c | recycleNtc c | recycleDone c | recycleSlot c =>
    refine (Point.step_writesIn _ s).imp (fun t _ h => h.fsmWithin ?_)
    cases c <;> simp [Point.mayWrite, Caller.mayWrite, partsOf, writesOf]
  | _ =>
    refine (Point.step_writesIn _ s).imp (fun t _ h => h.fsmWithin ?_)
    simp [Point.mayWrite, partsOf, writesOf]

/-- The step of a point past the admission leaves the lifecycle state. -/
theorem Point.step_fsm {p : Point} (hp : p.fsmWithin g) (s : State) : (p.step s).Leads (fun _ s' => s'.fsm = s.fsm) := by
  refine (Point.step_agreeOff p s).imp (fun _ _ h => h.piece .fsm ?_)
  cases p with
  | detachAdmit => exact hp.elim
  | _ => simp [Point.changes]

/-- A primitive sets the lifecycle state to the value it carries, or leaves it. -/
theorem Prim.apply_fsm {q : Prim} (h : q.apply s = .ok s') : q = .setFsm s'.fsm ∨ s'.fsm = s.fsm := by
  cases q with
  | setFsm f => obtain rfl := Except.ok.inj h; exact .inl rfl
  | _ => exact .inr ((Prim.apply_agreeOff h).piece .fsm (by simp [Prim.parts]))

/-- The lifecycle state is the one the command found, or `g`, and the command may still set it to `g` alone. -/
structure FsmRun (f₀ : Fsm) (g : Option Fsm) (t : Task) (s : State) : Prop where
  task : t.FsmWithin g
  fsm : s.fsm = f₀ ∨ g = some s.fsm

theorem FsmRun.step (h : FsmRun f₀ g t s) (e : t.step s = .more t' s') : FsmRun f₀ g t' s' := by
  obtain ⟨⟨htodo, hp⟩, hfsm⟩ := h
  cases Task.step_cases e with
  | point e =>
    have hs : s'.fsm = s.fsm := (Point.step_fsm hp s).of_more e
    exact ⟨(Point.step_fsmWithin hp s).of_more e, hs ▸ hfsm⟩
  | @prim q qs p _ e =>
    refine ⟨⟨fun f hf => htodo f (.tail _ hf), hp⟩, ?_⟩
    rcases Prim.apply_fsm e with hq | hs
    · exact .inr (htodo _ (hq ▸ .head _))
    · exact hs ▸ hfsm
  | failed => exact ⟨Point.onError_fsmWithin _ _, hfsm⟩

theorem FsmRun.leads (h : FsmRun f₀ g t s) : (t.step s).Leads (FsmRun f₀ g) := by
  cases e : t.step s with
  | more t' s' => exact h.step e
  | done | wait => trivial

/-- While no other agent moves a command keeps it to its end, or to where it waits. -/
theorem FsmRun.drive (h : FsmRun f₀ g t s) (hq : s.sched = []) (n k : Nat) :
    (drive n k (s.park k t)).fsm = f₀ ∨ g = some (drive n k (s.park k t)).fsm := by
  induction n generalizing t s with
  | zero => exact h.fsm
  | succ n ih =>
    cases e : t.step s with
    | more t' s' => rw [drive_more hq e]; exact ih (h.step e) ((Task.step_kept e).sched.trans hq)
    | done r s' =>
      obtain ⟨-, rfl⟩ := Task.step_done e
      rw [drive_done hq e]
      exact h.fsm
    | wait => rw [drive_wait hq e]; exact h.fsm

theorem leads_admission {b : Bool} {go : Task} (h : b = true → FsmRun f₀ g go s) (hs : s.fsm = f₀) :
    (whenAdmitted b go s).Leads (FsmRun f₀ g) := by
  unfold whenAdmitted
  split
  · exact h ‹_›
  · exact ⟨fsmWithin_answer _, .inl hs⟩

/-- A command's first step: the five of the table make their test, and what is let in carries its own transition. -/
theorem taskOf_step_fsmRun (c : Cfg) (i : Instr) (s : State) :
    ((taskOf c i).step s).Leads (FsmRun s.fsm (transition i s.fsm)) := by
  cases i with
  | reset =>
    refine leads_admission (fun h => ⟨⟨by simp [quiesce, flush], ?_⟩, .inl rfl⟩) rfl
    rw [beq_iff_eq.mp h]
    rfl
  | configure =>
    refine leads_admission (fun h => ⟨⟨fun f hf => ?_, trivial⟩, .inl rfl⟩) rfl
    obtain ⟨hfsm, -⟩ : s.fsm = .reset ∧ s.ringsReady = true := by simpa [State.admitsConfigure] using h
    have hlast : f = .configured := by
      rcases List.mem_append.mp hf with hring | hend
      · obtain ⟨off, v, e⟩ := mem_configure hring
        cases e
      · simpa using hend
    rw [hlast, hfsm]
    rfl
  | start =>
    refine leads_admission (fun h => ⟨⟨fun f hf => ?_, trivial⟩, .inl rfl⟩) rfl
    obtain rfl : f = .running := by simpa using hf
    rw [beq_iff_eq.mp h]
    rfl
  | stop =>
    refine leads_admission (fun h => ⟨⟨fun f hf => ?_, trivial⟩, .inl rfl⟩) rfl
    obtain rfl : f = .stopped := by simpa using hf
    have hfsm : s.fsm ≠ .stopped := by simpa using h
    cases hs : s.fsm with
    | stopped => exact absurd hs hfsm
    | _ => rfl
  | detach =>
    change (stepDetachAdmit s).Leads _
    unfold stepDetachAdmit
    split
    · rename_i h
      rw [beq_iff_eq.mp h]
      exact ⟨fsmWithin_answer _, .inr rfl⟩
    · exact ⟨fsmWithin_answer _, .inl rfl⟩
  | _ =>
    refine FsmRun.leads ⟨(taskOf_writesIn c _).fsmWithin ?_, .inl rfl⟩
    simp [partsOf, writesOf]

/-- A command from its first primitive to its response, or to where it waits. -/
theorem runCommand_fsm (hq : s.sched = []) (i : Instr) (turns : Nat) :
    (runCommand (taskOf s.cfg i) turns s).fsm = s.fsm ∨
      transition i s.fsm = some (runCommand (taskOf s.cfg i) turns s).fsm := by
  obtain ⟨n, hn⟩ : ∃ n, s.fuel turns = n + 1 := ⟨s.fuel turns - 1, by have := s.fuel_ge turns; omega⟩
  have hq' : s.takeCtx.sched = [] := hq
  rw [runCommand, hn]
  cases e : (taskOf s.cfg i).step s.takeCtx with
  | more t' s' =>
    rw [drive_more hq' e]
    exact ((taskOf_step_fsmRun s.cfg i s.takeCtx).of_more e).drive ((Task.step_kept e).sched.trans hq') _ _
  | done r s' =>
    obtain ⟨-, rfl⟩ := Task.step_done e
    rw [drive_done hq' e]
    exact .inl rfl
  | wait => rw [drive_wait hq' e]; exact .inl rfl

end Sys2Proof.Machine

namespace Sys2Proof
open Sys2Proof.Machine

/-- Settles O22: a command keeps to its own transition from its admission on, and only a command of the table has one. -/
theorem fsmTransitions : Obligations.FsmTransitions := by
  intro s t i hq e
  obtain ⟨turns, he⟩ := exec_eq i s
  obtain rfl := Host.Outcome.next.inj (he.symm.trans e)
  exact runCommand_fsm hq i turns

end Sys2Proof
end

section
/-! PROOFS. STOP (41_reset_configure R170, R171): what its way to the quiesce does, what the quiesce leaves at the NIC, and the
release of every slot, which a quiesce that fails does not keep from happening. -/

namespace Sys2Proof.Machine

variable {s : State} {n : Nat} {x : Response × State} {off : Word} {r : NicReg}

/-! ### The quiesce (R151, R170) -/

/-- Posted writes are delivered after what was posted before them. -/
theorem State.post_drain_nic (s : State) (ws : List (Word × Word)) :
    (s.post ws).drain.nic = (s.drain.deliver ws).nic := by
  rw [State.drain_eq, State.deliver_eq, State.drain_eq]
  simp [State.post, List.foldl_append]

/-- A write to another named register leaves device control, even while the NIC resets. -/
theorem State.nicWrite_ctrl_same (h : s.cfg.regAt off = some r) (hc : r ≠ .ctrl) (v : Word) :
    (s.nicWrite off v).nic.ctrl = s.nic.ctrl := by
  have happly : ∀ d, (State.nicApply { s with drawn := d } off v).nic.ctrl = s.nic.ctrl := by
    intro d
    unfold State.nicApply
    rw [h]
    cases r with
    | ctrl => exact absurd rfl hc
    | _ => rfl
  unfold State.nicWrite
  split
  · split
    · exact happly _
    · rfl
  · exact happly s.drawn

/-- The NIC with its interrupts masked and both directions stopped. -/
def Nic.quiesced (c : Cfg) (n : Nic) : Nic := { n with mask := n.mask &&& ~~~c.imcAll, rctl := 0, tctl := c.tctlPsp }

theorem Cfg.regAt_quiesce {c : Cfg} (h : c.mapOk = true) :
    c.regAt c.regImc = some .imc ∧ c.regAt c.regRctl = some .rctl ∧ c.regAt c.regTctl = some .tctl :=
  ⟨Cfg.regAt_offset h (r := .imc) (by simp [NicReg.scalars]), Cfg.regAt_offset h (r := .rctl) (by simp [NicReg.scalars]),
    Cfg.regAt_offset h (r := .tctl) (by simp [NicReg.scalars])⟩

theorem State.deliver_quiesce (hmap : s.cfg.mapOk = true) (hr : s.nic.resetting = false) :
    s.deliver (quiesceWrites s.cfg) = { s with nic := s.nic.quiesced s.cfg } := by
  obtain ⟨himc, hrctl, htctl⟩ := Cfg.regAt_quiesce hmap
  have h1 := State.nicWrite_named hr himc (by decide) s.cfg.imcAll
  have h2 := State.nicWrite_named (s := { s with nic := s.nic.write .imc s.cfg.imcAll }) hr hrctl (by decide) 0
  have h3 := State.nicWrite_named (s := { s with nic := (s.nic.write .imc s.cfg.imcAll).write .rctl 0 }) hr htctl
    (by decide) s.cfg.tctlPsp
  rw [quiesceWrites, State.deliver_cons, h1, State.deliver_cons, h2, State.deliver_cons]
  exact h3

theorem State.deliver_quiesce_ctrl (hmap : s.cfg.mapOk = true) :
    (s.deliver (quiesceWrites s.cfg)).nic.ctrl = s.nic.ctrl := by
  obtain ⟨himc, hrctl, htctl⟩ := Cfg.regAt_quiesce hmap
  rw [quiesceWrites, State.deliver_cons, State.deliver_cons, State.deliver_cons, State.deliver_nil,
    State.nicWrite_ctrl_same (by simpa using htctl) (by decide), State.nicWrite_ctrl_same (by simpa using hrctl) (by decide),
    State.nicWrite_ctrl_same himc (by decide)]

/-- The NIC `n` after the quiesce of a machine in `s`, and the value `v` its flush read: while the NIC resets only device
control is known. -/
structure QuiescedTo (s : State) (n : Nic) (v : Word) : Prop where
  ctrl : n.ctrl = s.drain.nic.ctrl
  atRest : s.drain.nic.resetting = false → n = s.drain.nic.quiesced s.cfg ∧ v = s.drain.nic.status

/-- The machine after the three writes of the quiesce and the flush that delivers them. -/
def State.flushed (s : State) (n : Nic) (d : Nat) (v : Word) : State :=
  { s with
    wbuf := [], nic := n, drawn := d
    trace := s.trace ++ (writeEvents (quiesceWrites s.cfg) ++ [.regRead s.cfg.regStatus v]) }

theorem quiesce_posts (s : State) : (quiesce s.cfg).map (Prim.posts s) = (quiesceWrites s.cfg).map some := rfl

/-- A discarded read that is admitted delivers what is posted and reads (R80, R133). -/
theorem Task.step_regRead_admitted {v : Word} {b : State} (ha : s.admits off = true) (h : s.drain.nicRead off = (v, b))
    (qs : List Prim) (p : Point) : Task.step s ⟨.regRead off :: qs, p⟩ = .more ⟨qs, p⟩ (b.emit (.regRead off v)) := by
  simp [Task.step, Prim.apply, State.regRead32_admitted ha, h, orError]

theorem quietRun_quiesce (hmap : s.cfg.mapOk = true)
    (ha : ∀ o ∈ [s.cfg.regImc, s.cfg.regRctl, s.cfg.regTctl, s.cfg.regStatus], s.admits o = true) :
    ∃ n d v, QuiescedTo s n v ∧ ∀ m p x, quietRun m ⟨[], p⟩ (s.flushed n d v) = some x →
      quietRun (m + 1 + 3) ⟨quiesce s.cfg ++ [flush s.cfg], p⟩ s = some x := by
  simp only [List.forall_mem_cons] at ha
  obtain ⟨himc, hrctl, htctl, hstatus, -⟩ := ha
  have hnic := s.post_drain_nic (quiesceWrites s.cfg)
  have hmap' : s.drain.cfg.mapOk = true := by simpa using hmap
  have hreg : (s.post (quiesceWrites s.cfg)).drain.cfg.regAt s.cfg.regStatus = some .status := by
    rw [State.drain_cfg]
    exact Cfg.regAt_offset hmap (r := .status) (by simp [NicReg.scalars])
  obtain ⟨v, d, hread, hval⟩ := State.nicRead_status hreg
  refine ⟨(s.post (quiesceWrites s.cfg)).drain.nic, d, v, ⟨?_, fun hr => ?_⟩, fun m p x hrun => ?_⟩
  · exact (congrArg Nic.ctrl hnic).trans (s.drain_cfg ▸ State.deliver_quiesce_ctrl hmap')
  · have hrest := congrArg State.nic (State.deliver_quiesce hmap' hr)
    rw [State.drain_cfg, ← hnic] at hrest
    rw [hrest] at hval
    exact ⟨hrest, (hval hr).1⟩
  · have hposts := walk_posts (quiesce_posts s) (by simp [quiesceWrites, himc, hrctl, htctl]) [flush s.cfg] p
    have hflush := Task.step_regRead_admitted (s := s.post (quiesceWrites s.cfg)) hstatus hread [] p
    refine hposts.quietRun s.sched (quietRun_of_step hflush ?_)
    rw [State.drain_eq] at hrun ⊢
    simpa [State.flushed, State.post, State.emit] using hrun

/-! ### The way to the quiesce -/

/-- `Stopped`, and no poll requested: what STOP sets before its quiesce. -/
def State.halted (s : State) : State := { s with fsm := .stopped, pollState := .idle, pollMissed := false }

theorem walk_stop (hfsm : s.fsm ≠ .stopped) (hpoll : s.pollState ≠ .active) :
    Walk 5 stopTask s ⟨quiesce s.cfg ++ [flush s.cfg], .stopLock none⟩ s.halted := by
  have hadmit : StepsTo stopTask s ⟨[.setFsm .stopped], .stopWait⟩ s := by
    intro l
    change stepStopAdmit _ = _
    simp [stepStopAdmit, whenAdmitted, hfsm]
  have hwait : StepsTo (Task.goto .stopWait) { s with fsm := .stopped }
      ⟨[.setPollState .idle, .setPollMissed false] ++ quiesce s.cfg ++ [flush s.cfg], .stopLock none⟩
      { s with fsm := .stopped } := by
    intro l
    change stepStopWait _ = _
    simp [stepStopWait, hpoll]
  exact .step hadmit <| .step (s1 := { s with fsm := .stopped }) (fun _ => rfl) <| .step hwait <|
    .step (s1 := { s with fsm := .stopped, pollState := .idle }) (fun _ => rfl) <| .step (fun _ => rfl) .refl

/-! ### Releasing the slots (R171 c, f) -/

theorem slotAt_setSlot_ne {l : List Slot} {i j : Word} (h : i ≠ j) (v : Slot) :
    slotAt (setSlot l i v) j = slotAt l j := by
  have hne : i.toNat ≠ j.toNat := fun e => h (BitVec.eq_of_toNat_eq e)
  simp [slotAt, setSlot, List.getElem?_set_ne hne]

theorem setSlot_of_empty {l : List Slot} {i : Word} (h : slotAt l i = .empty) : setSlot l i .empty = l := by
  apply List.ext_getElem?
  intro j
  by_cases hj : i.toNat = j
  · subst hj
    simp only [slotAt, List.getD_eq_getElem?_getD] at h
    by_cases hlt : i.toNat < l.length
    · simp_all [setSlot]
    · simp [setSlot, hlt]
  · simp [setSlot, List.getElem?_set_ne hj]

/-- What releasing the slots of a list of indices calls, in order. -/
def releaseAll (l : List Slot) (is : List Nat) : List Event := is.flatMap (fun i => releaseCalls (slotAt l (index i)))

/-- What one slot holds does not matter to the release of the others. -/
theorem releaseAll_setSlot {l : List Slot} {i : Nat} {is : List Nat} (h : ∀ j ∈ is, index i ≠ index j) (v : Slot) :
    releaseAll (setSlot l (index i) v) is = releaseAll l is :=
  List.flatMap_congr fun j hj => by rw [slotAt_setSlot_ne (h j hj)]

theorem index_ne {i j : Nat} (hij : i < j) (hj : j < 2 ^ 32) : index i ≠ index j := by
  intro h
  have := congrArg BitVec.toNat h
  simp only [index, BitVec.toNat_ofNat] at this
  omega

/-- The two slot tables, which STOP releases in the same way. -/
inductive SlotTable where
  | tx | rx

def SlotTable.size (c : Cfg) : SlotTable → Nat
  | tx => c.nTx
  | rx => c.nRx

def SlotTable.slots (s : State) : SlotTable → List Slot
  | tx => s.txSlots
  | rx => s.rxSlots

/-- STOP's place before slot `i`. -/
def SlotTable.place (i : Nat) (err : Option Word) : SlotTable → Point
  | tx => .stopTx i err
  | rx => .stopRx i err

/-- The primitive that empties a slot. -/
def SlotTable.clear (i : Word) : SlotTable → Prim
  | tx => .setTxSlot i .empty
  | rx => .setRxSlot i .empty

/-- Where STOP goes on after the last slot. -/
def SlotTable.next (err : Option Word) : SlotTable → Task
  | tx => Task.goto (.stopRx 0 err)
  | rx => ⟨[.setRingsReady false, .unlock], .respond (stopAnswer err)⟩

variable {table : SlotTable} {i : Nat} {err : Option Word}

theorem SlotTable.step_full {m : Mapping} {b : DWord} (hi : i < table.size s.cfg)
    (h : slotAt (table.slots s) (index i) = .full m b) :
    (table.place i err).step s =
      .more ⟨[.call (.dmaUnmap m), .call (.freeBuffer b), table.clear (index i)], table.place (i + 1) err⟩ s := by
  cases table with
  | tx => exact (if_pos hi).trans (by rw [show slotAt s.txSlots (index i) = _ from h]; rfl)
  | rx => exact (if_pos hi).trans (by rw [show slotAt s.rxSlots (index i) = _ from h]; rfl)

theorem SlotTable.step_empty (hi : i < table.size s.cfg) (h : slotAt (table.slots s) (index i) = .empty) :
    (table.place i err).step s = .more (Task.goto (table.place (i + 1) err)) s := by
  cases table with
  | tx => exact (if_pos hi).trans (by rw [show slotAt s.txSlots (index i) = _ from h]; rfl)
  | rx => exact (if_pos hi).trans (by rw [show slotAt s.rxSlots (index i) = _ from h]; rfl)

theorem SlotTable.step_end (hi : table.size s.cfg ≤ i) : (table.place i err).step s = .more (table.next err) s := by
  cases table <;> exact if_neg (Nat.not_lt.mpr hi)

/-- The slots of a list of indices released: unmapped, freed and Empty. -/
def State.release (s : State) (table : SlotTable) (is : List Nat) : State :=
  match table with
  | .tx => { s with txSlots := emptySlots s.txSlots is, trace := s.trace ++ releaseAll s.txSlots is }
  | .rx => { s with rxSlots := emptySlots s.rxSlots is, trace := s.trace ++ releaseAll s.rxSlots is }

@[simp] theorem State.release_cfg (s : State) (table : SlotTable) (is : List Nat) : (s.release table is).cfg = s.cfg := by
  cases table <;> rfl

theorem State.release_nil (s : State) (table : SlotTable) : s.release table [] = s := by
  cases table <;> simp [State.release, emptySlots, releaseAll]

theorem State.release_cons {is : List Nat} (h : ∀ j ∈ is, index i ≠ index j) :
    (s.release table [i]).release table is = s.release table (i :: is) := by
  have hcalls := fun l => releaseAll_setSlot (l := l) h .empty
  cases table <;> simp_all [State.release, emptySlots, releaseAll]

theorem SlotTable.primsOk_full {m : Mapping} {b : DWord} (h : slotAt (table.slots s) (index i) = .full m b) :
    primsOk s [.call (.dmaUnmap m), .call (.freeBuffer b), table.clear (index i)] = some (s.release table [i]) := by
  cases table <;>
    simp_all [SlotTable.slots, SlotTable.clear, primsOk, Prim.apply, State.call, State.emit, State.release, emptySlots, releaseAll,
      releaseCalls]

theorem SlotTable.release_empty (h : slotAt (table.slots s) (index i) = .empty) : s.release table [i] = s := by
  cases table <;> simp_all [SlotTable.slots, State.release, emptySlots, releaseAll, releaseCalls, setSlot_of_empty]

/-- One slot: a Full one is released in four primitives, an Empty one is passed over. -/
theorem quietRun_releaseSlot (hi : i < table.size s.cfg)
    (h : quietRun n ⟨[], table.place (i + 1) err⟩ (s.release table [i]) = some x) :
    quietRun (n + 4) ⟨[], table.place i err⟩ s = some x := by
  cases hslot : slotAt (table.slots s) (index i) with
  | full m b => exact quietRun_of_step (SlotTable.step_full hi hslot) (quietRun_of_prims (SlotTable.primsOk_full hslot) h)
  | empty =>
    rw [SlotTable.release_empty hslot] at h
    exact quietRun_mono (quietRun_of_step (SlotTable.step_empty hi hslot) h) (by omega)

/-- The slots from `i` on, in ascending order (R171 f). -/
theorem quietRun_releaseFrom (k : Nat) (hk : i + k = table.size s.cfg) (hsize : table.size s.cfg < 2 ^ 32)
    (h : quietRun n (table.next err) (s.release table (List.range' i k)) = some x) :
    quietRun (n + 1 + 4 * k) ⟨[], table.place i err⟩ s = some x := by
  induction k generalizing i s with
  | zero =>
    rw [List.range'_zero, State.release_nil] at h
    exact quietRun_of_step (SlotTable.step_end hk.ge) h
  | succ k ih =>
    have hne : ∀ j ∈ List.range' (i + 1) k, index i ≠ index j := by
      intro j hj
      have := List.mem_range'_1.mp hj
      exact index_ne (by omega) (by omega)
    rw [List.range'_succ, ← State.release_cons hne] at h
    exact quietRun_releaseSlot (by omega) (ih (by simp; omega) (by simpa using hsize) h)

theorem SlotTable.size_lt {c : Cfg} (h : c.sizesOk = true) (table : SlotTable) : table.size c < 2 ^ 32 := by
  simp only [Cfg.sizesOk, Bool.and_eq_true, decide_eq_true_eq] at h
  obtain ⟨⟨⟨⟨⟨⟨hdesc, -⟩, -⟩, htx⟩, hrx⟩, -⟩, -⟩ := h
  rw [hdesc] at htx hrx
  cases table
  · exact (Nat.le_mul_of_pos_right _ (by decide)).trans_lt htx
  · exact (Nat.le_mul_of_pos_right _ (by decide)).trans_lt hrx

/-- Every slot of a table. -/
theorem quietRun_releaseTable (hsize : s.cfg.sizesOk = true)
    (h : quietRun n (table.next err) (s.release table (List.range (table.size s.cfg))) = some x) :
    quietRun (n + 1 + 4 * table.size s.cfg) ⟨[], table.place 0 err⟩ s = some x := by
  rw [List.range_eq_range'] at h
  exact quietRun_releaseFrom _ (Nat.zero_add _) (SlotTable.size_lt hsize table) h

/-! ### The end of STOP -/

theorem State.unlocked_eq (s : State) (h : s.txLock = false) : { s with txLock := false } = s := by
  rw [← h]

/-- STOP's last line. -/
theorem quietRun_gone (s : State) (err : Option Word) :
    quietRun 3 (SlotTable.rx.next err) s = some (stopAnswer err, { s with ringsReady := false, txLock := false }) := rfl

/-- Both tables released, TX before RX, and the rings gone. -/
def State.gone (s : State) : State :=
  { s with
    ringsReady := false
    txSlots := emptySlots s.txSlots (List.range s.cfg.nTx)
    rxSlots := emptySlots s.rxSlots (List.range s.cfg.nRx)
    trace := s.trace ++ s.stopCalls }

theorem quietRun_stopTx (hsize : s.cfg.sizesOk = true) (err : Option Word) :
    quietRun (4 * s.cfg.nTx + 4 * s.cfg.nRx + 5) (Task.goto (.stopTx 0 err)) s =
      some (stopAnswer err, { s.gone with txLock := false }) := by
  have hgone : { s.gone with txLock := false } =
      { (s.release .tx (List.range s.cfg.nTx)).release .rx (List.range s.cfg.nRx) with
        ringsReady := false, txLock := false } := by
    simp [State.gone, State.release, State.stopCalls, releaseAll]
  have hrx := quietRun_releaseTable (table := .rx) (err := err) (s := s.release .tx (List.range s.cfg.nTx)) (by simpa using hsize)
    (quietRun_gone _ err)
  rw [State.release_cfg] at hrx
  rw [hgone]
  exact quietRun_mono (quietRun_releaseTable (table := .tx) hsize hrx) (by simp [SlotTable.size]; omega)

/-- From the lock on STOP releases the slots of built rings, whether or not the quiesce failed. -/
theorem quietRun_stopLock (hawait : s.lockAwaited = false) (hlock : s.txLock = false) (hsize : s.cfg.sizesOk = true)
    (err : Option Word) :
    quietRun (4 * s.cfg.nTx + 4 * s.cfg.nRx + 7) (Task.goto (.stopLock err)) s =
      some (stopAnswer err, if s.ringsReady then s.gone else s) := by
  have htake : (Task.goto (.stopLock err)).step s = .more (Task.goto (.stopRings err)) { s with txLock := true } := by
    change stepStopLock err s = _
    simp [stepStopLock, lockThen, hawait, hlock]
  cases hready : s.ringsReady with
  | false =>
    have hrings : (Task.goto (.stopRings err)).step { s with txLock := true } =
        .more (Task.unlockAnswer (stopAnswer err)) { s with txLock := true } := by
      change stepStopRings err _ = _
      simp [stepStopRings, hready]
    have hend : quietRun 2 (Task.unlockAnswer (stopAnswer err)) { s with txLock := true } = some (stopAnswer err, s) := by
      conv_rhs => rw [← s.unlocked_eq hlock]
      rfl
    exact quietRun_mono (quietRun_of_step htake (quietRun_of_step hrings hend)) (by omega)
  | true =>
    have hrings : (Task.goto (.stopRings err)).step { s with txLock := true } =
        .more (Task.goto (.stopTx 0 err)) { s with txLock := true } := by
      change stepStopRings err _ = _
      simp [stepStopRings, hready]
    have hend := quietRun_stopTx (s := { s with txLock := true }) hsize err
    have hfree : { s.gone with txLock := false } = s.gone := s.gone.unlocked_eq hlock
    change _ = some (stopAnswer err, s.gone)
    rw [← hfree]
    exact quietRun_of_step htake (quietRun_of_step hrings hend)

/-! ### A quiesce that fails (R170) -/

theorem quiesce_accesses (c : Cfg) :
    (quiesce c ++ [flush c]).map Prim.accesses = [c.regImc, c.regRctl, c.regTctl, c.regStatus].map some := rfl

/-- STOP after `k` of the quiesce's four accesses stands before the next. -/
theorem walk_stop_quiesce {k : Nat} (hfsm : s.fsm ≠ .stopped) (hpoll : s.pollState ≠ .active)
    (hk : [s.cfg.regImc, s.cfg.regRctl, s.cfg.regTctl, s.cfg.regStatus][k]? = some off)
    (ha : ∀ w ∈ (quiesceWrites s.cfg).take k, s.admits w.1 = true) :
    ∃ q qs, q.accesses = some off ∧
      Walk (5 + k) stopTask s ⟨q :: qs, .stopLock none⟩ (s.halted.post ((quiesceWrites s.cfg).take k)) := by
  have hstop := walk_stop hfsm hpoll
  have hacc := congrArg (·[k]?) (quiesce_accesses s.cfg)
  simp only [List.getElem?_map, hk, Option.map_some, Option.map_eq_some_iff] at hacc
  obtain ⟨q, hq, hoff⟩ := hacc
  obtain ⟨hlt, hq⟩ := List.getElem?_eq_some_iff.mp hq
  have hle : k ≤ (quiesce s.cfg).length := Nat.lt_succ_iff.mp hlt
  have hsplit : quiesce s.cfg ++ [flush s.cfg] =
      (quiesce s.cfg).take k ++ q :: (quiesce s.cfg ++ [flush s.cfg]).drop (k + 1) := by
    rw [← hq, ← List.drop_eq_getElem_cons hlt, ← List.take_append_of_le_length hle, List.take_append_drop]
  have hposts : ((quiesce s.cfg).take k).map (Prim.posts s.halted) = ((quiesceWrites s.cfg).take k).map some := by
    rw [List.map_take, List.map_take]
    rfl
  have hlength : ((quiesceWrites s.cfg).take k).length = k := by
    rw [List.length_take]
    exact Nat.min_eq_left hle
  have hwalk := walk_posts hposts ha (q :: (quiesce s.cfg ++ [flush s.cfg]).drop (k + 1)) (.stopLock none)
  rw [hlength] at hwalk
  rw [hsplit] at hstop
  exact ⟨q, _, hoff, hstop.trans hwalk⟩

/-- With the region unmapped the access fails, and STOP goes on to release the slots. -/
theorem quietRun_stop_unmapped {q : Prim} (hq : q.accesses = some off) (hvalid : s.mmioValid = false)
    (hawait : s.lockAwaited = false) (hlock : s.txLock = false) (hsize : s.cfg.sizesOk = true) (hready : s.ringsReady = true)
    (qs : List Prim) :
    quietRun (4 * s.cfg.nTx + 4 * s.cfg.nRx + 8) ⟨q :: qs, .stopLock none⟩ s = some (.hwError off, s.gone) := by
  have hrun := quietRun_stopLock hawait hlock hsize (some off)
  rw [if_pos hready] at hrun
  exact quietRun_of_step (Task.step_access_refused hq (State.admits_unmapped hvalid off) qs _) hrun

end Sys2Proof.Machine

namespace Sys2Proof
open Sys2Proof.Machine

/-- Settles O28: the way to the quiesce, its four accesses, and the release, in one run. -/
theorem stopCompletes : Obligations.StopCompletes := by
  intro s hq hfsm hpoll hlock hawait hmap hsize ha
  obtain ⟨n, d, v, hn, hquiesce⟩ := quietRun_quiesce (s := s.takeCtx.halted) hmap ha
  have hlast := quietRun_stopLock (s := s.takeCtx.halted.flushed n d v) hawait hlock hsize none
  have hrun := (walk_stop (s := s.takeCtx) hfsm hpoll).quietRun s.sched (hquiesce _ _ _ hlast)
  have hfuel : 4 * s.cfg.nTx + 4 * s.cfg.nRx + 7 + 1 + 3 + 5 ≤ s.fuel 0 := by unfold State.fuel; omega
  have hexec := runCommand_of_quietRun hq hrun hfuel
  refine ⟨n, d, v, congrArg _ (hexec.trans ?_), fun hr => ?_⟩
  · cases h : s.ringsReady <;>
      simp [h, State.gone, State.flushed, State.halted, State.takeCtx, State.respond, State.emit, State.ends, stopAnswer,
        State.stopCalls]
  · have hdrain : s.takeCtx.halted.drain.nic = s.drain.nic := by
      rw [State.drain_eq, State.drain_eq]
      rfl
    rw [← hdrain] at hr ⊢
    exact hn.atRest hr

/-- Settles O30: whichever access fails, what is left of the quiesce is skipped and the release follows. -/
theorem stopQuiesceFails : Obligations.StopQuiesceFails := by
  refine ⟨fun s hq hfsm hpoll hlock hawait hready hsize hvalid => ?_, ?_⟩
  · have hfail := quietRun_stop_unmapped (s := s.takeCtx.halted) (q := .regWrite s.cfg.regImc (.lit s.cfg.imcAll)) rfl hvalid
      hawait hlock hsize hready ((quiesce s.cfg ++ [flush s.cfg]).tail)
    have hrun := (walk_stop (s := s.takeCtx) hfsm hpoll).quietRun s.sched hfail
    have hfuel : 4 * s.cfg.nTx + 4 * s.cfg.nRx + 8 + 5 ≤ s.fuel 0 := by unfold State.fuel; omega
    exact congrArg _ (runCommand_of_quietRun hq hrun hfuel)
  · intro s k off hs hfsm hpoll hlock hawait hready hsize hk ha
    obtain ⟨q, qs, hacc, hwalk⟩ := walk_stop_quiesce (s := s.takeCtx) hfsm hpoll hk ha
    have hrun := quietRun_stop_unmapped (s := { s.takeCtx.halted.post ((quiesceWrites s.cfg).take k) with
      sched := [], mmioValid := false }) hacc rfl hawait hlock hsize hready qs
    have hfuel : 5 + k + (4 * s.cfg.nTx + 4 * s.cfg.nRx + 8) ≤ s.fuel 0 := by simp [State.fuel, hs]; omega
    have hexec := runCommand_unmapped hs hwalk hrun hfuel
    refine congrArg _ (hexec.trans ?_)
    simp [State.gone, State.post, State.halted, State.takeCtx, State.respond, State.emit, State.ends, State.stopCalls,
      Response.hwError]

end Sys2Proof
end

section
/-! PROOFS. RESET (41_reset_configure R151 to R158, 70_reset_and_hazards R330): up to the read of device control, through the
global reset, to the end; and where it ends when an access fails. -/

namespace Sys2Proof.Machine

variable {s s' : State} {off v : Word} {r : NicReg} {n : Nat} {x : Response × State}

/-! ### A settling delay (R330) -/

/-- The NIC keeps its three control registers and starts no reset. -/
structure KeepsControl (s s' : State) : Prop where
  ctrl : s'.nic.ctrl = s.nic.ctrl
  rctl : s'.nic.rctl = s.nic.rctl
  tctl : s'.nic.tctl = s.nic.tctl
  resetting : s.nic.resetting = false → s'.nic.resetting = false

theorem KeepsControl.refl (s : State) : KeepsControl s s := ⟨rfl, rfl, rfl, id⟩

theorem KeepsControl.trans {s'' : State} (h : KeepsControl s s') (h' : KeepsControl s' s'') : KeepsControl s s'' :=
  ⟨h'.ctrl.trans h.ctrl, h'.rctl.trans h.rctl, h'.tctl.trans h.tctl, fun e => h'.resetting (h.resetting e)⟩

theorem State.txAdvance_keepsControl (s : State) : KeepsControl s s.txAdvance := by
  rw [State.txAdvance_eq]
  split <;> exact ⟨rfl, rfl, rfl, id⟩

theorem State.txWriteback_keepsControl (s : State) (b : Byte) (e : Bool) : KeepsControl s (s.txWriteback b e) := by
  rw [State.txWriteback_eq]
  split <;> exact ⟨rfl, rfl, rfl, id⟩

theorem State.txEarly_keepsControl (s : State) (b : Byte) (e : Bool) : KeepsControl s (s.txEarly b e) := by
  rw [State.txEarly_eq]
  split <;> exact ⟨rfl, rfl, rfl, id⟩

theorem State.rxFill_keepsControl (s : State) (f : List Byte) (c : Half) (st e : Byte) (sp : Half) (r1 r2 : Bool) :
    KeepsControl s (s.rxFill f c st e sp r1 r2) := by
  unfold State.rxFill
  split <;> exact ⟨rfl, rfl, rfl, id⟩

/-- RELOAD-DONE ends a reset (R245). -/
theorem State.reloadDone_eq (s : State) (icr : Word) :
    s.reloadDone icr =
      if s.nic.resetting then { s with nic := { s.nic with resetting := false, icr := icr } } else s := rfl

theorem State.reloadFree_keepsControl (s : State) : KeepsControl s s.reloadFree := by
  unfold State.reloadFree
  rw [State.reloadDone_eq]
  split
  · exact ⟨rfl, rfl, rfl, fun _ => rfl⟩
  · exact ⟨rfl, rfl, rfl, id⟩

theorem State.reloadFree_resetting (s : State) : s.reloadFree.nic.resetting = false := by
  unfold State.reloadFree
  rw [State.reloadDone_eq]
  split
  · rfl
  · rename_i h; exact Bool.eq_false_iff.mpr h

theorem State.nicMove_keepsControl (h : KeepsControl s s') (l : List (DWord × Nat)) :
    KeepsControl s (s.nicMove l s') := by
  rcases s.nicMove_cases l s' with ⟨-, e⟩ | ⟨-, e⟩ <;> rw [e]
  · exact .refl s
  · exact h

theorem State.makeOwed_keepsControl (s : State) (o : Owed) : KeepsControl s (s.makeOwed o) := by
  have hdrawn : ∀ d, KeepsControl s { s with drawn := d } := fun _ => ⟨rfl, rfl, rfl, id⟩
  cases o with
  | advance i => exact State.nicMove_keepsControl s.txAdvance_keepsControl _
  | writeback i => exact (hdrawn _).trans (State.nicMove_keepsControl (State.txWriteback_keepsControl _ _ _) _)
  | early i => exact (hdrawn _).trans (State.nicMove_keepsControl (State.txEarly_keepsControl _ _ _) _)
  | fill i =>
    exact (hdrawn (s.drawn + s.freeFrame.length + 2)).trans
      (State.nicMove_keepsControl (State.rxFill_keepsControl _ _ _ _ _ _ _ _) _)
  | reload => exact s.reloadFree_keepsControl

theorem State.settle_keepsControl (l : List Owed) (s : State) : KeepsControl s (s.settle l) := by
  induction l generalizing s with
  | nil => exact .refl s
  | cons o l ih =>
    unfold State.settle
    split
    · exact (s.makeOwed_keepsControl o).trans (ih _)
    · exact ih s

/-- A reset of the NIC that is going on when the delay begins is over when it ends: RELOAD-DONE is owed, and made first. -/
theorem State.settle_owed_resetting (s : State) : (s.settle s.owed).nic.resetting = false := by
  cases hr : s.nic.resetting with
  | false => exact (s.settle_keepsControl _).resetting hr
  | true =>
    obtain ⟨rest, howed⟩ : ∃ rest, s.owed = .reload :: rest := by
      simp only [State.owed, hr, if_true, List.append_assoc]
      exact ⟨_, rfl⟩
    have hcontains : s.owed.contains .reload = true := by simp [howed]
    rw [howed, State.settle, if_pos hcontains]
    exact (State.settle_keepsControl rest _).resetting s.reloadFree_resetting

/-! ### A register read with nothing posted -/

/-- A plain named register is read, and nothing but the trace changes. -/
theorem readThen_named (hwbuf : s.wbuf = []) (hr : s.nic.resetting = false) (ha : s.admits off = true)
    (hreg : s.cfg.regAt off = some r) (hplain : r ∉ [.icr, .ims, .imc]) (f : Task) (g : Word → Task) :
    readThen off f g s = .more (g (s.nic.get r)) (s.emit (.regRead off (s.nic.get r))) := by
  simp only [List.mem_cons, List.not_mem_nil, or_false, not_or] at hplain
  obtain ⟨hicr, hims, himc⟩ := hplain
  have hread := State.nicRead_named hr hreg hicr hims himc
  rw [readThen, State.regRead32_admitted ha, State.drain_empty hwbuf, hread]

/-! ### Up to the read of device control (steps 1 to 3) -/

/-- The machine `c` where RESET reads device control, when it began in `s` and its flush read `v`. -/
structure AtControl (s : State) (v : Word) (c : State) : Prop where
  frame : ∃ n m w d, c = { s with
    wbuf := [], nic := n, mem := m, wire := w, drawn := d, trace := s.trace ++ (resetEvents s.cfg v 0 0 0).take 5 }
  ctrl : c.nic.ctrl = s.drain.nic.ctrl
  resetting : c.nic.resetting = false
  atRest : s.drain.nic.resetting = false →
    v = s.drain.nic.status ∧ c.nic.rctl = 0 ∧ c.nic.tctl = s.cfg.tctlPsp

theorem Task.step_resetAdmit (hfsm : s.fsm = .uninitialized) :
    resetTask.step s = .more ⟨quiesce s.cfg ++ [flush s.cfg], .resetSettle⟩ s := by
  change stepResetAdmit s = _
  simp [stepResetAdmit, whenAdmitted, hfsm]

theorem quietRun_resetTask (hfsm : s.fsm = .uninitialized) (hmap : s.cfg.mapOk = true)
    (ha : ∀ o ∈ [s.cfg.regImc, s.cfg.regRctl, s.cfg.regTctl, s.cfg.regStatus], s.admits o = true) :
    ∃ v c, AtControl s v c ∧ ∀ m x, quietRun m (Task.goto .resetCtrl) c = some x →
      quietRun (m + 1 + 1 + 1 + 3 + 1) resetTask s = some x := by
  obtain ⟨n, d, v, hn, hquiesce⟩ := quietRun_quiesce hmap ha
  generalize hb : (s.flushed n d v).emit (.delay s.cfg.delaySettleMs) = b
  have hnic : b.nic = n := by rw [← hb]; rfl
  have howed : (s.flushed n d v).owed = b.owed := by rw [← hb]; rfl
  have hkeep := b.settle_keepsControl b.owed
  refine ⟨v, b.settle b.owed, ⟨?_, ?_, b.settle_owed_resetting, fun hr => ?_⟩, fun m x hrun => ?_⟩
  · obtain ⟨n', m, w, d', e⟩ := State.settle_only b.owed b
    refine ⟨n', m, w, d', ?_⟩
    rw [e, ← hb]
    simp [State.flushed, State.emit, resetEvents, writeEvents, quiesceWrites]
  · rw [hkeep.ctrl, hnic, hn.ctrl]
  · obtain ⟨rfl, hv⟩ := hn.atRest hr
    exact ⟨hv, by rw [hkeep.rctl, hnic]; rfl, by rw [hkeep.tctl, hnic]; rfl⟩
  · refine quietRun_of_step (Task.step_resetAdmit hfsm) (hquiesce _ _ _ ?_)
    refine quietRun_of_step (t1 := Task.goto (.resetSettled b.owed)) (s1 := b) ?_ (quietRun_of_step rfl hrun)
    rw [← howed, ← hb]
    rfl

/-! ### The global reset (steps 4 and 5) -/

theorem word_and_not_and_self (a b : Word) : a &&& ~~~b &&& b = 0 := by
  rw [BitVec.and_assoc, BitVec.and_comm (~~~b), BitVec.and_not_self]
  exact BitVec.and_zero

theorem word_or_and_self (a b : Word) : (a ||| b) &&& b = b := by
  ext i hi
  cases h : b[i] <;> simp [h]

/-- The reload delay ends the reset (R245, R330). -/
theorem State.delayReload_of_resetting (h : s.nic.resetting = true) :
    s.delayReload = { s.emit (.delay s.cfg.delayReloadMs) with
      drawn := s.drawn + 1
      nic := { s.nic with resetting := false, icr := Config.freeWord s.drawn } } := by
  have hemit : (s.emit (.delay s.cfg.delayReloadMs)).nic.resetting = true := h
  rw [State.delayReload, if_pos hemit, State.reloadFree, State.reloadDone_eq]
  exact if_pos h

/-- The NIC after its global reset and the reload: out of reset, both directions disabled (R245). -/
structure Reloaded (c : Cfg) (n : Nic) : Prop where
  resetting : n.resetting = false
  rctl : n.rctl &&& c.rctlEn = 0
  tctl : n.tctl &&& c.tctlEn = 0

theorem Nic.globalReset_reloaded (c : Cfg) (k : Nat) (n : Nic) (icr : Word) :
    Reloaded c { Nic.globalReset c k n with resetting := false, icr := icr } :=
  ⟨rfl, word_and_not_and_self _ _, word_and_not_and_self _ _⟩

/-- The accesses of steps 4 and 5. -/
def globalResetEvents (c : Cfg) (ctrl : Word) : List Event :=
  [.regRead c.regCtrl ctrl, .ioWrite .addr c.regCtrl, .ioWrite .data (ctrl ||| c.ctrlRst), .delay c.delayReloadMs]

theorem Task.step_resetCtrl (hwbuf : s.wbuf = []) (hr : s.nic.resetting = false) (hmap : s.cfg.mapOk = true)
    (ha : s.admits s.cfg.regCtrl = true) :
    (Task.goto .resetCtrl).step s =
      .more ⟨writeViaIoPort (s.nic.ctrl ||| s.cfg.ctrlRst) s.cfg.regCtrl ++ [.delayReload], .resetManc⟩
        (s.emit (.regRead s.cfg.regCtrl s.nic.ctrl)) := by
  change stepResetCtrl s = _
  have hreg : s.cfg.regAt s.cfg.regCtrl = some .ctrl := Cfg.regAt_offset hmap (r := .ctrl) (by simp [NicReg.scalars])
  rw [stepResetCtrl, readThen_named hwbuf hr ha hreg (by decide)]
  rfl

/-- The two port writes start the global reset, and the delay ends it. -/
theorem primsOk_globalReset (hr : s.nic.resetting = false) (hmap : s.cfg.mapOk = true) (hio : s.ioValid = true)
    (hrst : s.cfg.ctrlRst ≠ 0) (ctrl : Word) :
    ∃ n d, Reloaded s.cfg n ∧
      primsOk s (writeViaIoPort (ctrl ||| s.cfg.ctrlRst) s.cfg.regCtrl ++ [.delayReload]) =
        some { s with nic := n, drawn := d, trace := s.trace ++ (globalResetEvents s.cfg ctrl).tail } := by
  have hset : (ctrl ||| s.cfg.ctrlRst) &&& s.cfg.ctrlRst ≠ 0 := by rwa [word_or_and_self]
  have hwrite := State.nicWrite_reset (s := s.setIndex s.cfg.regCtrl) (off := s.cfg.regCtrl) hr
    (Cfg.regAt_offset hmap (r := .ctrl) (by simp [NicReg.scalars])) hset
  refine ⟨_, s.drawn + 1 + 1,
    Nic.globalReset_reloaded s.cfg s.drawn (s.setIndex s.cfg.regCtrl).nic (Config.freeWord (s.drawn + 1)), ?_⟩
  rw [primsOk_append, primsOk_writeViaIoPort hio]
  simp only [Option.bind_some, primsOk, Prim.apply]
  rw [State.delayReload_of_resetting (by simp [hwrite, Nic.globalReset]), hwrite]
  simp [State.emit, State.setIndex, globalResetEvents]

theorem quietRun_resetCtrl (hwbuf : s.wbuf = []) (hr : s.nic.resetting = false) (hmap : s.cfg.mapOk = true)
    (hio : s.ioValid = true) (ha : s.admits s.cfg.regCtrl = true) (hrst : s.cfg.ctrlRst ≠ 0) :
    ∃ n d, Reloaded s.cfg n ∧ ∀ m x,
      quietRun m (Task.goto .resetManc)
        { s with nic := n, drawn := d, trace := s.trace ++ globalResetEvents s.cfg s.nic.ctrl } = some x →
      quietRun (m + 3 + 1) (Task.goto .resetCtrl) s = some x := by
  obtain ⟨n, d, hn, hprims⟩ := primsOk_globalReset (s := s.emit (.regRead s.cfg.regCtrl s.nic.ctrl)) hr hmap hio hrst s.nic.ctrl
  refine ⟨n, d, hn, fun m x hrun => ?_⟩
  refine quietRun_of_step (Task.step_resetCtrl hwbuf hr hmap ha) (quietRun_of_prims hprims ?_)
  simpa [State.emit, globalResetEvents, Task.goto] using hrun

/-! ### To the end (steps 6 and 7) -/

/-- The accesses of steps 6 and 7. -/
def resetEndEvents (c : Cfg) (manc icr : Word) : List Event :=
  [.regRead c.regManc manc, .regWrite c.regManc (manc &&& ~~~c.mancArpEn), .regWrite c.regImc c.imcAll,
   .regRead c.regIcr icr]

theorem resetEvents_eq (c : Cfg) (status ctrl manc icr : Word) :
    resetEvents c status ctrl manc icr =
      (resetEvents c status 0 0 0).take 5 ++ globalResetEvents c ctrl ++ resetEndEvents c manc icr := rfl

/-- The two writes of steps 6 and 7. -/
def resetEndWrites (c : Cfg) (manc : Word) : List (Word × Word) :=
  [(c.regManc, manc &&& ~~~c.mancArpEn), (c.regImc, c.imcAll)]

/-- The NIC after steps 6 and 7: ARP filtering off, masked, its causes read. -/
def Nic.resetEnded (c : Cfg) (n : Nic) : Nic :=
  { n with manc := n.manc &&& ~~~c.mancArpEn, mask := n.mask &&& ~~~c.imcAll, icr := 0 }

theorem State.deliver_resetEnd (hmap : s.cfg.mapOk = true) (hr : s.nic.resetting = false) (m : Word) :
    s.deliver (resetEndWrites s.cfg m) = { s with nic := (s.nic.write .manc (m &&& ~~~s.cfg.mancArpEn)).write .imc s.cfg.imcAll } := by
  have hmanc : s.cfg.regAt s.cfg.regManc = some .manc := Cfg.regAt_offset hmap (r := .manc) (by simp [NicReg.scalars])
  have h1 := State.nicWrite_named hr hmanc (by decide) (m &&& ~~~s.cfg.mancArpEn)
  have h2 := State.nicWrite_named (s := { s with nic := s.nic.write .manc (m &&& ~~~s.cfg.mancArpEn) }) hr
    (Cfg.regAt_quiesce hmap).1 (by decide) s.cfg.imcAll
  rw [resetEndWrites, State.deliver_cons, h1, State.deliver_cons, State.deliver_nil]
  exact h2

theorem Task.step_resetManc (hwbuf : s.wbuf = []) (hr : s.nic.resetting = false) (hmap : s.cfg.mapOk = true)
    (ha : s.admits s.cfg.regManc = true) :
    (Task.goto .resetManc).step s =
      .more ⟨[.regWrite s.cfg.regManc (.lit (s.nic.manc &&& ~~~s.cfg.mancArpEn)),
        .regWrite s.cfg.regImc (.lit s.cfg.imcAll), .regRead s.cfg.regIcr, .setFsm .reset], .respond (.ok 0)⟩
        (s.emit (.regRead s.cfg.regManc s.nic.manc)) := by
  change stepResetManc s = _
  have hreg : s.cfg.regAt s.cfg.regManc = some .manc := Cfg.regAt_offset hmap (r := .manc) (by simp [NicReg.scalars])
  rw [stepResetManc, readThen_named hwbuf hr ha hreg (by decide)]
  rfl

/-- Steps 6 and 7 after the read: the two writes, and the discarded read of the cause register that delivers them. -/
theorem quietRun_resetEnd (hwbuf : s.wbuf = []) (hr : s.nic.resetting = false) (hmap : s.cfg.mapOk = true)
    (hmanc : s.admits s.cfg.regManc = true) (himc : s.admits s.cfg.regImc = true)
    (hicr : s.admits s.cfg.regIcr = true) :
    quietRun 5 ⟨[.regWrite s.cfg.regManc (.lit (s.nic.manc &&& ~~~s.cfg.mancArpEn)),
        .regWrite s.cfg.regImc (.lit s.cfg.imcAll), .regRead s.cfg.regIcr, .setFsm .reset], .respond (.ok 0)⟩ s =
      some (.ok 0, { s with
        fsm := .reset, nic := s.nic.resetEnded s.cfg
        trace := s.trace ++ (resetEndEvents s.cfg s.nic.manc s.nic.icr).tail }) := by
  have hposts := walk_posts (s := s) (ps := [.regWrite s.cfg.regManc (.lit (s.nic.manc &&& ~~~s.cfg.mancArpEn)),
    .regWrite s.cfg.regImc (.lit s.cfg.imcAll)]) (ws := resetEndWrites s.cfg s.nic.manc) rfl
    (by simp [resetEndWrites, hmanc, himc]) [.regRead s.cfg.regIcr, .setFsm .reset] (.respond (.ok 0))
  have hdrain : (s.post (resetEndWrites s.cfg s.nic.manc)).drain = { s.post (resetEndWrites s.cfg s.nic.manc) with
      wbuf := [], nic := (s.nic.write .manc (s.nic.manc &&& ~~~s.cfg.mancArpEn)).write .imc s.cfg.imcAll } := by
    rw [State.drain, State.post, hwbuf]
    exact State.deliver_resetEnd (s := { s.post (resetEndWrites s.cfg s.nic.manc) with wbuf := [] }) hmap hr s.nic.manc
  have hreg : s.cfg.regAt s.cfg.regIcr = some .icr := Cfg.regAt_offset hmap (r := .icr) (by simp [NicReg.scalars])
  have hread := State.nicRead_icr (s := (s.post (resetEndWrites s.cfg s.nic.manc)).drain) (off := s.cfg.regIcr)
    (by rw [hdrain]; exact hr) (by rw [State.drain_cfg]; exact hreg)
  have hstep := Task.step_regRead_admitted (s := s.post (resetEndWrites s.cfg s.nic.manc)) hicr hread
    [.setFsm .reset] (.respond (.ok 0))
  refine hposts.quietRun (m := 3) s.sched (quietRun_of_step hstep ?_)
  rw [hdrain]
  simp [quietRun_todo, Prim.apply, quietRun_goto, Point.step, State.post, State.emit, hwbuf, resetEndEvents,
    Nic.resetEnded, Nic.write, resetEndWrites, writeEvents]

theorem quietRun_resetManc (hwbuf : s.wbuf = []) (hr : s.nic.resetting = false) (hmap : s.cfg.mapOk = true)
    (hmanc : s.admits s.cfg.regManc = true) (himc : s.admits s.cfg.regImc = true) (hicr : s.admits s.cfg.regIcr = true) :
    quietRun 6 (Task.goto .resetManc) s = some (.ok 0, { s with
      fsm := .reset, nic := s.nic.resetEnded s.cfg
      trace := s.trace ++ resetEndEvents s.cfg s.nic.manc s.nic.icr }) := by
  have hend := quietRun_resetEnd (s := s.emit (.regRead s.cfg.regManc s.nic.manc)) hwbuf hr hmap hmanc himc hicr
  have hrun := quietRun_of_step (Task.step_resetManc hwbuf hr hmap hmanc) hend
  simpa [State.emit, resetEndEvents] using hrun

/-! ### From the read of device control -/

theorem quietRun_fromControl (hwbuf : s.wbuf = []) (hr : s.nic.resetting = false) (hmap : s.cfg.mapOk = true)
    (hio : s.ioValid = true) (ha : ∀ o ∈ [s.cfg.regCtrl, s.cfg.regManc, s.cfg.regImc, s.cfg.regIcr], s.admits o = true)
    (hrst : s.cfg.ctrlRst ≠ 0) :
    ∃ n d, Reloaded s.cfg n ∧ quietRun 10 (Task.goto .resetCtrl) s = some (.ok 0, { s with
      fsm := .reset, nic := n.resetEnded s.cfg, drawn := d
      trace := s.trace ++ globalResetEvents s.cfg s.nic.ctrl ++ resetEndEvents s.cfg n.manc n.icr }) := by
  simp only [List.forall_mem_cons] at ha
  obtain ⟨hctrl, hmanc, himc, hicr, -⟩ := ha
  obtain ⟨n, d, hn, hmid⟩ := quietRun_resetCtrl hwbuf hr hmap hio hctrl hrst
  refine ⟨n, d, hn, hmid _ _ ?_⟩
  exact quietRun_resetManc (s := { s with
    nic := n, drawn := d, trace := s.trace ++ globalResetEvents s.cfg s.nic.ctrl }) hwbuf hn.resetting hmap hmanc himc hicr

/-- With the ports unmapped RESET ends at the index port (R158). -/
theorem quietRun_resetCtrl_refused (hwbuf : s.wbuf = []) (hr : s.nic.resetting = false) (hmap : s.cfg.mapOk = true)
    (hio : s.ioValid = false) (ha : s.admits s.cfg.regCtrl = true) :
    quietRun 3 (Task.goto .resetCtrl) s = some (.hwError s.cfg.ioAddr, s.emit (.regRead s.cfg.regCtrl s.nic.ctrl)) := by
  have hport := Task.step_ioWrite_refused (s := s.emit (.regRead s.cfg.regCtrl s.nic.ctrl)) hio (port := .addr)
    (v := s.cfg.regCtrl) (ps := [.ioWrite .data (s.nic.ctrl ||| s.cfg.ctrlRst), .delayReload]) (p := .resetManc)
  exact quietRun_of_step (Task.step_resetCtrl hwbuf hr hmap ha) (quietRun_of_step hport rfl)

theorem State.takeCtx_drain_nic (s : State) : s.takeCtx.drain.nic = s.drain.nic := by
  rw [State.drain_eq, State.drain_eq]
  rfl

end Sys2Proof.Machine

namespace Sys2Proof
open Sys2Proof.Machine

/-- Settles O23: up to the read of device control, through the global reset, to the end, each part a run of its own. -/
theorem resetCompletes : Obligations.ResetCompletes := by
  intro s hq hfsm hmap hio ha hall hrst
  simp only [List.forall_mem_cons] at ha
  obtain ⟨himc, hrctl, htctl, hstatus, hctrl, hmanc, hicr, -⟩ := ha
  obtain ⟨v, c, ⟨⟨n, m, w, d, rfl⟩, hc, hresetting, hrest⟩, hstart⟩ := quietRun_resetTask (s := s.takeCtx) hfsm hmap
    (by simp only [List.forall_mem_cons]; exact ⟨himc, hrctl, htctl, hstatus, by simp⟩)
  obtain ⟨n', d', hn, hend⟩ := quietRun_fromControl rfl hresetting hmap hio
    (by simp only [List.forall_mem_cons]; exact ⟨hctrl, hmanc, himc, hicr, by simp⟩) hrst
  have hexec := runCommand_of_shortRun (turns := 0) hq (hstart _ _ hend) (by decide)
  rw [State.takeCtx_drain_nic] at hc hrest
  have hmask : ~~~s.cfg.imcAll = 0 := by rw [hall]; decide
  refine ⟨_, v, n'.manc, n'.icr, congrArg Host.Outcome.next hexec, ?_, fun hr => (hrest hr).1, rfl, fun p hp => ?_, rfl, rfl, hn.resetting,
    ?_, rfl, hn.rctl, hn.tctl, rfl⟩
  · rw [resetEvents_eq s.cfg v s.drain.nic.ctrl, ← hc]
    simp only [← List.append_assoc]
    rfl
  · cases p with
    | fsm => exact absurd rfl hp
    | _ => rfl
  · exact (congrArg (n'.mask &&& ·) hmask).trans BitVec.and_zero

/-- Settles O24: the first write fails at once; the index port fails after the read of device control. -/
theorem resetFails : Obligations.ResetFails := by
  refine ⟨fun s hq hfsm hvalid => ?_, fun s hq hfsm hmap hio ha hr => ?_⟩
  · have hfail := Task.step_access_refused (s := s.takeCtx) (q := .regWrite s.cfg.regImc (.lit s.cfg.imcAll)) rfl
      (State.admits_unmapped hvalid _) (quiesce s.cfg ++ [flush s.cfg]).tail .resetSettle
    have hrun : quietRun 3 resetTask s.takeCtx = some (.hwError s.cfg.regImc, s.takeCtx) :=
      quietRun_of_step (Task.step_resetAdmit hfsm) (quietRun_of_step hfail rfl)
    exact congrArg _ ((runCommand_of_shortRun (turns := 0) hq hrun (by decide)).trans (s.takeCtx_respond _))
  · simp only [List.forall_mem_cons] at ha
    obtain ⟨himc, hrctl, htctl, hstatus, hctrl, -⟩ := ha
    obtain ⟨v, c, ⟨⟨n, m, w, d, rfl⟩, hc, hresetting, hrest⟩, hstart⟩ := quietRun_resetTask (s := s.takeCtx) hfsm hmap
      (by simp only [List.forall_mem_cons]; exact ⟨himc, hrctl, htctl, hstatus, by simp⟩)
    rw [State.takeCtx_drain_nic] at hc hrest
    obtain ⟨rfl, hrctl0, htctl0⟩ := hrest hr
    have hend := quietRun_resetCtrl_refused rfl hresetting hmap hio hctrl
    have hexec := runCommand_of_shortRun (turns := 0) hq (hstart _ _ hend) (by decide)
    refine ⟨_, congrArg Host.Outcome.next hexec, ?_, fun p => ?_, hresetting, hrctl0, htctl0⟩
    · rw [← hc]
      simp [State.respond, State.emit, resetEvents, Response.hwError]
    · cases p <;> rfl

end Sys2Proof
end

section
/-! PROOFS. DMA memory by strings of bytes (20_memory R75, R76), and the descriptor fields: a field write is a store of its
bytes, a store reads back, and the fields of the descriptors of a ring do not overlap (42_ring_manager R184). -/

namespace Sys2Proof.Machine

variable {s : State} {m : Memory} {a b : DWord} {bs : List Byte}

/-! ### Strings of bytes -/

theorem leBytes_zero (n : Nat) : leBytes n 0 = List.replicate n 0 := by
  induction n with
  | zero => rfl
  | succ n ih => exact congrArg (_ :: ·) ih

theorem ofNat_toNat_setWidth (v : DWord) : BitVec.ofNat 8 v.toNat = v.setWidth 8 :=
  BitVec.eq_of_toNat_eq (by simp)

/-- MemWrite stores the little-endian bytes of its value. -/
theorem Memory.write_eq_store (m : Memory) (a : DWord) (n : Nat) (v : DWord) :
    m.write a n v = m.store a (leBytes n v.toNat) := by
  induction n generalizing m a v with
  | zero => rfl
  | succ n ih =>
    rw [Memory.write, ih, leBytes, Memory.store, ofNat_toNat_setWidth, BitVec.toNat_ushiftRight,
      Nat.shiftRight_eq_div_pow]

theorem address_succ (a : DWord) (k : Nat) : a + BitVec.ofNat 64 (k + 1) = a + 1 + BitVec.ofNat 64 k := by
  rw [BitVec.add_assoc, Nat.add_comm, BitVec.ofNat_add]
  rfl

theorem address_add (a : DWord) (j k : Nat) : a + BitVec.ofNat 64 j + BitVec.ofNat 64 k = a + BitVec.ofNat 64 (j + k) := by
  rw [BitVec.add_assoc, ← BitVec.ofNat_add]

/-- Offsets below 2^64 from one address are different addresses. -/
theorem address_ne {j k : Nat} (h : j ≠ k) (hj : j < 2 ^ 64) (hk : k < 2 ^ 64) (a : DWord) :
    a + BitVec.ofNat 64 j ≠ a + BitVec.ofNat 64 k := by
  intro e
  have he := congrArg BitVec.toNat (BitVec.add_right_inj a |>.mp e)
  rw [BitVec.toNat_ofNat, BitVec.toNat_ofNat, Nat.mod_eq_of_lt hj, Nat.mod_eq_of_lt hk] at he
  exact h he

/-- Two strings one after the other are one string. -/
theorem Memory.store_append (m : Memory) (a : DWord) (bs cs : List Byte) :
    m.store a (bs ++ cs) = (m.store a bs).store (a + BitVec.ofNat 64 bs.length) cs := by
  induction bs generalizing m a with
  | nil => simp [Memory.store]
  | cons c bs ih => rw [List.cons_append, Memory.store, ih, List.length_cons, address_succ, Memory.store]

/-- A stored byte reads back. -/
theorem Memory.readByte_store (h : m.wf = true) {k : Nat} (hk : k < bs.length) (hlen : bs.length ≤ 2 ^ 64) :
    (m.store a bs).readByte (a + BitVec.ofNat 64 k) = bs[k] := by
  induction bs generalizing m a k with
  | nil => exact absurd hk (by simp)
  | cons c bs ih =>
    rw [List.length_cons] at hlen hk
    cases k with
    | zero =>
      have hout : ∀ j, j < bs.length → a + BitVec.ofNat 64 0 ≠ a + 1 + BitVec.ofNat 64 j := fun j hj => by
        rw [← address_succ]
        exact address_ne (by omega) (by omega) (by omega) a
      rw [Memory.store, Memory.readByte_store_outside (Memory.writeByte_wf h _ _) _ _ _ hout,
        Memory.readByte_writeByte h, if_pos (by simp)]
      rfl
    | succ k =>
      rw [Memory.store, address_succ, ih (Memory.writeByte_wf h _ _) (by omega) (by omega)]
      rfl

theorem Memory.load_eq_map (m : Memory) (a : DWord) (n : Nat) :
    m.load a n = (List.range n).map (fun k => m.readByte (a + BitVec.ofNat 64 k)) := by
  induction n generalizing a with
  | zero => rfl
  | succ n ih =>
    rw [Memory.load, ih, List.range_succ_eq_map, List.map_cons, List.map_map]
    refine congrArg₂ _ (by simp) (List.map_congr_left fun k _ => ?_)
    rw [Function.comp_apply, Nat.succ_eq_add_one, address_succ]

/-- Part of a stored string, loaded. -/
theorem Memory.load_store (h : m.wf = true) {i n : Nat} (hi : i + n ≤ bs.length) (hlen : bs.length ≤ 2 ^ 64) :
    (m.store a bs).load (a + BitVec.ofNat 64 i) n = (bs.drop i).take n := by
  rw [Memory.load_eq_map]
  refine List.ext_getElem (by simp; omega) (fun k hk _ => ?_)
  have hk : k < n := by simpa using hk
  simp only [List.getElem_map, List.getElem_range, List.getElem_take, List.getElem_drop]
  rw [address_add, Memory.readByte_store h (by omega) hlen]

/-- A store leaves a load of other bytes alone. -/
theorem Memory.load_store_apart (h : m.wf = true) {n : Nat}
    (hab : ∀ i j, i < n → j < bs.length → b + BitVec.ofNat 64 i ≠ a + BitVec.ofNat 64 j) :
    (m.store a bs).load b n = m.load b n := by
  rw [Memory.load_eq_map, Memory.load_eq_map]
  refine List.map_congr_left (fun i hi => ?_)
  exact Memory.readByte_store_outside h _ _ _ (fun j hj => hab i j (List.mem_range.mp hi) hj)

/-- One string of a row of strings of equal length. -/
theorem chunk_flatMap {α : Type} {f : α → List Byte} {w : Nat} (hf : ∀ x, (f x).length = w) {l : List α} {i : Nat} {x : α}
    (hi : l[i]? = some x) : ((l.flatMap f).drop (w * i)).take w = f x := by
  induction l generalizing i with
  | nil => exact absurd hi (by simp)
  | cons y l ih =>
    rw [List.flatMap_cons]
    cases i with
    | zero =>
      obtain rfl : y = x := by simpa using hi
      rw [Nat.mul_zero, List.drop_zero, List.take_left' (hf y)]
    | succ i =>
      rw [Nat.mul_succ, Nat.add_comm, ← List.drop_drop, List.drop_left' (hf y)]
      exact ih (by simpa using hi)

theorem length_flatMap_const {α : Type} {f : α → List Byte} {w : Nat} (hf : ∀ x, (f x).length = w) (l : List α) :
    (l.flatMap f).length = w * l.length := by
  induction l with
  | nil => rfl
  | cons x l ih => rw [List.flatMap_cons, List.length_append, hf, ih, List.length_cons, Nat.mul_succ, Nat.add_comm]

/-! ### The fields of a ring's descriptors (30_encoding R104 to R106, R184) -/

theorem index_toNat {i : Nat} (h : i < 2 ^ 32) : (index i).toNat = i := by
  rw [index, BitVec.toNat_ofNat, Nat.mod_eq_of_lt h]

theorem index_self (i : Word) : index i.toNat = i := BitVec.ofNat_toNat ..

/-- The bytes of two fields, each inside its descriptor, do not overlap when their distances from the base differ. -/
theorem descAddr_ne {c : Cfg} (hc : c.descSize = 16) (base : DWord) {i j : Word} {x y : Nat} (hx : x < 16) (hy : y < 16)
    (h : i ≠ j ∨ x ≠ y) : descAddr c base i.toNat x ≠ descAddr c base j.toNat y := by
  have hi := i.isLt
  have hj := j.isLt
  have hdist : i.toNat ≠ j.toNat ∨ x ≠ y := h.imp_left (fun e e' => e (BitVec.eq_of_toNat_eq e'))
  simp only [descAddr, hc, address_add]
  exact address_ne (by omega) (by omega) (by omega) base

theorem descAddr_add (c : Cfg) (base : DWord) (i x k : Nat) :
    descAddr c base i x + BitVec.ofNat 64 k = descAddr c base i (x + k) := address_add _ _ _

/-- Writing a field leaves a field that does not overlap it. -/
theorem Memory.read_write_field {c : Cfg} (hc : c.descSize = 16) (h : m.wf = true) (base : DWord) {i j : Word}
    {x y n k : Nat} (hx : x + n ≤ 16) (hy : y + k ≤ 16) (hne : i ≠ j ∨ x + n ≤ y ∨ y + k ≤ x) (v : DWord) :
    (m.write (descAddr c base j.toNat y) k v).read (descAddr c base i.toNat x) n = m.read (descAddr c base i.toNat x) n := by
  refine Memory.read_write_apart h _ _ _ _ _ (fun p q hp hq => ?_)
  rw [descAddr_add, descAddr_add]
  exact descAddr_ne hc base (by omega) (by omega) (hne.imp_right fun _ => by omega)

theorem TxField.inside (f : TxField) : f.offset + f.size ≤ 16 := by cases f <;> decide

theorem TxField.apart {f g : TxField} (h : f ≠ g) : f.offset + f.size ≤ g.offset ∨ g.offset + g.size ≤ f.offset := by
  cases f <;> cases g <;> simp_all [TxField.offset, TxField.size]

theorem RxField.inside (f : RxField) : f.offset + f.size ≤ 16 := by cases f <;> decide

theorem RxField.apart {f g : RxField} (h : f ≠ g) : f.offset + f.size ≤ g.offset ∨ g.offset + g.size ≤ f.offset := by
  cases f <;> cases g <;> simp_all [RxField.offset, RxField.size]

variable {i j : Word} {f g : TxField} {p q : RxField} {v : DWord}

/-- A TX field holds what was written to it, cut to its size. -/
theorem State.readTxd_writeTxd (h : s.mem.wf = true) :
    (s.writeTxd i f v).readTxd i f = BitVec.ofNat 64 (v.toNat % 256 ^ f.size) :=
  Memory.read_write_same h _ _ (by cases f <;> decide) v

theorem State.readTxd_writeTxd_ne (hc : s.cfg.descSize = 16) (h : s.mem.wf = true) (hne : i ≠ j ∨ f ≠ g) :
    (s.writeTxd j g v).readTxd i f = s.readTxd i f :=
  Memory.read_write_field hc h _ f.inside g.inside (hne.imp_right TxField.apart) v

/-- An RX field holds what was written to it, cut to its size. -/
theorem State.readRxd_writeRxd (h : s.mem.wf = true) :
    (s.writeRxd i p v).readRxd i p = BitVec.ofNat 64 (v.toNat % 256 ^ p.size) :=
  Memory.read_write_same h _ _ (by cases p <;> decide) v

theorem State.readRxd_writeRxd_ne (hc : s.cfg.descSize = 16) (h : s.mem.wf = true) (hne : i ≠ j ∨ p ≠ q) :
    (s.writeRxd j q v).readRxd i p = s.readRxd i p :=
  Memory.read_write_field hc h _ p.inside q.inside (hne.imp_right RxField.apart) v

theorem State.writeTxd_wf (h : s.mem.wf = true) : (s.writeTxd i f v).mem.wf = true := Memory.write_wf h _ _ _

theorem State.writeRxd_wf (h : s.mem.wf = true) : (s.writeRxd i p v).mem.wf = true := Memory.write_wf h _ _ _

/-! ### Slots -/

theorem slotAt_setSlot_self {l : List Slot} (h : i.toNat < l.length) (v : Slot) : slotAt (setSlot l i v) i = v := by
  simp [slotAt, setSlot, h]

/-- Emptying a slot leaves it Empty, named or not. -/
theorem slotAt_setSlot_empty (l : List Slot) (i : Word) : slotAt (setSlot l i .empty) i = .empty := by
  by_cases h : i.toNat < l.length
  · exact slotAt_setSlot_self h _
  · simp [slotAt, setSlot, Nat.le_of_not_lt h]

theorem emptySlots_succ (l : List Slot) (n : Nat) :
    emptySlots l (List.range (n + 1)) = setSlot (emptySlots l (List.range n)) (index n) .empty := by
  simp [emptySlots, List.range_succ]

/-- The first `n` slots emptied. -/
theorem emptySlots_range {l : List Slot} {n : Nat} (h : n ≤ l.length) (hl : l.length < 2 ^ 32) :
    emptySlots l (List.range n) = List.replicate n .empty ++ l.drop n := by
  induction n with
  | zero => rfl
  | succ n ih =>
    rw [emptySlots_succ, ih (by omega), setSlot, index_toNat (by omega), List.set_append_right _ _ (by simp),
      List.drop_eq_getElem_cons (by omega : n < l.length), List.length_replicate, Nat.sub_self, List.set_cons_zero,
      List.replicate_succ', List.append_assoc]
    rfl

end Sys2Proof.Machine
end

section
/-! PROOFS. STOP leaves every slot Empty (42_ring_manager R193), whatever of its quiesce fails (41_reset_configure R170). -/

namespace Sys2Proof.Machine

variable {s : State} {n : Nat} {x : Response × State}

/-- A table at its capacity, emptied. -/
theorem emptySlots_all {l : List Slot} {n : Nat} (hl : l.length = n) (hn : n < 2 ^ 32) :
    emptySlots l (List.range n) = List.replicate n .empty := by
  rw [emptySlots_range hl.ge (hl ▸ hn), List.drop_of_length_le hl.le, List.append_nil]

/-- An access to the region is made, or leads to its place's clean-up; DRM's own state stays. -/
theorem Task.step_access {q : Prim} {off : Word} (hq : q.accesses = some off) (qs : List Prim) (p : Point) (s : State) :
    ∃ s' t', Task.step s ⟨q :: qs, p⟩ = .more t' s' ∧ (t' = ⟨qs, p⟩ ∨ t' = p.onError off) ∧ OnlyBus s s' := by
  cases ha : s.admits off with
  | false => exact ⟨s, _, Task.step_access_refused hq ha qs p, .inr rfl, .refl s⟩
  | true =>
    cases q with
    | regWrite o v =>
      obtain rfl := Option.some.inj hq
      exact ⟨s.post [(o, v.value s)], ⟨qs, p⟩, stepsTo_regWrite ha v qs p s.sched, .inl rfl, _, s.nic, s.drawn, s.nextCtx, _, rfl⟩
    | regRead o =>
      obtain rfl := Option.some.inj hq
      obtain ⟨n, d, h⟩ := State.drain_nicRead_only (s := s) (off := o) rfl
      refine ⟨_, ⟨qs, p⟩, Task.step_regRead_admitted ha rfl qs p, .inl rfl, ?_⟩
      rw [h]
      exact ⟨_, n, d, s.nextCtx, _, rfl⟩
    | _ => exact absurd hq (by simp [Prim.accesses])

theorem OnlyBus.trans {s s' s'' : State} (h : OnlyBus s s') (h' : OnlyBus s' s'') : OnlyBus s s'' := by
  obtain ⟨_, _, _, _, _, rfl⟩ := h
  obtain ⟨_, _, _, _, _, rfl⟩ := h'
  exact ⟨_, _, _, _, _, rfl⟩

/-- The accesses of the quiesce, made or not, lead to the lock. -/
theorem quietRun_accesses {qs : List Prim} (hqs : ∀ q ∈ qs, q.accesses ≠ none) (err : Option Word) (s : State) :
    ∃ s' err', OnlyBus s s' ∧ ∀ m x, quietRun m (Task.goto (.stopLock err')) s' = some x →
      quietRun (m + qs.length) ⟨qs, .stopLock err⟩ s = some x := by
  induction qs generalizing s with
  | nil => exact ⟨s, err, .refl s, fun m x h => h⟩
  | cons q qs ih =>
    obtain ⟨off, hq⟩ := Option.ne_none_iff_exists'.mp (hqs q (.head _))
    obtain ⟨s1, t1, hstep, rfl | rfl, hs1⟩ := Task.step_access hq qs (.stopLock err) s
    · obtain ⟨s', err', hs', hrun⟩ := ih (fun p hp => hqs p (.tail _ hp)) s1
      exact ⟨s', err', hs1.trans hs', fun m x h => quietRun_of_step hstep (hrun m x h)⟩
    · refine ⟨s1, some off, hs1, fun m x h => ?_⟩
      exact quietRun_mono (quietRun_of_step hstep h) (by simp)

/-- STOP of built rings, its quiesce made or not, ends with both tables released. -/
theorem quietRun_stop (hfsm : s.fsm ≠ .stopped) (hpoll : s.pollState ≠ .active) (hlock : s.txLock = false)
    (hawait : s.lockAwaited = false) (hready : s.ringsReady = true) (hsize : s.cfg.sizesOk = true) :
    ∃ s' err, OnlyBus s.halted s' ∧
      quietRun (4 * s.cfg.nTx + 4 * s.cfg.nRx + 16) stopTask s = some (stopAnswer err, s'.gone) := by
  obtain ⟨s', err, hbus, hquiesce⟩ := quietRun_accesses (qs := quiesce s.cfg ++ [flush s.cfg])
    (by simp [quiesce, flush, Prim.accesses]) none s.halted
  obtain ⟨hpiece, -, -, htasks, hcfg, -⟩ := hbus.frame
  have hlock' : s'.txLock = false := (hpiece .txLock).trans hlock
  have hready' : s'.ringsReady = true := (hpiece .ringsReady).trans hready
  have hawait' : s'.lockAwaited = false := (congrArg (List.any · _) htasks).trans hawait
  have hlast := quietRun_stopLock hawait' hlock' (hcfg ▸ hsize) err
  rw [if_pos hready', hcfg] at hlast
  exact ⟨s', err, hbus, (walk_stop hfsm hpoll).quietRun s.sched (hquiesce _ _ hlast)⟩

end Sys2Proof.Machine

namespace Sys2Proof
open Sys2Proof.Machine

/-- Settles O29: the quiesce, whatever of it is admitted, leads to the release of both tables. -/
theorem stopEmptiesSlots : Obligations.StopEmptiesSlots := by
  intro s t hq hadmit hpoll hlock hawait hready hshape hsize he
  have hfsm : s.fsm ≠ .stopped := by simpa [State.admitted] using hadmit
  obtain ⟨s', err, hbus, hrun⟩ := quietRun_stop (s := s.takeCtx) hfsm hpoll hlock hawait hready hsize
  obtain ⟨hpiece, -, -, -, hcfg, -⟩ := hbus.frame
  have hfuel : 4 * s.cfg.nTx + 4 * s.cfg.nRx + 16 ≤ s.fuel 0 := by unfold State.fuel; omega
  obtain rfl := (Host.Outcome.next.inj he).symm.trans (runCommand_of_quietRun hq hrun hfuel)
  obtain ⟨-, htx, hrx, -⟩ := hasShape_iff.mpr ⟨rfl, hshape⟩
  have htx' : s'.txSlots = s.txSlots := hpiece .txSlots
  have hrx' : s'.rxSlots = s.rxSlots := hpiece .rxSlots
  have hcfg' : s'.cfg = s.cfg := hcfg
  refine ⟨hpiece .fsm, ?_, ?_⟩
  · simp only [State.respond_txSlots, State.gone, htx', hcfg']
    exact emptySlots_all htx (SlotTable.size_lt hsize .tx)
  · simp only [State.respond_rxSlots, State.gone, hrx', hcfg']
    exact emptySlots_all hrx (SlotTable.size_lt hsize .rx)

end Sys2Proof
end

section
/-! PROOFS. RING_INIT (42_ring_manager R181): the operand check, the TX ring, the RX ring one buffer after the other, and the
undo, which releases RX slots as STOP does. -/

namespace Sys2Proof.Machine

variable {s : State} {c : Cfg} {n i : Nat} {x : Response × State}

theorem Cfg.descSize_eq {c : Cfg} (h : c.sizesOk = true) : c.descSize = 16 := by
  simp only [Cfg.sizesOk, Bool.and_eq_true, decide_eq_true_eq] at h
  exact h.1.1.1.1.1.1

/-! ### Admission (R181, 20_memory R78, 60_exceptions R271) -/

theorem State.admitsRingInit_of_admitted {txBase rxBase : Word} (h : s.admitted (.ringInit txBase rxBase) = true) :
    s.admitsRingInit = true ∧ s.ringsReady = false := by
  unfold State.admitted at h
  cases hf : s.fsm <;> simp_all [State.admitsRingInit]

theorem Task.step_ringInit {txBase rxBase : Word} (h : s.admitsRingInit = true) :
    (ringInitTask txBase rxBase).step s =
      if ringBasesOk s.cfg txBase rxBase then .more ⟨ringInitTx s.cfg txBase rxBase, .ringAlloc 0⟩ s
      else .more (Task.answer (.refuse .illegalCommand)) s := by
  change stepRingAdmit txBase rxBase s = _
  rw [stepRingAdmit, if_pos h]

/-! ### The TX ring -/

/-- The sixteen bytes that the writes of a TX descriptor store, lowest address first (30_encoding R105). -/
def txdString (addr : DWord) (length : Half) (cmd status : Byte) : List Byte :=
  leBytes 8 addr.toNat ++ leBytes 2 length.toNat ++ leBytes 1 0 ++ leBytes 1 cmd.toNat ++ leBytes 1 status.toNat ++
    leBytes 1 0 ++ leBytes 2 0

theorem primsOk_txdWrites (s : State) (i : Word) (addr : DWord) (length : Half) (cmd status : Byte) :
    primsOk s (txdWrites i addr length cmd status) =
      some { s with mem := s.mem.store (s.txdAddr i .addr) (txdString addr length cmd status) } := by
  simp [txdString, Memory.store_append, leBytes_length, txdWrites, primsOk, Prim.apply, State.writeTxd,
    Memory.write_eq_store, State.txdAddr, descAddr_add, TxField.offset, TxField.size, -BitVec.toNat_setWidth,
    BitVec.toNat_setWidth_of_le]

/-- A free TX descriptor: all zero but Done (R181). -/
def freeTxBytes (c : Cfg) : List Byte := List.replicate 12 0 ++ [c.txdStatDd] ++ List.replicate 3 0

theorem freeTxBytes_eq (c : Cfg) : freeTxBytes c = txdString 0 0 0 c.txdStatDd := by
  simp [freeTxBytes, txdString, leBytes]

@[simp] theorem freeTxBytes_length (c : Cfg) : (freeTxBytes c).length = 16 := rfl

/-- The first `n` TX descriptors free, as RING_INIT makes them. -/
def State.txFreed (s : State) (n : Nat) : State :=
  { s with
    mem := s.mem.store (s.txBase.setWidth 64) ((List.range n).flatMap (fun _ => freeTxBytes s.cfg))
    txSlots := emptySlots s.txSlots (List.range n) }

theorem State.txdAddr_index (hc : s.cfg.descSize = 16) (hn : n < 2 ^ 32) :
    s.txdAddr (index n) .addr = s.txBase.setWidth 64 + BitVec.ofNat 64 (16 * n) := by
  simp [State.txdAddr, descAddr, hc, index_toNat hn, TxField.offset]

theorem State.rxdAddr_index (hc : s.cfg.descSize = 16) (hn : n < 2 ^ 32) :
    s.rxdAddr (index n) .addr = s.rxBase.setWidth 64 + BitVec.ofNat 64 (16 * n) := by
  simp [State.rxdAddr, descAddr, hc, index_toNat hn, RxField.offset]

theorem State.txFreed_succ (hc : s.cfg.descSize = 16) (hn : n < 2 ^ 32) :
    primsOk (s.txFreed n) (freeTxDescriptor s.cfg (index n)) = some (s.txFreed (n + 1)) := by
  have hlen := length_flatMap_const (fun _ => freeTxBytes_length s.cfg) (List.range n)
  rw [List.length_range] at hlen
  rw [freeTxDescriptor, primsOk_append, primsOk_txdWrites, State.txdAddr_index (s := s.txFreed n) hc hn,
    ← freeTxBytes_eq]
  simp [primsOk, Prim.apply, State.txFreed, emptySlots, List.range_succ, Memory.store_append, hlen]

theorem primsOk_txFreed (hc : s.cfg.descSize = 16) (hn : n < 2 ^ 32) :
    primsOk s ((List.range n).flatMap (fun i => freeTxDescriptor s.cfg (index i))) = some (s.txFreed n) := by
  induction n with
  | zero => rfl
  | succ n ih =>
    rw [List.range_succ, List.flatMap_append, primsOk_append, ih (by omega), Option.bind_some, List.flatMap_cons,
      List.flatMap_nil, List.append_nil, State.txFreed_succ hc (by omega)]

/-- After RING_INIT's first part: the bases, the TX ring free, the two indices. -/
def State.txBuilt (s : State) (txBase rxBase : Word) : State :=
  { { s with txBase := txBase, rxBase := rxBase }.txFreed s.cfg.nTx with txTail := 0, txNtc := 0 }

theorem primsOk_ringInitTx (hc : s.cfg.descSize = 16) (hn : s.cfg.nTx < 2 ^ 32) (txBase rxBase : Word) :
    primsOk s (ringInitTx s.cfg txBase rxBase) = some (s.txBuilt txBase rxBase) := by
  have hbases : primsOk s [.setTxBase txBase, .setRxBase rxBase] = some { s with txBase := txBase, rxBase := rxBase } := rfl
  have hfree : primsOk { s with txBase := txBase, rxBase := rxBase }
      ((List.range s.cfg.nTx).flatMap (fun i => freeTxDescriptor s.cfg (index i))) =
        some ({ s with txBase := txBase, rxBase := rxBase }.txFreed s.cfg.nTx) :=
    primsOk_txFreed (s := { s with txBase := txBase, rxBase := rxBase }) hc hn
  rw [ringInitTx, primsOk_append, primsOk_append, hbases, Option.bind_some, hfree]
  rfl

theorem ringInitTx_length (c : Cfg) (txBase rxBase : Word) : (ringInitTx c txBase rxBase).length = 8 * c.nTx + 4 := by
  simp [ringInitTx, freeTxDescriptor, txdWrites, List.length_flatMap]
  omega

/-! ### The RX ring -/

/-- The sixteen bytes of an RX descriptor armed with a buffer at `a` (30_encoding R106, R119). -/
def armedBytes (a : DWord) : List Byte := leBytes 8 a.toNat ++ List.replicate 8 0

@[simp] theorem armedBytes_length (a : DWord) : (armedBytes a).length = 16 := by simp [armedBytes, leBytes_length]

theorem primsOk_rxdArm (s : State) (i : Word) (addr : DWord) :
    primsOk s (rxdArm i addr) = some { s with mem := s.mem.store (s.rxdAddr i .addr) (armedBytes addr) } := by
  have hstring : armedBytes addr =
      leBytes 8 addr.toNat ++ leBytes 2 0 ++ leBytes 2 0 ++ leBytes 1 0 ++ leBytes 1 0 ++ leBytes 2 0 := by
    simp [armedBytes, leBytes]
  rw [hstring]
  simp [Memory.store_append, leBytes_length, rxdArm, primsOk, Prim.apply, State.writeRxd, Memory.write_eq_store,
    State.rxdAddr, descAddr_add, RxField.offset, RxField.size]

/-- The slot of a buffer and the address it is mapped at. -/
def grantSlot (c : Cfg) (g : DWord × DWord) : Slot := .full ⟨g.2, c.rxBufSize, .fromDevice⟩ g.1

/-- The two calls that obtain a buffer and its mapping. -/
def grantCalls (c : Cfg) (g : DWord × DWord) : List Event :=
  [.call (.allocRxBuffer c.rxBufSize (some g.1)), .call (.dmaMap g.1 c.rxBufSize .fromDevice (some g.2))]

/-- The RX descriptors from `i` on armed with these buffers, which the host has handed out. -/
def State.armed (s : State) (i : Nat) (l : List (DWord × DWord)) : State :=
  { s with
    mem := s.mem.store (s.rxdAddr (index i) .addr) (l.flatMap (fun g => armedBytes g.2))
    rxSlots := s.rxSlots.take i ++ l.map (grantSlot s.cfg) ++ s.rxSlots.drop (i + l.length)
    allocs := s.allocs.drop l.length
    maps := s.maps.drop l.length
    trace := s.trace ++ l.flatMap (grantCalls s.cfg) }

theorem State.armed_nil (s : State) (i : Nat) : s.armed i [] = s := by
  simp [State.armed, Memory.store]

theorem State.armed_cons (hc : s.cfg.descSize = 16) (hi : i + 1 < 2 ^ 32) (hlen : i < s.rxSlots.length) (g : DWord × DWord)
    (l : List (DWord × DWord)) : (s.armed i [g]).armed (i + 1) l = s.armed i (g :: l) := by
  have haddr : (s.armed i [g]).rxdAddr (index (i + 1)) .addr = s.rxdAddr (index i) .addr + BitVec.ofNat 64 16 := by
    rw [State.rxdAddr_index (s := s.armed i [g]) hc hi, State.rxdAddr_index hc (by omega), address_add]
    rfl
  have hfront : (s.rxSlots.take i ++ [grantSlot s.cfg g]).length = i + 1 := by simp; omega
  have htake := List.take_left' (l₂ := s.rxSlots.drop (i + 1)) hfront
  have hdrop : (s.rxSlots.take i ++ [grantSlot s.cfg g] ++ s.rxSlots.drop (i + 1)).drop (i + 1 + l.length) =
      s.rxSlots.drop (i + (l.length + 1)) := by
    rw [← List.drop_drop, List.drop_left' hfront, List.drop_drop]
    congr 1
    omega
  rw [List.append_assoc, List.singleton_append] at htake hdrop
  rw [State.armed, haddr]
  simp only [State.armed, List.map_cons, List.map_nil, List.length_cons, List.length_nil, htake, hdrop, List.flatMap_cons,
    List.flatMap_nil, List.append_nil, Memory.store_append, armedBytes_length, List.drop_drop, List.append_assoc,
    List.cons_append, List.nil_append, Nat.zero_add, Nat.add_comm 1]

theorem Task.step_ringAlloc_some {b : DWord} (hi : i < s.cfg.nRx) (h : s.allocs.headD none = some b) :
    (Task.goto (.ringAlloc i)).step s = .more (Task.goto (.ringMap i b)) (s.allocRxBuffer s.cfg.rxBufSize).2 := by
  change stepRingAlloc i s = _
  rw [stepRingAlloc, if_pos hi, State.allocRxBuffer, h]

theorem Task.step_ringAlloc_none (hi : i < s.cfg.nRx) (h : s.allocs.headD none = none) :
    (Task.goto (.ringAlloc i)).step s = .more (Task.goto (.ringUndo 0 i)) (s.allocRxBuffer s.cfg.rxBufSize).2 := by
  change stepRingAlloc i s = _
  rw [stepRingAlloc, if_pos hi, State.allocRxBuffer, h]

theorem Task.step_ringMap_some {a b : DWord} (h : s.maps.headD none = some a) :
    (Task.goto (.ringMap i b)).step s =
      .more ⟨rxdArm (index i) a ++ [.setRxSlot (index i) (grantSlot s.cfg (b, a))], .ringAlloc (i + 1)⟩
        (s.dmaMap b s.cfg.rxBufSize .fromDevice).2 := by
  change stepRingMap i b s = _
  rw [stepRingMap, State.dmaMap, h]
  rfl

theorem Task.step_ringMap_none {b : DWord} (h : s.maps.headD none = none) :
    (Task.goto (.ringMap i b)).step s =
      .more ⟨[.call (.freeBuffer b)], .ringUndo 0 i⟩ (s.dmaMap b s.cfg.rxBufSize .fromDevice).2 := by
  change stepRingMap i b s = _
  rw [stepRingMap, State.dmaMap, h]
  rfl

/-- One turn of RING_INIT's RX loop: a buffer, its mapping, the descriptor, the slot. -/
theorem quietRun_armOne {g : DWord × DWord} {al ma : List (Option DWord)} (hi : i < s.cfg.nRx) (hlen : i < s.rxSlots.length)
    (hi32 : i < 2 ^ 32) (ha : s.allocs = some g.1 :: al) (hm : s.maps = some g.2 :: ma)
    (h : quietRun n (Task.goto (.ringAlloc (i + 1))) (s.armed i [g]) = some x) :
    quietRun (n + 9) (Task.goto (.ringAlloc i)) s = some x := by
  have halloc := Task.step_ringAlloc_some hi (congrArg (·.headD none) ha)
  have hmap := Task.step_ringMap_some (s := (s.allocRxBuffer s.cfg.rxBufSize).2) (i := i) (b := g.1)
    (congrArg (·.headD none) hm)
  have hprims : primsOk ((s.allocRxBuffer s.cfg.rxBufSize).2.dmaMap g.1 s.cfg.rxBufSize .fromDevice).2
      (rxdArm (index i) g.2 ++ [.setRxSlot (index i) (grantSlot s.cfg g)]) = some (s.armed i [g]) := by
    rw [primsOk_append, primsOk_rxdArm, Option.bind_some]
    simp [primsOk, Prim.apply, State.armed, State.allocRxBuffer, State.dmaMap, State.call, State.emit, ha, hm, setSlot,
      index_toNat hi32, List.set_eq_take_append_cons_drop, hlen, State.rxdAddr, grantCalls]
  exact quietRun_of_step halloc (quietRun_of_step hmap (quietRun_of_prims hprims h))

/-- As many turns as the host hands out buffers and mappings. -/
theorem quietRun_arm (hsize : s.cfg.sizesOk = true) (hrx : s.rxSlots.length = s.cfg.nRx) {l : List (DWord × DWord)}
    {al ma : List (Option DWord)} (hi : i + l.length ≤ s.cfg.nRx) (ha : s.allocs = l.map (fun g => some g.1) ++ al)
    (hm : s.maps = l.map (fun g => some g.2) ++ ma)
    (h : quietRun n (Task.goto (.ringAlloc (i + l.length))) (s.armed i l) = some x) :
    quietRun (n + 9 * l.length) (Task.goto (.ringAlloc i)) s = some x := by
  have hlt := SlotTable.size_lt hsize .rx
  have hc : s.cfg.descSize = 16 := Cfg.descSize_eq hsize
  simp only [SlotTable.size] at hlt
  induction l generalizing i s with
  | nil => rwa [State.armed_nil] at h
  | cons g l ih =>
    rw [List.length_cons] at hi
    rw [← State.armed_cons hc (by omega) (by omega)] at h
    refine quietRun_armOne (n := n + 9 * l.length) (by omega) (by omega) (by omega) ha hm ?_
    refine ih (s := s.armed i [g]) hsize ?_ (i := i + 1) ?_ ?_ ?_ ?_ hlt hc
    · simp [State.armed]; omega
    · simpa [State.armed] using (by omega : i + 1 + l.length ≤ s.cfg.nRx)
    · simp [State.armed, ha]
    · simp [State.armed, hm]
    · rw [Nat.add_right_comm]; exact h

end Sys2Proof.Machine
end

section
/-! PROOFS. RING_INIT with all it asks of the host, and when the host gives out (42_ring_manager R181, 60_exceptions R267). -/

namespace Sys2Proof.Machine

variable {s : State} {n i j : Nat} {x : Response × State}

/-! ### The undo -/

/-- What RING_INIT calls where the host gives out: an answer `none` is for the buffer, a buffer has no mapping. -/
def refusedCalls (c : Cfg) : Option DWord → List Event
  | none => [.call (.allocRxBuffer c.rxBufSize none)]
  | some b => [.call (.allocRxBuffer c.rxBufSize (some b)), .call (.dmaMap b c.rxBufSize .fromDevice none),
      .call (.freeBuffer b)]

/-- The host has given out. -/
def State.refused (s : State) (last : Option DWord) : State :=
  { s with
    allocs := s.allocs.tail
    maps := if last = none then s.maps else s.maps.tail
    trace := s.trace ++ refusedCalls s.cfg last }

/-- Where the host gives out RING_INIT comes to its undo. -/
theorem quietRun_refused {last : Option DWord} (hi : i < s.cfg.nRx) (ha : s.allocs.headD none = last)
    (hm : last ≠ none → s.maps.headD none = none)
    (h : quietRun n (Task.goto (.ringUndo 0 i)) (s.refused last) = some x) :
    quietRun (n + 3) (Task.goto (.ringAlloc i)) s = some x := by
  cases last with
  | none =>
    have hs : (s.allocRxBuffer s.cfg.rxBufSize).2 = s.refused none := by rw [State.allocRxBuffer, ha]; rfl
    exact quietRun_mono (quietRun_of_step (Task.step_ringAlloc_none hi ha) (hs ▸ h)) (by omega)
  | some b =>
    have hmaps : (s.allocRxBuffer s.cfg.rxBufSize).2.maps.headD none = none := hm (by simp)
    refine quietRun_of_step (Task.step_ringAlloc_some hi ha) (quietRun_of_step (Task.step_ringMap_none hmaps) ?_)
    refine quietRun_of_prims (ps := [_]) ?_ h
    rw [State.dmaMap, hmaps, State.allocRxBuffer, ha]
    simp [primsOk, Prim.apply, State.call, State.emit, State.refused, refusedCalls]

/-- One slot of the undo: a Full one is given back, an Empty one is passed over. -/
theorem quietRun_undoSlot (hj : j < i) (h : quietRun n (Task.goto (.ringUndo (j + 1) i)) (s.release .rx [j]) = some x) :
    quietRun (n + 4) (Task.goto (.ringUndo j i)) s = some x := by
  cases hslot : slotAt s.rxSlots (index j) with
  | full m b =>
    have hstep : (Task.goto (.ringUndo j i)).step s =
        .more ⟨[.call (.dmaUnmap m), .call (.freeBuffer b), .setRxSlot (index j) .empty], .ringUndo (j + 1) i⟩ s := by
      change stepRingUndo j i s = _
      rw [stepRingUndo, if_pos hj, hslot]
    exact quietRun_of_step hstep (quietRun_of_prims (SlotTable.primsOk_full (table := .rx) hslot) h)
  | empty =>
    have hstep : (Task.goto (.ringUndo j i)).step s = .more (Task.goto (.ringUndo (j + 1) i)) s := by
      change stepRingUndo j i s = _
      rw [stepRingUndo, if_pos hj, hslot]
    rw [SlotTable.release_empty (table := .rx) hslot] at h
    exact quietRun_mono (quietRun_of_step hstep h) (by omega)

/-- The undo from slot `j` on, in ascending order, then the answer. -/
theorem quietRun_undo (k : Nat) (hk : j + k = i) (hi : i < 2 ^ 32) :
    quietRun (2 + 4 * k) (Task.goto (.ringUndo j i)) s =
      some (.refuse .noResource, s.release .rx (List.range' j k)) := by
  induction k generalizing j s with
  | zero =>
    have hstep : (Task.goto (.ringUndo j i)).step s = .more (Task.answer (.refuse .noResource)) s :=
      if_neg (Nat.not_lt.mpr hk.ge)
    rw [List.range'_zero, State.release_nil]
    exact quietRun_of_step hstep rfl
  | succ k ih =>
    have hne : ∀ l ∈ List.range' (j + 1) k, index j ≠ index l := by
      intro l hl
      have := List.mem_range'_1.mp hl
      exact index_ne (by omega) (by omega)
    rw [List.range'_succ, ← State.release_cons hne]
    exact quietRun_undoSlot (by omega) (ih (by omega))

/-- Releasing the first slots calls for each what it holds. -/
theorem releaseAll_range {l : List Slot} (h : n ≤ l.length) (hl : l.length < 2 ^ 32) :
    releaseAll l (List.range n) = (l.take n).flatMap releaseCalls := by
  induction n with
  | zero => rfl
  | succ n ih =>
    have hslot : slotAt l (index n) = l[n] := by
      rw [slotAt, index_toNat (by omega), List.getD_eq_getElem _ _ h]
    rw [List.take_succ_eq_append_getElem h, List.flatMap_append, ← ih (by omega), releaseAll, List.range_succ,
      List.flatMap_append, releaseAll]
    simp [hslot]

/-! ### The whole command -/

/-- RING_INIT past its operand check: the TX ring, then what the RX loop does. -/
theorem quietRun_ringInit {txBase rxBase : Word} (hadmit : s.admitsRingInit = true)
    (hbases : ringBasesOk s.cfg txBase rxBase = true) (hsize : s.cfg.sizesOk = true)
    (h : quietRun n (Task.goto (.ringAlloc 0)) (s.txBuilt txBase rxBase) = some x) :
    quietRun (n + (8 * s.cfg.nTx + 4) + 1) (ringInitTask txBase rxBase) s = some x := by
  have hadm := Task.step_ringInit (s := s) (txBase := txBase) (rxBase := rxBase) hadmit
  rw [if_pos hbases] at hadm
  have hprims := primsOk_ringInitTx (s := s) (Cfg.descSize_eq hsize) (SlotTable.size_lt hsize .tx) txBase rxBase
  refine quietRun_of_step hadm ?_
  rw [← ringInitTx_length s.cfg txBase rxBase]
  exact quietRun_of_prims hprims h

/-- With every RX slot filled RING_INIT sets `rings_ready` and answers OK. -/
theorem quietRun_ringsReady (hi : s.cfg.nRx ≤ i) :
    quietRun 3 (Task.goto (.ringAlloc i)) s = some (.ok 0, { s with ringsReady := true }) := by
  have hstep : (Task.goto (.ringAlloc i)).step s = .more ⟨[.setRingsReady true], .respond (.ok 0)⟩ s :=
    if_neg (Nat.not_lt.mpr hi)
  exact quietRun_of_step hstep rfl

/-- Two lists of one length are the two sides of a list of pairs. -/
theorem exists_zip {α β : Type} {bs : List α} {as : List β} (h : as.length = bs.length) :
    ∃ l : List (α × β), bs = l.map Prod.fst ∧ as = l.map Prod.snd ∧ l.length = bs.length :=
  ⟨bs.zip as, (List.map_fst_zip h.ge).symm, (List.map_snd_zip h.le).symm, by simp [h]⟩

theorem zipWith_pairs {α β γ : Type} (f : α → β → γ) (l : List (α × β)) :
    List.zipWith f (l.map Prod.fst) (l.map Prod.snd) = l.map (fun g => f g.1 g.2) := by
  rw [List.zipWith_map, List.zipWith_self]

/-- The calls that obtain a list of buffers and mappings. -/
theorem flatten_grantCalls (c : Cfg) (l : List (DWord × DWord)) :
    (List.zipWith (fun b a => [Event.call (.allocRxBuffer c.rxBufSize (some b)),
      Event.call (.dmaMap b c.rxBufSize .fromDevice (some a))]) (l.map Prod.fst) (l.map Prod.snd)).flatten =
        l.flatMap (grantCalls c) := by
  rw [zipWith_pairs]
  rfl

/-- The calls that give them back. -/
theorem flatten_releaseCalls (c : Cfg) (l : List (DWord × DWord)) :
    (List.zipWith (fun b a => [Event.call (.dmaUnmap ⟨a, c.rxBufSize, .fromDevice⟩), Event.call (.freeBuffer b)])
      (l.map Prod.fst) (l.map Prod.snd)).flatten = (l.map (grantSlot c)).flatMap releaseCalls := by
  rw [zipWith_pairs, List.flatMap_map]
  rfl

theorem State.armed_rxSlots (s : State) (l : List (DWord × DWord)) :
    (s.armed 0 l).rxSlots = l.map (grantSlot s.cfg) ++ s.rxSlots.drop l.length := by simp [State.armed]

/-- RING_INIT whose host gives out after the buffers and mappings of `l`. -/
theorem quietRun_ringInit_refused {txBase rxBase : Word} {l : List (DWord × DWord)} {last : Option DWord}
    {al ma : List (Option DWord)} (hadmit : s.admitsRingInit = true) (hbases : ringBasesOk s.cfg txBase rxBase = true)
    (hsize : s.cfg.sizesOk = true) (hrx : s.rxSlots.length = s.cfg.nRx) (hl : l.length < s.cfg.nRx)
    (ha : s.allocs = l.map (fun g => some g.1) ++ last :: al) (hm : s.maps = l.map (fun g => some g.2) ++ ma)
    (hlast : last ≠ none → ma.headD none = none) :
    quietRun (8 * s.cfg.nTx + 13 * s.cfg.nRx + 10) (ringInitTask txBase rxBase) s = some (.refuse .noResource,
      (((s.txBuilt txBase rxBase).armed 0 l).refused last).release .rx (List.range l.length)) := by
  have hlt : s.cfg.nRx < 2 ^ 32 := SlotTable.size_lt hsize .rx
  have hundo := quietRun_undo (s := ((s.txBuilt txBase rxBase).armed 0 l).refused last) (j := 0) l.length (Nat.zero_add _)
    (by omega)
  rw [← List.range_eq_range'] at hundo
  have hallocs : ((s.txBuilt txBase rxBase).armed 0 l).allocs = last :: al := by simp [State.armed, State.txBuilt, State.txFreed, ha]
  have hmaps : ((s.txBuilt txBase rxBase).armed 0 l).maps = ma := by simp [State.armed, State.txBuilt, State.txFreed, hm]
  have hrefused := quietRun_refused (s := (s.txBuilt txBase rxBase).armed 0 l) (i := l.length) hl
    (by rw [hallocs]; rfl) (hmaps ▸ hlast) hundo
  have harm := quietRun_arm (s := s.txBuilt txBase rxBase) (i := 0) (l := l) hsize hrx (by rw [Nat.zero_add]; exact hl.le)
    ha hm (by rw [Nat.zero_add]; exact hrefused)
  have hall := quietRun_ringInit hadmit hbases hsize harm
  exact quietRun_mono hall (by omega)

/-- The offsets of a ring's bytes, as addresses. -/
theorem ringByte_toNat {base : Word} {k : Nat} (h : base.toNat + k < 2 ^ 64) :
    (base.setWidth 64 + BitVec.ofNat 64 k).toNat = base.toNat + k := by
  have hb := base.isLt
  rw [BitVec.toNat_add, BitVec.toNat_ofNat, BitVec.toNat_setWidth_of_le (by decide)]
  omega

variable {m : Memory} {c : Cfg} {txBase rxBase : Word} {l : List (DWord × DWord)}

/-- The two arrays share no byte (20_memory R78). -/
theorem rings_apart (hbases : ringBasesOk c txBase rxBase = true) (hc : c.descSize = 16) (hj : j < 16 * c.nTx)
    (hn : n < 16 * c.nRx) : txBase.setWidth 64 + BitVec.ofNat 64 j ≠ rxBase.setWidth 64 + BitVec.ofNat 64 n := by
  simp only [ringBasesOk, hc, Bool.and_eq_true, Bool.or_eq_true, decide_eq_true_eq] at hbases
  intro e
  have he := congrArg BitVec.toNat e
  rw [ringByte_toNat (by omega), ringByte_toNat (by omega)] at he
  omega

/-- The bytes of a free TX ring. -/
def txRingBytes (c : Cfg) : List Byte := (List.range c.nTx).flatMap (fun _ => freeTxBytes c)

/-- The bytes of an RX ring armed with these buffers. -/
def rxRingBytes (l : List (DWord × DWord)) : List Byte := l.flatMap (fun g => armedBytes g.2)

theorem txRingBytes_length (c : Cfg) : (txRingBytes c).length = 16 * c.nTx := by
  rw [txRingBytes, length_flatMap_const (fun _ => freeTxBytes_length c), List.length_range]

theorem rxRingBytes_length (l : List (DWord × DWord)) : (rxRingBytes l).length = 16 * l.length :=
  length_flatMap_const (f := fun g : DWord × DWord => armedBytes g.2) (fun g => armedBytes_length g.2) l

/-- Memory with both rings built. -/
def Memory.withRings (m : Memory) (c : Cfg) (txBase rxBase : Word) (l : List (DWord × DWord)) : Memory :=
  (m.store (txBase.setWidth 64) (txRingBytes c)).store (rxBase.setWidth 64) (rxRingBytes l)

theorem State.txdBytes_withRings (hmem : s.mem = m.withRings s.cfg s.txBase s.rxBase l) (h : m.wf = true)
    (hbases : ringBasesOk s.cfg s.txBase s.rxBase = true) (hsize : s.cfg.sizesOk = true) (hl : l.length = s.cfg.nRx)
    (hi : i < s.cfg.nTx) : s.txdBytes (index i) = freeTxBytes s.cfg := by
  have hc := Cfg.descSize_eq hsize
  have hlt : s.cfg.nTx < 2 ^ 32 := SlotTable.size_lt hsize .tx
  have hapart : ∀ p q, p < 16 → q < (rxRingBytes l).length →
      s.txBase.setWidth 64 + BitVec.ofNat 64 (16 * i) + BitVec.ofNat 64 p ≠ s.rxBase.setWidth 64 + BitVec.ofNat 64 q := by
    intro p q hp hq
    rw [rxRingBytes_length, hl] at hq
    rw [address_add]
    exact rings_apart hbases hc (by omega) hq
  have hlength := txRingBytes_length s.cfg
  rw [State.txdBytes, State.txdAddr_index hc (by omega), hmem, Memory.withRings,
    Memory.load_store_apart (Memory.store_wf h _ _) hapart, Memory.load_store h (by omega) (by omega)]
  exact chunk_flatMap (fun _ => freeTxBytes_length s.cfg) (List.getElem?_range hi)

theorem State.rxdBytes_withRings (hmem : s.mem = m.withRings s.cfg s.txBase s.rxBase l) (h : m.wf = true)
    (hsize : s.cfg.sizesOk = true) (hl : l.length = s.cfg.nRx) {g : DWord × DWord} (hi : l[i]? = some g) :
    s.rxdBytes (index i) = armedBytes g.2 := by
  have hlt : s.cfg.nRx < 2 ^ 32 := SlotTable.size_lt hsize .rx
  obtain ⟨hil, -⟩ := List.getElem?_eq_some_iff.mp hi
  have hlength := rxRingBytes_length l
  rw [State.rxdBytes, State.rxdAddr_index (Cfg.descSize_eq hsize) (by omega), hmem, Memory.withRings,
    Memory.load_store (Memory.store_wf h _ _) (by omega) (by omega)]
  exact chunk_flatMap (f := fun g : DWord × DWord => armedBytes g.2) (fun g => armedBytes_length g.2) hi

/-- No other byte of memory changes (R181). -/
theorem Memory.readByte_withRings (h : m.wf = true) (hc : c.descSize = 16) (hl : l.length = c.nRx) {x : DWord}
    (htx : ¬ within (txBase.setWidth 64) (c.descSize * c.nTx) x) (hrx : ¬ within (rxBase.setWidth 64) (c.descSize * c.nRx) x) :
    (m.withRings c txBase rxBase l).readByte x = m.readByte x := by
  rw [Memory.withRings, Memory.readByte_store_outside (Memory.store_wf h _ _), Memory.readByte_store_outside h]
  · exact fun k hk e => htx ⟨k, by rwa [txRingBytes_length, ← hc] at hk, e⟩
  · exact fun k hk e => hrx ⟨k, by rwa [rxRingBytes_length, hl, ← hc] at hk, e⟩

/-- The machine with both rings built and these answers of the host left over. -/
def State.ringsBuilt (s : State) (txBase rxBase : Word) (l : List (DWord × DWord)) (al ma : List (Option DWord)) : State :=
  { s with
    txBase := txBase, rxBase := rxBase, txTail := 0, txNtc := 0, ringsReady := true, allocs := al, maps := ma
    mem := s.mem.withRings s.cfg txBase rxBase l
    txSlots := List.replicate s.cfg.nTx .empty
    rxSlots := l.map (grantSlot s.cfg)
    trace := s.trace ++ l.flatMap (grantCalls s.cfg) }

/-- RING_INIT with every buffer and mapping supplied. -/
theorem quietRun_ringInit_granted {al ma : List (Option DWord)} (hadmit : s.admitsRingInit = true)
    (hbases : ringBasesOk s.cfg txBase rxBase = true) (hsize : s.cfg.sizesOk = true) (htx : s.txSlots.length = s.cfg.nTx)
    (hrx : s.rxSlots.length = s.cfg.nRx) (hl : l.length = s.cfg.nRx) (ha : s.allocs = l.map (fun g => some g.1) ++ al)
    (hm : s.maps = l.map (fun g => some g.2) ++ ma) :
    quietRun (8 * s.cfg.nTx + 9 * s.cfg.nRx + 8) (ringInitTask txBase rxBase) s =
      some (.ok 0, s.ringsBuilt txBase rxBase l al ma) := by
  have hend := quietRun_ringsReady (s := (s.txBuilt txBase rxBase).armed 0 l) (i := l.length) hl.ge
  have harm := quietRun_arm (s := s.txBuilt txBase rxBase) (i := 0) (l := l) hsize hrx (by rw [Nat.zero_add]; exact hl.le)
    ha hm (by rw [Nat.zero_add]; exact hend)
  have hall := quietRun_ringInit hadmit hbases hsize harm
  have hbuilt : { (s.txBuilt txBase rxBase).armed 0 l with ringsReady := true } = s.ringsBuilt txBase rxBase l al ma := by
    have hslots := emptySlots_all htx (SlotTable.size_lt hsize .tx)
    simp [State.armed, State.txBuilt, State.txFreed, State.ringsBuilt, hslots, hrx, hl, ha, hm, State.rxdAddr, descAddr,
      index, RxField.offset, Memory.withRings, txRingBytes, rxRingBytes]
  rw [hbuilt] at hall
  exact quietRun_mono hall (by omega)

end Sys2Proof.Machine

namespace Sys2Proof
open Sys2Proof.Machine

/-- Settles O36: each fault of the operands fails the check, and the refusal is the command's only step. -/
theorem ringInitOperands : Obligations.RingInitOperands := by
  intro s txBase rxBase hq hadmit hfault
  have hbases : ringBasesOk s.cfg txBase rxBase = false := by
    refine Bool.eq_false_iff.mpr (fun h => ?_)
    simp only [ringBasesOk, Bool.and_eq_true, Bool.or_eq_true, decide_eq_true_eq] at h
    omega
  have hstep := Task.step_ringInit (s := s.takeCtx) (txBase := txBase) (rxBase := rxBase)
    (State.admitsRingInit_of_admitted hadmit).1
  rw [State.takeCtx_cfg, if_neg (by simp [hbases])] at hstep
  exact congrArg _ (runCommand_of_answer hq hstep 0)

/-- Settles O34: the free TX ring and the armed RX ring are two strings of bytes, which the operand check keeps apart. -/
theorem ringInitBuilds : Obligations.RingInitBuilds := by
  intro s txBase rxBase bs as moreAllocs moreMaps hq hadmit hbases hsize hshape hwf hbs has ha hm
  obtain ⟨l, rfl, rfl, hl⟩ := exists_zip (has.trans hbs.symm)
  obtain ⟨-, htx, hrx, -⟩ := hasShape_iff.mpr ⟨rfl, hshape⟩
  rw [hbs] at hl
  have hrun := quietRun_ringInit_granted (s := s.takeCtx) (State.admitsRingInit_of_admitted hadmit).1 hbases hsize htx hrx
    hl (ha.trans (by rw [List.map_map]; rfl)) (hm.trans (by rw [List.map_map]; rfl))
  have hfuel : 8 * s.cfg.nTx + 9 * s.cfg.nRx + 8 ≤ s.fuel 0 := by unfold State.fuel; omega
  refine ⟨s.mem.withRings s.cfg txBase rxBase l, _, congrArg Host.Outcome.next (runCommand_of_quietRun hq hrun hfuel), ?_,
    fun i hi => ?_, fun i a hi => ?_, ?_⟩
  · rw [flatten_grantCalls, zipWith_pairs]
    rfl
  · exact State.txdBytes_withRings rfl hwf hbases hsize hl hi
  · rw [List.getElem?_map, Option.map_eq_some_iff] at hi
    obtain ⟨g, hg, rfl⟩ := hi
    exact State.rxdBytes_withRings (s := s.takeCtx.ringsBuilt txBase rxBase l moreAllocs moreMaps) rfl hwf hsize hl hg
  · exact fun x htx hrx => Memory.readByte_withRings hwf (Cfg.descSize_eq hsize) hl htx hrx

/-- Settles O35: the buffers and mappings obtained fill the first RX slots, which the undo releases in their order. -/
theorem ringInitGivesBack : Obligations.RingInitGivesBack := by
  intro s txBase rxBase bs as last moreAllocs moreMaps hq hadmit hbases hsize hshape hlt hlen ha hm
  obtain ⟨l, rfl, rfl, hl⟩ := exists_zip hlen
  obtain ⟨-, htx, hrx, -⟩ := hasShape_iff.mpr ⟨rfl, hshape⟩
  obtain ⟨hring, hready⟩ := State.admitsRingInit_of_admitted hadmit
  rw [← hl] at hlt
  have hrun := quietRun_ringInit_refused (s := s.takeCtx) hring hbases hsize hrx hlt
    (ha.trans (by rw [List.map_map]; rfl)) (hm.trans (by rw [List.map_map]; rfl)) (fun h => by rw [if_neg h]; rfl)
  have hrxlt : s.cfg.nRx < 2 ^ 32 := SlotTable.size_lt hsize .rx
  have hfuel : 8 * s.cfg.nTx + 13 * s.cfg.nRx + 10 ≤ s.fuel 0 := by unfold State.fuel; omega
  have hslots : ((s.takeCtx.txBuilt txBase rxBase).armed 0 l).rxSlots = l.map (grantSlot s.cfg) ++ s.rxSlots.drop l.length :=
    State.armed_rxSlots _ l
  have hlength : (l.map (grantSlot s.cfg) ++ s.rxSlots.drop l.length).length = s.cfg.nRx := by simp; omega
  refine ⟨_, congrArg Host.Outcome.next (runCommand_of_quietRun hq hrun hfuel), ?_, hready, rfl, ?_, ?_, rfl, rfl, rfl, rfl, rfl⟩
  · change _ ++ releaseAll ((s.takeCtx.txBuilt txBase rxBase).armed 0 l).rxSlots _ ++ _ = _
    rw [hslots, releaseAll_range (by rw [hlength]; omega) (by omega), List.take_left' (by simp), flatten_grantCalls,
      flatten_releaseCalls]
    cases last <;> rfl
  · exact emptySlots_all htx (SlotTable.size_lt hsize .tx)
  · change emptySlots ((s.takeCtx.txBuilt txBase rxBase).armed 0 l).rxSlots _ = _
    rw [hslots, ← hl, emptySlots_range (by rw [hlength]; omega) (by omega), emptySlots_range (by omega) (by omega),
      List.drop_left' (by simp)]

end Sys2Proof
end

section
/-! PROOFS. The ends of a command that no other agent disturbs, and the commands that only reclaim: RECYCLE, step 5 of POLL
and the last lines of SUBMIT and POLL take buffers out of Done TX descriptors and write nothing else of the rings
(43_tx_path R204, R210, R215). -/

namespace Sys2Proof.Machine

variable {s s' : State} {t t' : Task} {Q : State → Prop} {n m : Nat}

/-! ### Where a command ends -/

/-- With `n` primitives or more the command ends, by its answer, by its fuel or by a wait, in a state with `Q`. -/
def Ends (Q : State → Prop) (n : Nat) (t : Task) (s : State) : Prop :=
  s.sched = [] → ∀ m k, n ≤ m → ∃ v, Q v ∧
    ((∃ t', drive m k (s.park k t) = v.park k t') ∨ ∃ r, drive m k (s.park k t) = v.respond k r)

theorem Ends.mono (h : Ends Q n t s) (hn : n ≤ m) : Ends Q m t s := fun hq l k hl => h hq l k (hn.trans hl)

/-- One primitive, where the state before it will do for an answer or a wait. -/
theorem Ends.of_leads (hs : Q s) (h : (t.step s).Leads (Ends Q n)) : Ends Q (n + 1) t s := by
  intro hq m k hm
  obtain ⟨m, rfl⟩ : ∃ m', m = m' + 1 := ⟨m - 1, by omega⟩
  cases e : t.step s with
  | more t' s' =>
    rw [drive_more hq e]
    exact h.of_more e ((Task.step_kept e).sched.trans hq) m k (by omega)
  | done r s' =>
    obtain ⟨-, rfl⟩ := Task.step_done e
    exact ⟨s', hs, .inr ⟨r, drive_done hq e m k⟩⟩
  | wait => exact ⟨s, hs, .inl ⟨t, drive_wait hq e m k⟩⟩

theorem Ends.of_step (e : t.step s = .more t' s') (h : Ends Q n t' s') : Ends Q (n + 1) t s := by
  intro hq m k hm
  obtain ⟨m, rfl⟩ : ∃ m', m = m' + 1 := ⟨m - 1, by omega⟩
  rw [drive_more hq e]
  exact h ((Task.step_kept e).sched.trans hq) m k (by omega)

theorem Ends.of_prims {ps qs : List Prim} {p : Point} (e : primsOk s ps = some s') (h : Ends Q n ⟨qs, p⟩ s') :
    Ends Q (n + ps.length) ⟨ps ++ qs, p⟩ s := by
  induction ps generalizing s with
  | nil => obtain rfl := Option.some.inj e; exact h
  | cons q ps ih =>
    simp only [primsOk] at e
    split at e
    · rename_i s1 hs1
      have hstep : Task.step s ⟨q :: (ps ++ qs), p⟩ = .more ⟨ps ++ qs, p⟩ s1 := by simp only [Task.step, hs1]
      exact (ih e).of_step hstep
    · exact absurd e (by simp)

/-- What every primitive keeps holds at the end, however many primitives there are. -/
theorem Ends.of_invariant {P : Task → State → Prop} (hstep : ∀ t s, P t s → (t.step s).Leads P)
    (hQ : ∀ t s, P t s → Q s) (h : P t s) : Ends Q 0 t s := by
  have hends : ∀ m t s, P t s → s.sched = [] → ∀ k, ∃ v, Q v ∧
      ((∃ t', drive m k (s.park k t) = v.park k t') ∨ ∃ r, drive m k (s.park k t) = v.respond k r) := by
    intro m
    induction m with
    | zero => exact fun t s h _ k => ⟨s, hQ t s h, .inl ⟨t, rfl⟩⟩
    | succ m ih =>
      intro t s h hq k
      cases e : t.step s with
      | more t' s' =>
        rw [drive_more hq e]
        exact ih t' s' ((hstep t s h).of_more e) ((Task.step_kept e).sched.trans hq) k
      | done r s' =>
        obtain ⟨-, rfl⟩ := Task.step_done e
        exact ⟨s', hQ t s' h, .inr ⟨r, drive_done hq e m k⟩⟩
      | wait => exact ⟨s, hQ t s h, .inl ⟨t, drive_wait hq e m k⟩⟩
  exact fun hq m k _ => hends m t s h hq k

/-- A command of the command port, for a property that the response and the table of commands in flight are no part of. -/
theorem Ends.runCommand {turns : Nat} (hpark : ∀ v k t, Q v → Q (v.park k t)) (hrespond : ∀ v k r, Q v → Q (v.respond k r))
    (hq : s.sched = []) (h : Ends Q n t s.takeCtx) (hn : n ≤ s.fuel turns) : Q (Machine.runCommand t turns s) := by
  obtain ⟨v, hv, ⟨t', e⟩ | ⟨r, e⟩⟩ := h hq _ s.nextCtx hn
  · rw [Machine.runCommand, e]
    exact hpark v _ t' hv
  · rw [Machine.runCommand, e]
    exact hrespond v _ r hv

/-! ### What reclaiming changes -/

/-- Nothing of the rings but TX slots emptied where the descriptor is Done. -/
structure Reclaimed (s s' : State) : Prop where
  cfg : s'.cfg = s.cfg
  mem : s'.mem = s.mem
  txBase : s'.txBase = s.txBase
  rxBase : s'.rxBase = s.rxBase
  rxSlots : s'.rxSlots = s.rxSlots
  txSlots : ∀ i, slotAt s'.txSlots i = slotAt s.txSlots i ∨ s.txDone i = true ∧ slotAt s'.txSlots i = .empty

theorem Reclaimed.of_agreeOff {l : List Part} (hcfg : s'.cfg = s.cfg) (h : AgreeOff l s s') (hm : .memory ∉ l)
    (htx : .piece .txBase ∉ l) (hrx : .piece .rxBase ∉ l) (hrs : .piece .rxSlots ∉ l) (hts : .piece .txSlots ∉ l) :
    Reclaimed s s' :=
  ⟨hcfg, h.memory hm, h.piece .txBase htx, h.piece .rxBase hrx, h.piece .rxSlots hrs,
    fun i => .inl (congrArg (slotAt · i) (h.piece .txSlots hts))⟩

/-- The slot of a Done descriptor taken. -/
theorem Reclaimed.emptied {i : Word} (hdone : s.txDone i = true) (tr : List Event) :
    Reclaimed s { s with txSlots := setSlot s.txSlots i .empty, trace := tr } := by
  refine ⟨rfl, rfl, rfl, rfl, rfl, fun j => ?_⟩
  by_cases hj : i = j
  · subst hj
    exact .inr ⟨hdone, slotAt_setSlot_empty ..⟩
  · exact .inl (slotAt_setSlot_ne hj _)

theorem Reclaimed.refl (s : State) : Reclaimed s s := ⟨rfl, rfl, rfl, rfl, rfl, fun _ => .inl rfl⟩

theorem Reclaimed.readTxd (h : Reclaimed s s') (i : Word) (f : TxField) : s'.readTxd i f = s.readTxd i f := by
  simp only [State.readTxd, State.txdAddr, h.mem, h.cfg, h.txBase]

theorem Reclaimed.readRxd (h : Reclaimed s s') (i : Word) (f : RxField) : s'.readRxd i f = s.readRxd i f := by
  simp only [State.readRxd, State.rxdAddr, h.mem, h.cfg, h.rxBase]

theorem Reclaimed.txDone (h : Reclaimed s s') (i : Word) : s'.txDone i = s.txDone i := by
  simp only [State.txDone, State.txStatus, h.readTxd, h.cfg]

/-- A Done descriptor whose slot was taken is Free (R186); the others are as they were. -/
theorem Reclaimed.txOwned (h : Reclaimed s s') (hs : s.TxOwned) : s'.TxOwned := by
  intro i hi
  rcases h.txSlots (index i) with hslot | ⟨hdone, hslot⟩
  · have hi' := hs i (h.cfg ▸ hi)
    simpa only [State.TxFree, State.TxCarries, h.txDone, h.readTxd, h.cfg, hslot] using hi'
  · exact .inl ⟨(h.txDone _).trans hdone, hslot⟩

theorem Reclaimed.rxOwned (h : Reclaimed s s') (hs : s.RxOwned) : s'.RxOwned := by
  intro i hi
  simpa only [h.readRxd, h.cfg, h.rxSlots] using hs i (h.cfg ▸ hi)

/-! ### The commands that only reclaim -/

/-- A primitive that writes nothing of the rings but an Empty slot of a Done TX descriptor. -/
def Prim.reclaims (s : State) : Prim → Prop
  | .setTxSlot i v => v = .empty ∧ s.txDone i = true
  | .call _ | .setTxNtc _ | .unlock | .countDropped | .regWrite _ _ => True
  | .regRead _ | .ioWrite _ _ | .delayReload | .setFsm _ | .setTxBase _ | .setRxBase _ | .setTxTail _ | .setRingsReady _
  | .setPollState _ | .setPollMissed _ | .txd _ _ _ | .rxd _ _ _ | .setRxSlot _ _ => False

/-- A place of the body of RECYCLE, or of the lines after it. -/
def Point.reclaims (s : State) : Point → Prop
  | .recycleSlot _ _ i => s.txDone i = true
  | .respond _ | .submitEnd | .recycleAdmit | .recycleLock _ | .recycleHead _ | .recycleNtc _ _ | .recycleDone _ _ _
  | .pollEnd _ _ => True
  | .read32 _ | .ringAdmit _ _ | .ringAlloc _ | .ringMap _ _ | .ringUndo _ _ | .resetAdmit | .resetSettle | .resetSettled _
  | .resetCtrl | .resetManc | .configureAdmit | .startAdmit | .stopAdmit | .stopWait | .stopLock _ | .stopRings _
  | .stopTx _ _ | .stopRx _ _ | .detachAdmit | .submitAdmit _ _ | .submitLock _ _ | .submitRecheck _ _ | .submitTail _ _
  | .submitDone _ _ _ | .submitPad _ _ _ | .submitMap _ _ _ | .submitSlot _ _ _ | .irqAdmit | .irqRead | .irqRequest
  | .pollAdmit _ | .pollTail _ | .pollDone _ _ _ | .pollLength _ _ _ | .pollAlloc _ _ _ _ | .pollMap _ _ _ _ _
  | .pollTake _ _ _ _ _ _ | .pollNext _ _ _ | .readStats => False

/-- What is left of a command only reclaims. -/
structure Task.Reclaims (t : Task) (s : State) : Prop where
  todo : ∀ q ∈ t.todo, q.reclaims s
  point : t.point.reclaims s

theorem reclaims_goto {p : Point} (h : p.reclaims s) : (Task.goto p).Reclaims s := ⟨by simp [Task.goto], h⟩

theorem reclaims_answer (r : Response) (s : State) : (Task.answer r).Reclaims s := ⟨by simp [Task.answer], trivial⟩

theorem reclaims_unlockAnswer (r : Response) (s : State) : (Task.unlockAnswer r).Reclaims s :=
  ⟨by simp [Task.unlockAnswer, Prim.reclaims], trivial⟩

theorem reclaims_recycleThen {pre : List Prim} (h : ∀ q ∈ pre, q.reclaims s) (err : Option Word) (c : Caller) :
    (recycleThen pre err c).Reclaims s := by
  have htodo : ∀ q ∈ pre ++ [.unlock], q.reclaims s := by
    intro q hq
    rcases List.mem_append.mp hq with hq | hq
    · exact h q hq
    · obtain rfl := List.mem_singleton.mp hq
      trivial
  cases c with
  | command => exact ⟨htodo, trivial⟩
  | poll work => exact ⟨htodo, trivial⟩

theorem Reclaimed.reclaims (h : Reclaimed s s') (ht : t.Reclaims s) : t.Reclaims s' := by
  obtain ⟨todo, p⟩ := t
  obtain ⟨htodo, hpoint⟩ := ht
  refine ⟨fun q hq => ?_, ?_⟩
  · have hq' := htodo q hq
    cases q with
    | setTxSlot i v => exact ⟨hq'.1, (h.txDone i).trans hq'.2⟩
    | _ => exact hq'
  · cases p with
    | recycleSlot c g i => exact (h.txDone i).trans hpoint
    | _ => exact hpoint

theorem Point.onError_reclaims {p : Point} (hp : p.reclaims s) (off : Word) : (p.onError off).Reclaims s := by
  cases p with
  | submitEnd => exact reclaims_unlockAnswer _ s
  | stopLock | pollNext => exact hp.elim
  | _ => exact reclaims_answer _ s

/-- What the step of such a place asks for only reclaims: the slot test comes after the Done test (R210). -/
theorem Point.step_reclaims {p : Point} (hp : p.reclaims s) : (p.step s).Leads Task.Reclaims := by
  cases p with
  | respond => trivial
  | submitEnd => exact reclaims_unlockAnswer _ s
  | recycleAdmit => exact leads_whenAdmitted (reclaims_goto trivial) (reclaims_answer _ s)
  | recycleLock => exact leads_lockThen (fun _ => reclaims_goto trivial)
  | recycleHead c =>
    simp only [Point.step, stepRecycleHead]
    refine leads_readThen (reclaims_recycleThen (List.forall_mem_nil _) _ c) (fun h s' _ => ?_)
    split
    · exact reclaims_goto trivial
    · exact reclaims_recycleThen (List.forall_mem_nil _) _ c
  | recycleNtc => exact reclaims_goto trivial
  | recycleDone c h idx =>
    simp only [Point.step, stepRecycleDone]
    split
    · rename_i hdone
      exact reclaims_goto (Bool.and_eq_true_iff.mp hdone).1
    · exact reclaims_recycleThen (by simp [Prim.reclaims]) none c
  | recycleSlot c h idx =>
    have hdone : s.txDone idx = true := hp
    simp only [Point.step, stepRecycleSlot]
    split
    · exact ⟨by simp [Prim.reclaims, hdone], trivial⟩
    · exact reclaims_goto trivial
  | pollEnd =>
    simp only [Point.step, stepPollEnd]
    split <;> exact ⟨by simp [Prim.reclaims], trivial⟩
  | _ => exact hp.elim

/-- The step of such a place leaves the rings. -/
theorem Point.step_reclaimed {p : Point} (hp : p.reclaims s) (e : p.step s = .more t' s') : Reclaimed s s' := by
  have hcfg := (Point.step_kept e).cfg
  have hagree := (p.step_agreeOff s).of_more e
  have hoff : ∀ x, x ∈ p.changes → x = .piece .txLock ∨ x = .piece .pollState ∨ x = .piece .pollMissed := by
    cases p <;> simp_all [Point.changes, Point.reclaims]
  refine .of_agreeOff hcfg hagree ?_ ?_ ?_ ?_ ?_ <;> exact fun h => by simpa using hoff _ h

theorem Prim.apply_reclaimed {q : Prim} (hq : q.reclaims s) (e : q.apply s = .ok s') : Reclaimed s s' := by
  have hcfg := (Prim.apply_kept e).cfg
  have hagree := Prim.apply_agreeOff e
  cases q with
  | setTxSlot i v =>
    obtain ⟨rfl, hdone⟩ := hq
    obtain rfl := Except.ok.inj e
    exact .emptied hdone s.trace
  | call | setTxNtc | unlock | countDropped | regWrite =>
    refine .of_agreeOff hcfg hagree ?_ ?_ ?_ ?_ ?_ <;> simp [Prim.parts]
  | _ => exact hq.elim

/-- One primitive: what is left still only reclaims, and the rings keep what reclaiming keeps. -/
theorem Task.Reclaims.step (h : t.Reclaims s) (e : t.step s = .more t' s') : t'.Reclaims s' ∧ Reclaimed s s' := by
  obtain ⟨htodo, hpoint⟩ := h
  cases Task.step_cases e with
  | point e => exact ⟨(Point.step_reclaims hpoint).of_more e, Point.step_reclaimed hpoint e⟩
  | @prim q qs p _ e =>
    have hkeep := Prim.apply_reclaimed (htodo q (.head _)) e
    exact ⟨hkeep.reclaims ⟨fun q hq => htodo q (.tail _ hq), hpoint⟩, hkeep⟩
  | failed => exact ⟨Point.onError_reclaims hpoint _, .refl s⟩

/-- A command that only reclaims ends with whatever reclaiming keeps. -/
theorem Task.Reclaims.ends (h : t.Reclaims s) (hQ : ∀ {s s'}, Reclaimed s s' → Q s → Q s') (hs : Q s) : Ends Q n t s := by
  refine (Ends.of_invariant (P := fun t s => t.Reclaims s ∧ Q s) ?_ (fun _ _ h => h.2) ⟨h, hs⟩).mono n.zero_le
  rintro t s ⟨h, hs⟩
  cases e : t.step s with
  | more t' s' => exact ⟨(h.step e).1, hQ (h.step e).2 hs⟩
  | done | wait => trivial

end Sys2Proof.Machine
end

section
/-! PROOFS. SUBMIT and RECYCLE keep every TX descriptor Free or carrying the packet of its slot (42_ring_manager R190): RECYCLE
only reclaims; SUBMIT writes the descriptor and the slot at the software tail together and touches no other. -/

namespace Sys2Proof.Machine

variable {s s' : State} {i j t : Word} {n : Nat} {len : Word} {buf : DWord}

/-! ### One TX descriptor -/

/-- Fields of TX descriptor `i` written in order. -/
def State.writeTxds (i : Word) : List (TxField × DWord) → State → State
  | [], s => s
  | p :: l, s => (s.writeTxd i p.1 p.2).writeTxds i l

variable {l : List (TxField × DWord)} {f : TxField} {v : DWord}

theorem State.readTxd_writeTxds_ne (hc : s.cfg.descSize = 16) (h : s.mem.wf = true) (hne : i ≠ j ∨ f ∉ l.map Prod.fst) :
    (s.writeTxds j l).readTxd i f = s.readTxd i f := by
  induction l generalizing s with
  | nil => rfl
  | cons p l ih =>
    rw [List.map_cons, List.mem_cons, not_or] at hne
    rw [State.writeTxds, ih (s := s.writeTxd j p.1 p.2) hc (State.writeTxd_wf h) (hne.imp_right And.right),
      State.readTxd_writeTxd_ne hc h (hne.imp_right And.left)]

/-- Each field of a list without repetition reads back. -/
theorem State.readTxd_writeTxds (hc : s.cfg.descSize = 16) (h : s.mem.wf = true) (hl : (l.map Prod.fst).Nodup)
    (hm : (f, v) ∈ l) : (s.writeTxds i l).readTxd i f = BitVec.ofNat 64 (v.toNat % 256 ^ f.size) := by
  induction l generalizing s with
  | nil => exact absurd hm (by simp)
  | cons p l ih =>
    obtain ⟨hp, hl⟩ := List.nodup_cons.mp hl
    rcases List.mem_cons.mp hm with rfl | hm
    · exact (State.readTxd_writeTxds_ne (s := s.writeTxd i f v) hc (State.writeTxd_wf h) (.inr hp)).trans
        (State.readTxd_writeTxd h)
    · exact ih (s := s.writeTxd i p.1 p.2) hc (State.writeTxd_wf h) hl hm

/-- Only memory is written. -/
theorem State.writeTxds_eq (s : State) (i : Word) (l : List (TxField × DWord)) :
    s.writeTxds i l = { s with mem := (s.writeTxds i l).mem } := by
  induction l generalizing s with
  | nil => rfl
  | cons p l ih => exact ih (s.writeTxd i p.1 p.2)

/-- The seven fields of `txdWrites`. -/
def txdFields (addr : DWord) (length : Half) (cmd status : Byte) : List (TxField × DWord) :=
  [(.addr, addr), (.length, length.setWidth 64), (.cso, 0), (.cmd, cmd.setWidth 64), (.status, status.setWidth 64),
   (.css, 0), (.special, 0)]

theorem primsOk_writeTxds (s : State) (i : Word) (addr : DWord) (length : Half) (cmd status : Byte) :
    primsOk s (txdWrites i addr length cmd status) = some (s.writeTxds i (txdFields addr length cmd status)) := rfl

theorem ofNat_toNat_mod (v : DWord) {k : Nat} (h : v.toNat < k) : BitVec.ofNat 64 (v.toNat % k) = v := by
  rw [Nat.mod_eq_of_lt h, BitVec.ofNat_toNat, BitVec.setWidth_eq]

/-! ### The descriptor at the software tail -/

/-- What SUBMIT asks of the rings on its way to the descriptor. -/
structure State.TxReady (s : State) : Prop where
  sizes : s.cfg.sizesOk = true
  wf : s.mem.wf = true
  slots : s.txSlots.length = s.cfg.nTx
  tail : s.txTail.toNat < s.cfg.nTx
  owned : s.TxOwned

/-- The lock, the host's answers and the trace are no part of it. -/
theorem State.TxReady.frame (h : s.TxReady) (lock : Bool) (maps : List (Option DWord)) (pads : List Bool)
    (trace : List Event) : State.TxReady { s with txLock := lock, maps := maps, pads := pads, trace := trace } :=
  ⟨h.sizes, h.wf, h.slots, h.tail, h.owned⟩

/-- The packet handed to the NIC, the doorbell not yet written (R201 steps 8 to 10). -/
def State.txSubmitted (s : State) (t : Word) (m : Mapping) (buf : DWord) : State :=
  { s with
    mem := (s.writeTxds t (txdFields m.addr (m.len.setWidth 16) s.cfg.txCommand 0)).mem
    txSlots := setSlot s.txSlots t (.full m buf)
    txTail := nextIndex s.cfg.nTx t }

theorem State.readTxd_txSubmitted (s : State) (t : Word) (m : Mapping) (buf : DWord) (i : Word) (f : TxField) :
    (s.txSubmitted t m buf).readTxd i f =
      (s.writeTxds t (txdFields m.addr (m.len.setWidth 16) s.cfg.txCommand 0)).readTxd i f := by
  rw [State.writeTxds_eq]
  rfl

/-- The descriptor at the tail carries the packet of its slot; the others are as they were. -/
theorem State.txSubmitted_owned (h : s.TxReady) (ht : t.toNat < s.cfg.nTx) {m : Mapping} (hdir : m.dir = .toDevice)
    (hlen : m.len.toNat < 2 ^ 16) (buf : DWord) : (s.txSubmitted t m buf).TxOwned := by
  have hc := Cfg.descSize_eq h.sizes
  intro i hi
  by_cases hit : index i = t
  · subst hit
    have hread {f v} (hm : (f, v) ∈ txdFields m.addr (m.len.setWidth 16) s.cfg.txCommand 0) (hv : v.toNat < 256 ^ f.size) :
        (s.txSubmitted (index i) m buf).readTxd (index i) f = v := by
      rw [State.readTxd_txSubmitted, State.readTxd_writeTxds hc h.wf (by simp [txdFields]) hm, ofNat_toNat_mod v hv]
    have hslot : slotAt (s.txSubmitted (index i) m buf).txSlots (index i) = .full m buf :=
      slotAt_setSlot_self (h.slots ▸ ht) _
    have haddr : (s.txSubmitted (index i) m buf).readTxd (index i) .addr = m.addr :=
      hread (by simp [txdFields]) m.addr.isLt
    have hlength : (s.txSubmitted (index i) m buf).readTxd (index i) .length = (m.len.setWidth 16).setWidth 64 :=
      hread (by simp [txdFields]) (by simp [TxField.size]; omega)
    have hcmd : (s.txSubmitted (index i) m buf).readTxd (index i) .cmd = s.cfg.txCommand.setWidth 64 :=
      hread (by simp [txdFields]) (by simp [TxField.size]; omega)
    have hwhole : (m.len.setWidth 16).setWidth 64 = m.len.setWidth 64 := by
      apply BitVec.eq_of_toNat_eq
      simp only [BitVec.toNat_setWidth]
      rw [Nat.mod_eq_of_lt hlen]
    exact .inr ⟨m, buf, hslot, hdir, haddr, hlength.trans hwhole, hcmd⟩
  · have hread (f) : (s.txSubmitted t m buf).readTxd (index i) f = s.readTxd (index i) f := by
      rw [State.readTxd_txSubmitted, State.readTxd_writeTxds_ne hc h.wf (.inl hit)]
    have hslot : slotAt (s.txSubmitted t m buf).txSlots (index i) = slotAt s.txSlots (index i) :=
      slotAt_setSlot_ne (Ne.symm hit) _
    have hcfg : (s.txSubmitted t m buf).cfg = s.cfg := rfl
    simpa only [State.TxFree, State.TxCarries, State.txDone, State.txStatus, hread, hslot, hcfg] using h.owned i hi

/-- Reclaim in place (R204) leaves SUBMIT what it asks of the rings. -/
theorem State.TxReady.reclaimInPlace (h : s.TxReady) (hdone : s.txDone t = true) :
    ∃ s', primsOk s (Machine.reclaimInPlace t (slotAt s.txSlots t)) = some s' ∧ s'.TxReady ∧ s'.cfg = s.cfg := by
  cases hslot : slotAt s.txSlots t with
  | empty => exact ⟨s, rfl, h, rfl⟩
  | full m b =>
    exact ⟨_, rfl, ⟨h.sizes, h.wf, (List.length_set ..).trans h.slots, h.tail, (Reclaimed.emptied hdone _).txOwned h.owned⟩, rfl⟩

theorem reclaimInPlace_length (t : Word) (v : Slot) : (reclaimInPlace t v).length ≤ 3 := by
  cases v <;> simp [reclaimInPlace]

theorem primsOk_txSubmitted (s : State) (t : Word) (m : Mapping) (buf : DWord) :
    primsOk s (txdWrites t m.addr (m.len.setWidth 16) s.cfg.txCommand 0 ++
      [.setTxSlot t (.full m buf), .setTxTail (nextIndex s.cfg.nTx t)]) = some (s.txSubmitted t m buf) := by
  rw [primsOk_append, primsOk_writeTxds, Option.bind_some, State.writeTxds_eq]
  rfl

/-! ### The run of SUBMIT, from its end -/

/-- Steps 8 to 11: whether or not the doorbell is written, the descriptor and its slot agree. -/
theorem submitSlot_ends (h : s.TxReady) (ht : t.toNat < s.cfg.nTx) (hdone : s.txDone t = true) {m : Mapping}
    (hdir : m.dir = .toDevice) (hlen : m.len.toNat < 2 ^ 16) (buf : DWord) :
    Ends State.TxOwned 13 (Task.goto (.submitSlot buf t m)) s := by
  obtain ⟨s', hreclaim, h', hcfg⟩ := h.reclaimInPlace hdone
  have howned := State.txSubmitted_owned h' (hcfg ▸ ht) hdir hlen buf
  have hprims := primsOk_txSubmitted s' t m buf
  have hend : Task.Reclaims ⟨[.regWrite s.cfg.regTdt .txTail], .submitEnd⟩ (s'.txSubmitted t m buf) :=
    ⟨by simp [Prim.reclaims], trivial⟩
  have hrun := ((hend.ends (n := 0) Reclaimed.txOwned howned).of_prims hprims).of_prims hreclaim
  rw [hcfg, ← List.append_assoc, ← List.append_assoc, List.append_assoc _ [Prim.setTxSlot _ _, _]] at hrun
  have hlength := reclaimInPlace_length t (slotAt s.txSlots t)
  refine Ends.of_step (n := 12) rfl (hrun.mono ?_)
  simp only [txdWrites, List.length_append, List.length_cons, List.length_nil]
  omega

/-- SUBMIT leaves the rings for its answer. -/
theorem unlockAnswer_ends (h : s.TxReady) (r : Response) : Ends State.TxOwned n (Task.unlockAnswer r) s :=
  (reclaims_unlockAnswer r s).ends Reclaimed.txOwned h.owned

/-- Step 7. -/
theorem submitMap_ends (h : s.TxReady) (ht : t.toNat < s.cfg.nTx) (hdone : s.txDone t = true) (hlen : len.toNat < 2 ^ 16)
    (buf : DWord) : Ends State.TxOwned 14 (Task.goto (.submitMap len buf t)) s := by
  refine Ends.of_leads h.owned ?_
  change (stepSubmitMap len buf t s).Leads _
  unfold stepSubmitMap State.dmaMap
  have h' (a) := h.frame s.txLock s.maps.tail s.pads (s.trace ++ [.call (.dmaMap buf len .toDevice a)])
  cases s.maps.headD none with
  | none => exact unlockAnswer_ends (h' none) _
  | some a => exact submitSlot_ends (m := ⟨a, len, .toDevice⟩) (h' (some a)) ht hdone rfl hlen buf

/-- Step 6. -/
theorem submitPad_ends (h : s.TxReady) (ht : t.toNat < s.cfg.nTx) (hdone : s.txDone t = true) (buf : DWord) :
    Ends State.TxOwned 15 (Task.goto (.submitPad len buf t)) s := by
  have hpad : (index s.cfg.ethZlen).toNat < 2 ^ 16 := by
    have hsizes := h.sizes
    simp only [Cfg.sizesOk, Bool.and_eq_true, decide_eq_true_eq] at hsizes
    rw [index_toNat] <;> omega
  refine Ends.of_leads h.owned ?_
  change (stepSubmitPad len buf t s).Leads _
  unfold stepSubmitPad State.pad
  have h' (b) := h.frame s.txLock s.maps s.pads.tail (s.trace ++ [.call (.pad buf len (index s.cfg.ethZlen) b)])
  cases s.pads.headD false with
  | false => exact unlockAnswer_ends (h' false) _
  | true => exact submitMap_ends (h' true) ht hdone hpad buf

/-- Steps 4 and 5. -/
theorem submitTail_ends (h : s.TxReady) (hlen : len.toNat < 2 ^ 16) (buf : DWord) :
    Ends State.TxOwned 17 (Task.goto (.submitTail len buf)) s := by
  refine Ends.of_step (n := 16) rfl (Ends.of_leads h.owned ?_)
  change (stepSubmitDone len buf s.txTail s).Leads _
  unfold stepSubmitDone
  split
  · rename_i hdone
    split
    · exact submitPad_ends h h.tail hdone buf
    · exact (submitMap_ends h h.tail hdone hlen buf).mono (by decide)
  · exact unlockAnswer_ends h _

/-- Step 3. -/
theorem submitLock_ends (h : s.TxReady) (hlen : len.toNat < 2 ^ 16) (buf : DWord) :
    Ends State.TxOwned 19 (Task.goto (.submitLock len buf)) s := by
  refine Ends.of_leads h.owned (leads_lockThen fun _ => ?_)
  have h' := h.frame true s.maps s.pads s.trace
  refine Ends.of_leads h'.owned ?_
  change (stepSubmitRecheck len buf _).Leads _
  unfold stepSubmitRecheck
  split
  · exact submitTail_ends h' hlen buf
  · exact unlockAnswer_ends h' _

theorem submit_ends (h : s.TxReady) (len : Word) (buf : DWord) : Ends State.TxOwned 20 (submitTask len buf) s := by
  have hsizes := h.sizes
  simp only [Cfg.sizesOk, Bool.and_eq_true, decide_eq_true_eq] at hsizes
  have hanswer (r) : Ends State.TxOwned 19 (Task.answer r) s :=
    (reclaims_answer r s).ends Reclaimed.txOwned h.owned
  refine Ends.of_leads h.owned ?_
  change (stepSubmitAdmit len buf s).Leads _
  unfold stepSubmitAdmit
  split
  · split
    · exact hanswer _
    · exact submitLock_ends h (by omega) buf
  · exact hanswer _

theorem recycle_ends (h : s.TxOwned) : Ends State.TxOwned n recycleTask s :=
  (reclaims_goto (p := .recycleAdmit) trivial).ends Reclaimed.txOwned h

/-- R190 at the end of a command of the command port. -/
theorem txOwned_runCommand {task : Task} {turns : Nat} (hq : s.sched = [])
    (h : Ends State.TxOwned n task s.takeCtx) (hn : n ≤ 256) : (runCommand task turns s).TxOwned :=
  h.runCommand (fun _ _ _ hv => hv) (fun _ _ _ hv => hv) hq (hn.trans (s.fuel_ge turns))

end Sys2Proof.Machine

namespace Sys2Proof
open Sys2Proof.Machine

/-- Settles O43: SUBMIT is followed to the primitives that write the descriptor and its slot; RECYCLE only reclaims. -/
theorem txOwnedKept : Obligations.TxOwnedKept := by
  intro s t i hi hq _ hsize hwf hshape htail _ howned he
  obtain ⟨-, htx, -⟩ := hasShape_iff.mpr ⟨rfl, hshape⟩
  have hready : s.takeCtx.TxReady := ⟨hsize, hwf, htx, htail, howned⟩
  obtain ⟨turns, hexec⟩ := exec_eq i s
  obtain rfl := Host.Outcome.next.inj (hexec.symm.trans he)
  rcases hi with rfl | ⟨len, buf, rfl⟩
  · exact txOwned_runCommand hq (recycle_ends (n := 0) hready.owned) (by decide)
  · exact txOwned_runCommand hq (submit_ends hready len buf) (by decide)

end Sys2Proof
end

section
/-! PROOFS. POLL keeps every RX slot Full with the buffer of its descriptor (42_ring_manager R187, R192): each turn of its
loop puts a mapped buffer in the place of the one it hands over before it writes the tail register, and what follows the loop
only reclaims (44_rx_poll_irq R225). -/

namespace Sys2Proof.Machine

variable {s s' : State} {c : Cfg} {next budget work : Word} {n : Nat} {len : Half} {b : DWord} {m : Mapping}

/-! ### One RX descriptor -/

/-- What a turn of POLL's loop asks of the RX ring. -/
structure State.RxReady (c : Cfg) (s : State) : Prop where
  cfg : s.cfg = c
  sizes : c.sizesOk = true
  wf : s.mem.wf = true
  slots : s.rxSlots.length = c.nRx
  owned : s.RxOwned

theorem State.RxReady.nRx_pos (h : s.RxReady c) : 0 < c.nRx := by
  have hsizes := h.sizes
  simp only [Cfg.sizesOk, Bool.and_eq_true, decide_eq_true_eq] at hsizes
  omega

/-- The poll state, the bus, the NIC, the host's answers and the records are no part of it. -/
theorem State.RxReady.frame (h : s.RxReady c) (p : PollState) (k : Nat) (wb : List (Word × Word)) (nic : Nic)
    (allocs maps : List (Option DWord)) (trace : List Event) (d : Nat) :
    State.RxReady c { s with pollState := p, nextCtx := k, wbuf := wb, nic := nic, allocs := allocs, maps := maps,
                             trace := trace, drawn := d } :=
  ⟨h.cfg, h.sizes, h.wf, h.slots, h.owned⟩

theorem State.RxReady.onlyBus (h : s.RxReady c) (hb : OnlyBus s s') : s'.RxReady c := by
  obtain ⟨wb, nic, d, k, tr, rfl⟩ := hb
  exact h.frame s.pollState k wb nic s.allocs s.maps tr d

/-- RX descriptor and slot `i` with a new buffer, the old one handed over (R225 steps 4c to 4f). -/
def State.rxRefilled (s : State) (i : Word) (m : Mapping) (b : DWord) (es : List Event) : State :=
  { s with
    mem := ((s.writeRxd i .addr m.addr).writeRxd i .status 0).mem
    rxSlots := setSlot s.rxSlots i (.full m b)
    trace := s.trace ++ es }

theorem State.readRxd_rxRefilled (s : State) (i : Word) (m : Mapping) (b : DWord) (es : List Event) (j : Word) (f : RxField) :
    (s.rxRefilled i m b es).readRxd j f = ((s.writeRxd i .addr m.addr).writeRxd i .status 0).readRxd j f := rfl

/-- The new buffer's address is in its descriptor; the other descriptors and slots are as they were. -/
theorem State.RxReady.refilled (h : s.RxReady c) (hi : next.toNat < c.nRx) (hdir : m.dir = .fromDevice)
    (hlen : m.len = c.rxBufSize) (b : DWord) (es : List Event) : (s.rxRefilled next m b es).RxReady c := by
  have hc : s.cfg.descSize = 16 := h.cfg ▸ Cfg.descSize_eq h.sizes
  have hwf : (s.writeRxd next .addr m.addr).mem.wf = true := State.writeRxd_wf h.wf
  refine ⟨h.cfg, h.sizes, State.writeRxd_wf hwf, (List.length_set ..).trans h.slots, fun i hi' => ?_⟩
  by_cases hin : index i = next
  · subst hin
    have haddr : (s.rxRefilled (index i) m b es).readRxd (index i) .addr = m.addr := by
      rw [State.readRxd_rxRefilled, State.readRxd_writeRxd_ne (s := s.writeRxd _ _ _) hc hwf (.inr (by simp)),
        State.readRxd_writeRxd h.wf]
      exact ofNat_toNat_mod _ m.addr.isLt
    exact ⟨m, b, slotAt_setSlot_self (h.slots ▸ hi) _, hdir, hlen.trans (congrArg _ h.cfg.symm), haddr⟩
  · have haddr : (s.rxRefilled next m b es).readRxd (index i) .addr = s.readRxd (index i) .addr := by
      rw [State.readRxd_rxRefilled, State.readRxd_writeRxd_ne (s := s.writeRxd _ _ _) hc hwf (.inl hin),
        State.readRxd_writeRxd_ne hc h.wf (.inl hin)]
    have hslot : slotAt (s.rxRefilled next m b es).rxSlots (index i) = slotAt s.rxSlots (index i) :=
      slotAt_setSlot_ne (Ne.symm hin) _
    rw [haddr, hslot]
    exact h.owned i hi'

theorem primsOk_rxRefilled (s : State) (i : Word) (len : Half) (m₀ m : Mapping) (b₀ b : DWord) :
    primsOk s (handOver i len (.full m₀ b₀) ++ [.rxd i .addr m.addr, .rxd i .status 0, .setRxSlot i (.full m b)]) =
      some (s.rxRefilled i m b [.call (.dmaUnmap m₀), .call (.rxDeliver b₀ len)]) := by
  simp [handOver, primsOk, Prim.apply, State.call, State.emit, State.rxRefilled, State.writeRxd, State.rxdAddr, setSlot]

/-! ### A turn of the loop, from its end -/

/-- POLL leaves the RX ring for its end. -/
theorem Task.Reclaims.rxEnds {t : Task} (ht : t.Reclaims s) (h : s.RxReady c) : Ends State.RxOwned n t s :=
  ht.ends Reclaimed.rxOwned h.owned

/-- Steps 4c to 4h: the slot at `next` is Full, so there is a buffer to hand over; a refused tail write ends the poll. -/
theorem pollTake_ends (h : s.RxReady c) (hi : next.toNat < c.nRx) (hdir : m.dir = .fromDevice) (hlen : m.len = c.rxBufSize)
    (hnext : ∀ s', s'.RxReady c →
      Ends State.RxOwned n (Task.goto (.pollDone budget (nextIndex c.nRx next) (work + 1))) s') :
    Ends State.RxOwned (n + 9) (Task.goto (.pollTake budget next work len m b)) s := by
  obtain ⟨m₀, b₀, hslot, -⟩ := h.owned next.toNat (h.cfg ▸ hi)
  rw [index_self] at hslot
  have h' := h.refilled hi hdir hlen b [.call (.dmaUnmap m₀), .call (.rxDeliver b₀ len)]
  obtain ⟨s1, t1, hstep, ht1, hbus⟩ := Task.step_access (q := .regWrite s.cfg.regRdt (.lit next)) rfl []
    (.pollNext budget next work) (s.rxRefilled next m b [.call (.dmaUnmap m₀), .call (.rxDeliver b₀ len)])
  have h1 : Ends State.RxOwned (n + 1) t1 s1 := by
    rcases ht1 with rfl | rfl
    · refine Ends.of_step rfl ?_
      rw [(h'.onlyBus hbus).cfg]
      exact hnext s1 (h'.onlyBus hbus)
    · exact (reclaims_goto (p := .pollEnd work _) trivial).rxEnds (h'.onlyBus hbus)
  have hrun : Ends State.RxOwned (n + 8) ⟨handOver next len (.full m₀ b₀) ++ [.rxd next .addr m.addr, .rxd next .status 0,
      .setRxSlot next (.full m b), .regWrite s.cfg.regRdt (.lit next)], .pollNext budget next work⟩ s :=
    (h1.of_step hstep).of_prims (primsOk_rxRefilled s next len m₀ m b₀ b)
  rw [← hslot] at hrun
  exact Ends.of_step rfl hrun

/-- Step 4b: no mapping, and the poll leaves the loop. -/
theorem pollMap_ends (h : s.RxReady c)
    (htake : ∀ s' a, s'.RxReady c →
      Ends State.RxOwned n (Task.goto (.pollTake budget next work len ⟨a, c.rxBufSize, .fromDevice⟩ b)) s') :
    Ends State.RxOwned (n + 1) (Task.goto (.pollMap budget next work len b)) s := by
  obtain rfl := h.cfg
  refine Ends.of_leads h.owned ?_
  change (stepPollMap budget next work len b s).Leads _
  unfold stepPollMap State.dmaMap
  have h' (a) := h.frame s.pollState s.nextCtx s.wbuf s.nic s.allocs s.maps.tail
    (s.trace ++ [.call (.dmaMap b s.cfg.rxBufSize .fromDevice a)]) s.drawn
  cases s.maps.headD none with
  | none => exact Task.Reclaims.rxEnds ⟨by simp [Prim.reclaims], trivial⟩ (h' none)
  | some a => exact htake _ a (h' (some a))

/-- Step 4b: no buffer, and the poll leaves the loop. -/
theorem pollAlloc_ends (h : s.RxReady c)
    (hmap : ∀ s' b, s'.RxReady c → Ends State.RxOwned n (Task.goto (.pollMap budget next work len b)) s') :
    Ends State.RxOwned (n + 1) (Task.goto (.pollAlloc budget next work len)) s := by
  refine Ends.of_leads h.owned ?_
  change (stepPollAlloc budget next work len s).Leads _
  unfold stepPollAlloc State.allocRxBuffer
  have h' (a) := h.frame s.pollState s.nextCtx s.wbuf s.nic s.allocs.tail s.maps
    (s.trace ++ [.call (.allocRxBuffer s.cfg.rxBufSize a)]) s.drawn
  cases s.allocs.headD none with
  | none => exact Task.Reclaims.rxEnds ⟨by simp [Prim.reclaims], trivial⟩ (h' none)
  | some b => exact hmap _ b (h' (some b))

/-- The loop, by induction on the frames that the budget still allows: thirteen primitives a turn. -/
theorem pollLoop_ends (k : Nat) (hk : budget.toNat - work.toNat ≤ k) (hi : next.toNat < c.nRx) (h : s.RxReady c) :
    Ends State.RxOwned (13 * k + 1) (Task.goto (.pollDone budget next work)) s := by
  induction k generalizing next work s with
  | zero =>
    refine Ends.of_leads h.owned ?_
    change (stepPollDone budget next work s).Leads _
    have hspent : ¬ work.toNat < budget.toNat := by omega
    simp only [stepPollDone, hspent, decide_false, Bool.false_and]
    exact (reclaims_goto (p := .recycleLock _) trivial).rxEnds h
  | succ k ih =>
    refine Ends.of_leads (n := 13 * (k + 1)) h.owned ?_
    change (stepPollDone budget next work s).Leads _
    unfold stepPollDone
    split
    · rename_i hgo
      obtain ⟨hwork, -⟩ := Bool.and_eq_true_iff.mp hgo
      rw [decide_eq_true_eq] at hwork
      have hsucc : (work + 1).toNat = work.toNat + 1 := by bv_omega
      have hturn (s') (h' : s'.RxReady c) :
          Ends State.RxOwned (13 * k + 1) (Task.goto (.pollDone budget (nextIndex c.nRx next) (work + 1))) s' :=
        ih (by omega) (nextIndex_lt h.nRx_pos next) h'
      refine Ends.of_step (n := 13 * k + 12) rfl (pollAlloc_ends h fun s' b h' => ?_)
      exact pollMap_ends h' fun s'' a h'' => pollTake_ends h'' hi rfl rfl hturn
    · exact (reclaims_goto (p := .recycleLock _) trivial).rxEnds h

/-- Steps 1 and 2: a poll that is refused, or whose tail read is, hands over nothing. -/
theorem poll_ends (h : s.RxReady c) (budget : Word) : Ends State.RxOwned (13 * budget.toNat + 3) (pollTask budget) s := by
  refine Ends.of_leads h.owned ?_
  change (stepPollAdmit budget s).Leads _
  unfold stepPollAdmit
  split
  · have h1 := h.frame .active s.nextCtx s.wbuf s.nic s.allocs s.maps s.trace s.drawn
    refine Ends.of_leads h1.owned ?_
    change (stepPollTail budget _).Leads _
    unfold stepPollTail
    refine leads_readThen ?_ (fun v s' hread => ?_)
    · exact (reclaims_goto (p := .pollEnd 0 _) trivial).rxEnds h1
    · obtain ⟨-, -, n, d, rfl⟩ := State.regRead32_cases hread
      have h2 := h1.frame .active s.nextCtx [] n s.allocs s.maps (s.trace ++ [.regRead s.cfg.regRdt v]) d
      obtain rfl := h.cfg
      exact pollLoop_ends budget.toNat (Nat.sub_le ..) (nextIndex_lt h.nRx_pos v) h2
  · exact (reclaims_answer _ s).rxEnds h

end Sys2Proof.Machine

namespace Sys2Proof
open Sys2Proof.Machine

/-- Settles O51: the loop is followed turn by turn, and every way out of it only reclaims. -/
theorem rxOwnedKept : Obligations.RxOwnedKept := by
  intro s t budget hq hsize hwf hshape howned he
  obtain ⟨-, -, hrx, -⟩ := hasShape_iff.mpr ⟨rfl, hshape⟩
  have hready : s.takeCtx.RxReady s.cfg := ⟨rfl, hsize, hwf, hrx, howned⟩
  have hfuel : 13 * budget.toNat + 3 ≤ s.fuel budget.toNat := by unfold State.fuel; omega
  obtain rfl := Host.Outcome.next.inj he
  exact (poll_ends hready budget).runCommand (fun _ _ _ hv => hv) (fun _ _ _ hv => hv) hq hfuel

end Sys2Proof
end

section
/-! PROOFS. RECYCLE on its own (43_tx_path R210 to R215): the head snapshot, the loop from next-to-clean in ring order, and the
end of the command. The reclaim of one slot is SUBMIT's reclaim in place too (R204). -/

namespace Sys2Proof.Machine

variable {s b : State} {n k i : Nat} {h v idx off t : Word} {c : Caller} {x : Response × State}

/-! ### Giving the lock back -/

/-- The last two lines of a command that took the lock from `s`. -/
theorem quietRun_unlockAnswer (hlock : s.txLock = false) (r : Response) :
    quietRun 2 (Task.unlockAnswer r) { s with txLock := true } = some (r, s) := by
  conv_rhs => rw [← s.unlocked_eq hlock]
  rfl

/-! ### Reclaiming TX slots (R204, R210) -/

/-- The TX slots of a list of indices reclaimed in order: unmapped, given back as completed, and Empty. -/
def State.reclaim (s : State) (is : List Nat) : State :=
  { s with
    txSlots := emptySlots s.txSlots is
    trace := s.trace ++ is.flatMap (fun i => reclaimCalls (slotAt s.txSlots (index i))) }

theorem State.reclaim_nil (s : State) : s.reclaim [] = s := by simp [State.reclaim, emptySlots]

theorem State.reclaim_cons {is : List Nat} (hne : ∀ j ∈ is, index i ≠ index j) :
    (s.reclaim [i]).reclaim is = s.reclaim (i :: is) := by
  have hcalls : is.flatMap (fun j => reclaimCalls (slotAt (setSlot s.txSlots (index i) .empty) (index j))) =
      is.flatMap (fun j => reclaimCalls (slotAt s.txSlots (index j))) :=
    List.flatMap_congr fun j hj => by rw [slotAt_setSlot_ne (hne j hj)]
  simp [State.reclaim, emptySlots, hcalls]

/-- The primitives of R204 and R210 reclaim one slot; an Empty one is passed over. -/
theorem primsOk_reclaimInPlace (s : State) (t : Word) :
    primsOk s (reclaimInPlace t (slotAt s.txSlots t)) = some (s.reclaim [t.toNat]) := by
  cases hslot : slotAt s.txSlots t with
  | empty =>
    have hnone : s.reclaim [t.toNat] = s := by
      simp [State.reclaim, emptySlots, index_self, hslot, reclaimCalls, setSlot_of_empty]
    rw [hnone]
    rfl
  | full m b =>
    simp [reclaimInPlace, primsOk, Prim.apply, State.call, State.emit, State.reclaim, emptySlots, index_self, hslot,
      reclaimCalls]

/-! ### Ring order (R188) -/

/-- `k` places of a ring of `n` from `i` on. -/
def ringPlaces (n i k : Nat) : List Nat := (List.range k).map (fun j => (i + j) % n)

theorem ringPlaces_succ (hi : i < n) (k : Nat) : ringPlaces n i (k + 1) = i :: ringPlaces n ((i + 1) % n) k := by
  rw [ringPlaces, List.range_succ_eq_map, List.map_cons, List.map_map, Nat.add_zero, Nat.mod_eq_of_lt hi]
  refine congrArg _ (List.map_congr_left fun j _ => ?_)
  rw [Function.comp_apply, Nat.mod_add_mod, Nat.succ_eq_add_one, Nat.add_assoc, Nat.add_comm 1]

/-- Fewer places than the ring has do not come back to the first. -/
theorem index_ne_ringPlaces (hn : n < 2 ^ 32) (hi : i < n) (hk : k + 1 ≤ n) :
    ∀ j ∈ ringPlaces n ((i + 1) % n) k, index i ≠ index j := by
  intro j hj e
  obtain ⟨d, hd, rfl⟩ := List.mem_map.mp hj
  have hd : d < k := List.mem_range.mp hd
  have hlt : ((i + 1) % n + d) % n < n := Nat.mod_lt _ (by omega)
  have he := congrArg BitVec.toNat e
  rw [index_toNat (by omega), index_toNat (by omega), Nat.mod_add_mod] at he
  rcases Nat.lt_or_ge (i + 1 + d) n with hin | hout
  · rw [Nat.mod_eq_of_lt hin] at he
    omega
  · rw [Nat.mod_eq_sub_mod hout, Nat.mod_eq_of_lt (by omega)] at he
    omega

theorem nextIndex_toNat (hn : n < 2 ^ 32) (hpos : 0 < n) (i : Word) : (nextIndex n i).toNat = (i.toNat + 1) % n :=
  index_toNat ((Nat.mod_lt _ hpos).trans hn)

theorem ringIndex_zero (hi : idx.toNat < n) : ringIndex n idx 0 = idx := by
  rw [ringIndex, Nat.add_zero, Nat.mod_eq_of_lt hi, index_self]

theorem ringIndex_nextIndex (hn : n < 2 ^ 32) (hpos : 0 < n) (i : Word) (j : Nat) :
    ringIndex n (nextIndex n i) j = ringIndex n i (j + 1) := by
  rw [ringIndex, nextIndex_toNat hn hpos, Nat.mod_add_mod, Nat.add_assoc, Nat.add_comm 1, ringIndex]

/-- From any place of the ring the head is less than one round away, so the loop has a first place to stop at. -/
theorem exists_first_stop (hi : idx.toNat < n) (hh : h.toNat < n) (done : Word → Bool) :
    ∃ k, k < n ∧ (∀ j, j < k → done (ringIndex n idx j) = true ∧ ringIndex n idx j ≠ h) ∧
      (done (ringIndex n idx k) = false ∨ ringIndex n idx k = h) := by
  have hhead : ∃ j, j < n ∧ ringIndex n idx j = h := by
    rcases Nat.le_total idx.toNat h.toNat with hle | hle
    · refine ⟨h.toNat - idx.toNat, by omega, ?_⟩
      rw [ringIndex, Nat.add_sub_cancel' hle, Nat.mod_eq_of_lt hh, index_self]
    · rcases Nat.eq_or_lt_of_le hle with he | hlt
      · exact ⟨0, by omega, (ringIndex_zero hi).trans (BitVec.eq_of_toNat_eq he.symm)⟩
      · refine ⟨n - (idx.toNat - h.toNat), by omega, ?_⟩
        rw [ringIndex, show idx.toNat + (n - (idx.toNat - h.toNat)) = h.toNat + n by omega, Nat.add_mod_right,
          Nat.mod_eq_of_lt hh, index_self]
  obtain ⟨j, hj, hjh⟩ := hhead
  have hstop : ∃ k, done (ringIndex n idx k) = false ∨ ringIndex n idx k = h := ⟨j, .inr hjh⟩
  refine ⟨Nat.find hstop, (Nat.find_min' hstop (.inr hjh)).trans_lt hj, fun k hk => ?_, Nat.find_spec hstop⟩
  simpa [not_or] using Nat.find_min hstop hk

/-! ### The loop (R210) -/

theorem Task.step_recycleDone_go (hdone : s.txDone idx = true) (hne : idx ≠ h) (c : Caller) :
    (Task.goto (.recycleDone c h idx)).step s = .more (Task.goto (.recycleSlot c h idx)) s := by
  change stepRecycleDone c h idx s = _
  simp [stepRecycleDone, hdone, hne]

theorem Task.step_recycleDone_stop (hstop : s.txDone idx = false ∨ idx = h) (c : Caller) :
    (Task.goto (.recycleDone c h idx)).step s = .more (recycleThen [.setTxNtc idx] none c) s := by
  change stepRecycleDone c h idx s = _
  rcases hstop with hdone | rfl
  · simp [stepRecycleDone, hdone]
  · simp [stepRecycleDone]

theorem Task.step_recycleSlot (s : State) (c : Caller) (h idx : Word) :
    (Task.goto (.recycleSlot c h idx)).step s =
      .more ⟨reclaimInPlace idx (slotAt s.txSlots idx), .recycleDone c h (nextIndex s.cfg.nTx idx)⟩ s := by
  change stepRecycleSlot c h idx s = _
  unfold stepRecycleSlot
  cases slotAt s.txSlots idx <;> rfl

/-- One turn: the descriptor is Done and not the head. -/
theorem quietRun_recycleTurn (hdone : s.txDone idx = true) (hne : idx ≠ h)
    (hr : quietRun n (Task.goto (.recycleDone c h (nextIndex s.cfg.nTx idx))) (s.reclaim [idx.toNat]) = some x) :
    quietRun (n + 5) (Task.goto (.recycleDone c h idx)) s = some x := by
  have hlength := reclaimInPlace_length idx (slotAt s.txSlots idx)
  have hslot := quietRun_of_step (Task.step_recycleSlot s c h idx) (quietRun_of_prims (primsOk_reclaimInPlace s idx) hr)
  exact quietRun_mono (quietRun_of_step (Task.step_recycleDone_go hdone hne c) hslot) (by omega)

/-- The loop reclaims place after place up to the first where it stops. -/
theorem quietRun_recycleLoop (hn : s.cfg.nTx < 2 ^ 32) (hi : idx.toNat < s.cfg.nTx) (hk : k < s.cfg.nTx)
    (hgo : ∀ j, j < k → s.txDone (ringIndex s.cfg.nTx idx j) = true ∧ ringIndex s.cfg.nTx idx j ≠ h)
    (hstop : s.txDone (ringIndex s.cfg.nTx idx k) = false ∨ ringIndex s.cfg.nTx idx k = h)
    (hr : quietRun n (recycleThen [.setTxNtc (ringIndex s.cfg.nTx idx k)] none c)
      (s.reclaim (ringPlaces s.cfg.nTx idx.toNat k)) = some x) :
    quietRun (n + 1 + 5 * k) (Task.goto (.recycleDone c h idx)) s = some x := by
  have hpos : 0 < s.cfg.nTx := Nat.zero_lt_of_lt hk
  induction k generalizing idx s with
  | zero =>
    rw [ringPlaces, List.range_zero, List.map_nil, State.reclaim_nil] at hr
    rw [ringIndex_zero hi] at hr hstop
    exact quietRun_of_step (Task.step_recycleDone_stop hstop c) hr
  | succ k ih =>
    obtain ⟨hdone, hne⟩ := hgo 0 k.succ_pos
    rw [ringIndex_zero hi] at hdone hne
    have hnext := ringIndex_nextIndex hn hpos idx
    rw [ringPlaces_succ hi, ← State.reclaim_cons (index_ne_ringPlaces hn hi hk.le), ← nextIndex_toNat hn hpos,
      ← hnext] at hr
    refine quietRun_recycleTurn hdone hne (ih (s := s.reclaim [idx.toNat]) hn (nextIndex_lt hpos idx)
      (Nat.lt_of_succ_lt hk) (fun j hj => ?_) ?_ hr hpos)
    · exact hnext j ▸ hgo (j + 1) (by omega)
    · exact hnext k ▸ hstop

/-! ### The body of RECYCLE (R210, R211, R213) -/

theorem Task.step_recycleLock (hlock : s.txLock = false) (c : Caller) :
    (recycleBody c).step s = .more (Task.goto (.recycleHead c)) { s with txLock := true } := by
  change stepRecycleLock c s = _
  simp [stepRecycleLock, lockThen, hlock]

theorem Task.step_recycleHead_refused (ha : s.admits s.cfg.regTdh = false) (c : Caller) :
    (Task.goto (.recycleHead c)).step s = .more (recycleThen [] (some s.cfg.regTdh) c) s := by
  change stepRecycleHead c s = _
  exact readThen_refused ha _ _

/-- Neither the lock nor the numbering of contexts is part of what a register read answers. -/
theorem State.regRead32_lock (ha : s.admits off = true) (hread : s.drain.nicRead off = (v, b)) (lock : Bool) (k : Nat) :
    { s with txLock := lock, nextCtx := k }.regRead32 off =
      some (v, { b with txLock := lock, nextCtx := k, trace := s.trace ++ [.regRead off v] }) := by
  rw [State.regRead32_admitted (s := { s with txLock := lock, nextCtx := k }) ha]
  rw [State.drain_eq, State.nicRead_eq] at hread
  obtain ⟨rfl, rfl⟩ := Prod.mk.inj hread
  rw [State.drain_eq, State.nicRead_eq]
  rfl

/-- Where the head snapshot leads, when its read is admitted. -/
def recycleAtHead (cfg : Cfg) (c : Caller) (h : Word) : Task :=
  if h.toNat < cfg.nTx then Task.goto (.recycleNtc c h) else recycleThen [] (some cfg.regTdh) c

theorem Task.step_recycleHead {s' : State} (hread : s.regRead32 s.cfg.regTdh = some (h, s')) (c : Caller) :
    (Task.goto (.recycleHead c)).step s = .more (recycleAtHead s.cfg c h) s' := by
  change stepRecycleHead c s = _
  simp only [stepRecycleHead, readThen, hread, recycleAtHead]

/-- RECYCLE let in, up to the head snapshot. -/
theorem quietRun_recycleTask (hfsm : s.fsm = .running) (hlock : s.txLock = false)
    (hr : quietRun n (Task.goto (.recycleHead .command)) { s with txLock := true } = some x) :
    quietRun (n + 2) recycleTask s = some x := by
  have hadmit : recycleTask.step s = .more (recycleBody .command) s := by
    change stepRecycleAdmit s = _
    simp [stepRecycleAdmit, whenAdmitted, hfsm]
  exact quietRun_of_step hadmit (quietRun_of_step (Task.step_recycleLock hlock _) hr)

/-- A head inside the ring: the loop from next-to-clean, the new next-to-clean, the answer. -/
theorem quietRun_recycleNtc (hn : s.cfg.nTx < 2 ^ 32) (hi : s.txNtc.toNat < s.cfg.nTx) (hk : k < s.cfg.nTx)
    (hgo : ∀ j, j < k → s.txDone (ringIndex s.cfg.nTx s.txNtc j) = true ∧ ringIndex s.cfg.nTx s.txNtc j ≠ h)
    (hstop : s.txDone (ringIndex s.cfg.nTx s.txNtc k) = false ∨ ringIndex s.cfg.nTx s.txNtc k = h) :
    quietRun (5 * k + 5) (Task.goto (.recycleNtc .command h)) s = some (.ok 0,
      { s.reclaim (ringPlaces s.cfg.nTx s.txNtc.toNat k) with
        txNtc := ringIndex s.cfg.nTx s.txNtc k, txLock := false }) := by
  have hloop := quietRun_recycleLoop (n := 3) (c := .command) hn hi hk hgo hstop rfl
  rw [Nat.add_comm] at hloop
  exact quietRun_of_step rfl hloop

end Sys2Proof.Machine

namespace Sys2Proof
open Sys2Proof.Machine

/-- Settles O40: the loop stops less than one round from next-to-clean, at the head snapshot at the latest. -/
theorem recycleReclaims : Obligations.RecycleReclaims := by
  intro s base h hq hfsm hlock hsize hntc ha hread hh
  have hlt : s.cfg.nTx < 2 ^ 32 := SlotTable.size_lt hsize .tx
  obtain ⟨n, hn, hgo, hstop⟩ := exists_first_stop hntc hh s.txDone
  have hhead := Task.step_recycleHead (State.regRead32_lock ha hread true (s.nextCtx + 1)) .command
  have hvalue : s.drain.nic.resetting = false → s.cfg.mapOk = true → h = s.drain.nic.tdh ∧ base = s.drain := by
    intro hr hmap
    have hreg : s.drain.cfg.regAt s.cfg.regTdh = some .tdh := by
      rw [State.drain_cfg]
      exact Cfg.regAt_offset hmap (r := .tdh) (by simp [NicReg.scalars])
    have hnamed := State.nicRead_named hr hreg (by decide) (by decide) (by decide)
    obtain ⟨rfl, rfl⟩ := Prod.mk.inj (hread.symm.trans hnamed)
    exact ⟨rfl, rfl⟩
  obtain ⟨nic, d, rfl⟩ := State.drain_nicRead_only hread
  rw [recycleAtHead, if_pos hh] at hhead
  have hbody := quietRun_recycleNtc (s := { s with
    wbuf := [], nic := nic, drawn := d, txLock := true, nextCtx := s.nextCtx + 1
    trace := s.trace ++ [.regRead s.cfg.regTdh h] }) hlt hntc hn hgo hstop
  have hrun := quietRun_recycleTask (s := s.takeCtx) hfsm hlock (quietRun_of_step hhead hbody)
  have hfuel : 5 * n + 5 + 1 + 2 ≤ s.fuel 0 := by unfold State.fuel; omega
  refine ⟨n, hn, hgo, hstop, congrArg _ ((runCommand_of_quietRun hq hrun hfuel).trans ?_), rfl, hvalue⟩
  simp [State.reclaim, ringPlaces, ringIndex, List.flatMap_map, State.respond, State.emit, State.ends, hlock]

/-- Settles O41: either way the only lines left are the unlock and the answer. -/
theorem recycleBadHead : Obligations.RecycleBadHead := by
  refine ⟨fun s hq hfsm hlock ha => ?_, fun s base h hq hfsm hlock ha hread hh => ?_⟩
  · have hhead := Task.step_recycleHead_refused (s := { s.takeCtx with txLock := true }) ha .command
    have hend := quietRun_unlockAnswer (s := s.takeCtx) hlock (.hwError s.cfg.regTdh)
    have hrun := quietRun_recycleTask (s := s.takeCtx) hfsm hlock (quietRun_of_step hhead hend)
    exact congrArg _ ((runCommand_of_shortRun hq hrun (by decide)).trans (s.takeCtx_respond _))
  · have hhead := Task.step_recycleHead (State.regRead32_lock ha hread true (s.nextCtx + 1)) .command
    obtain ⟨nic, d, rfl⟩ := State.drain_nicRead_only hread
    rw [recycleAtHead, if_neg (Nat.not_lt.mpr hh)] at hhead
    have hend := quietRun_unlockAnswer (s := { s with
      wbuf := [], nic := nic, drawn := d, nextCtx := s.nextCtx + 1
      trace := s.trace ++ [.regRead s.cfg.regTdh h] }) hlock (.hwError s.cfg.regTdh)
    have hrun := quietRun_recycleTask (s := s.takeCtx) hfsm hlock (quietRun_of_step hhead hend)
    exact congrArg _ (runCommand_of_shortRun hq hrun (by decide))

end Sys2Proof
end

section
/-! PROOFS. SUBMIT on its own (43_tx_path R201 to R207): where it hands the packet back, and the descriptor, the slot, the tail
and the doorbell when it does not. -/

namespace Sys2Proof.Machine

variable {s : State} {n : Nat} {len L t : Word} {buf a : DWord} {m : Mapping} {x : Response × State}

/-! ### The image of a TX descriptor (30_encoding R118) -/

/-- Two little-endian strings one after the other are the string of one number. -/
theorem leBytes_append {n v : Nat} (hv : v < 256 ^ n) (k w : Nat) :
    leBytes n v ++ leBytes k w = leBytes (n + k) (v + 256 ^ n * w) := by
  induction n generalizing v with
  | zero =>
    obtain rfl : v = 0 := by simpa using hv
    simp [leBytes]
  | succ n ih =>
    have hpow : 256 ^ (n + 1) * w = 256 * (256 ^ n * w) := by rw [pow_succ', Nat.mul_assoc]
    have hbyte : BitVec.ofNat 8 (v + 256 * (256 ^ n * w)) = BitVec.ofNat 8 v :=
      BitVec.eq_of_toNat_eq (by simp [Nat.add_mul_mod_self_left])
    have hrest : (v + 256 * (256 ^ n * w)) / 256 = v / 256 + 256 ^ n * w := Nat.add_mul_div_left _ _ (by decide)
    rw [Nat.add_right_comm, leBytes, leBytes, hpow, hbyte, hrest, List.cons_append,
      ih (Nat.div_lt_of_lt_mul (pow_succ' 256 n ▸ hv))]

theorem txdImage_toNat (c : Cfg) (a : DWord) (len : Half) :
    (txdImage c a len).toNat = a.toNat + 2 ^ 64 * len.toNat + 2 ^ 88 * c.txCommand.toNat := by
  have ha := a.isLt
  have hl := len.isLt
  have hc := c.txCommand.isLt
  have hlow : a.toNat ||| 2 ^ 64 * len.toNat = a.toNat + 2 ^ 64 * len.toNat := by
    rw [Nat.or_comm, ← Nat.two_pow_add_eq_or_of_lt ha, Nat.add_comm]
  have hall : (a.toNat + 2 ^ 64 * len.toNat) ||| 2 ^ 88 * c.txCommand.toNat =
      a.toNat + 2 ^ 64 * len.toNat + 2 ^ 88 * c.txCommand.toNat := by
    rw [Nat.or_comm, ← Nat.two_pow_add_eq_or_of_lt (by omega), Nat.add_comm]
  have hlen : (len.setWidth 128 <<< 64).toNat = 2 ^ 64 * len.toNat := by
    simp only [BitVec.toNat_shiftLeft, BitVec.toNat_setWidth, Nat.shiftLeft_eq]
    omega
  have hcmd : (c.txCommand.setWidth 128 <<< 88).toNat = 2 ^ 88 * c.txCommand.toNat := by
    simp only [BitVec.toNat_shiftLeft, BitVec.toNat_setWidth, Nat.shiftLeft_eq]
    omega
  rw [txdImage, BitVec.toNat_or, BitVec.toNat_or, hlen, hcmd, BitVec.toNat_setWidth_of_le (by decide), hlow, hall]

/-- The seven field writes of SUBMIT store the sixteen bytes of the image. -/
theorem txdString_eq_image (c : Cfg) (a : DWord) (len : Half) :
    txdString a len c.txCommand 0 = leBytes 16 (txdImage c a len).toNat := by
  have ha := a.isLt
  have hl := len.isLt
  have hc := c.txCommand.isLt
  rw [txdImage_toNat, txdString, leBytes_append (by omega), leBytes_append (by omega), leBytes_append (by omega),
    leBytes_append (by simp; omega), leBytes_append (by simp; omega), leBytes_append (by simp; omega)]
  simp

@[simp] theorem txdString_length (a : DWord) (len : Half) (cmd status : Byte) : (txdString a len cmd status).length = 16 := by
  simp [txdString, leBytes_length]

/-! ### Up to the descriptor at the tail (steps 1 to 4) -/

theorem Task.step_submitTask_long (hfsm : s.fsm = .running) (hlen : s.cfg.blockSize < len.toNat) (buf : DWord) :
    (submitTask len buf).step s = .more (Task.answer (.refuse .rejectTooLong)) s := by
  change stepSubmitAdmit len buf s = _
  simp [stepSubmitAdmit, hfsm, hlen]

/-- A packet that is not too long takes the lock and comes to the descriptor at the tail. -/
theorem quietRun_submitTask (hfsm : s.fsm = .running) (hlen : len.toNat ≤ s.cfg.blockSize) (hlock : s.txLock = false)
    (hr : quietRun n (Task.goto (.submitDone len buf s.txTail)) { s with txLock := true } = some x) :
    quietRun (n + 4) (submitTask len buf) s = some x := by
  have hadmit : (submitTask len buf).step s = .more (Task.goto (.submitLock len buf)) s := by
    change stepSubmitAdmit len buf s = _
    simp [stepSubmitAdmit, hfsm, Nat.not_lt.mpr hlen]
  have htake : (Task.goto (.submitLock len buf)).step s =
      .more (Task.goto (.submitRecheck len buf)) { s with txLock := true } := by
    change stepSubmitLock len buf s = _
    simp [stepSubmitLock, lockThen, hlock]
  have hcheck : (Task.goto (.submitRecheck len buf)).step { s with txLock := true } =
      .more (Task.goto (.submitTail len buf)) { s with txLock := true } := by
    change stepSubmitRecheck len buf _ = _
    simp [stepSubmitRecheck, hfsm]
  exact quietRun_of_step hadmit (quietRun_of_step htake (quietRun_of_step hcheck (quietRun_of_step rfl hr)))

/-! ### The tests and the host's answers (steps 5 to 7) -/

theorem Task.step_submitDone_full (hdone : s.txDone t = false) (len : Word) (buf : DWord) :
    (Task.goto (.submitDone len buf t)).step s = .more (Task.unlockAnswer (.refuse .busy)) s := by
  change stepSubmitDone len buf t s = _
  simp [stepSubmitDone, hdone]

theorem Task.step_submitDone_short (hdone : s.txDone t = true) (hlen : len.toNat < s.cfg.ethZlen) (buf : DWord) :
    (Task.goto (.submitDone len buf t)).step s = .more (Task.goto (.submitPad len buf t)) s := by
  change stepSubmitDone len buf t s = _
  simp [stepSubmitDone, hdone, hlen]

theorem Task.step_submitDone_long (hdone : s.txDone t = true) (hlen : s.cfg.ethZlen ≤ len.toNat) (buf : DWord) :
    (Task.goto (.submitDone len buf t)).step s = .more (Task.goto (.submitMap len buf t)) s := by
  change stepSubmitDone len buf t s = _
  simp [stepSubmitDone, hdone, Nat.not_lt.mpr hlen]

/-- The host has answered a request to pad (R203). -/
def State.padAnswered (s : State) (len : Word) (buf : DWord) (answer : Bool) : State :=
  { s with pads := s.pads.tail, trace := s.trace ++ [.call (.pad buf len (index s.cfg.ethZlen) answer)] }

theorem Task.step_submitPad {answer : Bool} (h : s.pads.headD false = answer) (len : Word) (buf : DWord) (t : Word) :
    (Task.goto (.submitPad len buf t)).step s =
      .more (if answer then Task.goto (.submitMap (index s.cfg.ethZlen) buf t) else Task.unlockAnswer (.refuse .busy))
        (s.padAnswered len buf answer) := by
  change stepSubmitPad len buf t s = _
  unfold stepSubmitPad State.pad
  rw [h]
  cases answer <;> rfl

/-- The host has answered a request to map the packet for the NIC to read. -/
def State.mapAnswered (s : State) (len : Word) (buf : DWord) (answer : Option DWord) : State :=
  { s with maps := s.maps.tail, trace := s.trace ++ [.call (.dmaMap buf len .toDevice answer)] }

theorem Task.step_submitMap_none (h : s.maps.headD none = none) (len : Word) (buf : DWord) (t : Word) :
    (Task.goto (.submitMap len buf t)).step s =
      .more (Task.unlockAnswer (.refuse .busy)) (s.mapAnswered len buf none) := by
  change stepSubmitMap len buf t s = _
  unfold stepSubmitMap State.dmaMap
  rw [h]
  rfl

theorem Task.step_submitMap_some (h : s.maps.headD none = some a) (len : Word) (buf : DWord) (t : Word) :
    (Task.goto (.submitMap len buf t)).step s =
      .more (Task.goto (.submitSlot buf t ⟨a, len, .toDevice⟩)) (s.mapAnswered len buf (some a)) := by
  change stepSubmitMap len buf t s = _
  unfold stepSubmitMap State.dmaMap
  rw [h]
  rfl

/-- What SUBMIT calls for a short packet. -/
def padCalls (c : Cfg) (len : Word) (buf : DWord) : List Event :=
  if len.toNat < c.ethZlen then [.call (.pad buf len (index c.ethZlen) true)] else []

/-- The host has padded the packet, if it is short. -/
def State.padded (s : State) (len : Word) (buf : DWord) : State :=
  { s with
    pads := if len.toNat < s.cfg.ethZlen then s.pads.tail else s.pads
    trace := s.trace ++ padCalls s.cfg len buf }

/-- The packet's length once padded. -/
def paddedLength (c : Cfg) (len : Word) : Word := if len.toNat < c.ethZlen then index c.ethZlen else len

/-- Steps 5 and 6, where the descriptor is Done and the host pads. -/
theorem quietRun_submitDone (hdone : s.txDone t = true)
    (hpad : len.toNat < s.cfg.ethZlen → s.pads.headD false = true)
    (hr : quietRun n (Task.goto (.submitMap (paddedLength s.cfg len) buf t)) (s.padded len buf) = some x) :
    quietRun (n + 2) (Task.goto (.submitDone len buf t)) s = some x := by
  by_cases hlt : len.toNat < s.cfg.ethZlen
  · have hs : s.padded len buf = s.padAnswered len buf true := by simp [State.padded, State.padAnswered, padCalls, hlt]
    have hstep := Task.step_submitPad (hpad hlt) len buf t
    rw [hs, paddedLength, if_pos hlt] at hr
    exact quietRun_of_step (Task.step_submitDone_short hdone hlt buf) (quietRun_of_step hstep hr)
  · have hs : s.padded len buf = s := by simp [State.padded, padCalls, hlt]
    rw [hs, paddedLength, if_neg hlt] at hr
    exact quietRun_mono (quietRun_of_step (Task.step_submitDone_long hdone (Nat.le_of_not_lt hlt) buf) hr) (by omega)

/-! ### Primitives that precede others -/

/-- Primitives that all succeed lead to the ones after them. -/
theorem quietRun_of_primsBefore {s' : State} {ps qs : List Prim} {p : Point} (e : primsOk s ps = some s')
    (hr : quietRun n ⟨qs, p⟩ s' = some x) : quietRun (n + ps.length) ⟨ps ++ qs, p⟩ s = some x := by
  induction ps generalizing s with
  | nil => obtain rfl := Option.some.inj e; exact hr
  | cons q ps ih =>
    simp only [primsOk] at e
    split at e
    · rename_i s1 hs1
      have hstep : Task.step s ⟨q :: (ps ++ qs), p⟩ = .more ⟨ps ++ qs, p⟩ s1 := by simp only [Task.step, hs1]
      exact quietRun_of_step hstep (ih e)
    · exact absurd e (by simp)

/-! ### The descriptor, the slot and the tail (steps 8 to 10) -/

/-- The packet mapped at `m` is in descriptor `t`, the tail is past it, and a completed packet that was there has been given
back (R204 to R206). -/
def State.filled (s : State) (t : Word) (m : Mapping) (buf : DWord) : State :=
  { s with
    mem := s.mem.store (s.txdAddr t .addr) (txdString m.addr (m.len.setWidth 16) s.cfg.txCommand 0)
    txSlots := setSlot s.txSlots t (.full m buf)
    txTail := nextIndex s.cfg.nTx t
    trace := s.trace ++ reclaimCalls (slotAt s.txSlots t) }

/-- The primitives before the doorbell. -/
def fillPrims (s : State) (t : Word) (m : Mapping) (buf : DWord) : List Prim :=
  reclaimInPlace t (slotAt s.txSlots t) ++ txdWrites t m.addr (m.len.setWidth 16) s.cfg.txCommand 0 ++
    [.setTxSlot t (.full m buf), .setTxTail (nextIndex s.cfg.nTx t)]

theorem fillPrims_length_le (s : State) (t : Word) (m : Mapping) (buf : DWord) : (fillPrims s t m buf).length ≤ 12 := by
  have hlength := reclaimInPlace_length t (slotAt s.txSlots t)
  simp [fillPrims, txdWrites]
  omega

theorem primsOk_fillPrims (s : State) (t : Word) (m : Mapping) (buf : DWord) :
    primsOk s (fillPrims s t m buf) = some (s.filled t m buf) := by
  rw [fillPrims, primsOk_append, primsOk_append, primsOk_reclaimInPlace, Option.bind_some, primsOk_txdWrites]
  simp [primsOk, Prim.apply, State.reclaim, State.filled, State.txdAddr, emptySlots, setSlot, index_self]

/-- Steps 8 to 10 up to the doorbell: three primitives at most give a packet back, nine fill the descriptor and the slot. -/
theorem quietRun_submitSlot
    (hr : quietRun n ⟨[.regWrite s.cfg.regTdt .txTail], .submitEnd⟩ (s.filled t m buf) = some x) :
    quietRun (n + 13) (Task.goto (.submitSlot buf t m)) s = some x := by
  have hlength := fillPrims_length_le s t m buf
  have hprims := quietRun_of_primsBefore (primsOk_fillPrims s t m buf) hr
  have hstep : (Task.goto (.submitSlot buf t m)).step s =
      .more ⟨fillPrims s t m buf ++ [.regWrite s.cfg.regTdt .txTail], .submitEnd⟩ s := by
    change stepSubmitSlot buf t m s = _
    simp [stepSubmitSlot, fillPrims]
  exact quietRun_mono (quietRun_of_step hstep hprims) (by omega)

/-! ### The doorbell (steps 10 and 11) -/

/-- The doorbell is posted. -/
theorem quietRun_doorbell (hlock : s.txLock = false) (ha : s.admits s.cfg.regTdt = true) :
    quietRun 4 ⟨[.regWrite s.cfg.regTdt .txTail], .submitEnd⟩ { s with txLock := true } =
      some (.ok 0, s.post [(s.cfg.regTdt, s.txTail)]) := by
  have hpost := stepsTo_regWrite (s := { s with txLock := true }) ha .txTail [] .submitEnd s.sched
  have hend := quietRun_unlockAnswer (s := s.post [(s.cfg.regTdt, s.txTail)]) hlock (.ok 0)
  exact quietRun_of_step hpost (quietRun_of_step rfl hend)

/-- The doorbell is refused. -/
theorem quietRun_doorbell_refused (hlock : s.txLock = false) (ha : s.admits s.cfg.regTdt = false) :
    quietRun 3 ⟨[.regWrite s.cfg.regTdt .txTail], .submitEnd⟩ { s with txLock := true } =
      some (.hwError s.cfg.regTdt, s) :=
  quietRun_of_step (Task.step_regWrite_refused (s := { s with txLock := true }) ha) (quietRun_unlockAnswer hlock _)

/-! ### The whole command -/

theorem headD_of_head? {α : Type} {l : List α} {y d : α} (h : l.head? = some y) : l.headD d = y := by
  simp [List.headD_eq_head?_getD, h]

/-- What SUBMIT needs to come to its doorbell: the state, the lock, a length in range, a Done descriptor at the tail, and the
host's answers. -/
structure State.Takes (s : State) (len : Word) (a : DWord) : Prop where
  fsm : s.fsm = .running
  lock : s.txLock = false
  fits : len.toNat ≤ s.cfg.blockSize
  done : s.txDone s.txTail = true
  map : s.maps.head? = some (some a)
  pad : len.toNat < s.cfg.ethZlen → s.pads.head? = some true

/-- SUBMIT before its doorbell: the packet in the descriptor that was at the tail. -/
def State.submitted (s : State) (len : Word) (buf a : DWord) : State :=
  { s with
    mem := s.mem.store (s.txdAddr s.txTail .addr)
      (txdString a ((paddedLength s.cfg len).setWidth 16) s.cfg.txCommand 0)
    txSlots := setSlot s.txSlots s.txTail (.full ⟨a, paddedLength s.cfg len, .toDevice⟩ buf)
    txTail := nextIndex s.cfg.nTx s.txTail
    maps := s.maps.tail
    pads := if len.toNat < s.cfg.ethZlen then s.pads.tail else s.pads
    trace := s.trace ++ (padCalls s.cfg len buf ++ [.call (.dmaMap buf (paddedLength s.cfg len) .toDevice (some a))] ++
      reclaimCalls (slotAt s.txSlots s.txTail)) }

theorem State.filled_mapAnswered_padded (s : State) (len : Word) (buf a : DWord) :
    ((s.padded len buf).mapAnswered (paddedLength s.cfg len) buf (some a)).filled s.txTail
      ⟨a, paddedLength s.cfg len, .toDevice⟩ buf = s.submitted len buf a := by
  simp [State.submitted, State.filled, State.mapAnswered, State.padded, State.txdAddr]

/-- Up to the doorbell. -/
theorem quietRun_submit (h : s.Takes len a)
    (hr : quietRun n ⟨[.regWrite s.cfg.regTdt .txTail], .submitEnd⟩
      { s.submitted len buf a with txLock := true } = some x) :
    quietRun (n + 20) (submitTask len buf) s = some x := by
  obtain ⟨hfsm, hlock, hfits, hdone, hmap, hpad⟩ := h
  have hfilled := State.filled_mapAnswered_padded { s with txLock := true } len buf a
  have hmapped := Task.step_submitMap_some (s := { s with txLock := true }.padded len buf) (headD_of_head? hmap)
    (paddedLength s.cfg len) buf s.txTail
  exact quietRun_submitTask hfsm hfits hlock (quietRun_submitDone hdone (fun hlt => headD_of_head? (hpad hlt))
    (quietRun_of_step hmapped (quietRun_submitSlot (hfilled ▸ hr))))

variable (hwf : s.mem.wf = true)
include hwf

/-- The descriptor holds the image of the packet (R118). -/
theorem State.txdBytes_submitted (len : Word) (buf a : DWord) :
    (s.submitted len buf a).txdBytes s.txTail =
      leBytes 16 (txdImage s.cfg a ((paddedLength s.cfg len).setWidth 16)).toNat := by
  have hload := Memory.load_store (m := s.mem) (a := s.txdAddr s.txTail .addr) (i := 0) (n := 16)
    (bs := txdString a ((paddedLength s.cfg len).setWidth 16) s.cfg.txCommand 0) hwf (by simp) (by simp)
  rw [BitVec.add_zero, List.drop_zero, List.take_of_length_le (by simp)] at hload
  exact hload.trans (txdString_eq_image ..)

/-- No other byte of memory changes. -/
theorem State.readByte_submitted {y : DWord} (hy : ¬ within (s.txdAddr s.txTail .addr) 16 y) (len : Word) (buf a : DWord) :
    (s.submitted len buf a).mem.readByte y = s.mem.readByte y :=
  Memory.readByte_store_outside hwf _ _ _ (fun k hk e => hy ⟨k, by simpa using hk, e⟩)

end Sys2Proof.Machine

namespace Sys2Proof
open Sys2Proof.Machine

/-- Settles O37: the run to the doorbell, and the doorbell posted. -/
theorem submitAccepted : Obligations.SubmitAccepted := by
  rintro s len buf a _ hq hfsm hlock - hwf hfits hdone ha hmap hpad rfl
  have hdoor := quietRun_doorbell (s := s.takeCtx.submitted len buf a) hlock ha
  have hrun := quietRun_submit (s := s.takeCtx) ⟨hfsm, hlock, hfits, hdone, hmap, hpad⟩ hdoor
  have hexec := (runCommand_of_shortRun (turns := 0) hq hrun (by decide)).trans
    (((s.submitted len buf a).post [(s.cfg.regTdt, nextIndex s.cfg.nTx s.txTail)]).takeCtx_respond _)
  refine ⟨(s.submitted len buf a).mem, _, congrArg Host.Outcome.next hexec, ?_,
    State.txdBytes_submitted hwf len buf a, fun y hy => State.readByte_submitted hwf hy len buf a⟩
  simp [State.submitted, State.post, writeEvents, State.ends, padCalls, paddedLength, index]

/-- Settles O39: the same run, and the doorbell refused. -/
theorem submitDoorbellFails : Obligations.SubmitDoorbellFails := by
  rintro s len buf a _ hq hfsm hlock - hwf hfits hdone ha hmap hpad rfl
  have hdoor := quietRun_doorbell_refused (s := s.takeCtx.submitted len buf a) hlock ha
  have hrun := quietRun_submit (s := s.takeCtx) ⟨hfsm, hlock, hfits, hdone, hmap, hpad⟩ hdoor
  have hexec := (runCommand_of_shortRun (turns := 0) hq hrun (by decide)).trans
    ((s.submitted len buf a).takeCtx_respond _)
  refine ⟨(s.submitted len buf a).mem, _, congrArg Host.Outcome.next hexec, ?_,
    State.txdBytes_submitted hwf len buf a, fun y hy => State.readByte_submitted hwf hy len buf a⟩
  simp [State.submitted, State.ends, padCalls, paddedLength, index, Response.hwError]

/-- Settles O38: each refusal gives the lock back and answers; only the host's answers are used up. -/
theorem submitRefused : Obligations.SubmitRefused := by
  intro s len buf hq hfsm
  refine ⟨fun hlen => ?_, fun hlen hlock => ?_⟩
  · exact congrArg _ (runCommand_of_answer hq (Task.step_submitTask_long (s := s.takeCtx) hfsm hlen buf) 0)
  have hstart {n x} := quietRun_submitTask (n := n) (x := x) (s := s.takeCtx) (buf := buf) hfsm hlen hlock
  refine ⟨fun hdone => ?_, fun hdone hlt hpad => ?_, fun hdone hge hmap => ?_, fun hdone hlt hpad hmap => ?_⟩
  · have hfull := Task.step_submitDone_full (s := { s.takeCtx with txLock := true }) hdone len buf
    have hrun := hstart (quietRun_of_step hfull (quietRun_unlockAnswer (s := s.takeCtx) hlock _))
    exact congrArg _ ((runCommand_of_shortRun hq hrun (by decide)).trans (s.takeCtx_respond _))
  · have hshort := Task.step_submitDone_short (s := { s.takeCtx with txLock := true }) hdone hlt buf
    have hanswer := Task.step_submitPad (s := { s.takeCtx with txLock := true }) hpad len buf s.txTail
    have hend := quietRun_unlockAnswer (s := s.takeCtx.padAnswered len buf false) hlock (.refuse .busy)
    have hrun := hstart (quietRun_of_step hshort (quietRun_of_step hanswer hend))
    exact congrArg _ (runCommand_of_shortRun hq hrun (by decide))
  · have hlong := Task.step_submitDone_long (s := { s.takeCtx with txLock := true }) hdone hge buf
    have hanswer := Task.step_submitMap_none (s := { s.takeCtx with txLock := true }) hmap len buf s.txTail
    have hend := quietRun_unlockAnswer (s := s.takeCtx.mapAnswered len buf none) hlock (.refuse .busy)
    have hrun := hstart (quietRun_of_step hlong (quietRun_of_step hanswer hend))
    exact congrArg _ (runCommand_of_shortRun hq hrun (by decide))
  · have hanswer := Task.step_submitMap_none (s := { s.takeCtx with txLock := true }.padded len buf) hmap
      (paddedLength s.cfg len) buf s.txTail
    have hend := quietRun_unlockAnswer
      (s := (s.takeCtx.padded len buf).mapAnswered (paddedLength s.cfg len) buf none) hlock (.refuse .busy)
    have hrun := hstart (quietRun_submitDone hdone (fun _ => hpad) (quietRun_of_step hanswer hend))
    refine congrArg _ ((runCommand_of_shortRun hq hrun (by decide)).trans ?_)
    simp [State.mapAnswered, State.padded, padCalls, paddedLength, hlt, State.respond, State.emit, State.ends, Response.refuse,
      index]

end Sys2Proof
end

section
/-! PROOFS. IRQ and READ_STATS on their own (44_rx_poll_irq R220 to R223, R230), and what a register read looks at
(20_memory R80). -/

namespace Sys2Proof.Machine

variable {s s' b : State} {n : Nat} {off c v : Word}

/-! ### What a register read looks at -/

/-- A read answers the same in every state with the same posted writes and the same NIC, and leaves the rest of it. -/
theorem State.regRead32_of_same (hread : s.drain.nicRead off = (v, b)) (ha : s.admits off = true) (hcfg : s'.cfg = s.cfg)
    (hwbuf : s'.wbuf = s.wbuf) (hnic : s'.nic = s.nic) (hdrawn : s'.drawn = s.drawn) (hvalid : s'.mmioValid = s.mmioValid) :
    s'.regRead32 off =
      some (v, { s' with wbuf := [], nic := b.nic, drawn := b.drawn, trace := s'.trace ++ [.regRead off v] }) := by
  have ha' : s'.admits off = true := by rwa [State.admits, hcfg, hvalid]
  rw [State.drain_eq, State.nicRead_eq] at hread
  obtain ⟨rfl, rfl⟩ := Prod.mk.inj hread
  rw [State.regRead32_admitted ha', State.drain_eq, State.nicRead_eq, hwbuf, hnic, hdrawn, hcfg]
  rfl

theorem State.regRead32_takeCtx (hread : s.drain.nicRead off = (v, b)) (ha : s.admits off = true) :
    s.takeCtx.regRead32 off = some (v, b.takeCtx.emit (.regRead off v)) := by
  have hsame := State.regRead32_of_same (s' := s.takeCtx) hread ha rfl rfl rfl rfl rfl
  obtain ⟨nic, d, rfl⟩ := State.drain_nicRead_only hread
  exact hsame

/-! ### IRQ (R220) -/

theorem Task.step_irqTask (hfsm : s.fsm = .running) : irqTask.step s = .more (Task.goto .irqRead) s := by
  change stepIrqAdmit s = _
  simp [stepIrqAdmit, whenAdmitted, hfsm]

theorem Task.step_irqRead_refused (ha : s.admits s.cfg.regIcr = false) :
    (Task.goto .irqRead).step s = .more (Task.raise s.cfg.regIcr) s := by
  change stepIrqRead s = _
  exact readThen_refused ha _ _

theorem Task.step_irqRead (hread : s.regRead32 s.cfg.regIcr = some (c, s')) :
    (Task.goto .irqRead).step s =
      .more (if c = 0 then Task.answer (.refuse .notMine) else Task.goto .irqRequest) s' := by
  change stepIrqRead s = _
  simp only [stepIrqRead, readThen, hread]

/-- Cause 0: nothing is requested (R222). -/
theorem quietRun_irq_notMine (hfsm : s.fsm = .running) (hread : s.regRead32 s.cfg.regIcr = some (0, s')) :
    quietRun 3 irqTask s = some (.refuse .notMine, s') :=
  quietRun_of_step (Task.step_irqTask hfsm) (quietRun_of_step (Task.step_irqRead hread) rfl)

/-- Any other cause requests a poll (R220, R223). -/
theorem quietRun_irq_handled (hfsm : s.fsm = .running) (hread : s.regRead32 s.cfg.regIcr = some (c, s')) (hc : c ≠ 0) :
    quietRun 4 irqTask s = some (.ok 0, requestPoll s') := by
  have hstep := Task.step_irqRead hread
  rw [if_neg hc] at hstep
  exact quietRun_of_step (Task.step_irqTask hfsm) (quietRun_of_step hstep rfl)

/-- The read that is not admitted is IRQ's only access. -/
theorem quietRun_irq_refused (hfsm : s.fsm = .running) (ha : s.admits s.cfg.regIcr = false) :
    quietRun 3 irqTask s = some (.hwError s.cfg.regIcr, s) :=
  quietRun_of_step (Task.step_irqTask hfsm) (quietRun_of_step (Task.step_irqRead_refused ha) rfl)

/-! ### The atomic step that requests a poll (R223, 10_state R34) -/

theorem requestPoll_idle (hfsm : s.fsm = .running) (hpoll : s.pollState = .idle) :
    requestPoll s = { s with pollState := .scheduled }.call .pollSchedule := by simp [requestPoll, hfsm, hpoll]

theorem requestPoll_scheduled (hfsm : s.fsm = .running) (hpoll : s.pollState = .scheduled) : requestPoll s = s := by
  simp [requestPoll, hfsm, hpoll]

theorem requestPoll_active (hfsm : s.fsm = .running) (hpoll : s.pollState = .active) :
    requestPoll s = { s with pollMissed := true } := by simp [requestPoll, hfsm, hpoll]

/-- IRQ with a cause: the read, then the request. -/
theorem exec_irq_handled (hq : s.sched = []) (hfsm : s.fsm = .running) (ha : s.admits s.cfg.regIcr = true)
    (hread : s.drain.nicRead s.cfg.regIcr = (c, b)) (hc : c ≠ 0) :
    exec .irq s =
      .next ((requestPoll (b.takeCtx.emit (.regRead s.cfg.regIcr c))).respond b.nextCtx (.ok 0)) := by
  have hrun := quietRun_irq_handled (s := s.takeCtx) hfsm (State.regRead32_takeCtx hread ha) hc
  have hctx : b.nextCtx = s.nextCtx := by
    obtain ⟨nic, d, rfl⟩ := State.drain_nicRead_only hread
    rfl
  rw [hctx]
  exact congrArg _ (runCommand_of_shortRun hq hrun (by decide))

end Sys2Proof.Machine

namespace Sys2Proof
open Sys2Proof.Machine

/-- Settles O44: a read that answers 0, or is refused, is followed by the answer alone. -/
theorem irqRequestsNothing : Obligations.IrqRequestsNothing := by
  refine ⟨fun s base hq hfsm ha hread => ?_, fun s hq hfsm ha => ?_⟩
  · have hrun := quietRun_irq_notMine (s := s.takeCtx) hfsm (State.regRead32_takeCtx hread ha)
    have hexec := runCommand_of_shortRun (turns := 0) hq hrun (by decide)
    obtain ⟨nic, d, rfl⟩ := State.drain_nicRead_only hread
    refine ⟨congrArg _ (hexec.trans ?_), Piece.same_of_ports s [] nic s.mem s.allocs s.maps s.pads s.trace s.wire d⟩
    simp [State.ends, State.respond, State.emit, State.takeCtx, Response.refuse]
  · have hrun := quietRun_irq_refused (s := s.takeCtx) hfsm ha
    exact congrArg _ ((runCommand_of_shortRun hq hrun (by decide)).trans (s.takeCtx_respond _))

/-- Settles O45: the request finds the poll state the command began in. -/
theorem irqRequestsPoll : Obligations.IrqRequestsPoll := by
  intro s base c hq hfsm ha hread hc
  have hexec := exec_irq_handled hq hfsm ha hread hc
  have hvalue : s.drain.nic.resetting = false → s.cfg.mapOk = true →
      c = s.drain.nic.icr ∧ base = { s.drain with nic := { s.drain.nic with icr := 0 } } := by
    intro hr hmap
    have hreg : s.drain.cfg.regAt s.cfg.regIcr = some .icr := by
      rw [State.drain_cfg]
      exact Cfg.regAt_offset hmap (r := .icr) (by simp [NicReg.scalars])
    exact Prod.mk.inj (hread.symm.trans (State.nicRead_icr hr hreg))
  obtain ⟨hbase, hpolled⟩ : base.fsm = .running ∧ base.pollState = s.pollState := by
    obtain ⟨nic, d, rfl⟩ := State.drain_nicRead_only hread
    exact ⟨hfsm, rfl⟩
  rw [← hpolled, hexec]
  refine ⟨fun hpoll => ?_, fun hpoll => ?_, fun hpoll => ?_, hvalue⟩
  · rw [requestPoll_idle (s := base.takeCtx.emit _) hbase hpoll]
    simp [State.ends, State.respond, State.call, State.emit, State.takeCtx]
  · rw [requestPoll_scheduled (s := base.takeCtx.emit _) hbase hpoll]
    rfl
  · rw [requestPoll_active (s := base.takeCtx.emit _) hbase hpoll]
    rfl

/-- Settles O52: READ_STATS is one step that looks at no lifecycle state, and its answer. -/
theorem readStatsAnswers : Obligations.ReadStatsAnswers :=
  ⟨decode_encode .readStats, fun s hq =>
    congrArg _ (runCommand_of_answer hq (rfl : readStatsTask.step s.takeCtx = _) 0)⟩

end Sys2Proof
end

section
/-! PROOFS. POLL step by step (44_rx_poll_irq R225 to R229): up to its first descriptor, one frame handed over, a frame left in
place for want of a buffer, the body of RECYCLE as its step 5 (43_tx_path R215), and its end. -/

namespace Sys2Proof.Machine

variable {s s' b : State} {n k : Nat} {off v h t next budget work : Word} {len : Half} {m : Mapping} {buf buf2 a2 : DWord}
  {err got : Option Word} {x : Response × State}

/-! ### Primitives that cannot fail -/

/-- A primitive that cannot fail does the same whatever the schedule holds. -/
theorem Prim.apply_sched {q : Prim} (hq : q.mayFail = false) (hs : q.apply s = .ok s') (l : List (List Move)) :
    q.apply { s with sched := l } = .ok { s' with sched := l } := by
  cases q with
  | regWrite | regRead | ioWrite => exact absurd hq (by simp [Prim.mayFail])
  | delayReload =>
    obtain rfl := Except.ok.inj hs
    cases hr : s.nic.resetting <;>
      simp [Prim.apply, State.delayReload, State.reloadFree, State.reloadDone, State.emit, hr]
  | _ => obtain rfl := Except.ok.inj hs; rfl

theorem walk_of_prims {ps : List Prim} (hps : ∀ q ∈ ps, q.mayFail = false) (hs : primsOk s ps = some s') (qs : List Prim)
    (p : Point) : Walk ps.length ⟨ps ++ qs, p⟩ s ⟨qs, p⟩ s' := by
  induction ps generalizing s with
  | nil => obtain rfl := Option.some.inj hs; exact .refl
  | cons q ps ih =>
    simp only [primsOk] at hs
    split at hs
    · rename_i s1 hs1
      have hstep : StepsTo ⟨q :: (ps ++ qs), p⟩ s ⟨ps ++ qs, p⟩ s1 := by
        intro l
        simp only [Task.step, Prim.apply_sched (hps q (.head _)) hs1 l]
      exact .step hstep (ih (fun q' hq' => hps q' (.tail _ hq')) hs)
    · exact absurd hs (by simp)

/-! ### Up to the first descriptor (steps 1 and 2) -/

/-- More done at DRM's ports. -/
def State.did (s : State) (es : List Event) : State := { s with trace := s.trace ++ es }

/-- A POLL in flight that has done `es` at DRM's ports. -/
def State.polling (s : State) (es : List Event) : State :=
  { s with pollState := .active, nextCtx := s.nextCtx + 1, trace := s.trace ++ es }

theorem stepsTo_pollTask (hfsm : s.fsm = .running) (hpoll : s.pollState = .scheduled) (budget : Word) :
    StepsTo (pollTask budget) s.takeCtx (Task.goto (.pollTail budget)) (s.polling []) := by
  intro l
  change stepPollAdmit budget _ = _
  simp [stepPollAdmit, State.admitsPoll, State.polling, State.takeCtx, hfsm, hpoll]

/-- A read in the course of POLL, from a read at the NIC in a state with the same bus. -/
theorem State.regRead32_polling (hread : s.drain.nicRead off = (v, b)) (ha : s.admits off = true) (hcfg : s'.cfg = s.cfg)
    (hwbuf : s'.wbuf = s.wbuf) (hnic : s'.nic = s.nic) (hdrawn : s'.drawn = s.drawn) (hvalid : s'.mmioValid = s.mmioValid)
    (es : List Event) :
    (s'.polling es).regRead32 off =
      some (v, { s' with wbuf := [], nic := b.nic, drawn := b.drawn }.polling (es ++ [Event.regRead off v])) := by
  simpa [State.polling] using State.regRead32_of_same (s' := s'.polling es) hread ha hcfg hwbuf hnic hdrawn hvalid

theorem readThen_read (hread : s.regRead32 off = some (v, s')) (f : Task) (g : Word → Task) :
    readThen off f g s = .more (g v) s' := by
  simp only [readThen, hread]

/-- Steps 1 and 2, the tail read admitted. -/
theorem walk_poll (hfsm : s.fsm = .running) (hpoll : s.pollState = .scheduled) (ha : s.admits s.cfg.regRdt = true)
    (hread : s.drain.nicRead s.cfg.regRdt = (t, b)) (budget : Word) :
    Walk 2 (pollTask budget) s.takeCtx (Task.goto (.pollDone budget (nextIndex s.cfg.nRx t) 0))
      (b.polling [.regRead s.cfg.regRdt t]) := by
  refine .step (stepsTo_pollTask hfsm hpoll budget) (.step (fun l => ?_) .refl)
  have hpolled := State.regRead32_polling (s' := { s with sched := l }) hread ha rfl rfl rfl rfl rfl []
  obtain ⟨nic, d, rfl⟩ := State.drain_nicRead_only hread
  change stepPollTail budget _ = _
  exact readThen_read hpolled _ _

/-- Step 2, the tail read not admitted: the poll ends. -/
theorem Task.step_pollTail_refused (ha : s.admits s.cfg.regRdt = false) (budget : Word) :
    (Task.goto (.pollTail budget)).step s = .more (Task.goto (.pollEnd 0 (some s.cfg.regRdt))) s := by
  change stepPollTail budget s = _
  exact readThen_refused ha _ _

/-! ### The test of the loop (step 3) -/

theorem stepsTo_pollDone_stop (hstop : ¬ work.toNat < budget.toNat ∨ s.rxDone next = false) :
    StepsTo (Task.goto (.pollDone budget next work)) s (recycleBody (.poll work)) s := by
  intro l
  change (if (decide (work.toNat < budget.toNat) && s.rxDone next) = true then _ else _) = _
  rcases hstop with hbudget | hdone
  · simp [hbudget]
  · simp [hdone]

theorem stepsTo_pollDone_go (hbudget : work.toNat < budget.toNat) (hdone : s.rxDone next = true) :
    StepsTo (Task.goto (.pollDone budget next work)) s (Task.goto (.pollLength budget next work)) s := by
  intro l
  change (if (decide (work.toNat < budget.toNat) && s.rxDone next) = true then _ else _) = _
  simp [hbudget, hdone]

/-- A frame is there; its length is read (step 4a). -/
theorem walk_pollLength (hbudget : work.toNat < budget.toNat) (hdone : s.rxDone next = true) :
    Walk 2 (Task.goto (.pollDone budget next work)) s (Task.goto (.pollAlloc budget next work (s.rxLength next))) s :=
  .step (stepsTo_pollDone_go hbudget hdone)
    (.step (t1 := Task.goto (.pollAlloc budget next work (s.rxLength next))) (fun _ => rfl) .refl)

/-! ### The host's answers (step 4b) -/

/-- The host has answered a request for a receive buffer. -/
def State.allocAnswered (s : State) (answer : Option DWord) : State :=
  { s with allocs := s.allocs.tail, trace := s.trace ++ [.call (.allocRxBuffer s.cfg.rxBufSize answer)] }

theorem stepsTo_pollAlloc_none (hget : s.allocs.headD none = none) (budget next work : Word) (len : Half) :
    StepsTo (Task.goto (.pollAlloc budget next work len)) s ⟨[.countDropped], .recycleLock (.poll work)⟩
      (s.allocAnswered none) := by
  intro l
  change stepPollAlloc budget next work len _ = _
  simp only [stepPollAlloc, State.allocRxBuffer, hget]
  rfl

theorem stepsTo_pollAlloc_some (hget : s.allocs.headD none = some buf2) (budget next work : Word) (len : Half) :
    StepsTo (Task.goto (.pollAlloc budget next work len)) s (Task.goto (.pollMap budget next work len buf2))
      (s.allocAnswered (some buf2)) := by
  intro l
  change stepPollAlloc budget next work len _ = _
  simp only [stepPollAlloc, State.allocRxBuffer, hget]
  rfl

/-- The host has answered a request to map a receive buffer for the NIC to write. -/
def State.rxMapAnswered (s : State) (buf2 : DWord) (answer : Option DWord) : State :=
  { s with
    maps := s.maps.tail
    trace := s.trace ++ [.call (.dmaMap buf2 s.cfg.rxBufSize .fromDevice answer)] }

theorem stepsTo_pollMap_none (hget : s.maps.headD none = none) (budget next work : Word) (len : Half) (buf2 : DWord) :
    StepsTo (Task.goto (.pollMap budget next work len buf2)) s
      ⟨[.call (.freeBuffer buf2), .countDropped], .recycleLock (.poll work)⟩ (s.rxMapAnswered buf2 none) := by
  intro l
  change stepPollMap budget next work len buf2 _ = _
  simp only [stepPollMap, State.dmaMap, hget]
  rfl

theorem stepsTo_pollMap_some (hget : s.maps.headD none = some a2) (budget next work : Word) (len : Half) (buf2 : DWord) :
    StepsTo (Task.goto (.pollMap budget next work len buf2)) s
      (Task.goto (.pollTake budget next work len ⟨a2, s.cfg.rxBufSize, .fromDevice⟩ buf2))
      (s.rxMapAnswered buf2 (some a2)) := by
  intro l
  change stepPollMap budget next work len buf2 _ = _
  simp only [stepPollMap, State.dmaMap, hget]
  rfl

/-! ### A frame handed over (steps 4a to 4f, R228) -/

/-- The buffer `buf2`, mapped at `a2`, in RX descriptor and slot `next`. -/
def State.refilled (s : State) (next : Word) (buf2 a2 : DWord) : State :=
  { s with
    mem := ((s.writeRxd next .addr a2).writeRxd next .status 0).mem
    rxSlots := setSlot s.rxSlots next (.full ⟨a2, s.cfg.rxBufSize, .fromDevice⟩ buf2)
    allocs := s.allocs.tail
    maps := s.maps.tail }

theorem stepsTo_pollTake (hslot : slotAt s.rxSlots next = .full m buf) (budget work : Word) (len : Half) (m2 : Mapping)
    (buf2 : DWord) :
    StepsTo (Task.goto (.pollTake budget next work len m2 buf2)) s
      ⟨handOver next len (.full m buf) ++ [.rxd next .addr m2.addr, .rxd next .status 0, .setRxSlot next (.full m2 buf2)] ++
        [.regWrite s.cfg.regRdt (.lit next)], .pollNext budget next work⟩ s := by
  intro l
  rw [← hslot, List.append_assoc]
  rfl

theorem State.polling_refilled (s : State) (es es' : List Event) (next : Word) (buf2 a2 : DWord) :
    ((s.polling es).refilled next buf2 a2).did es' = (s.refilled next buf2 a2).polling (es ++ es') := by
  simp [State.polling, State.refilled, State.did, State.writeRxd, State.rxdAddr]

/-- From the test of the loop to the tail write. -/
theorem walk_pollFrame (hbudget : work.toNat < budget.toNat) (hdone : s.rxDone next = true)
    (hslot : slotAt s.rxSlots next = .full m buf) (halloc : s.allocs.headD none = some buf2)
    (hmap : s.maps.headD none = some a2) :
    Walk 11 (Task.goto (.pollDone budget next work)) s
      ⟨[.regWrite s.cfg.regRdt (.lit next)], .pollNext budget next work⟩
      ((s.refilled next buf2 a2).did (s.takeCalls next m buf buf2 a2)) := by
  let s1 := (s.allocAnswered (some buf2)).rxMapAnswered buf2 (some a2)
  have htake := stepsTo_pollTake (s := s1) hslot budget work (s.rxLength next) ⟨a2, s.cfg.rxBufSize, .fromDevice⟩ buf2
  have hprims := walk_of_prims (by simp [handOver, Prim.mayFail])
    (primsOk_rxRefilled s1 next (s.rxLength next) m ⟨a2, s.cfg.rxBufSize, .fromDevice⟩ buf buf2)
    [.regWrite s.cfg.regRdt (.lit next)] (.pollNext budget next work)
  have hend : s1.rxRefilled next ⟨a2, s.cfg.rxBufSize, .fromDevice⟩ buf2
      [.call (.dmaUnmap m), .call (.rxDeliver buf (s.rxLength next))] =
        (s.refilled next buf2 a2).did (s.takeCalls next m buf buf2 a2) := by
    simp [s1, State.rxRefilled, State.rxMapAnswered, State.allocAnswered, State.refilled, State.did, State.takeCalls,
      State.writeRxd, State.rxdAddr]
  rw [hend] at hprims
  exact (walk_pollLength hbudget hdone).trans <| .step (stepsTo_pollAlloc_some halloc _ _ _ _) <|
    .step (stepsTo_pollMap_some (s := s.allocAnswered (some buf2)) hmap _ _ _ _ _) <| .step htake hprims

/-- Step 4h. -/
theorem stepsTo_pollNext (s : State) (budget next work : Word) :
    StepsTo (Task.goto (.pollNext budget next work)) s
      (Task.goto (.pollDone budget (nextIndex s.cfg.nRx next) (work + 1))) s := fun _ => rfl

/-- One turn of the loop, the tail write admitted (steps 3 to 4h). -/
theorem walk_pollTurn (hbudget : work.toNat < budget.toNat) (hdone : s.rxDone next = true)
    (hslot : slotAt s.rxSlots next = .full m buf) (halloc : s.allocs.headD none = some buf2)
    (hmap : s.maps.headD none = some a2) (ha : s.admits s.cfg.regRdt = true) :
    Walk 13 (Task.goto (.pollDone budget next work)) s
      (Task.goto (.pollDone budget (nextIndex s.cfg.nRx next) (work + 1)))
      (((s.refilled next buf2 a2).did (s.takeCalls next m buf buf2 a2)).post [(s.cfg.regRdt, next)]) := by
  have hwrite := stepsTo_regWrite (s := (s.refilled next buf2 a2).did (s.takeCalls next m buf buf2 a2)) ha (.lit next) []
    (.pollNext budget next work)
  exact (walk_pollFrame hbudget hdone hslot halloc hmap).trans (.step hwrite (.step (stepsTo_pollNext _ _ _ _) .refl))

/-! ### What the refilled descriptor holds -/

theorem State.readRxd_refilled (s : State) (next : Word) (buf2 a2 : DWord) (i : Word) (f : RxField) :
    (s.refilled next buf2 a2).readRxd i f = ((s.writeRxd next .addr a2).writeRxd next .status 0).readRxd i f := rfl

theorem State.readRxd_refilled_addr (hc : s.cfg.descSize = 16) (hwf : s.mem.wf = true) (next : Word) (buf2 a2 : DWord) :
    (s.refilled next buf2 a2).readRxd next .addr = a2 := by
  rw [State.readRxd_refilled, State.readRxd_writeRxd_ne (s := s.writeRxd _ _ _) hc (State.writeRxd_wf hwf) (.inr (by simp)),
    State.readRxd_writeRxd hwf]
  exact ofNat_toNat_mod _ a2.isLt

theorem State.rxDone_refilled (hwf : s.mem.wf = true) (next : Word) (buf2 a2 : DWord) :
    (s.refilled next buf2 a2).rxDone next = false := by
  have hstatus : (s.refilled next buf2 a2).readRxd next .status = 0 :=
    State.readRxd_writeRxd (s := s.writeRxd next .addr a2) (State.writeRxd_wf hwf)
  simp [State.rxDone, State.rxStatus, hstatus, doneBit]

theorem State.rxDone_refilled_ne (hc : s.cfg.descSize = 16) (hwf : s.mem.wf = true) {i : Word} (hne : i ≠ next)
    (buf2 a2 : DWord) : (s.refilled next buf2 a2).rxDone i = s.rxDone i := by
  have hstatus : (s.refilled next buf2 a2).readRxd i .status = s.readRxd i .status := by
    rw [State.readRxd_refilled, State.readRxd_writeRxd_ne (s := s.writeRxd _ _ _) hc (State.writeRxd_wf hwf) (.inl hne),
      State.readRxd_writeRxd_ne hc hwf (.inl hne)]
  rw [State.rxDone, State.rxStatus, hstatus]
  rfl

/-- The other bytes of the descriptor, and all of memory beside it, stay (R228). -/
theorem State.readByte_refilled (hwf : s.mem.wf = true) {y : DWord} (haddr : ¬ within (s.rxdAddr next .addr) 8 y)
    (hstatus : y ≠ s.rxdAddr next .status) (buf2 a2 : DWord) :
    (s.refilled next buf2 a2).mem.readByte y = s.mem.readByte y := by
  have hfirst : (s.writeRxd next .addr a2).mem.readByte y = s.mem.readByte y :=
    Memory.readByte_write_outside hwf _ _ _ _ (fun k hk e => haddr ⟨k, hk, e⟩)
  refine (Memory.readByte_write_outside (State.writeRxd_wf hwf) _ _ _ _ fun k hk e => hstatus ?_).trans hfirst
  obtain rfl : k = 0 := by simpa [RxField.size] using hk
  exact e.trans (BitVec.add_zero _)

/-- In a ring of two or more the next descriptor is another one. -/
theorem nextIndex_ne {i : Word} (hn : 2 ≤ n) (hlt : n < 2 ^ 32) (hi : i.toNat < n) : nextIndex n i ≠ i := by
  intro e
  have he := congrArg BitVec.toNat e
  rw [nextIndex_toNat hlt (by omega)] at he
  rcases Nat.lt_or_ge (i.toNat + 1) n with hin | hout
  · rw [Nat.mod_eq_of_lt hin] at he
    omega
  · obtain hlast : i.toNat + 1 = n := by omega
    rw [hlast, Nat.mod_self] at he
    omega

/-! ### A frame left in place (R227) -/

/-- What POLL calls when the host has no replacement: no buffer, or the buffer `got` and no mapping for it. -/
def dropCalls (c : Cfg) : Option DWord → List Event
  | none => [.call (.allocRxBuffer c.rxBufSize none)]
  | some b => [.call (.allocRxBuffer c.rxBufSize (some b)), .call (.dmaMap b c.rxBufSize .fromDevice none),
      .call (.freeBuffer b)]

/-- The frame is counted as dropped, its descriptor and slot left. -/
def State.dropped (s : State) (got : Option DWord) : State :=
  { s with
    rxDropped := s.rxDropped + 1
    allocs := s.allocs.tail
    maps := if got = none then s.maps else s.maps.tail }

theorem walk_pollDropped {got : Option DWord} (hbudget : work.toNat < budget.toNat) (hdone : s.rxDone next = true)
    (halloc : s.allocs.headD none = got) (hmap : got ≠ none → s.maps.headD none = none) :
    ∃ j ≤ 6, Walk j (Task.goto (.pollDone budget next work)) s (recycleBody (.poll work))
      ((s.dropped got).did (dropCalls s.cfg got)) := by
  have hlength := walk_pollLength hbudget hdone
  cases got with
  | none =>
    have hprims := walk_of_prims (s := s.allocAnswered none) (ps := [.countDropped]) (by simp [Prim.mayFail]) rfl []
      (.recycleLock (.poll work))
    exact ⟨4, by decide, hlength.trans (.step (stepsTo_pollAlloc_none halloc _ _ _ _) hprims)⟩
  | some buf2 =>
    have hprims := walk_of_prims (s := (s.allocAnswered (some buf2)).rxMapAnswered buf2 none)
      (ps := [.call (.freeBuffer buf2), .countDropped]) (s' := (s.dropped (some buf2)).did (dropCalls s.cfg (some buf2)))
      (by simp [Prim.mayFail])
      (by simp [primsOk, Prim.apply, State.call, State.emit, State.dropped, State.did, dropCalls, State.rxMapAnswered,
        State.allocAnswered]) [] (.recycleLock (.poll work))
    exact ⟨6, le_rfl, hlength.trans (.step (stepsTo_pollAlloc_some halloc _ _ _ _)
      (.step (stepsTo_pollMap_none (s := s.allocAnswered (some buf2)) (hmap (by simp)) _ _ _ _ _) hprims))⟩

theorem State.polling_dropped (s : State) (es es' : List Event) (got : Option DWord) :
    ((s.polling es).dropped got).did es' = (s.dropped got).polling (es ++ es') := by
  simp [State.polling, State.dropped, State.did]

/-! ### The body of RECYCLE in POLL (step 5, 43_tx_path R215) -/

/-- The lock given back on the way to step 6. -/
theorem quietRun_pollUnlock (hlock : s.txLock = false) (hr : quietRun n (Task.goto (.pollEnd work err)) s = some x) :
    quietRun (n + 1) (recycleThen [] err (.poll work)) { s with txLock := true } = some x := by
  rw [← s.unlocked_eq hlock] at hr
  exact quietRun_of_step rfl hr

theorem quietRun_pollRecycle_refused (hlock : s.txLock = false) (ha : s.admits s.cfg.regTdh = false)
    (hr : quietRun n (Task.goto (.pollEnd work (some s.cfg.regTdh))) s = some x) :
    quietRun (n + 3) (recycleBody (.poll work)) s = some x := by
  have hhead := Task.step_recycleHead_refused (s := { s with txLock := true }) ha (.poll work)
  exact quietRun_of_step (Task.step_recycleLock hlock _) (quietRun_of_step hhead (quietRun_pollUnlock hlock hr))

/-- The lock is no part of what a register read answers. -/
theorem State.regRead32_locked (hread : s.regRead32 off = some (v, s')) (lock : Bool) :
    { s with txLock := lock }.regRead32 off = some (v, { s' with txLock := lock }) := by
  obtain ⟨ha, -, -⟩ := State.regRead32_cases hread
  obtain ⟨v', b, hb⟩ : ∃ v' b, s.drain.nicRead off = (v', b) := ⟨_, _, rfl⟩
  rw [State.regRead32_admitted ha, hb] at hread
  obtain ⟨rfl, rfl⟩ := Prod.mk.inj (Option.some.inj hread)
  have hsame := State.regRead32_of_same (s' := { s with txLock := lock }) hb ha rfl rfl rfl rfl rfl
  obtain ⟨nic, d, rfl⟩ := State.drain_nicRead_only hb
  exact hsame

theorem State.regRead32_txLock (hread : s.regRead32 off = some (v, s')) : s'.txLock = s.txLock := by
  obtain ⟨-, -, n, d, rfl⟩ := State.regRead32_cases hread
  rfl

section Head

variable (hread : s.regRead32 s.cfg.regTdh = some (h, s')) (hlock : s.txLock = false)
include hread hlock

/-- The head snapshot, read. -/
theorem quietRun_pollHead (hr : quietRun n (recycleAtHead s.cfg (.poll work) h) { s' with txLock := true } = some x) :
    quietRun (n + 2) (recycleBody (.poll work)) s = some x := by
  have hhead := Task.step_recycleHead (State.regRead32_locked hread true) (.poll work)
  exact quietRun_of_step (Task.step_recycleLock hlock _) (quietRun_of_step hhead hr)

/-- A head outside the ring: nothing is reclaimed (R213). -/
theorem quietRun_pollRecycle_badHead (hh : s.cfg.nTx ≤ h.toNat)
    (hr : quietRun n (Task.goto (.pollEnd work (some s.cfg.regTdh))) s' = some x) :
    quietRun (n + 3) (recycleBody (.poll work)) s = some x := by
  have hlock' : s'.txLock = false := (State.regRead32_txLock hread).trans hlock
  refine quietRun_pollHead hread hlock ?_
  rw [recycleAtHead, if_neg (Nat.not_lt.mpr hh)]
  exact quietRun_pollUnlock hlock' hr

/-- A head inside the ring: the loop begins at next-to-clean. -/
theorem quietRun_pollNtc (hh : h.toNat < s.cfg.nTx)
    (hr : quietRun n (Task.goto (.recycleDone (.poll work) h s'.txNtc)) { s' with txLock := true } = some x) :
    quietRun (n + 3) (recycleBody (.poll work)) s = some x := by
  refine quietRun_pollHead hread hlock ?_
  rw [recycleAtHead, if_pos hh]
  exact quietRun_of_step rfl hr

end Head

/-- `k` places reclaimed from next-to-clean on, which is past them (R210). -/
def State.recycled (s : State) (k : Nat) : State :=
  { s.reclaim (ringPlaces s.cfg.nTx s.txNtc.toNat k) with txNtc := ringIndex s.cfg.nTx s.txNtc k }

theorem State.recycled_zero (hi : s.txNtc.toNat < s.cfg.nTx) : s.recycled 0 = s := by
  rw [State.recycled, ringPlaces, List.range_zero, List.map_nil, State.reclaim_nil, ringIndex_zero hi]

/-- The end of the loop: next-to-clean is set and the lock given back. -/
theorem quietRun_pollSetNtc (hlock : s.txLock = false) {i : Word}
    (hr : quietRun n (Task.goto (.pollEnd work none)) { s with txNtc := i } = some x) :
    quietRun (n + 2) (recycleThen [.setTxNtc i] none (.poll work)) { s with txLock := true } = some x := by
  have hunlocked := State.unlocked_eq { s with txNtc := i } hlock
  rw [← hunlocked] at hr
  exact quietRun_of_step rfl (quietRun_of_step rfl hr)

/-- Step 5 with a head inside the ring, from next-to-clean to the first place where the loop stops. -/
theorem quietRun_pollRecycle (hread : s.regRead32 s.cfg.regTdh = some (h, s')) (hlock : s.txLock = false)
    (hh : h.toNat < s.cfg.nTx) (hn : s'.cfg.nTx < 2 ^ 32) (hi : s'.txNtc.toNat < s'.cfg.nTx) (hk : k < s'.cfg.nTx)
    (hgo : ∀ j, j < k → s'.txDone (ringIndex s'.cfg.nTx s'.txNtc j) = true ∧ ringIndex s'.cfg.nTx s'.txNtc j ≠ h)
    (hstop : s'.txDone (ringIndex s'.cfg.nTx s'.txNtc k) = false ∨ ringIndex s'.cfg.nTx s'.txNtc k = h)
    (hr : quietRun n (Task.goto (.pollEnd work none)) (s'.recycled k) = some x) :
    quietRun (n + 5 * k + 6) (recycleBody (.poll work)) s = some x := by
  have hlock' : s'.txLock = false := (State.regRead32_txLock hread).trans hlock
  have hset := quietRun_pollSetNtc (s := s'.reclaim (ringPlaces s'.cfg.nTx s'.txNtc.toNat k)) hlock' hr
  have hloop := quietRun_recycleLoop (s := { s' with txLock := true }) (c := .poll work) hn hi hk hgo hstop hset
  exact quietRun_mono (quietRun_pollNtc hread hlock hh hloop) (by omega)

/-- Step 5 with next-to-clean at the head: nothing to reclaim. -/
theorem quietRun_pollRecycle_none (hread : s.regRead32 s.cfg.regTdh = some (h, s')) (hlock : s.txLock = false)
    (hh : h.toNat < s.cfg.nTx) (hcfg : s'.cfg = s.cfg) (hsize : s.cfg.sizesOk = true) (hntc : s'.txNtc = h)
    (hr : quietRun n (Task.goto (.pollEnd work none)) s' = some x) :
    quietRun (n + 6) (recycleBody (.poll work)) s = some x := by
  have hi : s'.txNtc.toNat < s'.cfg.nTx := by rwa [hntc, hcfg]
  have hlt : s'.cfg.nTx < 2 ^ 32 := hcfg ▸ SlotTable.size_lt hsize .tx
  rw [← State.recycled_zero hi] at hr
  exact quietRun_pollRecycle (k := 0) hread hlock hh hlt hi (by omega) (by simp)
    (.inr ((ringIndex_zero hi).trans hntc)) hr

/-! ### The end of the poll (step 6, R229) -/

/-- The poll has ended, and the host has been told; a missed interrupt has scheduled the next. -/
def State.pollEnded (s : State) (work : Word) : State :=
  { s with
    pollState := if s.pollMissed then .scheduled else .idle
    pollMissed := false
    trace := s.trace ++ [Event.call (.pollComplete work)] ++ if s.pollMissed then [Event.call .pollSchedule] else [] }

theorem quietRun_pollEnd (s : State) (work : Word) (err : Option Word) :
    quietRun 4 (Task.goto (.pollEnd work err)) s = some (pollAnswer work err, s.pollEnded work) := by
  cases hmissed : s.pollMissed with
  | true =>
    have hstep : (Task.goto (.pollEnd work err)).step s =
        .more ⟨[.call (.pollComplete work), .call .pollSchedule], .respond (pollAnswer work err)⟩
          { s with pollMissed := false, pollState := .scheduled } := if_pos hmissed
    have hend : s.pollEnded work = ({ s with pollMissed := false, pollState := .scheduled }.call (.pollComplete work)).call
        .pollSchedule := by simp [State.pollEnded, hmissed, State.call, State.emit]
    rw [hend]
    exact quietRun_of_step hstep rfl
  | false =>
    have hstep : (Task.goto (.pollEnd work err)).step s =
        .more ⟨[.call (.pollComplete work)], .respond (pollAnswer work err)⟩ { s with pollState := .idle } :=
      if_neg (by simp [hmissed])
    have hend : s.pollEnded work = { s with pollState := .idle }.call (.pollComplete work) := by
      simp [State.pollEnded, hmissed, State.call, State.emit]
    rw [hend]
    exact quietRun_mono (quietRun_of_step (n := 2) hstep rfl) (by decide)

/-- The answer of a POLL that has done `es`. -/
theorem State.pollEnded_respond (s : State) (es : List Event) (work : Word) (r : Response) :
    ((s.polling es).pollEnded work).respond s.nextCtx r = s.pollEnds es work r := by
  cases hmissed : s.pollMissed <;>
    simp [State.pollEnded, State.polling, State.pollEnds, State.ends, State.respond, State.emit, hmissed]

/-- A POLL that found no interrupt missed. -/
theorem State.pollEnds_of_not_missed (hmissed : s.pollMissed = false) (es : List Event) (work : Word) (r : Response) :
    s.pollEnds es work r = { s with pollState := .idle }.ends (es ++ [Event.call (.pollComplete work)]) r := by
  simp [State.pollEnds, State.ends, hmissed]

/-- A POLL that no other agent disturbs, from its run. -/
theorem exec_poll_of_quietRun {es : List Event} {r : Response} (hq : s.sched = [])
    (hr : quietRun n (pollTask budget) s.takeCtx = some (r, (b.polling es).pollEnded work)) (hctx : b.nextCtx = s.nextCtx)
    (hn : n ≤ s.fuel budget.toNat) : exec (.poll budget) s = .next (b.pollEnds es work r) := by
  have hrun := runCommand_of_quietRun hq hr hn
  rw [← hctx] at hrun
  exact congrArg Host.Outcome.next (hrun.trans (b.pollEnded_respond es work r))

/-- The same for a POLL that the region's unmapping finds after `k` primitives. -/
theorem exec_poll_unmapped {s1 : State} {es : List Event} {r : Response} {t1 : Task}
    (hs : s.sched = List.replicate k [] ++ [[.setMmioValid false]]) (hw : Walk k (pollTask budget) s.takeCtx t1 s1)
    (hr : quietRun n t1 { s1 with sched := [], mmioValid := false } = some (r, (b.polling es).pollEnded work))
    (hctx : b.nextCtx = s.nextCtx) (hn : k + n ≤ s.fuel budget.toNat) :
    exec (.poll budget) s = .next (b.pollEnds es work r) := by
  have hrun := runCommand_unmapped hs hw hr hn
  rw [← hctx] at hrun
  exact congrArg Host.Outcome.next (hrun.trans (b.pollEnded_respond es work r))

end Sys2Proof.Machine
end

section
/-! PROOFS. POLL on its own (44_rx_poll_irq R225 to R229; 43_tx_path R213): with no frame, with one, with one it must leave in
place, and where it fails. -/

namespace Sys2Proof.Machine

variable {s b : State} {n : Nat} {budget t : Word} {m : Mapping} {buf buf2 a2 : DWord}

/-! ### A poll with no frame -/

/-- Budget 0, or no frame at the first descriptor: up to the body of RECYCLE. -/
theorem walk_poll_noFrame (hfsm : s.fsm = .running) (hpoll : s.pollState = .scheduled) (ha : s.admits s.cfg.regRdt = true)
    (hread : s.drain.nicRead s.cfg.regRdt = (t, b)) (hnone : budget = 0 ∨ s.rxDone (nextIndex s.cfg.nRx t) = false) :
    Walk 3 (pollTask budget) s.takeCtx (recycleBody (.poll 0)) (b.polling [.regRead s.cfg.regRdt t]) := by
  have hstart := walk_poll hfsm hpoll ha hread budget
  obtain ⟨nic, d, rfl⟩ := State.drain_nicRead_only hread
  exact hstart.trans (.step (stepsTo_pollDone_stop (hnone.imp_left (by rintro rfl; simp))) .refl)

/-- What POLL reclaims it calls the host for, in ring order. -/
theorem State.polling_recycled (s : State) (es : List Event) (k : Nat) :
    (s.polling es).recycled k =
      { s with
        txNtc := ringIndex s.cfg.nTx s.txNtc k
        txSlots := emptySlots s.txSlots ((List.range k).map (fun j => (s.txNtc.toNat + j) % s.cfg.nTx)) }.polling
          (es ++ (List.range k).flatMap (fun j => reclaimCalls (slotAt s.txSlots (ringIndex s.cfg.nTx s.txNtc j)))) := by
  simp [State.polling, State.recycled, State.reclaim, ringPlaces, ringIndex, List.flatMap_map]

/-- A poll whose tail read is refused ends at once. -/
theorem quietRun_poll_refused (hfsm : s.fsm = .running) (hpoll : s.pollState = .scheduled)
    (ha : s.admits s.cfg.regRdt = false) (budget : Word) :
    quietRun 6 (pollTask budget) s.takeCtx = some (.hwError s.cfg.regRdt, (s.polling []).pollEnded 0) :=
  quietRun_of_step (stepsTo_pollTask hfsm hpoll budget s.sched)
    (quietRun_of_step (Task.step_pollTail_refused (s := s.polling []) ha budget) (quietRun_pollEnd _ 0 _))

/-! ### A poll with one frame -/

theorem Word.toNat_pos {v : Word} (hv : v ≠ 0) : 0 < v.toNat :=
  Nat.pos_of_ne_zero fun e => hv (BitVec.eq_of_toNat_eq e)

/-- A poll is scheduled, its tail register reads `t`, a frame waits in the descriptor after it, and the budget is not 0. -/
structure State.Receives (s b : State) (budget t : Word) : Prop where
  fsm : s.fsm = .running
  poll : s.pollState = .scheduled
  tail : s.admits s.cfg.regRdt = true
  read : s.drain.nicRead s.cfg.regRdt = (t, b)
  budget : budget ≠ 0
  done : s.rxDone (nextIndex s.cfg.nRx t) = true

/-- The host has no replacement: up to the body of RECYCLE. -/
theorem walk_poll_dropped {got : Option DWord} (h : s.Receives b budget t) (halloc : s.allocs.headD none = got)
    (hmap : got ≠ none → s.maps.headD none = none) :
    ∃ j ≤ 6, Walk (2 + j) (pollTask budget) s.takeCtx (recycleBody (.poll 0))
      ((b.dropped got).polling (.regRead s.cfg.regRdt t :: dropCalls s.cfg got)) := by
  obtain ⟨hfsm, hpoll, ha, hread, hbudget, hdone⟩ := h
  have hstart := walk_poll hfsm hpoll ha hread budget
  obtain ⟨nic, d, rfl⟩ := State.drain_nicRead_only hread
  obtain ⟨j, hj, hdrop⟩ := walk_pollDropped (work := 0)
    (s := State.polling { s with wbuf := [], nic := nic, drawn := d } [.regRead s.cfg.regRdt t])
    (Word.toNat_pos hbudget) hdone halloc hmap
  have hall := hstart.trans hdrop
  rw [State.polling_dropped] at hall
  exact ⟨j, hj, hall⟩

/-- What POLL does at DRM's ports until the first frame is handed over. -/
def State.frameEvents (s : State) (t : Word) (m : Mapping) (buf buf2 a2 : DWord) : List Event :=
  .regRead s.cfg.regRdt t :: s.takeCalls (nextIndex s.cfg.nRx t) m buf buf2 a2

/-- Up to the tail write. -/
theorem walk_poll_frame (h : s.Receives b budget t) (hslot : slotAt s.rxSlots (nextIndex s.cfg.nRx t) = .full m buf)
    (halloc : s.allocs.headD none = some buf2) (hmap : s.maps.headD none = some a2) :
    Walk 13 (pollTask budget) s.takeCtx
      ⟨[.regWrite s.cfg.regRdt (.lit (nextIndex s.cfg.nRx t))], .pollNext budget (nextIndex s.cfg.nRx t) 0⟩
      ((b.refilled (nextIndex s.cfg.nRx t) buf2 a2).polling (s.frameEvents t m buf buf2 a2)) := by
  obtain ⟨hfsm, hpoll, ha, hread, hbudget, hdone⟩ := h
  have hstart := walk_poll hfsm hpoll ha hread budget
  obtain ⟨nic, d, rfl⟩ := State.drain_nicRead_only hread
  have hframe := walk_pollFrame (work := 0) (s := State.polling { s with wbuf := [], nic := nic, drawn := d }
    [.regRead s.cfg.regRdt t]) (Word.toNat_pos hbudget) hdone hslot halloc hmap
  have hall := hstart.trans hframe
  rw [State.polling_refilled] at hall
  exact hall

theorem State.polling_post (s : State) (es : List Event) (ws : List (Word × Word)) :
    (s.polling es).post ws = { s with wbuf := s.wbuf ++ ws }.polling (es ++ writeEvents ws) := by
  simp [State.polling, State.post]

/-- In a ring of the configuration no descriptor follows itself. -/
theorem nextIndex_nextIndex_ne (hsize : s.cfg.sizesOk = true) (t : Word) :
    nextIndex s.cfg.nRx (nextIndex s.cfg.nRx t) ≠ nextIndex s.cfg.nRx t := by
  have hlt : s.cfg.nRx < 2 ^ 32 := SlotTable.size_lt hsize .rx
  have htwo : 2 ≤ s.cfg.nRx := by
    simp only [Cfg.sizesOk, Bool.and_eq_true, decide_eq_true_eq] at hsize
    omega
  exact nextIndex_ne htwo hlt (nextIndex_lt (by omega) t)

/-- One frame handed over, the tail written, and no frame more: up to the body of RECYCLE. -/
theorem walk_poll_oneFrame (h : s.Receives b budget t) (hsize : s.cfg.sizesOk = true) (hwf : s.mem.wf = true)
    (hslot : slotAt s.rxSlots (nextIndex s.cfg.nRx t) = .full m buf) (halloc : s.allocs.headD none = some buf2)
    (hmap : s.maps.headD none = some a2)
    (hstop : budget = 1 ∨ s.rxDone (nextIndex s.cfg.nRx (nextIndex s.cfg.nRx t)) = false) :
    Walk 16 (pollTask budget) s.takeCtx (recycleBody (.poll 1))
      ({ b.refilled (nextIndex s.cfg.nRx t) buf2 a2 with wbuf := [(s.cfg.regRdt, nextIndex s.cfg.nRx t)] }.polling
        (s.frameEvents t m buf buf2 a2 ++ [Event.regWrite s.cfg.regRdt (nextIndex s.cfg.nRx t)])) := by
  have hframe := walk_poll_frame h hslot halloc hmap
  obtain ⟨-, -, ha, hread, -, -⟩ := h
  obtain ⟨nic, d, rfl⟩ := State.drain_nicRead_only hread
  have hnext : State.rxDone (State.refilled { s with wbuf := [], nic := nic, drawn := d } (nextIndex s.cfg.nRx t) buf2 a2)
      (nextIndex s.cfg.nRx (nextIndex s.cfg.nRx t)) = s.rxDone (nextIndex s.cfg.nRx (nextIndex s.cfg.nRx t)) :=
    State.rxDone_refilled_ne (Cfg.descSize_eq hsize) hwf (nextIndex_nextIndex_ne hsize t) buf2 a2
  have hwrite := stepsTo_regWrite (s := State.polling (State.refilled { s with wbuf := [], nic := nic, drawn := d }
    (nextIndex s.cfg.nRx t) buf2 a2) (s.frameEvents t m buf buf2 a2)) ha
    (.lit (nextIndex s.cfg.nRx t)) [] (.pollNext budget (nextIndex s.cfg.nRx t) 0)
  rw [State.polling_post] at hwrite
  have hspent : budget = 1 → ¬ (0 + 1 : Word).toNat < budget.toNat := by rintro rfl; decide
  rw [← hnext] at hstop
  exact hframe.trans (.step hwrite (.step (stepsTo_pollNext _ _ _ _) (.step (stepsTo_pollDone_stop (hstop.imp_left hspent)) .refl)))

/-! ### The region goes away in the course of the poll -/

theorem stepsTo_pollLock (hlock : s.txLock = false) (work : Word) :
    StepsTo (recycleBody (.poll work)) s (Task.goto (.recycleHead (.poll work))) { s with txLock := true } :=
  fun l => Task.step_recycleLock (s := { s with sched := l }) hlock _

/-- The head read finds the region unmapped. -/
theorem quietRun_pollHead_unmapped (hlock : s.txLock = false) (work : Word) :
    quietRun 6 (Task.goto (.recycleHead (.poll work))) { s with txLock := true, sched := [], mmioValid := false } =
      some (.hwError s.cfg.regTdh, { s with sched := [], mmioValid := false }.pollEnded work) :=
  quietRun_of_step (Task.step_recycleHead_refused (State.admits_unmapped rfl _) (.poll work))
    (quietRun_pollUnlock (s := { s with sched := [], mmioValid := false }) hlock (quietRun_pollEnd _ work _))

/-- The tail write finds the region unmapped: the frame is not counted. -/
theorem quietRun_pollWrite_unmapped (hvalid : s.mmioValid = false) (budget next work off : Word) :
    quietRun 5 ⟨[.regWrite off (.lit next)], .pollNext budget next work⟩ s = some (.hwError off, s.pollEnded work) :=
  quietRun_of_step (Task.step_regWrite_refused (State.admits_unmapped hvalid off)) (quietRun_pollEnd s work _)

end Sys2Proof.Machine

namespace Sys2Proof
open Sys2Proof.Machine

/-- Settles O46: RECYCLE's loop, from the state in which the tail register has been read. -/
theorem pollNoFrame : Obligations.PollNoFrame := by
  intro s b1 b2 budget t h hq hfsm hpoll hlock hsize hntc hrdt htdh htail hnone hhead hh
  have hlt : s.cfg.nTx < 2 ^ 32 := SlotTable.size_lt hsize .tx
  obtain ⟨n, hn, hgo, hstop⟩ := exists_first_stop hntc hh s.txDone
  have hwalk := walk_poll_noFrame hfsm hpoll hrdt htail hnone
  have hread := State.regRead32_polling (s' := b1) hhead
  obtain ⟨nic1, d1, rfl⟩ := State.drain_nicRead_only htail
  obtain ⟨nic2, d2, rfl⟩ := State.drain_nicRead_only hhead
  have hrecycle := quietRun_pollRecycle (hread htdh rfl rfl rfl rfl rfl [.regRead s.cfg.regRdt t]) hlock hh hlt hntc hn hgo hstop
    (quietRun_pollEnd _ 0 none)
  rw [State.polling_recycled] at hrecycle
  have hfuel : 4 + 5 * n + 6 + 3 ≤ s.fuel budget.toNat := by unfold State.fuel; omega
  exact ⟨n, hn, hgo, hstop, exec_poll_of_quietRun hq (hwalk.quietRun s.sched hrecycle) rfl hfuel, rfl⟩

/-- Settles O48: the host's refusals, and RECYCLE with nothing to reclaim. -/
theorem pollNoReplacement : Obligations.PollNoReplacement := by
  rintro s b1 b2 budget t _ h got hq hfsm hpoll hmissed hlock hsize hrdt htdh htail rfl hbudget hdone halloc hmap hhead hh hntc
  obtain ⟨j, hj, hwalk⟩ := walk_poll_dropped ⟨hfsm, hpoll, hrdt, htail, hbudget, hdone⟩ halloc hmap
  have hread := State.regRead32_polling (s' := b1.dropped got) hhead
  obtain ⟨nic1, d1, rfl⟩ := State.drain_nicRead_only htail
  obtain ⟨nic2, d2, rfl⟩ := State.drain_nicRead_only hhead
  have hrecycle := quietRun_pollRecycle_none (hread htdh rfl rfl rfl rfl rfl (.regRead s.cfg.regRdt t :: dropCalls s.cfg got))
    hlock hh rfl hsize hntc (quietRun_pollEnd _ 0 none)
  have hfuel : 4 + 6 + (2 + j) ≤ s.fuel budget.toNat := by unfold State.fuel; omega
  have hexec := exec_poll_of_quietRun hq (hwalk.quietRun s.sched hrecycle) rfl hfuel
  refine ⟨hexec.trans (congrArg _ ((State.pollEnds_of_not_missed ?_ _ _ _).trans ?_)), rfl, rfl⟩
  · exact hmissed
  · cases got <;> rfl

/-- Settles O47: one turn of the loop, and RECYCLE with nothing to reclaim. -/
theorem pollOneFrame : Obligations.PollOneFrame := by
  rintro s b1 b2 budget t _ h m buf buf2 a2 hq hfsm hpoll hmissed hlock hsize hwf - hrdt htdh htail rfl hbudget hdone hstop
    hslot halloc hmap hhead hh hntc
  have hwalk := walk_poll_oneFrame ⟨hfsm, hpoll, hrdt, htail, hbudget, hdone⟩ hsize hwf hslot (headD_of_head? halloc)
    (headD_of_head? hmap) hstop
  have hread := State.regRead32_polling
    (s' := { b1.refilled (nextIndex s.cfg.nRx t) buf2 a2 with wbuf := [(s.cfg.regRdt, nextIndex s.cfg.nRx t)] }) hhead
  obtain ⟨nic1, d1, rfl⟩ := State.drain_nicRead_only htail
  obtain ⟨nic2, d2, rfl⟩ := State.drain_nicRead_only hhead
  have hrecycle := quietRun_pollRecycle_none (hread htdh rfl rfl rfl rfl rfl
    (s.frameEvents t m buf buf2 a2 ++ [.regWrite s.cfg.regRdt (nextIndex s.cfg.nRx t)])) hlock hh rfl hsize hntc
    (quietRun_pollEnd _ 1 none)
  have hexec := exec_poll_of_quietRun hq (hwalk.quietRun s.sched hrecycle) rfl (le_trans (by decide) (s.fuel_ge _))
  refine ⟨(s.refilled (nextIndex s.cfg.nRx t) buf2 a2).mem, _, hexec, (State.pollEnds_of_not_missed ?_ _ _ _).trans ?_, ?_, ?_, ?_⟩
  · exact hmissed
  · rfl
  · exact State.readRxd_refilled_addr (Cfg.descSize_eq hsize) hwf _ buf2 a2
  · exact State.rxDone_refilled hwf _ buf2 a2
  · exact fun y haddr hstatus => State.readByte_refilled hwf haddr hstatus buf2 a2

/-- Settles O49: each failing access leads to the end of the poll. -/
theorem pollFails : Obligations.PollFails := by
  refine ⟨?_, ?_, ?_, ?_⟩
  · intro s budget hq hfsm hpoll ha
    have hrun := quietRun_poll_refused hfsm hpoll ha budget
    exact exec_poll_of_quietRun hq hrun rfl (le_trans (by decide) (s.fuel_ge _))
  · intro s b1 budget t hs hfsm hpoll hlock hrdt htail hnone
    have hwalk := walk_poll_noFrame hfsm hpoll hrdt htail hnone
    obtain ⟨nic1, d1, rfl⟩ := State.drain_nicRead_only htail
    have hfree : (State.polling { s with wbuf := [], nic := nic1, drawn := d1 } [.regRead s.cfg.regRdt t]).txLock = false :=
      hlock
    have hlocked := hwalk.trans (.step (stepsTo_pollLock hfree 0) .refl)
    exact exec_poll_unmapped (b := { s with wbuf := [], nic := nic1, drawn := d1, sched := [], mmioValid := false }) hs hlocked
      (quietRun_pollHead_unmapped hfree 0) rfl (le_trans (by decide) (s.fuel_ge _))
  · intro s b1 b2 budget t h hq hfsm hpoll hlock hrdt htdh htail hnone hhead hh
    have hwalk := walk_poll_noFrame hfsm hpoll hrdt htail hnone
    have hread := State.regRead32_polling (s' := b1) hhead
    obtain ⟨nic1, d1, rfl⟩ := State.drain_nicRead_only htail
    obtain ⟨nic2, d2, rfl⟩ := State.drain_nicRead_only hhead
    have hrecycle := quietRun_pollRecycle_badHead (hread htdh rfl rfl rfl rfl rfl [.regRead s.cfg.regRdt t]) hlock hh
      (quietRun_pollEnd _ 0 _)
    exact exec_poll_of_quietRun hq (hwalk.quietRun s.sched hrecycle) rfl (le_trans (by decide) (s.fuel_ge _))
  · rintro s b1 budget t _ m buf buf2 a2 hfsm hpoll hlock hsize hwf - hrdt htail rfl hbudget hdone hslot halloc hmap
    have hreceives : s.Receives b1 budget t := ⟨hfsm, hpoll, hrdt, htail, hbudget, hdone⟩
    have halloc' := headD_of_head? (d := none) halloc
    have hmap' := headD_of_head? (d := none) hmap
    have hwalk := walk_poll_frame hreceives hslot halloc' hmap'
    have hone := walk_poll_oneFrame hreceives hsize hwf hslot halloc' hmap'
    obtain ⟨nic1, d1, rfl⟩ := State.drain_nicRead_only htail
    refine ⟨(s.refilled (nextIndex s.cfg.nRx t) buf2 a2).mem,
      State.refilled { s with wbuf := [], nic := nic1, drawn := d1 } (nextIndex s.cfg.nRx t) buf2 a2, rfl,
      State.readRxd_refilled_addr (Cfg.descSize_eq hsize) hwf _ buf2 a2, State.rxDone_refilled hwf _ buf2 a2,
      fun y haddr hstatus => State.readByte_refilled hwf haddr hstatus buf2 a2, fun hs => ?_, fun b2 h hq htdh hstop hhead hh => ?_⟩
    · exact exec_poll_unmapped (b := { State.refilled { s with wbuf := [], nic := nic1, drawn := d1 } (nextIndex s.cfg.nRx t)
        buf2 a2 with sched := [], mmioValid := false }) hs hwalk (quietRun_pollWrite_unmapped rfl _ _ 0 _) rfl
        (le_trans (by decide) (s.fuel_ge _))
    · have hread := State.regRead32_polling hhead htdh rfl rfl rfl rfl rfl
        (s.frameEvents t m buf buf2 a2 ++ [.regWrite s.cfg.regRdt (nextIndex s.cfg.nRx t)])
      obtain ⟨nic2, d2, rfl⟩ := State.drain_nicRead_only hhead
      have hrecycle := quietRun_pollRecycle_badHead hread hlock hh (quietRun_pollEnd _ 1 _)
      exact exec_poll_of_quietRun hq ((hone hstop).quietRun s.sched hrecycle) rfl (le_trans (by decide) (s.fuel_ge _))

end Sys2Proof
end

section
/-! PROOFS. POLL counts what it hands over (44_rx_poll_irq R225, R226): however many frames it hands over and wherever it
stops, it tells the host their number, which the budget bounds. -/

namespace Sys2Proof.Machine

variable {s s' u : State} {n k : Nat} {h idx next budget work : Word} {c : Caller} {cfg : Cfg} {err : Option Word}
  {x : Response × State}

/-! ### What is done at DRM's ports -/

/-- From `s` to `s'` no frame is handed over. -/
def Silent (s s' : State) : Prop := ∃ es, s'.trace = s.trace ++ es ∧ es.filter Event.delivers = []

theorem Silent.trans (h1 : Silent s s') (h2 : Silent s' u) : Silent s u := by
  obtain ⟨es, he, hes⟩ := h1
  obtain ⟨es', he', hes'⟩ := h2
  exact ⟨es ++ es', by rw [he', he, List.append_assoc], by rw [List.filter_append, hes, hes']; rfl⟩

/-- Reclaiming TX slots hands over no received frame. -/
theorem State.reclaim_silent (s : State) (is : List Nat) : Silent s (s.reclaim is) := by
  have hcalls (v : Slot) : (reclaimCalls v).filter Event.delivers = [] := by cases v <;> rfl
  exact ⟨_, rfl, by simp [List.filter_flatMap, hcalls]⟩

/-- A POLL that has handed over `work` frames goes on from `s` to the end `x`: it hands over the rest of its count, tells the
host the count, and answers it unless an access fails. -/
def PollCounted (budget work : Word) (s : State) (x : Response × State) : Prop :=
  ∃ (es : List Event) (total : Word), x.2.trace = s.trace ++ es ∧
    (es.filter Event.delivers).length + work.toNat = total.toNat ∧ total.toNat ≤ budget.toNat ∧
    Event.call (.pollComplete total) ∈ es ∧ (x.1 = .ok (total.setWidth 64) ∨ x.1.status = .hwAccessError)

/-- Frames handed over before are part of the count. -/
theorem PollCounted.after {work' : Word} {es : List Event} (hx : PollCounted budget work' s' x)
    (htrace : s'.trace = s.trace ++ es) (hcount : (es.filter Event.delivers).length + work.toNat = work'.toNat) :
    PollCounted budget work s x := by
  obtain ⟨es', total, htrace', hcount', hbudget, hmem, hanswer⟩ := hx
  refine ⟨es ++ es', total, by rw [htrace', htrace, List.append_assoc], ?_, hbudget, List.mem_append_right _ hmem, hanswer⟩
  rw [List.filter_append, List.length_append]
  omega

theorem PollCounted.after_silent (hx : PollCounted budget work s' x) (hs : Silent s s') : PollCounted budget work s x := by
  obtain ⟨es, htrace, hes⟩ := hs
  exact hx.after htrace (by rw [hes, List.length_nil, Nat.zero_add])

/-! ### The end of the poll (step 6) -/

theorem pollEnded_counted (hwork : work.toNat ≤ budget.toNat) (err : Option Word) (s : State) :
    PollCounted budget work s (pollAnswer work err, s.pollEnded work) := by
  refine ⟨_, work, List.append_assoc .., ?_, hwork, by simp, ?_⟩
  · cases s.pollMissed <;> simp [Event.delivers]
  · cases err with
    | none => exact .inl rfl
    | some off => exact .inr rfl

/-! ### The body of RECYCLE in POLL (step 5) -/

/-- RECYCLE's loop ends, wherever it begins: after one turn it is inside the ring. -/
theorem recycleLoop_ends (hn : s.cfg.nTx < 2 ^ 32) (hh : h.toNat < s.cfg.nTx) (c : Caller) (idx : Word) :
    ∃ u i, Silent s u ∧ ∀ n x, quietRun n (recycleThen [.setTxNtc i] none c) u = some x →
      quietRun (n + 5 * s.cfg.nTx + 6) (Task.goto (.recycleDone c h idx)) s = some x := by
  by_cases hgo : s.txDone idx = true ∧ idx ≠ h
  · have hi := nextIndex_lt (Nat.zero_lt_of_lt hh) idx
    obtain ⟨k, hk, hturns, hstop⟩ := exists_first_stop hi hh s.txDone
    refine ⟨(s.reclaim [idx.toNat]).reclaim (ringPlaces s.cfg.nTx (nextIndex s.cfg.nTx idx).toNat k),
      ringIndex s.cfg.nTx (nextIndex s.cfg.nTx idx) k, (s.reclaim_silent _).trans (State.reclaim_silent _ _), fun n x hr => ?_⟩
    have hloop := quietRun_recycleLoop (s := s.reclaim [idx.toNat]) hn hi hk hturns hstop hr
    exact quietRun_mono (quietRun_recycleTurn hgo.1 hgo.2 hloop) (by omega)
  · have hstop : s.txDone idx = false ∨ idx = h := by
      by_cases hdone : s.txDone idx = true
      · exact .inr (not_not.mp fun hne => hgo ⟨hdone, hne⟩)
      · exact .inl (by simpa using hdone)
    refine ⟨s, idx, ⟨[], by simp, rfl⟩, fun n x hr => ?_⟩
    exact quietRun_mono (quietRun_of_step (Task.step_recycleDone_stop hstop c) hr) (by omega)

theorem pollRecycle_counted (hlock : s.txLock = false) (hsize : s.cfg.sizesOk = true) (hwork : work.toNat ≤ budget.toNat) :
    ∃ x, quietRun (5 * s.cfg.nTx + 15) (recycleBody (.poll work)) s = some x ∧ PollCounted budget work s x := by
  cases ha : s.admits s.cfg.regTdh with
  | false =>
    have hrun := quietRun_pollRecycle_refused hlock ha (quietRun_pollEnd s work _)
    exact ⟨_, quietRun_mono hrun (by omega), pollEnded_counted hwork _ s⟩
  | true =>
    obtain ⟨h, s', hread⟩ : ∃ h s', s.regRead32 s.cfg.regTdh = some (h, s') := ⟨_, _, State.regRead32_admitted ha⟩
    obtain ⟨-, -, nic, d, hs'⟩ := State.regRead32_cases hread
    have hsilent : Silent s s' := ⟨[.regRead s.cfg.regTdh h], by rw [hs'], rfl⟩
    have hcfg : s'.cfg = s.cfg := by rw [hs']
    by_cases hh : h.toNat < s.cfg.nTx
    · obtain ⟨u, i, hu, hloop⟩ := recycleLoop_ends (s := { s' with txLock := true }) (h := h)
        (hcfg ▸ SlotTable.size_lt hsize .tx) (hcfg ▸ hh) (.poll work) s'.txNtc
      have hset := quietRun_of_step (t := recycleThen [.setTxNtc i] none (.poll work)) (s := u) rfl
        (quietRun_of_step rfl (quietRun_pollEnd { u with txNtc := i, txLock := false } work none))
      have hrun := quietRun_pollNtc hread hlock hh (hloop _ _ hset)
      have hend := (pollEnded_counted hwork none { u with txNtc := i, txLock := false }).after_silent
        (s := s) (hsilent.trans hu)
      exact ⟨_, quietRun_mono hrun (by simp only [hcfg]; omega), hend⟩
    · have hrun := quietRun_pollRecycle_badHead hread hlock (Nat.le_of_not_lt hh) (quietRun_pollEnd s' work _)
      exact ⟨_, quietRun_mono hrun (by omega), (pollEnded_counted hwork _ s').after_silent hsilent⟩

/-! ### The loop (steps 3 and 4) -/

/-- What a turn of the loop asks for: the RX ring, the lock free, and the tail register admitted. -/
structure State.PollReady (cfg : Cfg) (s : State) : Prop where
  ready : s.RxReady cfg
  lock : s.txLock = false
  tail : s.admits s.cfg.regRdt = true

/-- The loop has been left for step 5. -/
theorem pollLeft_counted {t : Task} (hs : s.PollReady cfg) (hwork : work.toNat ≤ budget.toNat)
    (hw : Walk k t s (recycleBody (.poll work)) s') (hk : k ≤ 6) (hsilent : Silent s s') (hcfg : s'.cfg = s.cfg)
    (hlock : s'.txLock = s.txLock) :
    ∃ x, quietRun (5 * cfg.nTx + 21) t s = some x ∧ PollCounted budget work s x := by
  obtain ⟨⟨rfl, hsize, -⟩, hfree, -⟩ := hs
  obtain ⟨x, hrun, hx⟩ := pollRecycle_counted (s := { s' with sched := s.sched }) (budget := budget) (hlock.trans hfree)
    (hcfg ▸ hsize) hwork
  have hall := hw.quietRun s.sched hrun
  exact ⟨x, quietRun_mono hall (by simp only [hcfg]; omega), hx.after_silent hsilent⟩

/-- No replacement: the frame stays where it is. -/
theorem pollDropped_counted (hs : s.PollReady cfg) (hbudget : work.toNat < budget.toNat) (hdone : s.rxDone next = true)
    (hmap : s.allocs.headD none ≠ none → s.maps.headD none = none) :
    ∃ x, quietRun (5 * cfg.nTx + 21) (Task.goto (.pollDone budget next work)) s = some x ∧ PollCounted budget work s x := by
  obtain ⟨j, hj, hw⟩ := walk_pollDropped hbudget hdone rfl hmap
  refine pollLeft_counted hs hbudget.le hw hj ⟨_, rfl, ?_⟩ rfl rfl
  cases s.allocs.headD none <;> rfl

theorem State.PollReady.refilled (hs : s.PollReady cfg) (hi : next.toNat < cfg.nRx) (buf2 a2 : DWord) (es : List Event)
    (ws : List (Word × Word)) : State.PollReady cfg (((s.refilled next buf2 a2).did es).post ws) := by
  obtain ⟨hready, hlock, htail⟩ := hs
  have hrefilled := hready.refilled (m := ⟨a2, cfg.rxBufSize, .fromDevice⟩) hi rfl rfl buf2 es
  obtain rfl := hready.cfg
  exact ⟨hrefilled.frame s.pollState s.nextCtx (s.wbuf ++ ws) s.nic s.allocs.tail s.maps.tail
    (s.trace ++ es ++ writeEvents ws) s.drawn, hlock, htail⟩

/-- The budget is spent, or there is no frame. -/
theorem pollStop_counted (hs : s.PollReady cfg) (hwork : work.toNat ≤ budget.toNat)
    (hstop : ¬ work.toNat < budget.toNat ∨ s.rxDone next = false) :
    ∃ x, quietRun (5 * cfg.nTx + 21) (Task.goto (.pollDone budget next work)) s = some x ∧ PollCounted budget work s x :=
  pollLeft_counted hs hwork (.step (stepsTo_pollDone_stop hstop) .refl) (by decide) ⟨[], by simp, rfl⟩ rfl rfl

/-- A turn of the loop hands over one frame. -/
theorem pollTurn_counted {buf2 a2 : DWord} (hs : s.PollReady cfg) (hi : next.toNat < cfg.nRx)
    (hbudget : work.toNat < budget.toNat) (hdone : s.rxDone next = true) (halloc : s.allocs.headD none = some buf2)
    (hmap : s.maps.headD none = some a2)
    (hrest : ∀ s', s'.PollReady cfg → ∃ x,
      quietRun n (Task.goto (.pollDone budget (nextIndex cfg.nRx next) (work + 1))) s' = some x ∧
        PollCounted budget (work + 1) s' x) :
    ∃ x, quietRun (n + 13) (Task.goto (.pollDone budget next work)) s = some x ∧ PollCounted budget work s x := by
  obtain ⟨m, buf, hslot, -⟩ := hs.ready.owned next.toNat (hs.ready.cfg ▸ hi)
  rw [index_self] at hslot
  have hturn := walk_pollTurn hbudget hdone hslot halloc hmap hs.tail
  have hsucc : (work + 1).toNat = work.toNat + 1 := by bv_omega
  rw [hs.ready.cfg] at hturn
  obtain ⟨x, hrun, hx⟩ := hrest _ (hs.refilled hi buf2 a2 (s.takeCalls next m buf buf2 a2) [(cfg.regRdt, next)])
  have hone : ((s.takeCalls next m buf buf2 a2 ++ writeEvents [(cfg.regRdt, next)]).filter Event.delivers).length = 1 := rfl
  exact ⟨x, hturn.quietRun s.sched hrun, hx.after (List.append_assoc ..) (by rw [hone, hsucc, Nat.add_comm])⟩

/-- The host has a replacement and its mapping, or it lacks one of them (R227). -/
theorem replacement_cases (s : State) :
    (∃ buf2 a2, s.allocs.headD none = some buf2 ∧ s.maps.headD none = some a2) ∨
      (s.allocs.headD none ≠ none → s.maps.headD none = none) := by
  cases s.allocs.headD none with
  | none => exact .inr (absurd rfl)
  | some buf2 =>
    cases s.maps.headD none with
    | none => exact .inr fun _ => rfl
    | some a2 => exact .inl ⟨buf2, a2, rfl, rfl⟩

/-- The loop, by induction on the frames that the budget still allows: thirteen primitives a turn. -/
theorem pollLoop_counted (k : Nat) (hk : budget.toNat - work.toNat ≤ k) (hwork : work.toNat ≤ budget.toNat)
    (hi : next.toNat < cfg.nRx) (hs : s.PollReady cfg) :
    ∃ x, quietRun (5 * cfg.nTx + 21 + 13 * k) (Task.goto (.pollDone budget next work)) s = some x ∧
      PollCounted budget work s x := by
  induction k generalizing next work s with
  | zero => exact pollStop_counted hs hwork (.inl (by omega))
  | succ k ih =>
    by_cases hstop : ¬ work.toNat < budget.toNat ∨ s.rxDone next = false
    · obtain ⟨x, hrun, hx⟩ := pollStop_counted hs hwork hstop
      exact ⟨x, quietRun_mono hrun (by omega), hx⟩
    · obtain ⟨hbudget, hdone⟩ : work.toNat < budget.toNat ∧ s.rxDone next = true := by
        simpa [not_or] using hstop
      rcases replacement_cases s with ⟨buf2, a2, halloc, hmap⟩ | hnone
      · have hsucc : (work + 1).toNat = work.toNat + 1 := by bv_omega
        exact pollTurn_counted hs hi hbudget hdone halloc hmap
          (fun s' hs' => ih (by omega) (by omega) (nextIndex_lt hs.ready.nRx_pos next) hs')
      · obtain ⟨x, hrun, hx⟩ := pollDropped_counted hs hbudget hdone hnone
        exact ⟨x, quietRun_mono hrun (by omega), hx⟩

/-- The whole poll. -/
theorem poll_counted (hfsm : s.fsm = .running) (hpoll : s.pollState = .scheduled) (hlock : s.txLock = false)
    (hs : s.RxReady cfg) (budget : Word) :
    ∃ x, quietRun (5 * cfg.nTx + 23 + 13 * budget.toNat) (pollTask budget) s.takeCtx = some x ∧
      PollCounted budget 0 s x := by
  cases ha : s.admits s.cfg.regRdt with
  | false =>
    have hrun := quietRun_poll_refused hfsm hpoll ha budget
    refine ⟨_, quietRun_mono hrun (by omega), (pollEnded_counted (Nat.zero_le _) (some s.cfg.regRdt) _).after_silent ?_⟩
    exact ⟨[], rfl, rfl⟩
  | true =>
    obtain ⟨t, b, hread⟩ : ∃ t b, s.drain.nicRead s.cfg.regRdt = (t, b) := ⟨_, _, rfl⟩
    have hstart := walk_poll hfsm hpoll ha hread budget
    obtain ⟨nic, d, rfl⟩ := State.drain_nicRead_only hread
    have hready := hs.frame .active (s.nextCtx + 1) [] nic s.allocs s.maps (s.trace ++ [.regRead s.cfg.regRdt t]) d
    obtain rfl := hs.cfg
    obtain ⟨x, hrun, hx⟩ := pollLoop_counted (budget := budget) (work := 0) budget.toNat (by simp) (by simp)
      (nextIndex_lt hs.nRx_pos t) ⟨hready, hlock, ha⟩
    have hall := hstart.quietRun s.sched hrun
    exact ⟨x, quietRun_mono hall (by omega), hx.after_silent ⟨[.regRead s.cfg.regRdt t], rfl, rfl⟩⟩

end Sys2Proof.Machine

namespace Sys2Proof
open Sys2Proof.Machine

/-- Settles O50: the poll is followed turn by turn; the tail register, read at the start, is admitted at every turn. -/
theorem pollCounts : Obligations.PollCounts := by
  intro s t budget hq hfsm hpoll hlock hsize hwf hshape howned he
  obtain ⟨-, -, hrx, -⟩ := hasShape_iff.mpr ⟨rfl, hshape⟩
  obtain ⟨⟨r, s'⟩, hrun, es, total, htrace, hcount, hbudget, hmem, hanswer⟩ :=
    poll_counted hfsm hpoll hlock ⟨rfl, hsize, hwf, hrx, howned⟩ budget
  have hfuel : 5 * s.cfg.nTx + 23 + 13 * budget.toNat ≤ s.fuel budget.toNat := by unfold State.fuel; omega
  obtain rfl := (Host.Outcome.next.inj he).symm.trans (runCommand_of_quietRun hq hrun hfuel)
  exact ⟨es, total, r, congrArg (· ++ [Event.response s.nextCtx r]) htrace, hcount, hbudget, hmem, hanswer⟩

end Sys2Proof
end

section
/-! PROOFS. The NIC (45_device_agent R241 to R246): its register file, the global reset, the two orders of a finished TX
descriptor, the bytes RX-FILL stores, and what no move of it writes. -/

namespace Sys2Proof.Machine

variable {s s' : State} {r r' : NicReg} {m : Memory} {a d : DWord}

/-! ### The register file (R241, 10_state R44, R45) -/

theorem Nic.get_write_of_ne (n : Nic) (v : Word) (h : r' ≠ r) : (n.write r v).get r' = n.get r' := by
  cases r with
  | mta i =>
    cases r' with
    | mta j =>
      have hij : i ≠ j := fun e => h (congrArg NicReg.mta e.symm)
      simp [Nic.write, Nic.get, List.getElem?_set_ne hij]
    | _ => rfl
  | _ => cases r' <;> simp_all [Nic.write, Nic.get]

/-- Only the two mask registers act on the mask. -/
theorem Nic.write_mask (n : Nic) (v : Word) (hims : r ≠ .ims) (himc : r ≠ .imc) : (n.write r v).mask = n.mask := by
  cases r with
  | ims => exact absurd rfl hims
  | imc => exact absurd rfl himc
  | _ => rfl

theorem Nic.write_ioIndex (n : Nic) (r : NicReg) (v : Word) : (n.write r v).ioIndex = n.ioIndex := by
  cases r <;> rfl

theorem Nic.write_txLag (n : Nic) (r : NicReg) (v : Word) :
    (n.write r v).txLag = if r = .tdh then 0 else n.txLag := by
  cases r <;> rfl

theorem State.nicWrite_ims (hmap : s.cfg.mapOk = true) (hr : s.nic.resetting = false) (v : Word) :
    s.nicWrite s.cfg.regIms v = { s with nic := { s.nic with mask := s.nic.mask ||| v } } :=
  State.nicWrite_named hr (Cfg.regAt_offset hmap (r := .ims) (by decide)) (by decide) v

theorem State.nicWrite_imc (hmap : s.cfg.mapOk = true) (hr : s.nic.resetting = false) (v : Word) :
    s.nicWrite s.cfg.regImc v = { s with nic := { s.nic with mask := s.nic.mask &&& ~~~v } } :=
  State.nicWrite_named hr (Cfg.regAt_offset hmap (r := .imc) (by decide)) (by decide) v

theorem getLsbD_and_not (x y : Word) (k : Nat) : (x &&& ~~~y).getLsbD k = (x.getLsbD k && !y.getLsbD k) := by
  by_cases hk : k < 32
  · simp [hk]
  · simp [hk, BitVec.getLsbD_of_ge x k (by omega)]

/-! ### The two orders of a finished TX descriptor (R242) -/

theorem Nic.txCap_lt (n : Nic) (c : Cfg) : n.txCap c < 2 ^ 32 :=
  (Nat.div_le_self _ _).trans_lt n.tdlen.isLt

/-- One place back from the next index is the index itself. -/
theorem nextIndex_back {k : Nat} (hk : k < 2 ^ 32) {i : Word} (hi : i.toNat < k) :
    ((((nextIndex k i).toNat : Int) - 1) % (k : Int)).toNat = i.toNat := by
  rw [nextIndex_toNat hk (by omega), Int.natCast_mod, Int.emod_sub_emod]
  have hsucc : ((i.toNat + 1 : Nat) : Int) - 1 = (i.toNat : Int) := by omega
  rw [hsucc, Int.emod_eq_of_lt (by omega) (by omega), Int.toNat_natCast]

/-- The descriptor at the head is finished: its frame sent, its status byte written, the head moved on. -/
def State.txFinished (s : State) (status : Byte) (raise : Bool) : State :=
  { s with
    nic := { s.nic with
      tdh := nextIndex (s.nic.txCap s.cfg) s.nic.tdh
      txLag := 0
      icr := s.nic.icr ||| (if raise then s.cfg.icrTxdw else 0) }
    mem := s.mem.writeByte (s.nicTxd s.nic.tdh.toNat 12) (status ||| s.cfg.txdStatDd)
    wire := s.wire ++ [s.txFrame s.nic.tdh.toNat] }

theorem State.txStartable_cap (h : s.txStartable = true) : 0 < s.nic.txCap s.cfg := by
  simp only [State.txStartable, Bool.and_eq_true, decide_eq_true_eq] at h
  exact h.2

/-- The head first: the write-back finds the descriptor one place behind it. -/
theorem State.txAdvance_txWriteback (hstart : s.txStartable = true) (hlag : s.nic.txLag = 0)
    (hhead : s.nic.tdh.toNat < s.nic.txCap s.cfg) (status : Byte) (raise : Bool) :
    s.txAdvance.txWriteback status raise = s.txFinished status raise := by
  have hadvance : s.txAdvance = { s with
      nic := { s.nic with tdh := nextIndex (s.nic.txCap s.cfg) s.nic.tdh, txLag := 1 }
      wire := s.wire ++ [s.txFrame s.nic.tdh.toNat] } := by
    rw [State.txAdvance_eq, if_pos hstart, hlag]
    rfl
  have hcap := State.txStartable_cap hstart
  have howes : s.txAdvance.txOwesDone = true := by
    rw [hadvance]
    exact decide_eq_true hcap
  have hindex : s.txAdvance.nic.writebackIndex s.cfg = s.nic.tdh.toNat := by
    rw [hadvance]
    exact nextIndex_back (s.nic.txCap_lt s.cfg) hhead
  have hcfg : s.txAdvance.cfg = s.cfg := by rw [hadvance]
  rw [State.txWriteback_eq, if_pos howes, hcfg, hindex, hadvance]
  rfl

/-- The status byte first: the frame is not sent again when the head moves. -/
theorem State.txEarly_txAdvance (hstart : s.txStartable = true) (hlag : s.nic.txLag = 0) (status : Byte) (raise : Bool) :
    (s.txEarly status raise).txAdvance = s.txFinished status raise := by
  have hearly : s.txEarly status raise = { s with
      nic := { s.nic with txLag := -1, icr := s.nic.icr ||| (if raise then s.cfg.icrTxdw else 0) }
      mem := s.mem.writeByte (s.nicTxd s.nic.tdh.toNat 12) (status ||| s.cfg.txdStatDd)
      wire := s.wire ++ [s.txFrame s.nic.tdh.toNat] } := by
    rw [State.txEarly_eq, if_pos (by simp [hstart, hlag])]
  have hstill : (s.txEarly status raise).txStartable = true := by rw [hearly]; exact hstart
  rw [State.txAdvance_eq, if_pos hstill, hearly]
  rfl

/-! ### The bytes RX-FILL stores (R243) -/

/-- Values written at offsets from an address, one after the other: offset, size, value. -/
def Memory.writeFields (m : Memory) (d : DWord) : List (Nat × Nat × DWord) → Memory
  | [] => m
  | (x, k, v) :: l => (m.write (d + BitVec.ofNat 64 x) k v).writeFields d l

theorem Memory.writeFields_wf {l : List (Nat × Nat × DWord)} (h : m.wf = true) : (m.writeFields d l).wf = true := by
  induction l generalizing m with
  | nil => exact h
  | cons f l ih => exact ih (Memory.write_wf h _ _ _)

theorem Memory.readByte_writeFields_outside {l : List (Nat × Nat × DWord)} (h : m.wf = true)
    (ha : ∀ f ∈ l, ¬ within (d + BitVec.ofNat 64 f.1) f.2.1 a) : (m.writeFields d l).readByte a = m.readByte a := by
  induction l generalizing m with
  | nil => rfl
  | cons f l ih =>
    have hf := ha f (.head _)
    exact (ih (Memory.write_wf h _ _ _) fun g hg => ha g (.tail _ hg)).trans
      (Memory.readByte_write_outside h _ _ _ _ fun k hk e => hf ⟨k, hk, e⟩)

/-- A part of a region of memory. -/
theorem within_part {x y k l : Nat} (hx : x ≤ y) (hl : y + k ≤ x + l) (h : within (d + BitVec.ofNat 64 y) k a) :
    within (d + BitVec.ofNat 64 x) l a := by
  obtain ⟨j, hj, rfl⟩ := h
  refine ⟨y - x + j, by omega, ?_⟩
  rw [address_add, address_add]
  congr 2
  omega

theorem within_self {k : Nat} (hk : 0 < k) : within a k a := ⟨0, hk, by simp⟩

/-- Two regions at offsets from one address that do not overlap. -/
theorem not_within_apart {x y i k : Nat} (hxy : x + i < y ∨ y + k ≤ x + i) (hi : x + i < 2 ^ 64) (hk : y + k ≤ 2 ^ 64) :
    ¬ within (d + BitVec.ofNat 64 y) k (d + BitVec.ofNat 64 x + BitVec.ofNat 64 i) := by
  rintro ⟨j, hj, e⟩
  rw [address_add, address_add] at e
  exact address_ne (by omega) hi (by omega) d e

/-- The fields of RX-FILL other than the status byte, as offsets in the descriptor (30_encoding R106). -/
def rxFields (length : Nat) (checksum : Half) (errors : Byte) (special : Half) : List (Nat × Nat × DWord) :=
  [(8, 2, BitVec.ofNat 64 length), (10, 2, checksum.setWidth 64), (13, 1, errors.setWidth 64),
   (14, 2, special.setWidth 64)]

/-- The RX descriptor at `d` written back, the status byte last. -/
def Memory.fillRxd (m : Memory) (d : DWord) (length : Nat) (checksum : Half) (status errors : Byte) (special : Half) :
    Memory :=
  (m.writeFields d (rxFields length checksum errors special)).writeByte (d + BitVec.ofNat 64 12) status

variable {length : Nat} {checksum special : Half} {status errors : Byte} {frame : List Byte} {rxt0 rxdmt0 : Bool}

theorem Memory.readByte_fillRxd_status (h : m.wf = true) :
    (m.fillRxd d length checksum status errors special).readByte (d + BitVec.ofNat 64 12) = status := by
  rw [Memory.fillRxd, Memory.readByte_writeByte (Memory.writeFields_wf h), if_pos rfl]

/-- Bytes 8 to 15 of the descriptor are written and no other byte. -/
theorem Memory.readByte_fillRxd_outside (h : m.wf = true) (ha : ¬ within (d + BitVec.ofNat 64 8) 8 a) :
    (m.fillRxd d length checksum status errors special).readByte a = m.readByte a := by
  have hinside : ∀ x k, 8 ≤ x → x + k ≤ 16 → ¬ within (d + BitVec.ofNat 64 x) k a :=
    fun x k hx hk hw => ha (within_part hx hk hw)
  have hstatus : a ≠ d + BitVec.ofNat 64 12 := by
    rintro rfl
    exact hinside 12 1 (by decide) (by decide) (within_self (by decide))
  rw [Memory.fillRxd, Memory.readByte_writeByte (Memory.writeFields_wf h), if_neg hstatus]
  refine Memory.readByte_writeFields_outside h ?_
  simp only [rxFields, List.forall_mem_cons]
  exact ⟨hinside _ _ (by decide) (by decide), hinside _ _ (by decide) (by decide), hinside _ _ (by decide) (by decide),
    hinside _ _ (by decide) (by decide), by simp⟩

/-- The length field is apart from the fields written after it. -/
theorem Memory.read_fillRxd_length (h : m.wf = true) (hlength : length < 2 ^ 16) :
    (m.fillRxd d length checksum status errors special).read (d + BitVec.ofNat 64 8) 2 = BitVec.ofNat 64 length := by
  have hsame : (m.fillRxd d length checksum status errors special).read (d + BitVec.ofNat 64 8) 2 =
      (m.write (d + BitVec.ofNat 64 8) 2 (BitVec.ofNat 64 length)).read (d + BitVec.ofNat 64 8) 2 := by
    refine Memory.read_congr _ _ fun i hi => ?_
    have hstatus : d + BitVec.ofNat 64 8 + BitVec.ofNat 64 i ≠ d + BitVec.ofNat 64 12 := by
      rw [address_add]
      exact address_ne (by omega) (by omega) (by omega) d
    rw [Memory.fillRxd, Memory.readByte_writeByte (Memory.writeFields_wf h), if_neg hstatus]
    refine Memory.readByte_writeFields_outside (Memory.write_wf h _ _ _) ?_
    simp only [List.forall_mem_cons]
    exact ⟨not_within_apart (by omega) (by omega) (by omega), not_within_apart (by omega) (by omega) (by omega),
      not_within_apart (by omega) (by omega) (by omega), by simp⟩
  rw [hsame, Memory.read_write_same h _ _ (by decide)]
  congr 1
  simp only [BitVec.toNat_ofNat]
  omega

theorem Memory.load_congr {m' : Memory} {k : Nat}
    (h : ∀ i, i < k → m.readByte (a + BitVec.ofNat 64 i) = m'.readByte (a + BitVec.ofNat 64 i)) :
    m.load a k = m'.load a k := by
  rw [Memory.load_eq_map, Memory.load_eq_map]
  exact List.map_congr_left fun i hi => h i (List.mem_range.mp hi)

/-- A stored string loads back. -/
theorem Memory.load_store_self (h : m.wf = true) {bs : List Byte} (hlen : bs.length ≤ 2 ^ 64) :
    (m.store a bs).load a bs.length = bs := by
  simpa using Memory.load_store (a := a) h (i := 0) (n := bs.length) (by omega) hlen

theorem State.nicTxd_add (s : State) (i x k : Nat) : s.nicTxd i x + BitVec.ofNat 64 k = s.nicTxd i (x + k) :=
  descAddr_add ..

theorem State.nicRxd_add (s : State) (i x k : Nat) : s.nicRxd i x + BitVec.ofNat 64 k = s.nicRxd i (x + k) :=
  descAddr_add ..

/-- The address of the RX descriptor at the head. -/
def State.rxHead (s : State) : DWord := s.nicRxd s.nic.rdh.toNat 0

/-- The buffer of the RX descriptor at the head. -/
def State.rxHeadBuf (s : State) : DWord := s.mem.read s.rxHead 8

theorem State.rxHead_add (s : State) (k : Nat) : s.rxHead + BitVec.ofNat 64 k = s.nicRxd s.nic.rdh.toNat k :=
  (s.nicRxd_add ..).trans (by rw [Nat.zero_add])

/-- RX-FILL of a frame the NIC takes: the frame is stored in the buffer, the descriptor is written back and the head moves
(R243). -/
theorem State.rxFill_taken (hfill : s.rxFillable = true) (htakes : s.takesFrame frame = true) :
    s.rxFill frame checksum status errors special rxt0 rxdmt0 =
      { s with
        mem := (s.mem.store s.rxHeadBuf frame).fillRxd s.rxHead frame.length checksum (status ||| s.cfg.rxdStatDd) errors
          special
        nic := { s.nic with
          rdh := nextIndex (s.nic.rxCap s.cfg) s.nic.rdh
          icr := s.nic.icr ||| (if rxt0 then s.cfg.icrRxt0 else 0) ||| (if rxdmt0 then s.cfg.icrRxdmt0 else 0) } } := by
  simp only [State.rxFill, hfill, htakes, Bool.and_self, if_true, Memory.fillRxd, rxFields, Memory.writeFields,
    State.rxHead_add]
  rfl

theorem State.takesFrame_iff : s.takesFrame frame = true ↔
    1 ≤ frame.length ∧ frame.length ≤ s.cfg.rxBufSize.toNat ∧ s.nic.accepts frame = true := by
  simp only [State.takesFrame, Bool.and_eq_true, decide_eq_true_eq, and_assoc]

/-- RX-FILL writes its frame and bytes 8 to 15 of the descriptor at the head, and no other byte. -/
theorem State.readByte_rxFill (h : s.mem.wf = true) (hdesc : ¬ within (s.rxHead + BitVec.ofNat 64 8) 8 a)
    (hbuf : ¬ within s.rxHeadBuf frame.length a) :
    (s.rxFill frame checksum status errors special rxt0 rxdmt0).mem.readByte a = s.mem.readByte a := by
  by_cases hgo : s.rxFillable = true ∧ s.takesFrame frame = true
  · obtain ⟨hfill, htakes⟩ := hgo
    rw [State.rxFill_taken hfill htakes]
    exact (Memory.readByte_fillRxd_outside (Memory.store_wf h _ _) hdesc).trans
      (Memory.readByte_store_outside h _ _ _ fun k hk e => hbuf ⟨k, hk, e⟩)
  · rw [not_and_or, Bool.not_eq_true, Bool.not_eq_true] at hgo
    rw [State.rxFill_refused hgo]

/-! ### What no move of the NIC writes (R246, 42_ring_manager R183) -/

/-- The moves of the NIC (R242 to R245). -/
inductive Move.OfNic : Move → Prop
  | txAdvance : OfNic .txAdvance
  | txWriteback (status : Byte) (raise : Bool) : OfNic (.txWriteback status raise)
  | txEarly (status : Byte) (raise : Bool) : OfNic (.txEarly status raise)
  | rxFill (frame : List Byte) (checksum : Half) (status errors : Byte) (special : Half) (rxt0 rxdmt0 : Bool) :
      OfNic (.rxFill frame checksum status errors special rxt0 rxdmt0)
  | cause (bits : Word) : OfNic (.cause bits)
  | reloadDone (icr : Word) : OfNic (.reloadDone icr)

/-- Nothing but the NIC, memory, the wire and the count of free values changes, and of the NIC neither tail. -/
structure KeepsTails (s s' : State) : Prop where
  device : OnlyDevice s s'
  tdt : s'.nic.tdt = s.nic.tdt
  rdt : s'.nic.rdt = s.nic.rdt

theorem KeepsTails.refl (s : State) : KeepsTails s s := ⟨.refl, rfl, rfl⟩

theorem State.nicMove_keepsTails (h : KeepsTails s s') (l : List (DWord × Nat)) : KeepsTails s (s.nicMove l s') := by
  rcases s.nicMove_cases l s' with ⟨-, e⟩ | ⟨-, e⟩ <;> rw [e]
  · exact .refl s
  · exact h

theorem State.txAdvance_keepsTails (s : State) : KeepsTails s s.txAdvance := by
  refine ⟨s.txAdvance_only, ?_, ?_⟩ <;> rw [State.txAdvance_eq] <;> split <;> rfl

theorem State.txWriteback_keepsTails (s : State) (b : Byte) (e : Bool) : KeepsTails s (s.txWriteback b e) := by
  refine ⟨s.txWriteback_only b e, ?_, ?_⟩ <;> rw [State.txWriteback_eq] <;> split <;> rfl

theorem State.txEarly_keepsTails (s : State) (b : Byte) (e : Bool) : KeepsTails s (s.txEarly b e) := by
  refine ⟨s.txEarly_only b e, ?_, ?_⟩ <;> rw [State.txEarly_eq] <;> split <;> rfl

theorem State.rxFill_keepsTails (s : State) (f : List Byte) (c : Half) (st e : Byte) (sp : Half) (r1 r2 : Bool) :
    KeepsTails s (s.rxFill f c st e sp r1 r2) := by
  refine ⟨s.rxFill_only f c st e sp r1 r2, ?_, ?_⟩ <;> unfold State.rxFill <;> split <;> rfl

theorem State.cause_keepsTails (s : State) (bits : Word) : KeepsTails s (s.cause bits) := by
  refine ⟨s.cause_only bits, ?_, ?_⟩ <;> unfold State.cause <;> split <;> rfl

theorem State.reloadDone_keepsTails (s : State) (icr : Word) : KeepsTails s (s.reloadDone icr) := by
  refine ⟨s.reloadDone_only icr, ?_, ?_⟩ <;> rw [State.reloadDone_eq] <;> split <;> rfl

theorem Move.OfNic.keepsTails {m : Move} (hm : m.OfNic) (s : State) : KeepsTails s (m.apply s) := by
  cases hm with
  | txAdvance => exact State.nicMove_keepsTails s.txAdvance_keepsTails _
  | txWriteback b e => exact State.nicMove_keepsTails (s.txWriteback_keepsTails b e) _
  | txEarly b e => exact State.nicMove_keepsTails (s.txEarly_keepsTails b e) _
  | rxFill f c st e sp r1 r2 => exact State.nicMove_keepsTails (s.rxFill_keepsTails f c st e sp r1 r2) _
  | cause bits => exact s.cause_keepsTails bits
  | reloadDone icr => exact s.reloadDone_keepsTails icr

/-- Neither the posted writes nor DRM's own state, its commands in flight or the record of its ports are the device. -/
theorem OnlyDevice.outside_same (h : OnlyDevice s s') :
    s'.wbuf = s.wbuf ∧ (∀ p : Piece, p.same s s') ∧ s'.tasks = s.tasks ∧ s'.trace = s.trace := by
  refine ⟨?_, h.piece_same, h.sameDrm.tasks, ?_⟩ <;> obtain ⟨n, m, w, d, rfl⟩ := h <;> rfl

/-! ### The bytes each move of the NIC writes -/

theorem State.txAdvance_mem (s : State) : s.txAdvance.mem = s.mem := by
  rw [State.txAdvance_eq]
  split <;> rfl

theorem State.nicAdvance_mem (s : State) : s.nicAdvance.mem = s.mem := by
  unfold State.nicAdvance
  rcases s.nicMove_cases _ s.txAdvance with ⟨-, e⟩ | ⟨-, e⟩ <;> rw [e]
  exact s.txAdvance_mem

theorem State.reloadDone_mem (s : State) (icr : Word) : (s.reloadDone icr).mem = s.mem := by
  rw [State.reloadDone_eq]
  split <;> rfl

theorem State.readByte_txWriteback (h : s.mem.wf = true) (ha : a ≠ s.nicTxd (s.nic.writebackIndex s.cfg) 12) (b : Byte)
    (e : Bool) : (s.txWriteback b e).mem.readByte a = s.mem.readByte a := by
  rw [State.txWriteback_eq]
  split
  · exact (Memory.readByte_writeByte h _ _ _).trans (if_neg ha)
  · rfl

theorem State.readByte_txEarly (h : s.mem.wf = true) (ha : a ≠ s.nicTxd s.nic.tdh.toNat 12) (b : Byte) (e : Bool) :
    (s.txEarly b e).mem.readByte a = s.mem.readByte a := by
  rw [State.txEarly_eq]
  split
  · exact (Memory.readByte_writeByte h _ _ _).trans (if_neg ha)
  · rfl

/-- A move that is held back writes no byte. -/
theorem State.readByte_nicMove {l : List (DWord × Nat)} (h : s'.mem.readByte a = s.mem.readByte a) :
    (s.nicMove l s').mem.readByte a = s.mem.readByte a := by
  rcases s.nicMove_cases l s' with ⟨-, e⟩ | ⟨-, e⟩ <;> rw [e]
  exact h

/-- A move that writes inside the regions it is held back for writes no byte of an array that is being built. -/
theorem State.readByte_nicMove_built {l : List (DWord × Nat)} (hbuilt : s.beingBuilt a.toNat = true)
    (h : (∀ r ∈ l, ¬ within r.1 r.2 a) → s'.mem.readByte a = s.mem.readByte a) :
    (s.nicMove l s').mem.readByte a = s.mem.readByte a := by
  rcases s.nicMove_cases l s' with ⟨-, e⟩ | ⟨hfree, e⟩ <;> rw [e]
  refine h fun r hr ⟨k, hk, ha⟩ => ?_
  have hnot := State.not_beingBuilt hfree hr hk
  rw [← ha, hbuilt] at hnot
  exact absurd hnot (by decide)

theorem Move.OfNic.readByte_built {m : Move} (hm : m.OfNic) (h : s.mem.wf = true) (hbuilt : s.beingBuilt a.toNat = true) :
    (m.apply s).mem.readByte a = s.mem.readByte a := by
  cases hm with
  | txAdvance => exact congrArg (·.readByte a) s.nicAdvance_mem
  | txWriteback b e =>
    refine State.readByte_nicMove_built hbuilt fun hout => State.readByte_txWriteback h ?_ b e
    rintro rfl
    exact hout _ (.head _) (within_self Nat.one_pos)
  | txEarly b e =>
    refine State.readByte_nicMove_built hbuilt fun hout => State.readByte_txEarly h ?_ b e
    rintro rfl
    exact hout _ (.head _) ⟨12, by simp, (s.nicTxd_add s.nic.tdh.toNat 0 12).symm⟩
  | rxFill f c st e sp r1 r2 =>
    refine State.readByte_nicMove_built hbuilt fun hout => State.readByte_rxFill h ?_ (hout _ (.tail _ (.head _)))
    rintro ⟨k, hk, rfl⟩
    exact hout _ (.head _) ⟨8 + k, by omega, address_add ..⟩
  | cause bits => exact congrArg (·.readByte a) (s.cause_mem bits)
  | reloadDone icr => exact congrArg (·.readByte a) (s.reloadDone_mem icr)

end Sys2Proof.Machine

namespace Sys2Proof
open Sys2Proof.Machine

/-- Settles O17: the register file by the register written; the mask registers are found at their offsets. -/
theorem nicRegisters : Obligations.NicRegisters := by
  refine ⟨fun n r r' v hr hmta => ?_, fun s v k hmap hreset => ?_⟩
  · have hims : r ≠ .ims := by rintro rfl; simp at hr
    have himc : r ≠ .imc := by rintro rfl; simp at hr
    exact ⟨Nic.get_write hr hmta v, Nic.get_write_of_ne n v, Nic.write_mask n v hims himc, n.write_ioIndex r v,
      n.write_txLag r v, n.write_resetting r v⟩
  · have hset := State.nicWrite_ims hmap hreset v
    have hclear := State.nicWrite_imc hmap hreset v
    refine ⟨?_, ?_, ?_⟩
    · rw [hset]
      exact BitVec.getLsbD_or
    · rw [hclear]
      exact getLsbD_and_not _ v k
    · rintro off (rfl | rfl)
      · rw [hset]
      · rw [hclear]

/-- Settles O18: the data port's write is one of device control with the reset bit. -/
theorem globalReset : Obligations.GlobalReset := by
  intro s v hq hio hmap hreset hv
  have hreg : s.cfg.regAt s.cfg.regCtrl = some .ctrl := Cfg.regAt_offset hmap (r := .ctrl) (by decide)
  have hwrite := State.nicWrite_reset (s := s.setIndex s.cfg.regCtrl) hreset hreg hv
  have hexec := exec_writeIo_admitted (value := v) (off := s.cfg.regCtrl) hq hio
  rw [hwrite] at hexec
  exact ⟨_, hexec, rfl, word_and_not_and_self _ _, word_and_not_and_self _ _, word_and_not_and_self _ _, rfl, fun _ => rfl⟩

/-- Settles O19: both orders come to `State.txFinished`. -/
theorem txOrders : Obligations.TxOrders := by
  intro s status raise hstart hlag hhead hwf
  rw [State.txAdvance_txWriteback hstart hlag hhead, State.txEarly_txAdvance hstart hlag]
  exact ⟨rfl, rfl, rfl, rfl, fun a => Memory.readByte_writeByte hwf _ a _⟩

/-- Settles O20: the buffer is apart from the descriptor, so writing the descriptor back leaves the frame. -/
theorem rxFillStores : Obligations.RxFillStores := by
  intro s frame checksum status errors special rxt0 rxdmt0 t ht
  refine ⟨fun hno => ?_, fun hfill hone hsize haccepts hlength hwf hapart => ?_⟩
  · rw [ht]
    refine State.rxFill_refused (hno.imp_right fun hnot => ?_) ..
    rw [State.takesFrame, hnot, Bool.and_false]
  · have htakes := State.takesFrame_iff.mpr ⟨hone, hsize, haccepts⟩
    have htaken := ht.trans (State.rxFill_taken hfill htakes)
    have hstored : (s.mem.store s.rxHeadBuf frame).wf = true := Memory.store_wf hwf _ _
    have hframe : t.mem.load s.rxHeadBuf frame.length = frame := by
      rw [htaken]
      refine (Memory.load_congr fun k hk => ?_).trans (Memory.load_store_self hwf (by omega))
      refine Memory.readByte_fillRxd_outside hstored fun ⟨j, hj, e⟩ => hapart k hk ⟨8 + j, by omega, ?_⟩
      exact e.trans (address_add ..)
    have hfieldLength : t.mem.read (s.rxHead + BitVec.ofNat 64 8) 2 = BitVec.ofNat 64 frame.length := by
      rw [htaken]
      exact Memory.read_fillRxd_length hstored hlength
    have hfieldStatus : t.mem.readByte (s.rxHead + BitVec.ofNat 64 12) = status ||| s.cfg.rxdStatDd := by
      rw [htaken]
      exact Memory.readByte_fillRxd_status hstored
    rw [State.rxHead_add] at hfieldLength hfieldStatus
    refine ⟨hframe, hfieldLength, hfieldStatus, congrArg (·.nic.rdh) htaken, fun a hdesc hbuf => ?_⟩
    rw [ht]
    exact State.readByte_rxFill hwf (by rwa [State.rxHead_add]) hbuf

/-- Settles O21: what a move of the NIC changes is the device's, and the bytes it writes are in regions for which it is
held back. -/
theorem nicNeverWrites : Obligations.NicNeverWrites := by
  intro s m hwf hm
  have hnic : m.OfNic := by
    rcases hm with rfl | ⟨b, r, rfl⟩ | ⟨b, r, rfl⟩ | ⟨f, c, st, e, sp, r1, r2, rfl⟩ | ⟨b, rfl⟩ | ⟨v, rfl⟩ <;> constructor
  have hkeeps := hnic.keepsTails s
  obtain ⟨hwbuf, hpieces, htasks, htrace⟩ := hkeeps.device.outside_same
  refine ⟨hkeeps.tdt, hkeeps.rdt, hwbuf, hpieces, htasks, htrace, ?_, ?_, ?_, fun a => hnic.readByte_built hwf⟩
  · rintro b r rfl a ha
    exact State.readByte_nicMove (State.readByte_txWriteback hwf ha b r)
  · rintro b r rfl a ha
    exact State.readByte_nicMove (State.readByte_txEarly hwf ha b r)
  · rintro (rfl | ⟨b, rfl⟩ | ⟨v, rfl⟩)
    · exact s.nicAdvance_mem
    · exact s.cause_mem b
    · exact s.reloadDone_mem v

end Sys2Proof
end

section
/-! PROOFS. A command that nothing makes wait comes to its answer (60_exceptions R260, R269; notes/assumptions/15.md): each
primitive leaves it nearer its end, finds the TX lock as the command holds it, and answers nothing. -/

namespace Sys2Proof.Machine

variable {s s' s'' : State} {t t' : Task} {p : Point} {n : Nat} {h idx : Word}

/-! ### What a command does before its answer -/

/-- From `s` to `s'` no command is answered. -/
def Unanswered (s s' : State) : Prop := ∃ es, s'.trace = s.trace ++ es ∧ es.all Event.quiet = true

theorem Unanswered.of_eq (h : s'.trace = s.trace) : Unanswered s s' := ⟨[], by rw [h, List.append_nil], rfl⟩

theorem Unanswered.of_event {e : Event} (h : s'.trace = s.trace ++ [e]) (he : e.quiet = true) : Unanswered s s' :=
  ⟨[e], h, by simp [he]⟩

theorem Unanswered.trans (h : Unanswered s s') (h' : Unanswered s' s'') : Unanswered s s'' := by
  obtain ⟨es, he, hes⟩ := h
  obtain ⟨es', he', hes'⟩ := h'
  exact ⟨es ++ es', by rw [he', he, List.append_assoc], by rw [List.all_append, hes, hes']; rfl⟩

theorem State.regRead32_unanswered {off v : Word} (h : s.regRead32 off = some (v, s')) : Unanswered s s' := by
  obtain ⟨-, -, n, d, rfl⟩ := State.regRead32_cases h
  exact .of_event rfl rfl

theorem State.delayReload_unanswered (s : State) : Unanswered s s.delayReload := by
  unfold State.delayReload State.reloadFree State.reloadDone
  dsimp only
  split_ifs <;> exact .of_event rfl rfl

theorem requestPoll_unanswered (s : State) : Unanswered s (requestPoll s) := by
  unfold requestPoll
  split
  · split
    · exact .of_event rfl rfl
    · exact .of_eq rfl
    · exact .of_eq rfl
  · exact .of_eq rfl

theorem Prim.apply_unanswered {q : Prim} (e : q.apply s = .ok s') : Unanswered s s' := by
  cases q with
  | regWrite off v =>
    obtain ⟨-, rfl⟩ := State.regWrite32_cases (orError_ok e)
    exact .of_event rfl rfl
  | regRead off =>
    obtain ⟨⟨v, x⟩, hx, rfl⟩ := Option.map_eq_some_iff.mp (orError_ok e)
    exact State.regRead32_unanswered hx
  | ioWrite port v =>
    obtain ⟨-, n, d, rfl⟩ := State.ioWrite32_cases (orError_ok e)
    exact .of_event rfl rfl
  | delayReload => obtain rfl := Except.ok.inj e; exact s.delayReload_unanswered
  | call c => obtain rfl := Except.ok.inj e; exact .of_event rfl rfl
  | _ => obtain rfl := Except.ok.inj e; exact .of_eq rfl

/-- No point answers on the way to another one. -/
theorem Point.step_unanswered (p : Point) (s : State) : (p.step s).Leads (fun _ s' => Unanswered s s') := by
  cases p with
  | respond => trivial
  | read32 | resetCtrl | resetManc | recycleHead | irqRead | pollTail =>
    simp only [Point.step, stepRead32, stepResetCtrl, stepResetManc, stepRecycleHead, stepIrqRead, stepPollTail]
    exact leads_readThen (.of_eq rfl) (fun v s' => State.regRead32_unanswered)
  | resetAdmit | configureAdmit | startAdmit | stopAdmit | recycleAdmit | irqAdmit =>
    exact leads_whenAdmitted (.of_eq rfl) (.of_eq rfl)
  | submitLock | recycleLock => exact leads_lockThen (fun _ => .of_eq rfl)
  | stopLock => exact leads_stopLock (fun _ => .of_eq rfl)
  | resetSettle => exact .of_event rfl rfl
  | resetSettled owed =>
    obtain ⟨n, m, w, d, e⟩ := State.settle_only owed s
    exact .of_eq (by rw [e])
  | irqRequest => exact requestPoll_unanswered s
  | ringAlloc =>
    simp only [Point.step, stepRingAlloc]
    split
    · split <;> rename_i e <;> obtain ⟨-, rfl⟩ := Prod.mk.inj e <;> exact .of_event rfl rfl
    · exact .of_eq rfl
  | ringMap | submitPad | submitMap | pollAlloc | pollMap =>
    simp only [Point.step, stepRingMap, stepSubmitPad, stepSubmitMap, stepPollAlloc, stepPollMap]
    split <;> rename_i e <;> obtain ⟨-, rfl⟩ := Prod.mk.inj e <;> exact .of_event rfl rfl
  | stopWait =>
    simp only [Point.step, stepStopWait]
    split
    · trivial
    · exact .of_eq rfl
  | _ =>
    simp only [Point.step, stepRingAdmit, stepRingUndo, stepStopRings, stepStopTx, stepStopRx,
      stepDetachAdmit, stepSubmitAdmit, stepSubmitRecheck, stepSubmitTail, stepSubmitDone, stepSubmitSlot, stepSubmitEnd,
      stepRecycleNtc, stepRecycleDone, stepRecycleSlot, stepPollAdmit, stepPollDone, stepPollLength, stepPollTake,
      stepPollNext, stepPollEnd, stepReadStats]
    repeat' split
    all_goals exact .of_eq rfl

theorem Task.step_unanswered (e : t.step s = .more t' s') : Unanswered s s' := by
  cases Task.step_cases e with
  | point e => exact (Point.step_unanswered _ s).of_more e
  | prim e => exact Prim.apply_unanswered e
  | failed => exact .of_eq rfl

/-! ### How far a command is from its answer -/

/-- So many turns of RECYCLE's loop at most lead from `idx` to the head `h` in a ring of `n`; from outside the ring the first
turn comes into it. -/
def turnsToHead (n : Nat) (h idx : Word) : Nat :=
  if idx.toNat ≤ h.toNat then h.toNat - idx.toNat
  else if idx.toNat < n then h.toNat + n - idx.toNat
  else n

theorem turnsToHead_le (hh : h.toNat < n) (idx : Word) : turnsToHead n h idx ≤ n := by
  unfold turnsToHead
  split_ifs <;> omega

/-- A turn of the loop that does not begin at the head comes nearer to it (R188, R210). -/
theorem turnsToHead_nextIndex_lt (hh : h.toNat < n) (hne : idx ≠ h) :
    turnsToHead n h (nextIndex n idx) < turnsToHead n h idx := by
  have hne : idx.toNat ≠ h.toNat := fun e => hne (BitVec.eq_of_toNat_eq e)
  have hnext : (nextIndex n idx).toNat = (idx.toNat + 1) % n % 2 ^ 32 := BitVec.toNat_ofNat ..
  have hidx := idx.isLt
  unfold turnsToHead
  rw [hnext]
  rcases Nat.lt_trichotomy (idx.toNat + 1) n with hin | hend | hout
  · rw [Nat.mod_eq_of_lt hin]
    split_ifs <;> omega
  · rw [hend, Nat.mod_self]
    split_ifs <;> omega
  · have hlt := Nat.mod_lt (idx.toNat + 1) (Nat.zero_lt_of_lt hh)
    have hmod := Nat.mod_le ((idx.toNat + 1) % n) (2 ^ 32)
    split_ifs <;> omega

/-- The primitives from a POLL's step 5 to its answer. -/
def recycleBound (c : Cfg) : Nat := 5 * c.nTx + 10

/-- The primitives from STOP's release of the slots to its answer. -/
def releaseBound (c : Cfg) : Nat := 4 * c.nTx + 4 * c.nRx + 6

/-- The primitives from a POLL's test for its next frame to its answer, `work` frames handed over. -/
def pollBound (c : Cfg) (budget work : Word) : Nat := 13 * (budget.toNat - work.toNat) + recycleBound c + 1

/-- A command at a point makes at most so many primitives to its answer. -/
def Point.bound (c : Cfg) : Point → Nat
  | .respond _ => 1
  | .read32 _ | .detachAdmit | .irqRequest | .readStats => 2
  | .ringAdmit _ _ => 8 * c.nTx + 13 * c.nRx + 9
  | .ringAlloc i => 13 * (c.nRx - i) + 4 * i + 4
  | .ringMap i _ => 13 * (c.nRx - (i + 1)) + 4 * i + 16
  | .ringUndo j i => 4 * (i - j) + 2
  | .resetAdmit => 17
  | .resetSettle => 12
  | .resetSettled _ => 11
  | .resetCtrl => 10
  | .resetManc => 6
  | .configureAdmit => c.mtaEntries + 23
  | .startAdmit | .submitEnd | .irqRead => 3
  | .stopAdmit => releaseBound c + 10
  | .stopWait => releaseBound c + 8
  | .stopLock _ => releaseBound c + 1
  | .stopRings _ => releaseBound c
  | .stopTx i _ => 4 * (c.nTx - i) + 4 * c.nRx + 5
  | .stopRx i _ => 4 * (c.nRx - i) + 4
  | .submitAdmit _ _ => 24
  | .submitLock _ _ => 23
  | .submitRecheck _ _ => 22
  | .submitTail _ _ => 21
  | .submitDone _ _ _ => 20
  | .submitPad _ _ _ => 19
  | .submitMap _ _ _ => 18
  | .submitSlot _ _ _ => 17
  | .recycleAdmit => recycleBound c + 1
  | .recycleLock _ => recycleBound c
  | .recycleHead _ => 5 * c.nTx + 9
  | .recycleNtc _ _ => 5 * c.nTx + 8
  | .recycleDone _ h idx => 5 * turnsToHead c.nTx h idx + 7
  | .recycleSlot _ h idx => 5 * turnsToHead c.nTx h (nextIndex c.nTx idx) + 11
  | .irqAdmit | .pollEnd _ _ => 4
  | .pollAdmit budget => pollBound c budget 0 + 2
  | .pollTail budget => pollBound c budget 0 + 1
  | .pollDone budget _ work => pollBound c budget work
  | .pollLength budget _ work => pollBound c budget (work + 1) + 12
  | .pollAlloc budget _ work _ => pollBound c budget (work + 1) + 11
  | .pollMap budget _ work _ _ => pollBound c budget (work + 1) + 10
  | .pollTake budget _ work _ _ _ => pollBound c budget (work + 1) + 9
  | .pollNext budget _ work => pollBound c budget (work + 1) + 1

/-- A command in flight makes at most so many primitives to its answer. -/
def Task.bound (c : Cfg) (t : Task) : Nat := t.todo.length + t.point.bound c

theorem Point.bound_pos (c : Cfg) (p : Point) : 0 < p.bound c := by
  cases p <;> simp [Point.bound, releaseBound, recycleBound, pollBound]

@[simp] theorem bound_mk (c : Cfg) (ps : List Prim) (p : Point) : Task.bound c ⟨ps, p⟩ = ps.length + p.bound c := rfl

@[simp] theorem bound_goto (c : Cfg) (p : Point) : (Task.goto p).bound c = p.bound c := Nat.zero_add _

@[simp] theorem bound_answer (c : Cfg) (r : Response) : (Task.answer r).bound c = 1 := rfl

@[simp] theorem bound_unlockAnswer (c : Cfg) (r : Response) : (Task.unlockAnswer r).bound c = 2 := rfl

theorem bound_recycleThen_le (c : Cfg) (pre : List Prim) (err : Option Word) (caller : Caller) :
    (recycleThen pre err caller).bound c ≤ pre.length + 5 := by
  cases caller <;> simp [recycleThen, Point.bound]

/-- One more frame handed over is one turn of POLL's loop less. -/
theorem pollBound_succ {budget work : Word} (hw : work.toNat < budget.toNat) (c : Cfg) :
    pollBound c budget (work + 1) + 13 = pollBound c budget work := by
  have hb := budget.isLt
  have hsucc : (work + 1).toNat = work.toNat + 1 := by
    rw [BitVec.toNat_add]
    exact Nat.mod_eq_of_lt (by simp; omega)
  unfold pollBound
  rw [hsucc]
  omega

/-! ### What a command must find in order not to wait -/

/-- From such a point on nothing but a TX lock that is held makes the command wait, and RECYCLE's loop has a head in its ring
to stop at. STOP up to its wait for a poll, and DETACH, are short enough to be followed by hand (`stop_answers`,
`detach_answers`). -/
def Point.Clear (s : State) : Point → Prop
  | .stopAdmit | .stopWait | .detachAdmit => False
  | .stopLock _ => s.lockAwaited = false
  | .recycleNtc _ h | .recycleDone _ h _ | .recycleSlot _ h _ => h.toNat < s.cfg.nTx
  | _ => True

theorem Kept.clear (hk : Kept s s') (hp : p.Clear s) : p.Clear s' := by
  cases p with
  | stopLock => exact (congrArg (List.any · _) hk.tasks).trans hp
  | recycleNtc | recycleDone | recycleSlot => exact lt_of_lt_of_eq hp (congrArg Cfg.nTx hk.cfg.symm)
  | _ => exact hp

/-- A task that a point `p` leads to in `s`: it stands at a clear point too, nearer to the answer. -/
structure Task.Nearer (p : Point) (s : State) (t : Task) : Prop where
  clear : t.point.Clear s
  bound : t.bound s.cfg < p.bound s.cfg

theorem nearer_recycleThen {pre : List Prim} (hp : pre.length + 5 < p.bound s.cfg) (err : Option Word) (c : Caller) :
    (recycleThen pre err c).Nearer p s :=
  ⟨by cases c <;> trivial, (bound_recycleThen_le ..).trans_lt hp⟩

theorem Point.onError_clear (hp : p.Clear s) (off : Word) : (p.onError off).point.Clear s := by
  cases p with
  | stopLock => exact hp
  | _ => trivial

theorem Point.onError_bound_le (c : Cfg) (p : Point) (off : Word) : (p.onError off).bound c ≤ p.bound c := by
  cases p with
  | stopLock | submitEnd => simp [Point.onError, Point.bound]
  | pollNext =>
    simp only [Point.onError, Point.bound, bound_goto, pollBound, recycleBound]
    omega
  | _ => exact Point.bound_pos c _

/-- A clear point leads to a clear one, nearer to the answer. -/
theorem Point.step_nearer (hp : p.Clear s) : (p.step s).Leads (fun t _ => t.Nearer p s) := by
  cases p with
  | respond => trivial
  | stopAdmit | stopWait | detachAdmit => exact hp.elim
  | read32 | resetCtrl | resetManc | pollTail =>
    simp only [Point.step, stepRead32, stepResetCtrl, stepResetManc, stepPollTail]
    refine leads_readThen ⟨trivial, ?_⟩ (fun v s' _ => ⟨trivial, ?_⟩) <;>
      simp [Task.raise, Point.bound, writeViaIoPort, pollBound, recycleBound, ← Nat.add_assoc]
  | irqRead =>
    simp only [Point.step, stepIrqRead]
    refine leads_readThen ⟨trivial, by simp [Task.raise, Point.bound]⟩ (fun v s' _ => ?_)
    split <;> exact ⟨trivial, by simp [Point.bound]⟩
  | recycleHead c =>
    have hfail : (recycleThen [] (some s.cfg.regTdh) c).Nearer (.recycleHead c) s :=
      nearer_recycleThen (by simp [Point.bound]) _ c
    simp only [Point.step, stepRecycleHead]
    refine leads_readThen hfail (fun h s' _ => ?_)
    split
    · rename_i hh
      exact ⟨hh, by simp [Point.bound]⟩
    · exact hfail
  | resetAdmit | configureAdmit | startAdmit | recycleAdmit | irqAdmit =>
    refine leads_whenAdmitted ⟨trivial, ?_⟩ ⟨trivial, ?_⟩ <;>
      simp [quiesce, configureRx, configureTx, recycleBody, Point.bound, recycleBound]
  | submitLock | recycleLock => exact leads_lockThen (fun _ => ⟨trivial, by simp [Point.bound, recycleBound]⟩)
  | stopLock => exact leads_stopLock (fun _ => ⟨trivial, by simp [Point.bound]⟩)
  | ringAdmit a b =>
    simp only [Point.step, stepRingAdmit]
    split_ifs
    · exact ⟨trivial, by simp [Point.bound, ringInitTx_length]; omega⟩
    · exact ⟨trivial, by simp [Point.bound]⟩
    · exact ⟨trivial, by simp [Point.bound]⟩
  | ringAlloc i =>
    simp only [Point.step, stepRingAlloc]
    split
    · split <;> exact ⟨trivial, by simp [Point.bound]; omega⟩
    · exact ⟨trivial, by simp [Point.bound]⟩
  | ringUndo | stopTx | stopRx =>
    simp only [Point.step, stepRingUndo, stepStopTx, stepStopRx]
    split
    · split <;> exact ⟨trivial, by simp [Point.bound]; omega⟩
    · exact ⟨trivial, by simp [Point.bound]⟩
  | submitSlot buf t m =>
    have hlength := reclaimInPlace_length t (slotAt s.txSlots t)
    exact ⟨trivial, by simp [Point.bound, txdWrites]; omega⟩
  | recycleNtc c h =>
    have hle := turnsToHead_le hp s.txNtc
    exact ⟨hp, by simp [Point.bound]; omega⟩
  | recycleDone c h idx =>
    simp only [Point.step, stepRecycleDone]
    split
    · rename_i hgo
      have hne : idx ≠ h := by simpa using (Bool.and_eq_true_iff.mp hgo).2
      have hlt := turnsToHead_nextIndex_lt hp hne
      exact ⟨hp, by simp [Point.bound]; omega⟩
    · exact nearer_recycleThen (by simp [Point.bound]) none c
  | recycleSlot =>
    simp only [Point.step, stepRecycleSlot]
    split
    · exact ⟨hp, by simp [Point.bound]; omega⟩
    · exact ⟨hp, by simp [Point.bound]⟩
  | pollDone budget next work =>
    simp only [Point.step, stepPollDone]
    split
    · rename_i hgo
      have hwork : work.toNat < budget.toNat := by simpa using (Bool.and_eq_true_iff.mp hgo).1
      have hturn := pollBound_succ hwork s.cfg
      exact ⟨trivial, by simp only [Point.bound, bound_goto]; omega⟩
    · exact ⟨trivial, by simp [Point.bound, recycleBody, pollBound]⟩
  | pollTake budget next work len m2 b2 =>
    simp only [Point.step, stepPollTake]
    cases slotAt s.rxSlots next <;> exact ⟨trivial, by simp [Point.bound, handOver]; omega⟩
  | _ =>
    simp only [Point.step, stepRingMap, stepResetSettle, stepResetSettled, stepStopRings, stepSubmitAdmit, stepSubmitRecheck,
      stepSubmitTail, stepSubmitDone, stepSubmitPad, stepSubmitMap, stepSubmitEnd, stepIrqRequest, stepPollAdmit,
      stepPollLength, stepPollAlloc, stepPollMap, stepPollNext, stepPollEnd, stepReadStats]
    repeat' split
    all_goals refine ⟨trivial, ?_⟩
    all_goals simp [Point.bound, rxdArm, pollBound, releaseBound]
    all_goals omega

/-- A command that comes to its answer undisturbed: it stands at a clear point and holds the TX lock exactly when it is
held. -/
structure Task.Unhindered (t : Task) (s : State) : Prop where
  clear : t.point.Clear s
  lock : t.LockAt s.txLock

/-- One primitive leaves an unhindered command unhindered, and nearer to its answer. -/
theorem Task.Unhindered.step (h : t.Unhindered s) (e : t.step s = .more t' s') :
    t'.Unhindered s' ∧ t'.bound s'.cfg < t.bound s.cfg := by
  obtain ⟨hclear, hshape, hholds⟩ := h
  have hk := Task.step_kept e
  have hdetach : t.point ≠ .detachAdmit := fun hd => by simp [hd, Point.Clear] at hclear
  obtain ⟨hshape', hmove⟩ := Task.step_lock hdetach hshape e
  have hlock : t'.LockAt s'.txLock := by
    refine ⟨hshape', ?_⟩
    cases hmove with
    | keeps hold lock => rw [hold, lock, hholds]
    | takes _ after _ held => rw [after, held]
    | gives _ after free => rw [after, free]
  have hnear : t'.point.Clear s ∧ t'.bound s.cfg < t.bound s.cfg := by
    cases Task.step_cases e with
    | @point p _ _ e =>
      obtain ⟨hc, hb⟩ := (Point.step_nearer hclear).of_more e
      exact ⟨hc, hb.trans_eq (Nat.zero_add _).symm⟩
    | prim => exact ⟨hclear, by simp⟩
    | @failed q qs p off =>
      have hle := p.onError_bound_le s.cfg off
      exact ⟨Point.onError_clear hclear off, by simp; omega⟩
  obtain ⟨hclear', hbound⟩ := hnear
  exact ⟨⟨hk.clear hclear', hlock⟩, by rwa [hk.cfg]⟩

theorem readThen_ne_wait (off : Word) (f : Task) (g : Word → Task) (s : State) : readThen off f g s ≠ .wait := by
  unfold readThen
  split <;> exact Progress.noConfusion

theorem whenAdmitted_ne_wait (b : Bool) (go : Task) (s : State) : whenAdmitted b go s ≠ .wait := by
  unfold whenAdmitted
  split <;> exact Progress.noConfusion

/-- A clear point waits for nothing but the TX lock (10_state R33). -/
theorem Point.step_ne_wait (hp : p.Clear s) (hfree : p.takesLock = true → s.txLock = false) : p.step s ≠ .wait := by
  cases p with
  | respond => exact Progress.noConfusion
  | stopAdmit | stopWait | detachAdmit => exact hp.elim
  | stopLock =>
    have hawait : s.lockAwaited = false := hp
    simp [Point.step, stepStopLock, lockThen, hawait, hfree rfl]
  | submitLock | recycleLock => simp [Point.step, stepSubmitLock, stepRecycleLock, lockThen, hfree rfl]
  | read32 | resetCtrl | resetManc | recycleHead | irqRead | pollTail =>
    simp only [Point.step, stepRead32, stepResetCtrl, stepResetManc, stepRecycleHead, stepIrqRead, stepPollTail]
    exact readThen_ne_wait _ _ _ _
  | resetAdmit | configureAdmit | startAdmit | recycleAdmit | irqAdmit => exact whenAdmitted_ne_wait _ _ _
  | _ =>
    simp only [Point.step, stepRingAdmit, stepRingAlloc, stepRingMap, stepRingUndo, stepResetSettle, stepResetSettled,
      stepStopRings, stepStopTx, stepStopRx, stepSubmitAdmit, stepSubmitRecheck, stepSubmitTail, stepSubmitDone,
      stepSubmitPad, stepSubmitMap, stepSubmitSlot, stepSubmitEnd, stepRecycleNtc, stepRecycleDone, stepRecycleSlot,
      stepIrqRequest, stepPollAdmit, stepPollDone, stepPollLength, stepPollAlloc, stepPollMap, stepPollTake, stepPollNext,
      stepPollEnd, stepReadStats]
    repeat' split
    all_goals exact Progress.noConfusion

/-- A command that comes to `lock(tx)` does not hold the lock yet. -/
theorem Point.locked_of_takesLock (h : p.takesLock = true) : p.locked = false := by
  cases p with
  | stopLock | submitLock | recycleLock => rfl
  | _ => exact absurd h (by simp [Point.takesLock, Point.awaitsLock])

/-- An unhindered command never waits: where it asks for the lock it does not hold it, so the lock is free. -/
theorem Task.Unhindered.step_ne_wait (h : t.Unhindered s) : t.step s ≠ .wait := by
  obtain ⟨todo, p⟩ := t
  obtain ⟨hclear, -, hholds⟩ := h
  cases todo with
  | nil => exact Point.step_ne_wait hclear fun hp => hholds.symm.trans (Point.locked_of_takesLock hp)
  | cons q qs =>
    simp only [Task.step]
    split <;> exact Progress.noConfusion

/-! ### Coming to the answer -/

/-- On its own the command answers once, within `n` primitives, and leaves the TX lock free. -/
def Answers (n : Nat) (t : Task) (s : State) : Prop :=
  ∃ r s', quietRun n t s = some (r, s') ∧ Kept s s' ∧ Unanswered s s' ∧ s'.txLock = false

theorem Answers.mono {m : Nat} (h : Answers n t s) (hn : n ≤ m) : Answers m t s := by
  obtain ⟨r, u, hrun, hu⟩ := h
  exact ⟨r, u, quietRun_mono hrun hn, hu⟩

theorem Answers.of_step (e : t.step s = .more t' s') (h : Answers n t' s') : Answers (n + 1) t s := by
  obtain ⟨r, u, hrun, hk, hu, hfree⟩ := h
  exact ⟨r, u, quietRun_of_step e hrun, (Task.step_kept e).trans hk, (Task.step_unanswered e).trans hu, hfree⟩

/-- Each primitive brings an unhindered command nearer to its answer, so it comes to it. -/
theorem Task.Unhindered.answers (h : t.Unhindered s) (hn : t.bound s.cfg ≤ n) : Answers n t s := by
  induction n generalizing t s with
  | zero => exact absurd (Point.bound_pos s.cfg t.point) (by simp only [Task.bound] at hn; omega)
  | succ n ih =>
    cases e : t.step s with
    | more t' s' =>
      obtain ⟨h', hlt⟩ := h.step e
      exact (ih h' (by omega)).of_step e
    | done r s' =>
      obtain ⟨rfl, rfl⟩ := Task.step_done e
      exact ⟨r, s', rfl, .refl s', .of_eq rfl, lockAt_answer.mp h.lock⟩
    | wait => exact absurd e h.step_ne_wait

/-- A command whose next primitive is its answer. -/
theorem answers_answer (hfree : s.txLock = false) (r : Response) : Answers 1 (Task.answer r) s :=
  Task.Unhindered.answers ⟨trivial, lockAt_answer.mpr hfree⟩ le_rfl

/-! ### Every command -/

/-- The RX frames that the model lets a command hand over (notes/assumptions/15.md). -/
def framesOf : Instr → Nat
  | .poll budget => budget.toNat
  | _ => 0

theorem exec_eq_framesOf (i : Instr) (s : State) : exec i s = .next (runCommand (taskOf s.cfg i) (framesOf i) s) := by
  cases i <;> rfl

theorem taskOf_unhindered {i : Instr} (hstop : i ≠ .stop) (hdetach : i ≠ .detach) (hfree : s.txLock = false) :
    (taskOf s.cfg i).Unhindered s := by
  refine ⟨?_, hfree ▸ taskOf_free s.cfg i⟩
  cases i with
  | stop => exact hstop rfl
  | detach => exact hdetach rfl
  | _ => trivial

/-- Every command has the primitives it needs. -/
theorem taskOf_bound_le (s : State) (i : Instr) : (taskOf s.cfg i).bound s.cfg ≤ s.fuel (framesOf i) := by
  cases i <;>
    simp only [taskOf, read32Task, write32Task, writeFlushTask, writeIoTask, writeViaIoPort, ringInitTask, resetTask,
      configureTask, startTask, stopTask, detachTask, submitTask, recycleTask, irqTask, pollTask, readStatsTask, bound_goto,
      bound_mk, List.length_cons, List.length_nil, Point.bound, releaseBound, pollBound, recycleBound, State.fuel,
      framesOf] <;>
    omega

/-- STOP with no poll in flight and nobody waiting for the lock. -/
theorem stop_answers (hfree : s.txLock = false) (hpoll : s.pollState ≠ .active) (hawait : s.lockAwaited = false) :
    Answers (s.fuel 0) stopTask s := by
  by_cases hfsm : s.fsm = .stopped
  · have hrefused : stopTask.step s = .more (Task.answer (.refuse .illegalState)) s := by
      change stepStopAdmit s = _
      simp [stepStopAdmit, whenAdmitted, hfsm]
    exact ((answers_answer hfree _).of_step hrefused).mono (le_trans (by decide) (s.fuel_ge 0))
  · have hquiesce : Task.Unhindered ⟨quiesce s.cfg ++ [flush s.cfg], .stopLock none⟩ s.halted :=
      ⟨hawait, (lockAt_of_noUnlock (by simp [quiesce, flush])).mpr ⟨hfree.symm, by simp [State.halted, hfree]⟩⟩
    obtain ⟨r, u, hrun, hk, hu, hend⟩ := hquiesce.answers le_rfl
    have hall := (walk_stop hfsm hpoll).quietRun s.sched hrun
    have hbound : Task.bound s.cfg ⟨quiesce s.cfg ++ [flush s.cfg], .stopLock none⟩ + 5 = stopTask.bound s.cfg := by
      simp [stopTask, Point.bound, quiesce]
      omega
    have hhalted : Kept s s.halted := ⟨rfl, rfl, rfl, rfl, rfl, rfl, rfl⟩
    exact ⟨r, u, quietRun_mono hall (hbound.trans_le (taskOf_bound_le s .stop)), hhalted.trans hk, hu, hend⟩

/-- DETACH, in `Stopped` or refused. -/
theorem detach_answers (hfree : s.txLock = false) : Answers 2 detachTask s := by
  have hstep : (∃ r, detachTask.step s = .more (Task.answer r) s.blockReset) ∨
      ∃ r, detachTask.step s = .more (Task.answer r) s := by
    change (∃ r, stepDetachAdmit s = _) ∨ ∃ r, stepDetachAdmit s = _
    unfold stepDetachAdmit
    split
    · exact .inl ⟨_, rfl⟩
    · exact .inr ⟨_, rfl⟩
  rcases hstep with ⟨r, e⟩ | ⟨r, e⟩
  · exact (answers_answer rfl r).of_step e
  · exact (answers_answer hfree r).of_step e

theorem taskOf_answers {i : Instr} (hfree : s.txLock = false) (hpoll : s.pollState ≠ .active)
    (hawait : i = .stop → s.lockAwaited = false) : Answers (s.fuel (framesOf i)) (taskOf s.cfg i) s := by
  by_cases hstop : i = .stop
  · subst hstop
    exact stop_answers hfree hpoll (hawait rfl)
  · by_cases hdetach : i = .detach
    · subst hdetach
      exact (detach_answers hfree).mono (le_trans (by decide) (s.fuel_ge 0))
    · exact (taskOf_unhindered hstop hdetach hfree).answers (taskOf_bound_le s i)

end Sys2Proof.Machine

namespace Sys2Proof
open Sys2Proof.Machine

/-- Settles O55: each primitive brings the command nearer to its answer, which is one of the primitives it is given. -/
theorem oneResponse : Obligations.OneResponse := by
  intro s i hq hfree hpoll hawait
  obtain ⟨r, u, hrun, hk, ⟨es, htrace, hes⟩, hend⟩ := taskOf_answers (s := s.takeCtx) hfree hpoll hawait
  have hexec := (exec_eq_framesOf i s).trans (congrArg _ (runCommand_of_quietRun hq hrun le_rfl))
  exact ⟨_, es, r, hexec, congrArg (· ++ [Event.response s.nextCtx r]) htrace, hes, hk.nextCtx, hk.tasks, hend⟩

end Sys2Proof
end
